-- ==== Sys2Proof/Word.lean ====
section
/-! DEFINITION. The word types of the model and their plainest arithmetic (R6, R10). -/

namespace Sys2Proof

/-- A 64-bit register value or vector container (R10). -/
abbrev Word := BitVec 64

/-- A 32-bit instruction word (R43). -/
abbrev IWord := BitVec 32

/-- One byte of memory (R6). -/
abbrev Byte := BitVec 8

/-- The number of an `x` register (R10). -/
abbrev Reg := BitVec 5

/-- The number of a `v` register, or 48 for the landing and 49 for the receive queue (R51). -/
abbrev VReg := BitVec 6

/-- A 64-bit value with the poison bit that travels with it (R11). -/
structure PVal where
  val : Word
  poison : Bool
  deriving DecidableEq, Repr

/-- The unpoisoned value of a word. -/
abbrev PVal.clean (w : Word) : PVal := { val := w, poison := false }

/-- What a poisoned write leaves: data bits zero and the poison bit set (R42, R68). -/
abbrev PVal.poisoned : PVal := { val := 0, poison := true }

end Sys2Proof
end

