-- ==== Sys2Proof/Config.lean ====
section
/-! DEFINITION. What the part fixes (R3 to R5, R20) and the free values: constants without a body for everything the
spec leaves open while the machine goes on. Each free value is named in an assumption log entry. -/

namespace Sys2Proof.Config

/-- `RING_CORES` (R4). -/
abbrev ringCores : Nat := 8
/-- `HART_SLOTS` (R4): slots 0 to 3 hold vector harts and slots 4 to 7 scalar harts. -/
abbrev hartSlots : Nat := 8
/-- `VREG_ELEMS` (R4). -/
abbrev vregElems : Nat := 128
/-- `VQ_ENTRIES` of one core (R4). -/
abbrev vqEntries : Nat := 32
/-- `COPIES_IN_FLIGHT` of one core (R4). -/
abbrev copiesInFlight : Nat := 32
/-- `MERGE_STREAMS` (R4). -/
abbrev mergeStreams : Nat := 16
/-- `HANDLERS` of one core (R4). -/
abbrev handlers : Nat := 256
/-- `FABRIC_SLICES` (R4). -/
abbrev fabricSlices : Nat := 36
/-- `FABRIC_CHANNELS` (R4). -/
abbrev fabricChannels : Nat := 64
/-- Rings of one compute die (R5, the DN-4816 value). -/
abbrev ringsPerDie : Nat := 16
/-- Compute dies of one package (R5, the DN-4816 value). -/
abbrev diesPerPackage : Nat := 4
/-- Contexts resident on one die, `CFGDIE.CTXRES` (R20). -/
abbrev residentContexts : Nat := 8
/-- Bytes of one tightly coupled memory (R4). -/
abbrev tcmBytes : Nat := 131072
/-- Bytes of one ring scratchpad (R5). -/
abbrev scratchBytes : Nat := 4194304
/-- Bytes of one die store (R5). -/
abbrev dieStoreBytes : Nat := 33554432
/-- Entries of a context's vector translation table (R4). -/
abbrev vttEntries : Nat := 16384
/-- Bytes of the lease unit, 1 GiB (R4). -/
abbrev leaseUnit : Nat := 1073741824
/-- `CFGMEM.RECLGIB` (R20): the least reclaim window per GiB, in units of 1,024 ticks. -/
abbrev reclGib : Nat := 2048

/-- Free value: the choice among what may happen next, of which the spec fixes no order (R2, R181). The argument is the
counter `State.free`. (DESIGN CHOICE: log entry 1, DEDUCED: log entry 64) -/
opaque pick : Nat → Nat

/-- Free value: the ticks that pass before a step (R1: the spec states no times). (DESIGN CHOICE: log entry 3) -/
opaque ticks : Nat → Nat

/-- Free value: whether a die reuses a translation it still holds or walks again (R283 allows both). Arguments: the
counter, the virtual address. (DESIGN CHOICE: log entry 33) -/
opaque reuse : Nat → Nat → Bool

/-- Free value: by which entry of a contiguous run or of a 1 GiB group an access translates (R281, R284 allow any of the
run, and the entry itself or the first of the group). Arguments: the counter, the virtual address. (DESIGN CHOICE: log entry 34) -/
opaque runEntry : Nat → Nat → Nat

/-- Free value: whether an L1 set has room for a version (R213; the sets are the implementation's). (DESIGN CHOICE: log entry 36) -/
opaque versionRoom : Nat → Nat → Bool

/-- Free value: a byte of host memory as a copy reads it (R313): the host's memory is no part of the machine. Arguments: the
counter, port, address. (DESIGN CHOICE: log entry 59) -/
opaque hostByte : Nat → Nat → Nat → Byte

/-- Free value: whether a host answers an access of a copy with an error or not at all (R313). Arguments: the counter, port,
address. (DESIGN CHOICE: log entry 59) -/
opaque hostFails : Nat → Nat → Nat → Bool

/-- Free value: one open word, drawn by the counter `State.free`, where the spec states an effect but not its value. -/
opaque freeWord : Nat → Word

/-- Free value: the container that an inactive container of a `vsel` source 49 stands for, which no word is popped for (R93). Argument:
the container, and 128 more for its poison. (DESIGN CHOICE: log entry 26) -/
opaque unpopped : Nat → Word

/-- Free value: `CFGIMPL.FOUNDRY`, 0 or 1 (R20 states both). (DESIGN CHOICE: log entry 19) -/
opaque foundry : BitVec 1

/-- Free value: `CFGIMPL.STEP` ("per part", R20). (DESIGN CHOICE: log entry 19) -/
opaque stepping : BitVec 8

/-- Free value: the body of a firmware or microcode image (R319: the spec gives an image no layout). (PRESUMED: log entry 81) -/
opaque imageBody : List Byte → List Byte

/-- Free value: the digest that an image carries (R319). (PRESUMED: log entry 81) -/
opaque imageDigest : List Byte → List Byte

/-- Free value: the signature that an image carries (R319). (PRESUMED: log entry 81) -/
opaque imageSignature : List Byte → List Byte

/-- Free value: the key that an image is signed with (R319). (PRESUMED: log entry 81) -/
opaque imageKey : List Byte → List Byte

/-- Free value: the rollback number that an image carries (R319). (PRESUMED: log entry 81) -/
opaque imageRollback : List Byte → Nat

/-- Free value: the key digest that is fused into the part (R319). (PRESUMED: log entry 81) -/
opaque keyDigest : List Byte

/-- Free value: the rollback counter that a running firmware image asks for (R319). -/
opaque rollbackAsked : List Byte → Nat

/-- Free value: the microcode images that the part holds, for copy engine, merge network, gather engine, dispatcher and lease
agent (R318 step 4, R320). (PRESUMED: log entry 81) -/
opaque microcode : Nat → List Byte

/-- Free value: the public identity key of a package (R320). (PRESUMED: log entry 81) -/
opaque publicKey : Nat → List Byte

/-- Free value: the signature of a byte string under the key of a package (R320). (PRESUMED: log entry 81) -/
opaque signature : Nat → List Byte → List Byte

/-- Free value: the certificate chain of a package (R321 gives no contents). (PRESUMED: log entry 81) -/
opaque certificateChain : Nat → List Byte

end Sys2Proof.Config
end

