-- ==== Sys2Proof/Syntax.lean ====
section
/-! DEFINITION. The instruction set as syntax: the ONE inductive `Instr` has a constructor for every row of the table of
operations and events. Scalar words and vector members carry their operand fields; the events of the part carry what
happens to the machine from outside, or the unit that takes the step. -/

namespace Sys2Proof

/-- The element types (R26). -/
inductive Ty where
  | s8 | n8 | s16 | n16 | s32 | n32 | s64 | n64 | f64 | f32 | bf16 | f16 | e4m3 | e5m2 | e2m1
  deriving DecidableEq, Repr

/-- The rounding modes (R32). `dyn` is field value 7 and selects `FSTAT.RM`. -/
inductive Rm where
  | rne | rtz | rdn | rup | stoch | dyn
  deriving DecidableEq, Repr

/-- The scopes (R46): hart, core, ring, die, package, system. -/
inductive Scope where
  | h | c | g | d | p | s
  deriving DecidableEq, Repr

/-- The order field of an atomic (R46). -/
inductive AmoOrder where
  | relaxed | aq | rl | ar
  deriving DecidableEq, Repr

/-- The direction of a fence (R46). -/
inductive FenceDir where
  | sv | vs | vv | all
  deriving DecidableEq, Repr

/-- The width of an atomic, `.w` or `.d` (R78). -/
inductive AmoWidth where
  | w | d
  deriving DecidableEq, Repr

/-- The predicate of `fcmp` (R81). -/
inductive FPred where
  | eq | lt | le | unord
  deriving DecidableEq, Repr

/-- The operators of a reduction register (R47). -/
inductive RedOp where
  | addF64 | minF64 | maxF64 | addF32 | minF32 | maxF32
  | addS64 | minS64 | maxS64 | minN64 | maxN64 | and | or | xor
  deriving DecidableEq, Repr

/-- The fields of a vector instruction beside its unit and operation (R50). -/
structure VOp where
  vd : VReg
  vs1 : VReg
  vs2 : VReg
  vs3 : VReg
  mask : BitVec 4
  ty : Ty
  z : Bool
  rm : Rm
  x : Reg
  low : BitVec 15
  deriving DecidableEq, Repr

/-- What an on-chip storage error strikes, one constructor for each kind of storage of R274. Memory sectors and lines are
numbered within the package of the die whose storage held them. -/
inductive SramSite where
  /-- an instruction cache line or a clean L1 data line -/
  | cleanCopy (die : Nat)
  /-- cached translations, a context descriptor or a vector translation table -/
  | cachedTables (die ctx : Nat)
  /-- a dirty or owned L1 data line, or an L2 sector -/
  | sector (die sector : Nat)
  /-- an 8-byte word of a chunk's version -/
  | version (ring chunk word : Nat)
  /-- a word of a TCM, a ring scratchpad or a die store -/
  | localWord (loc : Nat)
  | laneWord (hart word : Nat)
  | xRegister (hart : Nat) (r : Reg)
  | container (hart : Nat) (r : VReg) (elem : Nat)
  | captured (hart pos : Nat)
  | pendingValue (hart pos elem : Nat)
  | accumulator (core elem : Nat)
  | landing (core elem : Nat)
  | outgoing (core elem : Nat)
  /-- any other state of a hart -/
  | hartState (hart : Nat)
  /-- state shared by a ring -/
  | ringShared (ring : Nat)
  /-- coherence tokens or the tag of a line -/
  | lineTokens (die line : Nat)
  deriving DecidableEq, Repr

/-- How a header slice of a received packet differs from what was sent (R328 to R330): the slice and its xor. -/
abbrev SliceErrors := List (Nat × Nat)

/-- What training and self-test find at a package reset (R314, R318 step 3): the units that are fused off, the cores with a
failed lane half, and the fabric slices that trained. Cores, dies, edge dies and Attic sites are numbered within the
package; so are the L2 slices, 32 of each die, and the special-function units, two of each ring. -/
structure BootFindings where
  fusedCores : List Nat
  halfLaneCores : List Nat
  fusedDies : List Nat
  fusedSites : List Nat
  fusedEdges : List Nat
  liveSlices : List Nat
  fusedSlices : List Nat
  fusedSfus : List Nat
  deriving DecidableEq, Repr, Inhabited

/-- A host port of a package (R309). -/
structure HostPort where
  pkg : Nat
  port : Nat
  deriving DecidableEq, Repr

/-- The instructions and events of the part, one constructor for each row of the table. (DESIGN CHOICE: log entry 107) -/
inductive Instr where
  -- integer register-register (R70, R71)
  | add (d a b : Reg)
  | sub (d a b : Reg)
  | and (d a b : Reg)
  | or (d a b : Reg)
  | xor (d a b : Reg)
  | sll (d a b : Reg)
  | srl (d a b : Reg)
  | sra (d a b : Reg)
  | slt (d a b : Reg)
  | sltu (d a b : Reg)
  | mul (d a b : Reg)
  | mulh (d a b : Reg)
  | mulhu (d a b : Reg)
  | div (d a b : Reg)
  | divu (d a b : Reg)
  | rem (d a b : Reg)
  | remu (d a b : Reg)
  | min (d a b : Reg)
  | max (d a b : Reg)
  | minu (d a b : Reg)
  | maxu (d a b : Reg)
  -- bit counts (R70)
  | clz (d a : Reg)
  | ctz (d a : Reg)
  | popc (d a : Reg)
  -- immediates (R72)
  | addi (d a : Reg) (imm : BitVec 16)
  | andi (d a : Reg) (imm : BitVec 16)
  | ori (d a : Reg) (imm : BitVec 16)
  | xori (d a : Reg) (imm : BitVec 16)
  | slti (d a : Reg) (imm : BitVec 16)
  | slli (d a : Reg) (sh : BitVec 6)
  | srli (d a : Reg) (sh : BitVec 6)
  | srai (d a : Reg) (sh : BitVec 6)
  | lui (d : Reg) (imm : BitVec 21)
  | auipc (d : Reg) (imm : BitVec 21)
  -- loads and stores (R75)
  | lb (d a : Reg) (imm : BitVec 13)
  | lh (d a : Reg) (imm : BitVec 13)
  | lw (d a : Reg) (imm : BitVec 13)
  | ld (d a : Reg) (imm : BitVec 13)
  | lbu (d a : Reg) (imm : BitVec 13)
  | lhu (d a : Reg) (imm : BitVec 13)
  | lwu (d a : Reg) (imm : BitVec 13)
  | sb (s a : Reg) (imm : BitVec 13)
  | sh (s a : Reg) (imm : BitVec 13)
  | sw (s a : Reg) (imm : BitVec 13)
  | sd (s a : Reg) (imm : BitVec 13)
  -- atomics (R78)
  | ldaq (d a : Reg) (scope : Scope) (width : AmoWidth)
  | strl (a b : Reg) (scope : Scope) (width : AmoWidth)
  | amoswap (d a b : Reg) (order : AmoOrder) (scope : Scope) (width : AmoWidth)
  | amoadd (d a b : Reg) (order : AmoOrder) (scope : Scope) (width : AmoWidth)
  | amoand (d a b : Reg) (order : AmoOrder) (scope : Scope) (width : AmoWidth)
  | amoor (d a b : Reg) (order : AmoOrder) (scope : Scope) (width : AmoWidth)
  | amoxor (d a b : Reg) (order : AmoOrder) (scope : Scope) (width : AmoWidth)
  | amomin (d a b : Reg) (order : AmoOrder) (scope : Scope) (width : AmoWidth)
  | amomax (d a b : Reg) (order : AmoOrder) (scope : Scope) (width : AmoWidth)
  | cas (d a b : Reg) (order : AmoOrder) (scope : Scope) (width : AmoWidth)
  -- branches and jumps (R73, R74)
  | beq (a b : Reg) (imm : BitVec 13)
  | bne (a b : Reg) (imm : BitVec 13)
  | blt (a b : Reg) (imm : BitVec 13)
  | bge (a b : Reg) (imm : BitVec 13)
  | bltu (a b : Reg) (imm : BitVec 13)
  | bgeu (a b : Reg) (imm : BitVec 13)
  | jal (d : Reg) (imm : BitVec 21)
  | jalr (d a : Reg) (imm : BitVec 16)
  -- scalar floating point (R80 to R82)
  | fadd (d a b : Reg) (rm : Rm) (ty : Ty)
  | fsub (d a b : Reg) (rm : Rm) (ty : Ty)
  | fmul (d a b : Reg) (rm : Rm) (ty : Ty)
  | ffma (d a b : Reg) (rm : Rm) (ty : Ty)
  | fdiv (d a b : Reg) (rm : Rm) (ty : Ty)
  | fsqrt (d a : Reg) (rm : Rm) (ty : Ty)
  | fcmp (d a b : Reg) (pred : FPred) (ty : Ty)
  | fcvt (d a : Reg) (src : Ty) (rm : Rm) (ty : Ty)
  -- system registers (R48, R13); the last three are the writes whose registers have rows of their own (R19, R153, R197)
  | sysr (d : Reg) (num : BitVec 16)
  | sysw (a : Reg) (num : BitVec 16)
  | sysx (d a : Reg) (num : BitVec 16)
  | ctxctlWrite (d a : Reg)
  | corectlWrite (d a : Reg)
  | svbufWrite (d a : Reg) (slot : BitVec 2)
  -- system functions (R84 to R89)
  | vqsave (a : Reg)
  | vqload (a : Reg)
  -- fence and full/empty (R182, R167)
  | fence (dir : FenceDir) (scope : Scope)
  | ldfeKeep (d a : Reg) (imm : BitVec 13)
  | ldfeClr (d a : Reg) (imm : BitVec 13)
  | stfe (s a : Reg) (imm : BitVec 13)
  -- messages (R228 to R237)
  | send (a b : Reg) (scope : Scope) (flits : BitVec 3)
  | recv (d : Reg)
  | htset (a b : Reg)
  -- forks (R200 to R203)
  | forkS (a b : Reg) (imm : BitVec 13)
  | forkD (a b : Reg) (imm : BitVec 13)
  | fdeclCarry (r : Reg)
  | fdeclIndImm (r : Reg) (imm : BitVec 13)
  | fdeclIndReg (r s : Reg)
  | fdeclRed (r : Reg) (op : RedOp)
  | fdeclVlive (v : VReg)
  -- engines (R169, R176, R247, R256)
  | cpy (a : Reg)
  | barinit (a b : Reg)
  | bararv (a b : Reg)
  | barwt (a b : Reg)
  | mgkick (a : Reg)
  | mgstat (d : Reg)
  -- solver (R199)
  | svbegin (a b : Reg) (slot : BitVec 2)
  | svwarm (a : Reg) (slot : BitVec 2)
  | svchk (d a b : Reg) (slot : BitVec 2)
  | svend (a : Reg) (slot : BitVec 2)
  -- leases (R344 to R363)
  | lreq (d a : Reg)
  | lgrant (a b : Reg)
  | lreclaim (a : Reg)
  | ldone (a : Reg)
  | lrelease (a : Reg)
  -- die (R287, R288, R294, R317)
  | tlbinv (a b : Reg)
  | pgmig (a b : Reg)
  | odrain (d a : Reg)
  | launch (a : Reg)
  -- hints (R55, R90)
  | pref (a : Reg) (imm : BitVec 13)
  | resid (a : Reg) (imm : BitVec 13)
  | hintNoOp (word : BitVec 26)
  -- a word that names no instruction (R54)
  | undefinedWord (word : IWord)
  -- a convoy header (R49), and the two steps of a checked convoy (R155, R157), which name the hart
  | convoy (count : BitVec 3) (units : BitVec 18) (rsv : BitVec 4) (db : Bool)
  | convoyCommit (hart : Nat)
  | convoyStart (hart : Nat)
  -- the members of convoys (R53)
  | vld (o : VOp)
  | vlds (o : VOp)
  | vldx (o : VOp)
  | vldt (o : VOp)
  | vldp (o : VOp)
  | vst (o : VOp)
  | vsts (o : VOp)
  | vstx (o : VOp)
  | vstt (o : VOp)
  | vadd (o : VOp)
  | vsub (o : VOp)
  | vmin (o : VOp)
  | vmax (o : VOp)
  | vand (o : VOp)
  | vor (o : VOp)
  | vxor (o : VOp)
  | vsll (o : VOp)
  | vsrl (o : VOp)
  | vsra (o : VOp)
  | vabs (o : VOp)
  | vcmp (o : VOp)
  | vsel (o : VOp)
  | vbcast (o : VOp)
  | vmvxs (o : VOp)
  | vmvsx (o : VOp)
  | setvl (o : VOp)
  | vrng (o : VOp)
  | vfadd (o : VOp)
  | vfsub (o : VOp)
  | vfmin (o : VOp)
  | vfmax (o : VOp)
  | vfsgn (o : VOp)
  | vfcmp (o : VOp)
  | vcvt (o : VOp)
  | vcvts (o : VOp)
  | vscalemx (o : VOp)
  | mand (o : VOp)
  | mor (o : VOp)
  | mxor (o : VOp)
  | mandn (o : VOp)
  | mpop (o : VOp)
  | mffs (o : VOp)
  | mmvx (o : VOp)
  | mfromx (o : VOp)
  | vfmul (o : VOp)
  | vfma (o : VOp)
  | vfms (o : VOp)
  | vfnma (o : VOp)
  | vfdiv (o : VOp)
  | vfsqrt (o : VOp)
  | vmul (o : VOp)
  | vmulh (o : VOp)
  | msetml (o : VOp)
  | mend (o : VOp)
  | mzero (o : VOp)
  | mxacc (o : VOp)
  | mxdec (o : VOp)
  | mxin (o : VOp)
  | mxout (o : VOp)
  | mlu (o : VOp)
  | mtrs (o : VOp)
  | rpass (o : VOp)
  | vsfu (o : VOp)
  | vslup (o : VOp)
  | vsldn (o : VOp)
  | vgathr (o : VOp)
  | vcompr (o : VOp)
  | vexpnd (o : VOp)
  | vrev (o : VOp)
  | vred (o : VOp)
  | vfred (o : VOp)
  | vscan (o : VOp)
  | vfscan (o : VOp)
  | setvlf (o : VOp)
  -- events of a hart (R86, R138, R144, R147, R24)
  | eventEntry (hart : Nat)
  | watchdog (hart : Nat)
  | retirement (hart : Nat)
  | stalledWfeEnd (hart : Nat)
  | stoppedHartSlotFree (hart : Nat)
  -- events of a ring: special-function unit, operand ring, chunks (R239, R193, R207 to R216)
  | sfuReturn (ring unit : Nat)
  | fragmentDelivery (core : Nat)
  | chunkCreate (ring : Nat)
  | chunkStart (ring chunk : Nat)
  | carriedValueDelivery (ring chunk : Nat)
  | chunkCommit (ring : Nat)
  -- events of the message ring (R223 to R242)
  | flitHop (ring dir pos : Nat)
  | packetReinject (ring dir pos : Nat)
  | messageResolution (ring pos : Nat)
  | messageHartStart (core : Nat)
  | receiveQueueAppend (core : Nat)
  | ringstall (ring : Nat)
  | dieNetworkTransfer (ring : Nat)
  -- events of the copy engine (R169 to R174): the core and the copy
  | copyDescriptorRead (core copy : Nat)
  | copyTransfer (core copy : Nat)
  | barrierAddition (core copy : Nat)
  | completionRecord (core copy : Nat)
  -- events of the merge network (R248 to R254)
  | mergeCommandStart (ring : Nat)
  | mergeRun (ring : Nat)
  | mergeMailbox (ring : Nat)
  -- events of the caches and memories (R268 to R274)
  | eviction (core line : Nat)
  | patrolScrub (pkg sector : Nat)
  -- launches, pre-emption and completion (R293 to R302)
  | dispatch (pkg : Nat)
  | preemption (ring : Nat)
  | restore (pkg : Nat)
  | launchCompletion (pkg launch : Nat)
  -- the fabric (R329 to R342); a transaction number from 2^32 up names the handle of a lease (R361)
  | switchForward (port : Nat) (errors : SliceErrors)
  | fabricPacketReceive (pkg : Nat) (errors : SliceErrors)
  | fabRead (pkg : Nat)
  | fabWrite (pkg : Nat)
  | fabAtomic (pkg : Nat)
  | fabAccept (pkg : Nat)
  | fabUnpin (pkg : Nat)
  | fabMessage (pkg : Nat)
  | fabResponse (pkg : Nat)
  | transitFailure (pkg txn : Nat)
  -- the leasing agents (R351 to R360): the package whose agent receives
  | leaseRequest (pkg : Nat)
  | leaseGrant (pkg : Nat)
  | leaseRefuse (pkg : Nat)
  | leaseCancellation (pkg : Nat)
  | leaseReclaim (pkg : Nat)
  | lodgingFrameMigrate (pkg lease frame : Nat)
  | leaseDone (pkg : Nat)
  | reclaimDeadline (pkg lease : Nat)
  | leaseRevoke (pkg : Nat)
  | leaseReturn (pkg : Nat)
  -- system functions, messages and forks without operands (R24, R84 to R88, R203, R204, R237)
  | ecall
  | ebreak
  | tret
  | wfe
  | yield
  | halt
  | fencei
  | msgret
  | cend
  | exitl
  -- what comes about from outside the machine or of itself in its storage and dies: caches (R268 to R274), Vestibule (R293),
  -- die failure (R315), package reset (R318), BAR 0 (R311), BAR 4 (R312), DOE (R321), temperature and health (R322 to R324)
  | readRequest (core line requester : Nat)
  | writeRequest (core line requester : Nat)
  | persistentRequest (die line core : Nat)
  | sramError (site : SramSite)
  | vestibuleWrite (pkg port offset : Nat) (bytes : List Byte)
  | dieFailure (die : Nat)
  | packageReset (pkg : Nat) (found : BootFindings)
  | pkgreset (pkg value : Nat) (found : BootFindings)
  | ctxtab (pkg value : Nat)
  | hostRegisterWrite (host : HostPort) (offset width value : Nat)
  | hostRegisterRead (host : HostPort) (offset width : Nat)
  | hostLinkReset (pkg port : Nat)
  | hostMemoryRead (host : HostPort) (addr len : Nat)
  | hostMemoryWrite (host : HostPort) (addr : Nat) (bytes : List Byte)
  | doeNonce (pkg : Nat) (nonce : List Byte)
  | doeCertificateChain (pkg : Nat)
  | doeFirmwareImage (pkg : Nat) (image : List Byte)
  | doeOtherObject (pkg type : Nat)
  | thermalThrottle (pkg : Nat)
  | thermalStop (pkg : Nat)
  | healthUpdate (pkg value : Nat)
  deriving DecidableEq, Repr

end Sys2Proof
end

