-- ==== Sys2Proof/Machine/Legal.lean ====
section
/-! DEFINITION. The codes of the types, modes and scopes (R26, R32, R46, R47), and which operand fields each vector
instruction accepts: the tables of R95, R115 and R187 with the general rules of R51 to R54, R93, R103, R116 and R124. -/

namespace Sys2Proof

/-! ### Codes -/

/-- The code of an element type (R26). -/
def Ty.code : Ty → BitVec 4
  | .s8 => 0 | .n8 => 1 | .s16 => 2 | .n16 => 3 | .s32 => 4 | .n32 => 5 | .s64 => 6 | .n64 => 7
  | .f64 => 8 | .f32 => 9 | .bf16 => 10 | .f16 => 11 | .e4m3 => 12 | .e5m2 => 13 | .e2m1 => 14

/-- The element type of a code; 15 is reserved (R26). -/
def Ty.ofCode (c : BitVec 4) : Option Ty :=
  match c.toNat with
  | 0 => some .s8 | 1 => some .n8 | 2 => some .s16 | 3 => some .n16 | 4 => some .s32 | 5 => some .n32
  | 6 => some .s64 | 7 => some .n64 | 8 => some .f64 | 9 => some .f32 | 10 => some .bf16 | 11 => some .f16
  | 12 => some .e4m3 | 13 => some .e5m2 | 14 => some .e2m1 | _ => none

/-- The width of an element in bits (R26). -/
def Ty.width : Ty → Nat
  | .s8 | .n8 | .e4m3 | .e5m2 => 8
  | .s16 | .n16 | .bf16 | .f16 => 16
  | .s32 | .n32 | .f32 => 32
  | .s64 | .n64 | .f64 => 64
  | .e2m1 => 4

/-- P, the elements of one container (R26). -/
def Ty.elems (t : Ty) : Nat := 64 / t.width

/-- A two's complement integer type (R26). -/
def Ty.signed : Ty → Bool
  | .s8 | .s16 | .s32 | .s64 => true
  | _ => false

/-- An integer type, codes 0 to 7 (R26). -/
def Ty.isInt (t : Ty) : Bool := t.code.toNat < 8

/-- A floating-point type of arithmetic, codes 8 to 11 (R46). -/
def Ty.isFp (t : Ty) : Bool := 8 ≤ t.code.toNat && t.code.toNat ≤ 11

/-- Bytes of an element as R117 counts them: 1 for the 8-bit types and for E2M1. -/
def Ty.bytes (t : Ty) : Nat := max 1 (t.width / 8)

/-- The value of a rounding mode (R32). -/
def Rm.code : Rm → BitVec 3
  | .rne => 0 | .rtz => 1 | .rdn => 2 | .rup => 3 | .stoch => 4 | .dyn => 7

/-- The rounding mode of a value; 5 and 6 are reserved (R32). -/
def Rm.ofCode (c : BitVec 3) : Option Rm :=
  match c.toNat with
  | 0 => some .rne | 1 => some .rtz | 2 => some .rdn | 3 => some .rup | 4 => some .stoch | 7 => some .dyn
  | _ => none

/-- The code of a scope (R46). -/
def Scope.code : Scope → BitVec 3
  | .h => 0 | .c => 1 | .g => 2 | .d => 3 | .p => 4 | .s => 5

/-- The scope of a code; 6 and 7 are unlisted (R46). -/
def Scope.ofCode (c : BitVec 3) : Option Scope :=
  match c.toNat with
  | 0 => some .h | 1 => some .c | 2 => some .g | 3 => some .d | 4 => some .p | 5 => some .s
  | _ => none

/-- The code of an order (R46). -/
def AmoOrder.code : AmoOrder → BitVec 2
  | .relaxed => 0 | .aq => 1 | .rl => 2 | .ar => 3

/-- The order of a code (R46). -/
def AmoOrder.ofCode (c : BitVec 2) : AmoOrder :=
  match c.toNat with
  | 0 => .relaxed | 1 => .aq | 2 => .rl | _ => .ar

/-- The code of a fence direction (R46). -/
def FenceDir.code : FenceDir → BitVec 2
  | .sv => 0 | .vs => 1 | .vv => 2 | .all => 3

/-- The fence direction of a code (R46). -/
def FenceDir.ofCode (c : BitVec 2) : FenceDir :=
  match c.toNat with
  | 0 => .sv | 1 => .vs | 2 => .vv | _ => .all

/-- The code of an atomic's width (R78). -/
def AmoWidth.code : AmoWidth → BitVec 2
  | .w => 2 | .d => 3

/-- The width of a code; 0 and 1 trap `ILLEGAL` (R78). -/
def AmoWidth.ofCode (c : BitVec 2) : Option AmoWidth :=
  match c.toNat with
  | 2 => some .w | 3 => some .d | _ => none

/-- The code of a predicate (R81). -/
def FPred.code : FPred → BitVec 3
  | .eq => 0 | .lt => 1 | .le => 2 | .unord => 3

/-- The predicate of a code; 4 to 7 trap `ILLEGAL` (R80). -/
def FPred.ofCode (c : BitVec 3) : Option FPred :=
  match c.toNat with
  | 0 => some .eq | 1 => some .lt | 2 => some .le | 3 => some .unord | _ => none

/-- The code of a reduction operator (R47). -/
def RedOp.code : RedOp → BitVec 4
  | .addF64 => 0 | .minF64 => 1 | .maxF64 => 2 | .addF32 => 3 | .minF32 => 4 | .maxF32 => 5
  | .addS64 => 6 | .minS64 => 7 | .maxS64 => 8 | .minN64 => 9 | .maxN64 => 10 | .and => 11 | .or => 12 | .xor => 13

/-- The reduction operator of a code; 14 and 15 are unlisted (R47). -/
def RedOp.ofCode (c : BitVec 4) : Option RedOp :=
  match c.toNat with
  | 0 => some .addF64 | 1 => some .minF64 | 2 => some .maxF64 | 3 => some .addF32 | 4 => some .minF32
  | 5 => some .maxF32 | 6 => some .addS64 | 7 => some .minS64 | 8 => some .maxS64 | 9 => some .minN64
  | 10 => some .maxN64 | 11 => some .and | 12 => some .or | 13 => some .xor | _ => none

/-! ### Operand kinds (R51) -/

/-- A vector destination, 0 to 47. -/
def vDest (r : VReg) : Bool := r.toNat < 48
/-- A vector source, 0 to 47, the landing (48) or the receive queue (49). -/
def vSrc (r : VReg) : Bool := r.toNat < 50
/-- A vector source that may be neither the landing nor the receive queue (R93, R115). -/
def vPlain (r : VReg) : Bool := r.toNat < 48
/-- A vector source of the matrix unit, which may not be the receive queue (R187). -/
def vSrcNoQueue (r : VReg) : Bool := r.toNat < 49
/-- A mask register, 0 to 11. -/
def mReg (r : VReg) : Bool := r.toNat < 12
/-- An x register, 0 to 31. -/
def xReg (r : VReg) : Bool := r.toNat < 32
/-- An accumulator tile, 0 to 3. -/
def accReg (r : VReg) : Bool := r.toNat < 4
/-- An unused register field. -/
def noReg (r : VReg) : Bool := r == 0

/-- The bits `hi` to `lo` of the low field. -/
def VOp.lowBits (o : VOp) (hi lo : Nat) : Nat := o.low.toNat / 2 ^ lo % 2 ^ (hi + 1 - lo)

/-- The governing mask, `none` when the instruction is unmasked (R50). -/
def VOp.masked (o : VOp) : Option Nat := if o.mask = 15 then none else some o.mask.toNat

/-- Mask select 0 to 11 or 15 (R54). -/
def VOp.maskAny (o : VOp) : Bool := o.mask.toNat < 12 || o.mask == 15
/-- An instruction that must be unmasked. -/
def VOp.mask15 (o : VOp) : Bool := o.mask == 15
/-- `z` where zeroing is offered: not with mask select 15 (R54). -/
def VOp.zOk (o : VOp) : Bool := !(o.z && o.mask == 15)
/-- `z` where zeroing is not offered (R54). -/
def VOp.zNo (o : VOp) : Bool := !o.z
/-- A rounding field that must be 0. -/
def VOp.rm0 (o : VOp) : Bool := o.rm == .rne
/-- A rounding field of an operation that rounds: 0 to 3 or 7. -/
def VOp.rounds (o : VOp) : Bool := o.rm != .stoch
/-- An x field the instruction does not use (R95). -/
def VOp.noX (o : VOp) : Bool := o.x == 0
/-- At most one source field names the receive queue (R93). -/
def VOp.oneQueue (_o : VOp) (fs : List VReg) : Bool := (fs.filter (· == 49)).length ≤ 1

/-- The code of the type. -/
def VOp.tc (o : VOp) : Nat := o.ty.code.toNat

/-- The selector of a B form, bits 14:13 (R52). -/
def VOp.sel (o : VOp) : Nat := o.lowBits 14 13

/-- The second operand of a B form: vs2 when `sel` is 0, the x field when it is 1, an immediate when it is 2 (R52). Fields
that the form does not use are 0. -/
def VOp.bForm (o : VOp) (immOk sat : Bool) : Bool :=
  (match o.sel with
   | 0 => vSrc o.vs2 && o.noX && o.lowBits 11 0 == 0
   | 1 => noReg o.vs2 && o.lowBits 11 0 == 0
   | 2 => immOk && noReg o.vs2 && o.noX
   | _ => false) && (sat || o.lowBits 12 12 == 0) &&
  (o.sel != 0 || o.oneQueue [o.vs1, o.vs2])

/-- The compare layout (R95): condition in bits 11:8, an immediate in bits 7:0, condition 7 and 15 reserved. -/
def VOp.cmpForm (o : VOp) (int : Bool) : Bool :=
  (match o.sel with
   | 0 => vSrc o.vs2 && o.noX && o.lowBits 7 0 == 0 && o.oneQueue [o.vs1, o.vs2]
   | 1 => noReg o.vs2 && o.lowBits 7 0 == 0
   | 2 => int && noReg o.vs2 && o.noX
   | _ => false) && o.lowBits 12 12 == 0 && o.lowBits 10 8 != 7 && !(int && o.lowBits 10 8 == 6)

/-- An integer B instruction of R95. -/
def VOp.intB (o : VOp) (sat : Bool) : Bool :=
  vDest o.vd && vSrc o.vs1 && noReg o.vs3 && o.ty.isInt && o.bForm true sat && o.rm0 && o.zOk && o.maskAny

/-- A floating-point B instruction of R95. -/
def VOp.fpB (o : VOp) (rounding : Bool) : Bool :=
  vDest o.vd && vSrc o.vs1 && noReg o.vs3 && o.ty.isFp && o.bForm false false && (if rounding then o.rounds else o.rm0) &&
  o.zOk && o.maskAny

/-- A one-source instruction with a vector destination. -/
def VOp.unary (o : VOp) (types : Bool) : Bool :=
  vDest o.vd && vSrc o.vs1 && noReg o.vs2 && noReg o.vs3 && types && o.noX && o.zOk && o.maskAny

/-- A fused instruction (R95). -/
def VOp.fused (o : VOp) : Bool :=
  vDest o.vd && vSrc o.vs1 && vSrc o.vs2 && vSrc o.vs3 && o.oneQueue [o.vs1, o.vs2, o.vs3] && o.ty.isFp && o.low == 0 &&
  o.rounds && o.zOk && o.maskAny && o.noX

/-- The source type of a conversion, bits 3:0 (R103). -/
def VOp.srcTy (o : VOp) : Option Ty := Ty.ofCode (o.low.extractLsb' 0 4)

/-- The part of a conversion, bits 11:8 (R103). -/
def VOp.part (o : VOp) : Nat := o.lowBits 11 8

/-- The pair of types a conversion accepts (R103). -/
def cvtPair (dt st : Ty) : Bool :=
  (dt != .e2m1 && st != .e2m1) || (dt == .e2m1 && st.isFp) || (st == .e2m1 && dt.isFp)

/-- A conversion narrows when it goes to a floating-point type narrower than the source (R103). -/
def cvtNarrows (dt st : Ty) : Bool := !dt.isInt && dt.width < st.width

/-- The rules that `vcvt` and `vcvts` share (R95, R103). -/
def VOp.cvtShared (o : VOp) (st : Ty) : Bool :=
  vDest o.vd && vSrc o.vs1 && noReg o.vs3 && cvtPair o.ty st && o.lowBits 7 4 == 0 && o.lowBits 14 13 == 0 &&
  (o.lowBits 12 12 == 0 || o.ty == .e4m3 || o.ty == .e5m2 || (o.ty.isInt && st.isInt)) &&
  (if o.ty == .e2m1 || st == .e2m1 then vPlain o.vs2 else noReg o.vs2) &&
  o.part < max o.ty.elems st.elems / min o.ty.elems st.elems && o.zOk && o.maskAny

/-- `vcvt` (R103). -/
def VOp.cvtOk (o : VOp) : Bool :=
  match o.srcTy with
  | none => false
  | some st => o.cvtShared st && o.noX &&
      (if o.ty.isInt && st.isInt then o.rm0 else if o.rm == .stoch then cvtNarrows o.ty st else true)

/-- `vcvts` (R103): it narrows and its rounding field is 4. -/
def VOp.cvtsOk (o : VOp) : Bool :=
  match o.srcTy with
  | none => false
  | some st => o.cvtShared st && cvtNarrows o.ty st && o.rm == .stoch

/-- An index of a flat element in bits 10:0, below 128·P (R112). -/
def VOp.flatIndexOk (o : VOp) : Bool := o.lowBits 14 11 == 0 && o.lowBits 10 0 < 128 * o.ty.elems

/-- The index type of an indexed form, bits 3:0 (R115). -/
def VOp.indexTy (o : VOp) : Option Ty := Ty.ofCode (o.low.extractLsb' 0 4)

/-- The types of an indexed form (R116): container mode takes index types 6 and 7, element mode 2 to 7 with enough
elements. -/
def VOp.indexedOk (o : VOp) : Bool :=
  o.lowBits 14 6 == 0 &&
  (match o.indexTy with
   | none => false
   | some it =>
     if o.lowBits 4 4 == 1 then it == .s64 || it == .n64
     else 2 ≤ o.tc && o.tc ≤ 11 && 2 ≤ it.code.toNat && it.code.toNat ≤ 7 && o.ty.elems ≤ it.elems)

/-- A table offset in bits 9:0, a multiple of the element's bytes (R115). -/
def VOp.tableOk (o : VOp) : Bool := o.lowBits 14 10 == 0 && o.lowBits 9 0 % (o.ty.width / 8) == 0

/-- A reduction or scan (R115): the segment mask is named when `seg`, bit 3, is set. -/
def VOp.foldOk (o : VOp) : Bool :=
  vDest o.vd && vSrc o.vs1 && noReg o.vs3 && (if o.lowBits 3 3 == 1 then mReg o.vs2 else noReg o.vs2) && o.maskAny &&
  o.lowBits 14 13 == 0 && o.lowBits 11 4 == 0 &&
  (if o.ty.isInt then o.lowBits 2 0 ≤ 5 && (o.lowBits 12 12 == 0 || o.lowBits 2 0 == 0) && o.rm0
   else o.ty.isFp && o.lowBits 2 0 ≤ 2 && o.lowBits 12 12 == 0 && o.rounds)

/-- A slide (R115, R124): the destination is not the source. -/
def VOp.slideOk (o : VOp) : Bool :=
  vDest o.vd && vSrc o.vs1 && o.vd != o.vs1 && noReg o.vs2 && noReg o.vs3 && o.lowBits 14 11 == 0 && o.rm0 && o.zOk &&
  o.maskAny

/-- A mask-to-mask instruction (R95). -/
def VOp.maskOp (o : VOp) : Bool :=
  mReg o.vd && mReg o.vs1 && mReg o.vs2 && noReg o.vs3 && o.ty == .s8 && o.low == 0 && o.rm0 && o.zNo && o.mask15 && o.noX

/-- A mask-to-scalar instruction (R95). -/
def VOp.maskToX (o : VOp) (lowOk : Bool) : Bool :=
  xReg o.vd && mReg o.vs1 && noReg o.vs2 && noReg o.vs3 && o.ty == .s8 && lowOk && o.rm0 && o.zNo && o.mask15 && o.noX

/-- The claimed types of the matrix unit: 0, 1 and 9 to 14 (R187). -/
def VOp.claimTy (o : VOp) : Bool := o.tc ≤ 1 || 9 ≤ o.tc

/-- The fields that every unit-5 instruction but the outer products fixes (R187). -/
def VOp.matPlain (o : VOp) : Bool := o.rm0 && o.zNo && o.mask15

/-- `mxacc` and `mxdec` (R187). -/
def VOp.outerOk (o : VOp) : Bool :=
  accReg o.vd && vSrcNoQueue o.vs1 && vSrcNoQueue o.vs2 &&
  (if o.ty == .e2m1 then vSrcNoQueue o.vs3 else noReg o.vs3) && o.claimTy && o.low == 0 && o.rm0 && o.zNo && o.maskAny && o.noX

/-- Which operand fields each vector instruction accepts (R95, R115, R187). Every other constructor answers true. -/
def Instr.memberLegal : Instr → Bool
  | .vld o => vDest o.vd && noReg o.vs1 && noReg o.vs2 && noReg o.vs3 && o.low == 0 && o.rm0 && o.zOk && o.maskAny
  | .vlds o => vDest o.vd && noReg o.vs1 && noReg o.vs2 && noReg o.vs3 && o.rm0 && o.zOk && o.maskAny
  | .vldx o => vDest o.vd && vPlain o.vs1 && noReg o.vs2 && noReg o.vs3 && o.indexedOk && o.rm0 && o.zOk && o.maskAny
  | .vldt o => vDest o.vd && vPlain o.vs1 && noReg o.vs2 && noReg o.vs3 && o.ty != .e2m1 && o.tableOk && o.rm0 && o.zOk &&
      o.maskAny && o.noX
  | .vldp o => vDest o.vd && vPlain o.vs1 && mReg o.vs2 && noReg o.vs3 && 2 ≤ o.tc && o.tc ≤ 11 && o.tableOk && o.rm0 &&
      o.zOk && o.maskAny && o.noX
  | .vst o => noReg o.vd && vSrc o.vs1 && noReg o.vs2 && noReg o.vs3 && o.low == 0 && o.rm0 && o.zNo && o.maskAny
  | .vsts o => noReg o.vd && vSrc o.vs1 && noReg o.vs2 && noReg o.vs3 && o.rm0 && o.zNo && o.maskAny
  | .vstx o => noReg o.vd && vSrc o.vs1 && vPlain o.vs2 && noReg o.vs3 && o.indexedOk && o.rm0 && o.zNo && o.maskAny
  | .vstt o => noReg o.vd && vSrc o.vs1 && vPlain o.vs2 && noReg o.vs3 && o.ty != .e2m1 && o.tableOk && o.rm0 && o.zNo &&
      o.maskAny && o.noX
  | .vadd o | .vsub o | .vsll o | .vmul o => o.intB true
  | .vmin o | .vmax o | .vand o | .vor o | .vxor o | .vsrl o | .vsra o | .vmulh o => o.intB false
  | .vabs o => o.unary (o.ty.isInt && o.ty.signed) && o.lowBits 14 13 == 0 && o.lowBits 11 0 == 0 && o.rm0
  | .vcmp o => mReg o.vd && vSrc o.vs1 && noReg o.vs3 && o.ty.isInt && o.cmpForm true && o.rm0 && o.zNo && o.maskAny
  | .vsel o => vDest o.vd && vSrc o.vs1 && vSrc o.vs2 && o.oneQueue [o.vs1, o.vs2] && noReg o.vs3 && o.low == 0 && o.rm0 &&
      o.zNo && o.maskAny && o.noX
  | .vbcast o => vDest o.vd && noReg o.vs1 && noReg o.vs2 && noReg o.vs3 && o.low == 0 && o.rm0 && o.zOk && o.maskAny
  | .vmvxs o => xReg o.vd && vPlain o.vs1 && noReg o.vs2 && noReg o.vs3 && o.flatIndexOk && o.rm0 && o.zNo && o.mask15 && o.noX
  | .vmvsx o => vDest o.vd && noReg o.vs1 && noReg o.vs2 && noReg o.vs3 && o.flatIndexOk && o.rm0 && o.zNo && o.mask15
  | .setvl o => xReg o.vd && noReg o.vs1 && noReg o.vs2 && noReg o.vs3 && o.ty == .s8 && o.low == 0 && o.rm0 && o.zNo && o.mask15
  | .vrng o => vDest o.vd && noReg o.vs1 && noReg o.vs2 && noReg o.vs3 && o.ty == .s8 && o.low == 0 && o.rm0 && o.zOk && o.maskAny
  | .vfadd o | .vfsub o | .vfmul o | .vfdiv o => o.fpB true
  | .vfmin o | .vfmax o => o.fpB false
  | .vfsgn o => vDest o.vd && vSrc o.vs1 && vSrc o.vs2 && o.oneQueue [o.vs1, o.vs2] && noReg o.vs3 && 8 ≤ o.tc &&
      o.lowBits 14 2 == 0 && o.lowBits 1 0 ≤ 2 && o.rm0 && o.zOk && o.maskAny && o.noX
  | .vfcmp o => mReg o.vd && vSrc o.vs1 && noReg o.vs3 && o.ty.isFp && o.cmpForm false && o.rm0 && o.zNo && o.maskAny
  | .vcvt o => o.cvtOk
  | .vcvts o => o.cvtsOk
  | .vscalemx o => vDest o.vd && vSrc o.vs1 && noReg o.vs2 && noReg o.vs3 && o.ty.isFp && o.low == 0 && o.rm0 && o.zNo &&
      o.maskAny && o.noX
  | .mand o | .mor o | .mxor o | .mandn o => o.maskOp
  | .mpop o | .mffs o => o.maskToX (o.low == 0)
  | .mmvx o => o.maskToX (o.lowBits 14 1 == 0)
  | .mfromx o => mReg o.vd && noReg o.vs1 && noReg o.vs2 && noReg o.vs3 && o.ty == .s8 && o.lowBits 14 1 == 0 && o.rm0 &&
      o.zNo && o.mask15
  | .vfma o | .vfms o | .vfnma o => o.fused
  | .vfsqrt o => o.unary o.ty.isFp && o.low == 0 && o.rounds
  | .vsfu o => o.unary o.ty.isFp && o.lowBits 14 3 == 0 && o.rm0
  | .msetml o => noReg o.vd && noReg o.vs1 && noReg o.vs2 && noReg o.vs3 && o.claimTy && o.low == 0 && o.matPlain
  | .mend o => noReg o.vd && noReg o.vs1 && noReg o.vs2 && noReg o.vs3 && o.ty == .s8 && o.low == 0 && o.matPlain && o.noX
  | .mzero o => accReg o.vd && noReg o.vs1 && noReg o.vs2 && noReg o.vs3 && o.ty == .s8 && o.low == 0 && o.matPlain && o.noX
  | .mxacc o | .mxdec o => o.outerOk
  | .mxin o => accReg o.vd && vSrcNoQueue o.vs1 && noReg o.vs2 && noReg o.vs3 && (o.ty == .s32 || o.ty == .f32) &&
      o.lowBits 14 7 == 0 && o.matPlain && o.noX
  | .mxout o => vDest o.vd && noReg o.vs1 && noReg o.vs2 && accReg o.vs3 && (o.ty == .s32 || o.ty == .f32) &&
      o.lowBits 14 7 == 0 && o.matPlain && o.noX
  | .mlu o => vDest o.vd && noReg o.vs1 && noReg o.vs2 && accReg o.vs3 && o.ty == .f32 && o.lowBits 14 1 == 0 && o.matPlain && o.noX
  | .mtrs o => vDest o.vd && vSrcNoQueue o.vs1 && noReg o.vs2 && accReg o.vs3 && o.ty == .f32 && o.low == 0 && o.matPlain && o.noX
  | .rpass o => noReg o.vd && vSrcNoQueue o.vs1 && noReg o.vs2 && noReg o.vs3 && o.ty == .s8 && o.lowBits 14 1 == 0 &&
      o.matPlain && o.noX
  | .vslup o | .vsldn o => o.slideOk
  | .vgathr o => vDest o.vd && vSrc o.vs1 && vPlain o.vs2 && noReg o.vs3 && o.vd != o.vs1 && o.vd != o.vs2 &&
      o.lowBits 14 1 == 0 && (o.lowBits 0 0 == 1 || o.ty != .e2m1) && o.rm0 && o.zOk && o.maskAny && o.noX
  | .vcompr o | .vexpnd o | .vrev o => o.unary true && o.vd != o.vs1 && o.low == 0 && o.rm0
  | .vred o => o.foldOk && o.ty.isInt && o.zNo
  | .vfred o => o.foldOk && o.ty.isFp && o.zNo
  | .vscan o => o.foldOk && o.ty.isInt && o.zOk
  | .vfscan o => o.foldOk && o.ty.isFp && o.zOk
  | .setvlf o => xReg o.vd && mReg o.vs1 && noReg o.vs2 && noReg o.vs3 && o.ty == .s8 && o.low == 0 && o.rm0 && o.zNo && o.mask15
  | _ => true

end Sys2Proof
end

