-- ==== Sys2Proof/WellFormed.lean ====
section
/-! DEFINITION. Well-formed instructions: the operand combinations that some word of the encoding stands for. -/

namespace Sys2Proof

/-- The system register numbers whose writes have rows of their own: `CTXCTL`, `CORECTL` and `SVBUF0` to `SVBUF3`. -/
def ownWriteRow (n : BitVec 16) : Bool :=
  n == 0x30 || n == 0x50 || (0x60 ≤ n.toNat && n.toNat ≤ 0x63)

/-- A rounding mode of a scalar instruction: 4, 5 and 6 trap `ILLEGAL` (R54). -/
def scalarRm (r : Rm) : Bool := r != .stoch

/-- An instruction is well formed when some word encodes it. Events have no word and are well formed whatever their
operands. -/
def Instr.wf : Instr → Bool
  | .fadd _ _ _ rm ty | .fsub _ _ _ rm ty | .fmul _ _ _ rm ty | .ffma _ _ _ rm ty | .fdiv _ _ _ rm ty
  | .fsqrt _ _ rm ty => scalarRm rm && ty.isFp
  | .fcmp _ _ _ _ ty => ty.isFp
  | .fcvt _ _ src rm ty => scalarRm rm && 4 ≤ src.code.toNat && src.code.toNat ≤ 11 && 4 ≤ ty.code.toNat &&
      ty.code.toNat ≤ 11 && (!(src.isInt && ty.isInt) || rm == .rne)
  | .sysr d n => d != 0 && n.toNat < 0xFF00
  | .sysw _ n => n.toNat < 0xFF00 && !ownWriteRow n
  | .sysx d a n => d != 0 && a != 0 && n.toNat < 0xFF00 && !ownWriteRow n
  | .ctxctlWrite d a | .corectlWrite d a | .svbufWrite d a _ => d == 0 || a != 0
  | .fdeclVlive v => vDest v
  | .hintNoOp w => !((w.extractLsb' 13 3 == 0 || w.extractLsb' 13 3 == 1) && w.extractLsb' 21 5 == 0)
  | i => i.memberLegal

end Sys2Proof
end

