-- ==== Sys2Proof/Decode.lean ====
section
/-! DEFINITION. The decoder, total on any bytes and rejecting by name (R43 to R55), and after it the encoder, written from
the same tables. A scalar word is 32 bits and a vector member 64 bits; a convoy header is a 32-bit word of major 0x3F
(R43). -/

namespace Sys2Proof

/-- Why a word names no instruction (R54). -/
inductive DecodeError where
  /-- Fewer bytes than the instruction has. -/
  | tooShort
  /-- A major opcode without instructions: 0x00 and 0x1A to 0x3D. -/
  | noMajor
  /-- A selector, funct or function code that the tables do not list. -/
  | unlistedCode
  /-- A reserved field or an unused register field that is not zero. -/
  | reservedBits
  /-- A type, width, scope, order, direction, predicate, kind or operator outside its range. -/
  | fieldRange
  /-- A vector operation code that its unit reserves. -/
  | reservedOperation
  /-- Operands that the vector instruction does not accept. -/
  | illegalOperands
  deriving DecidableEq, Repr

/-! ### Layouts (R44, R49, R50) -/

/-- The SR format: major, xd, xa, xb, funct. -/
def packSR (maj : BitVec 6) (d a b : Reg) (funct : BitVec 11) : IWord := maj ++ d ++ a ++ b ++ funct
/-- The SI and SX formats: major, xd, xa, imm16 or number. -/
def packSI (maj : BitVec 6) (d a : Reg) (imm : BitVec 16) : IWord := maj ++ d ++ a ++ imm
/-- The SM and SB formats: major, two registers, selector, imm13. -/
def packSM (maj : BitVec 6) (d a : Reg) (sel : BitVec 3) (imm : BitVec 13) : IWord := maj ++ d ++ a ++ sel ++ imm
/-- The SJ and SU formats: major, xd, imm21. -/
def packSJ (maj : BitVec 6) (d : Reg) (imm : BitVec 21) : IWord := maj ++ d ++ imm
/-- The convoy header: major, count, the six unit fields, reserved bits, `DB`. -/
def packHeader (count : BitVec 3) (units : BitVec 18) (rsv : BitVec 4) (db : Bool) : IWord :=
  (0x3F : BitVec 6) ++ count ++ units ++ rsv ++ BitVec.ofBool db
/-- The vector layout: unit, operation and the fields of `VOp`. -/
def packV (unit : BitVec 3) (op : BitVec 5) (o : VOp) : Word :=
  unit ++ op ++ o.vd ++ o.vs1 ++ o.vs2 ++ o.vs3 ++ o.mask ++ o.ty.code ++ BitVec.ofBool o.z ++ o.rm.code ++ o.x ++ o.low

/-- The funct field of an atomic: order, scope, width, operation (R78). -/
def amoFunct (order : AmoOrder) (scope : Scope) (width : AmoWidth) (op : BitVec 4) : BitVec 11 :=
  order.code ++ scope.code ++ width.code ++ op
/-- The funct field of a scalar floating-point instruction: rounding mode or predicate, type, operation (R80). -/
def fpFunct (r : BitVec 3) (ty : BitVec 4) (op : BitVec 4) : BitVec 11 := r ++ ty ++ op
/-- The funct field of the solver words: zeros, slot, operation (R46). -/
def svFunct (slot : BitVec 2) (op : BitVec 4) : BitVec 11 := (0 : BitVec 5) ++ slot ++ op

/-! ### The decoder -/

/-- Answer `i` when the condition holds, else the named error. -/
def okIf (c : Bool) (e : DecodeError) (i : Instr) : Except DecodeError Instr := if c then .ok i else .error e

/-- Major 0x01 (R46, R70). -/
def decodeInt (d a b : Reg) (funct : BitVec 11) : Except DecodeError Instr :=
  match funct.toNat with
  | 0 => .ok (.add d a b)
  | 1 => .ok (.sub d a b)
  | 2 => .ok (.and d a b)
  | 3 => .ok (.or d a b)
  | 4 => .ok (.xor d a b)
  | 5 => .ok (.sll d a b)
  | 6 => .ok (.srl d a b)
  | 7 => .ok (.sra d a b)
  | 8 => .ok (.slt d a b)
  | 9 => .ok (.sltu d a b)
  | 10 => .ok (.mul d a b)
  | 11 => .ok (.mulh d a b)
  | 12 => .ok (.mulhu d a b)
  | 13 => .ok (.div d a b)
  | 14 => .ok (.divu d a b)
  | 15 => .ok (.rem d a b)
  | 16 => .ok (.remu d a b)
  | 17 => .ok (.min d a b)
  | 18 => .ok (.max d a b)
  | 19 => .ok (.minu d a b)
  | 20 => .ok (.maxu d a b)
  | 21 => okIf (b == 0) .reservedBits (.clz d a)
  | 22 => okIf (b == 0) .reservedBits (.ctz d a)
  | 23 => okIf (b == 0) .reservedBits (.popc d a)
  | _ => .error .unlistedCode

/-- Major 0x07 (R72). -/
def decodeShiftImm (d a : Reg) (imm : BitVec 16) : Except DecodeError Instr :=
  if imm.extractLsb' 6 2 != 0 then .error .reservedBits
  else match (imm.extractLsb' 8 8).toNat with
    | 0 => .ok (.slli d a (imm.extractLsb' 0 6))
    | 1 => .ok (.srli d a (imm.extractLsb' 0 6))
    | 2 => .ok (.srai d a (imm.extractLsb' 0 6))
    | _ => .error .unlistedCode

/-- Major 0x0A (R75). -/
def decodeLoad (d a : Reg) (sel : BitVec 3) (imm : BitVec 13) : Except DecodeError Instr :=
  match sel.toNat with
  | 0 => .ok (.lb d a imm)
  | 1 => .ok (.lh d a imm)
  | 2 => .ok (.lw d a imm)
  | 3 => .ok (.ld d a imm)
  | 4 => .ok (.lbu d a imm)
  | 5 => .ok (.lhu d a imm)
  | 6 => .ok (.lwu d a imm)
  | _ => .error .unlistedCode

/-- Major 0x0B (R75). -/
def decodeStore (s a : Reg) (sel : BitVec 3) (imm : BitVec 13) : Except DecodeError Instr :=
  match sel.toNat with
  | 0 => .ok (.sb s a imm)
  | 1 => .ok (.sh s a imm)
  | 2 => .ok (.sw s a imm)
  | 3 => .ok (.sd s a imm)
  | _ => .error .unlistedCode

/-- Major 0x0C (R78). -/
def decodeAmo (d a b : Reg) (funct : BitVec 11) : Except DecodeError Instr :=
  let order := AmoOrder.ofCode (funct.extractLsb' 9 2)
  match Scope.ofCode (funct.extractLsb' 6 3), AmoWidth.ofCode (funct.extractLsb' 4 2) with
  | some scope, some width =>
    match (funct.extractLsb' 0 4).toNat with
    | 0 => okIf (b == 0 && order == .relaxed) .reservedBits (.ldaq d a scope width)
    | 1 => okIf (d == 0 && order == .relaxed) .reservedBits (.strl a b scope width)
    | 2 => .ok (.amoswap d a b order scope width)
    | 3 => .ok (.amoadd d a b order scope width)
    | 4 => .ok (.amoand d a b order scope width)
    | 5 => .ok (.amoor d a b order scope width)
    | 6 => .ok (.amoxor d a b order scope width)
    | 7 => .ok (.amomin d a b order scope width)
    | 8 => .ok (.amomax d a b order scope width)
    | 9 => .ok (.cas d a b order scope width)
    | _ => .error .unlistedCode
  | _, _ => .error .fieldRange

/-- Major 0x0D (R73). -/
def decodeBranch (a b : Reg) (sel : BitVec 3) (imm : BitVec 13) : Except DecodeError Instr :=
  match sel.toNat with
  | 0 => .ok (.beq a b imm)
  | 1 => .ok (.bne a b imm)
  | 2 => .ok (.blt a b imm)
  | 3 => .ok (.bge a b imm)
  | 4 => .ok (.bltu a b imm)
  | 5 => .ok (.bgeu a b imm)
  | _ => .error .unlistedCode

/-- Major 0x10 (R80 to R82). -/
def decodeFp (d a b : Reg) (funct : BitVec 11) : Except DecodeError Instr :=
  match Ty.ofCode (funct.extractLsb' 4 4) with
  | none => .error .fieldRange
  | some ty =>
    let r := funct.extractLsb' 8 3
    match (funct.extractLsb' 0 4).toNat, Rm.ofCode r with
    | 0, some rm => okIf (scalarRm rm && ty.isFp) .fieldRange (.fadd d a b rm ty)
    | 1, some rm => okIf (scalarRm rm && ty.isFp) .fieldRange (.fsub d a b rm ty)
    | 2, some rm => okIf (scalarRm rm && ty.isFp) .fieldRange (.fmul d a b rm ty)
    | 3, some rm => okIf (scalarRm rm && ty.isFp) .fieldRange (.ffma d a b rm ty)
    | 4, some rm => okIf (scalarRm rm && ty.isFp) .fieldRange (.fdiv d a b rm ty)
    | 5, some rm =>
      if b != 0 then .error .reservedBits else okIf (scalarRm rm && ty.isFp) .fieldRange (.fsqrt d a rm ty)
    | 6, _ =>
      match FPred.ofCode r with
      | some p => okIf ty.isFp .fieldRange (.fcmp d a b p ty)
      | none => .error .fieldRange
    | 7, some rm =>
      match Ty.ofCode (b.extractLsb' 0 4) with
      | some src => if b.extractLsb' 4 1 != 0 then .error .fieldRange
          else okIf (Instr.wf (.fcvt d a src rm ty)) .fieldRange (.fcvt d a src rm ty)
      | none => .error .fieldRange
    | 0, none | 1, none | 2, none | 3, none | 4, none | 5, none | 7, none => .error .fieldRange
    | _, _ => .error .unlistedCode

/-- A system function, numbers 0xFF00 and above (R48). -/
def decodeSysFunction (d a : Reg) (n : BitVec 16) : Except DecodeError Instr :=
  if d != 0 then .error .reservedBits
  else match n.toNat with
    | 0xFF00 => okIf (a == 0) .reservedBits .ecall
    | 0xFF01 => okIf (a == 0) .reservedBits .ebreak
    | 0xFF02 => okIf (a == 0) .reservedBits .tret
    | 0xFF03 => okIf (a == 0) .reservedBits .wfe
    | 0xFF04 => okIf (a == 0) .reservedBits .yield
    | 0xFF05 => okIf (a == 0) .reservedBits .halt
    | 0xFF06 => okIf (a == 0) .reservedBits .fencei
    | 0xFF07 => .ok (.vqsave a)
    | 0xFF08 => .ok (.vqload a)
    | _ => .error .unlistedCode

/-- A write of a system register, with the rows that are set apart by the register (R19, R153, R197). -/
def decodeSysWrite (d a : Reg) (n : BitVec 16) : Instr :=
  if n = 0x30 then .ctxctlWrite d a
  else if n = 0x50 then .corectlWrite d a
  else if 0x60 ≤ n.toNat ∧ n.toNat ≤ 0x63 then .svbufWrite d a (n.extractLsb' 0 2)
  else if d = 0 then .sysw a n
  else .sysx d a n

/-- Major 0x11 (R48). -/
def decodeSys (d a : Reg) (n : BitVec 16) : Except DecodeError Instr :=
  if 0xFF00 ≤ n.toNat then decodeSysFunction d a n
  else if d != 0 && a == 0 then .ok (.sysr d n)
  else .ok (decodeSysWrite d a n)

/-- Major 0x12 (R46). -/
def decodeLocal (d a : Reg) (sel : BitVec 3) (imm : BitVec 13) : Except DecodeError Instr :=
  match sel.toNat with
  | 0 =>
    if d != 0 || a != 0 || imm.extractLsb' 5 8 != 0 then .error .reservedBits
    else match Scope.ofCode (imm.extractLsb' 0 3) with
      | some sc => .ok (.fence (FenceDir.ofCode (imm.extractLsb' 3 2)) sc)
      | none => .error .fieldRange
  | 1 => .ok (.ldfeKeep d a imm)
  | 2 => .ok (.ldfeClr d a imm)
  | 3 => .ok (.stfe d a imm)
  | _ => .error .unlistedCode

/-- Major 0x13 (R46). -/
def decodeMessage (d a b : Reg) (funct : BitVec 11) : Except DecodeError Instr :=
  match (funct.extractLsb' 0 4).toNat with
  | 0 =>
    if d != 0 || funct.extractLsb' 10 1 != 0 then .error .reservedBits
    else match Scope.ofCode (funct.extractLsb' 7 3) with
      | some sc => .ok (.send a b sc (funct.extractLsb' 4 3))
      | none => .error .fieldRange
  | 1 => okIf (a == 0 && b == 0 && funct.extractLsb' 4 7 == 0) .reservedBits (.recv d)
  | 2 => okIf (d == 0 && funct.extractLsb' 4 7 == 0) .reservedBits (.htset a b)
  | 3 => okIf (d == 0 && a == 0 && b == 0 && funct.extractLsb' 4 7 == 0) .reservedBits .msgret
  | _ => .error .unlistedCode

/-- The `fdecl` word (R47): the kind stands in bits 25:21. -/
def decodeFdecl (kind r : Reg) (arg : BitVec 13) : Except DecodeError Instr :=
  match kind.toNat with
  | 0 => okIf (arg == 0) .reservedBits (.fdeclCarry r)
  | 1 => .ok (.fdeclIndImm r arg)
  | 2 => okIf (arg.extractLsb' 5 8 == 0) .reservedBits (.fdeclIndReg r (arg.extractLsb' 0 5))
  | 3 =>
    if arg.extractLsb' 4 9 != 0 then .error .reservedBits
    else match RedOp.ofCode (arg.extractLsb' 0 4) with
      | some op => .ok (.fdeclRed r op)
      | none => .error .fieldRange
  | 4 => if r != 0 || arg.extractLsb' 6 7 != 0 then .error .reservedBits
         else okIf (vDest (arg.extractLsb' 0 6)) .fieldRange (.fdeclVlive (arg.extractLsb' 0 6))
  | _ => .error .fieldRange

/-- Major 0x14 (R46). -/
def decodeFork (a b : Reg) (sel : BitVec 3) (imm : BitVec 13) : Except DecodeError Instr :=
  match sel.toNat with
  | 0 => .ok (.forkS a b imm)
  | 1 => .ok (.forkD a b imm)
  | 2 => okIf (a == 0 && b == 0 && imm == 0) .reservedBits .cend
  | 3 => okIf (a == 0 && b == 0 && imm == 0) .reservedBits .exitl
  | 4 => decodeFdecl a b imm
  | _ => .error .unlistedCode

/-- Major 0x15 (R46). -/
def decodeEngine (d a b : Reg) (funct : BitVec 11) : Except DecodeError Instr :=
  if funct.extractLsb' 4 7 != 0 then .error .reservedBits
  else match (funct.extractLsb' 0 4).toNat with
    | 0 => okIf (d == 0 && b == 0) .reservedBits (.cpy a)
    | 1 => okIf (d == 0) .reservedBits (.barinit a b)
    | 2 => okIf (d == 0) .reservedBits (.bararv a b)
    | 3 => okIf (d == 0) .reservedBits (.barwt a b)
    | 4 => okIf (d == 0 && b == 0) .reservedBits (.mgkick a)
    | 5 => okIf (a == 0 && b == 0) .reservedBits (.mgstat d)
    | _ => .error .unlistedCode

/-- Major 0x16 (R46). -/
def decodeSolver (d a b : Reg) (funct : BitVec 11) : Except DecodeError Instr :=
  let slot := funct.extractLsb' 4 2
  if funct.extractLsb' 6 5 != 0 then .error .reservedBits
  else match (funct.extractLsb' 0 4).toNat with
    | 0 => okIf (d == 0) .reservedBits (.svbegin a b slot)
    | 1 => okIf (d == 0 && b == 0) .reservedBits (.svwarm a slot)
    | 2 => .ok (.svchk d a b slot)
    | 3 => okIf (d == 0 && b == 0) .reservedBits (.svend a slot)
    | _ => .error .unlistedCode

/-- Major 0x17 (R46). -/
def decodeLease (d a b : Reg) (funct : BitVec 11) : Except DecodeError Instr :=
  if funct.extractLsb' 4 7 != 0 then .error .reservedBits
  else match (funct.extractLsb' 0 4).toNat with
    | 0 => okIf (b == 0) .reservedBits (.lreq d a)
    | 1 => okIf (d == 0) .reservedBits (.lgrant a b)
    | 2 => okIf (d == 0 && b == 0) .reservedBits (.lreclaim a)
    | 3 => okIf (d == 0 && b == 0) .reservedBits (.ldone a)
    | 4 => okIf (d == 0 && b == 0) .reservedBits (.lrelease a)
    | _ => .error .unlistedCode

/-- Major 0x18 (R46). -/
def decodeDie (d a b : Reg) (funct : BitVec 11) : Except DecodeError Instr :=
  if funct.extractLsb' 4 7 != 0 then .error .reservedBits
  else match (funct.extractLsb' 0 4).toNat with
    | 0 => okIf (d == 0) .reservedBits (.tlbinv a b)
    | 1 => okIf (d == 0) .reservedBits (.pgmig a b)
    | 2 => okIf (b == 0) .reservedBits (.odrain d a)
    | _ => .error .unlistedCode

/-- Major 0x19 (R46). -/
def decodeLaunch (d a b : Reg) (funct : BitVec 11) : Except DecodeError Instr :=
  if funct != 0 then .error .unlistedCode else okIf (d == 0 && b == 0) .reservedBits (.launch a)

/-- Major 0x3E never refuses a word (R55). -/
def decodeHint (w : IWord) : Instr :=
  if w.extractLsb' 21 5 = 0 ∧ w.extractLsb' 13 3 = 0 then .pref (w.extractLsb' 16 5) (w.extractLsb' 0 13)
  else if w.extractLsb' 21 5 = 0 ∧ w.extractLsb' 13 3 = 1 then .resid (w.extractLsb' 16 5) (w.extractLsb' 0 13)
  else .hintNoOp (w.extractLsb' 0 26)

/-- One 32-bit word (R43, R46). -/
def decodeWord (w : IWord) : Except DecodeError Instr :=
  let r1 := w.extractLsb' 21 5
  let r2 := w.extractLsb' 16 5
  let r3 := w.extractLsb' 11 5
  let funct := w.extractLsb' 0 11
  let imm16 := w.extractLsb' 0 16
  let sel := w.extractLsb' 13 3
  let imm13 := w.extractLsb' 0 13
  let imm21 := w.extractLsb' 0 21
  match (w.extractLsb' 26 6).toNat with
  | 0x01 => decodeInt r1 r2 r3 funct
  | 0x02 => .ok (.addi r1 r2 imm16)
  | 0x03 => .ok (.andi r1 r2 imm16)
  | 0x04 => .ok (.ori r1 r2 imm16)
  | 0x05 => .ok (.xori r1 r2 imm16)
  | 0x06 => .ok (.slti r1 r2 imm16)
  | 0x07 => decodeShiftImm r1 r2 imm16
  | 0x08 => .ok (.lui r1 imm21)
  | 0x09 => .ok (.auipc r1 imm21)
  | 0x0A => decodeLoad r1 r2 sel imm13
  | 0x0B => decodeStore r1 r2 sel imm13
  | 0x0C => decodeAmo r1 r2 r3 funct
  | 0x0D => decodeBranch r1 r2 sel imm13
  | 0x0E => .ok (.jal r1 imm21)
  | 0x0F => .ok (.jalr r1 r2 imm16)
  | 0x10 => decodeFp r1 r2 r3 funct
  | 0x11 => decodeSys r1 r2 imm16
  | 0x12 => decodeLocal r1 r2 sel imm13
  | 0x13 => decodeMessage r1 r2 r3 funct
  | 0x14 => decodeFork r1 r2 sel imm13
  | 0x15 => decodeEngine r1 r2 r3 funct
  | 0x16 => decodeSolver r1 r2 r3 funct
  | 0x17 => decodeLease r1 r2 r3 funct
  | 0x18 => decodeDie r1 r2 r3 funct
  | 0x19 => decodeLaunch r1 r2 r3 funct
  | 0x3E => .ok (decodeHint w)
  | 0x3F => .ok (.convoy (w.extractLsb' 23 3) (w.extractLsb' 5 18) (w.extractLsb' 1 4) (w.getLsbD 0))
  | _ => .error .noMajor

/-- The vector instruction of a unit and an operation (R53). -/
def memberOf (unit op : Nat) (o : VOp) : Option Instr :=
  match unit, op with
  | 0, 0 => some (.vld o)
  | 0, 1 => some (.vlds o)
  | 0, 2 => some (.vldx o)
  | 0, 3 => some (.vldt o)
  | 0, 4 => some (.vldp o)
  | 1, 0 => some (.vst o)
  | 1, 1 => some (.vsts o)
  | 1, 2 => some (.vstx o)
  | 1, 3 => some (.vstt o)
  | 2, 0 => some (.vadd o)
  | 2, 1 => some (.vsub o)
  | 2, 2 => some (.vmin o)
  | 2, 3 => some (.vmax o)
  | 2, 4 => some (.vand o)
  | 2, 5 => some (.vor o)
  | 2, 6 => some (.vxor o)
  | 2, 7 => some (.vsll o)
  | 2, 8 => some (.vsrl o)
  | 2, 9 => some (.vsra o)
  | 2, 10 => some (.vabs o)
  | 2, 11 => some (.vcmp o)
  | 2, 12 => some (.vsel o)
  | 2, 13 => some (.vbcast o)
  | 2, 14 => some (.vmvxs o)
  | 2, 15 => some (.vmvsx o)
  | 2, 16 => some (.setvl o)
  | 2, 17 => some (.vrng o)
  | 3, 0 => some (.vfadd o)
  | 3, 1 => some (.vfsub o)
  | 3, 2 => some (.vfmin o)
  | 3, 3 => some (.vfmax o)
  | 3, 4 => some (.vfsgn o)
  | 3, 5 => some (.vfcmp o)
  | 3, 6 => some (.vcvt o)
  | 3, 7 => some (.vcvts o)
  | 3, 8 => some (.vscalemx o)
  | 3, 9 => some (.mand o)
  | 3, 10 => some (.mor o)
  | 3, 11 => some (.mxor o)
  | 3, 12 => some (.mandn o)
  | 3, 13 => some (.mpop o)
  | 3, 14 => some (.mffs o)
  | 3, 15 => some (.mmvx o)
  | 3, 16 => some (.mfromx o)
  | 4, 0 => some (.vfmul o)
  | 4, 1 => some (.vfma o)
  | 4, 2 => some (.vfms o)
  | 4, 3 => some (.vfnma o)
  | 4, 4 => some (.vfdiv o)
  | 4, 5 => some (.vfsqrt o)
  | 4, 6 => some (.vmul o)
  | 4, 7 => some (.vmulh o)
  | 5, 0 => some (.msetml o)
  | 5, 1 => some (.mend o)
  | 5, 2 => some (.mzero o)
  | 5, 3 => some (.mxacc o)
  | 5, 4 => some (.mxdec o)
  | 5, 5 => some (.mxin o)
  | 5, 6 => some (.mxout o)
  | 5, 7 => some (.mlu o)
  | 5, 8 => some (.mtrs o)
  | 5, 9 => some (.rpass o)
  | 6, 0 => some (.vsfu o)
  | 7, 0 => some (.vslup o)
  | 7, 1 => some (.vsldn o)
  | 7, 2 => some (.vgathr o)
  | 7, 3 => some (.vcompr o)
  | 7, 4 => some (.vexpnd o)
  | 7, 5 => some (.vrev o)
  | 7, 6 => some (.vred o)
  | 7, 7 => some (.vfred o)
  | 7, 8 => some (.vscan o)
  | 7, 9 => some (.vfscan o)
  | 7, 10 => some (.setvlf o)
  | _, _ => none

/-- One 64-bit vector instruction (R50): unit, operation and operands, checked against the tables of operands. -/
def decodeMember (w : Word) : Except DecodeError Instr :=
  match Ty.ofCode (w.extractLsb' 24 4), Rm.ofCode (w.extractLsb' 20 3) with
  | some ty, some rm =>
    match memberOf (w.extractLsb' 61 3).toNat (w.extractLsb' 56 5).toNat
        { vd := w.extractLsb' 50 6, vs1 := w.extractLsb' 44 6, vs2 := w.extractLsb' 38 6, vs3 := w.extractLsb' 32 6,
          mask := w.extractLsb' 28 4, ty := ty, z := w.getLsbD 23, rm := rm, x := w.extractLsb' 15 5,
          low := w.extractLsb' 0 15 } with
    | none => .error .reservedOperation
    | some i => okIf i.memberLegal .illegalOperands i
  | _, _ => .error .fieldRange

/-- Little-endian bytes as one number (R6). -/
def bytesToNat : List Byte → Nat
  | [] => 0
  | b :: bs => b.toNat + 256 * bytesToNat bs

/-- The little-endian bytes of a number (R6). -/
def natToBytes : Nat → Nat → List Byte
  | 0, _ => []
  | k + 1, n => BitVec.ofNat 8 n :: natToBytes k (n / 256)

/-- The instruction that stands at the head of a list of bytes fetched outside a convoy (R43), with the bytes after it. -/
def decode (bs : List Byte) : Except DecodeError (Instr × List Byte) :=
  match bs with
  | b0 :: b1 :: b2 :: b3 :: rest =>
    match decodeWord (BitVec.ofNat 32 (bytesToNat [b0, b1, b2, b3])) with
    | .ok i => .ok (i, rest)
    | .error e => .error e
  | _ => .error .tooShort

/-- The vector instruction that stands at the head of a list of bytes inside a convoy (R43). -/
def decodeVector (bs : List Byte) : Except DecodeError (Instr × List Byte) :=
  match bs with
  | b0 :: b1 :: b2 :: b3 :: b4 :: b5 :: b6 :: b7 :: rest =>
    match decodeMember (BitVec.ofNat 64 (bytesToNat [b0, b1, b2, b3, b4, b5, b6, b7])) with
    | .ok i => .ok (i, rest)
    | .error e => .error e
  | _ => .error .tooShort

/-- What a hart executes for a fetched word: the instruction the word names, or the row for a word that names none. -/
def wordInstr (w : IWord) : Instr :=
  match decodeWord w with
  | .ok i => i
  | .error _ => .undefinedWord w

/-- The instruction of a word numbered as the table of operations numbers its bits: 32 bits are a scalar word or a convoy
header and 64 bits a vector member. -/
def decodeTableWord (nbits w : Nat) : Option Instr :=
  if nbits ≤ 32 then
    match decode (natToBytes 4 w) with
    | .ok (i, _) => some i
    | .error _ => none
  else
    match decodeVector (natToBytes 8 w) with
    | .ok (i, _) => some i
    | .error _ => none

/-! ### The encoder -/

/-- The 32-bit word of a scalar instruction or of a convoy header, from the tables of R44 to R49. -/
def encodeWord : Instr → Option IWord
  | .add d a b => some (packSR 0x01 d a b 0)
  | .sub d a b => some (packSR 0x01 d a b 1)
  | .and d a b => some (packSR 0x01 d a b 2)
  | .or d a b => some (packSR 0x01 d a b 3)
  | .xor d a b => some (packSR 0x01 d a b 4)
  | .sll d a b => some (packSR 0x01 d a b 5)
  | .srl d a b => some (packSR 0x01 d a b 6)
  | .sra d a b => some (packSR 0x01 d a b 7)
  | .slt d a b => some (packSR 0x01 d a b 8)
  | .sltu d a b => some (packSR 0x01 d a b 9)
  | .mul d a b => some (packSR 0x01 d a b 10)
  | .mulh d a b => some (packSR 0x01 d a b 11)
  | .mulhu d a b => some (packSR 0x01 d a b 12)
  | .div d a b => some (packSR 0x01 d a b 13)
  | .divu d a b => some (packSR 0x01 d a b 14)
  | .rem d a b => some (packSR 0x01 d a b 15)
  | .remu d a b => some (packSR 0x01 d a b 16)
  | .min d a b => some (packSR 0x01 d a b 17)
  | .max d a b => some (packSR 0x01 d a b 18)
  | .minu d a b => some (packSR 0x01 d a b 19)
  | .maxu d a b => some (packSR 0x01 d a b 20)
  | .clz d a => some (packSR 0x01 d a 0 21)
  | .ctz d a => some (packSR 0x01 d a 0 22)
  | .popc d a => some (packSR 0x01 d a 0 23)
  | .addi d a imm => some (packSI 0x02 d a imm)
  | .andi d a imm => some (packSI 0x03 d a imm)
  | .ori d a imm => some (packSI 0x04 d a imm)
  | .xori d a imm => some (packSI 0x05 d a imm)
  | .slti d a imm => some (packSI 0x06 d a imm)
  | .slli d a sh => some (packSI 0x07 d a ((0 : BitVec 8) ++ (0 : BitVec 2) ++ sh))
  | .srli d a sh => some (packSI 0x07 d a ((1 : BitVec 8) ++ (0 : BitVec 2) ++ sh))
  | .srai d a sh => some (packSI 0x07 d a ((2 : BitVec 8) ++ (0 : BitVec 2) ++ sh))
  | .lui d imm => some (packSJ 0x08 d imm)
  | .auipc d imm => some (packSJ 0x09 d imm)
  | .lb d a imm => some (packSM 0x0A d a 0 imm)
  | .lh d a imm => some (packSM 0x0A d a 1 imm)
  | .lw d a imm => some (packSM 0x0A d a 2 imm)
  | .ld d a imm => some (packSM 0x0A d a 3 imm)
  | .lbu d a imm => some (packSM 0x0A d a 4 imm)
  | .lhu d a imm => some (packSM 0x0A d a 5 imm)
  | .lwu d a imm => some (packSM 0x0A d a 6 imm)
  | .sb s a imm => some (packSM 0x0B s a 0 imm)
  | .sh s a imm => some (packSM 0x0B s a 1 imm)
  | .sw s a imm => some (packSM 0x0B s a 2 imm)
  | .sd s a imm => some (packSM 0x0B s a 3 imm)
  | .ldaq d a sc wd => some (packSR 0x0C d a 0 (amoFunct .relaxed sc wd 0))
  | .strl a b sc wd => some (packSR 0x0C 0 a b (amoFunct .relaxed sc wd 1))
  | .amoswap d a b od sc wd => some (packSR 0x0C d a b (amoFunct od sc wd 2))
  | .amoadd d a b od sc wd => some (packSR 0x0C d a b (amoFunct od sc wd 3))
  | .amoand d a b od sc wd => some (packSR 0x0C d a b (amoFunct od sc wd 4))
  | .amoor d a b od sc wd => some (packSR 0x0C d a b (amoFunct od sc wd 5))
  | .amoxor d a b od sc wd => some (packSR 0x0C d a b (amoFunct od sc wd 6))
  | .amomin d a b od sc wd => some (packSR 0x0C d a b (amoFunct od sc wd 7))
  | .amomax d a b od sc wd => some (packSR 0x0C d a b (amoFunct od sc wd 8))
  | .cas d a b od sc wd => some (packSR 0x0C d a b (amoFunct od sc wd 9))
  | .beq a b imm => some (packSM 0x0D a b 0 imm)
  | .bne a b imm => some (packSM 0x0D a b 1 imm)
  | .blt a b imm => some (packSM 0x0D a b 2 imm)
  | .bge a b imm => some (packSM 0x0D a b 3 imm)
  | .bltu a b imm => some (packSM 0x0D a b 4 imm)
  | .bgeu a b imm => some (packSM 0x0D a b 5 imm)
  | .jal d imm => some (packSJ 0x0E d imm)
  | .jalr d a imm => some (packSI 0x0F d a imm)
  | .fadd d a b rm ty => some (packSR 0x10 d a b (fpFunct rm.code ty.code 0))
  | .fsub d a b rm ty => some (packSR 0x10 d a b (fpFunct rm.code ty.code 1))
  | .fmul d a b rm ty => some (packSR 0x10 d a b (fpFunct rm.code ty.code 2))
  | .ffma d a b rm ty => some (packSR 0x10 d a b (fpFunct rm.code ty.code 3))
  | .fdiv d a b rm ty => some (packSR 0x10 d a b (fpFunct rm.code ty.code 4))
  | .fsqrt d a rm ty => some (packSR 0x10 d a 0 (fpFunct rm.code ty.code 5))
  | .fcmp d a b p ty => some (packSR 0x10 d a b (fpFunct p.code ty.code 6))
  | .fcvt d a src rm ty => some (packSR 0x10 d a ((0 : BitVec 1) ++ src.code) (fpFunct rm.code ty.code 7))
  | .sysr d n => some (packSI 0x11 d 0 n)
  | .sysw a n => some (packSI 0x11 0 a n)
  | .sysx d a n => some (packSI 0x11 d a n)
  | .ctxctlWrite d a => some (packSI 0x11 d a 0x30)
  | .corectlWrite d a => some (packSI 0x11 d a 0x50)
  | .svbufWrite d a slot => some (packSI 0x11 d a ((0x18 : BitVec 14) ++ slot))
  | .ecall => some (packSI 0x11 0 0 0xFF00)
  | .ebreak => some (packSI 0x11 0 0 0xFF01)
  | .tret => some (packSI 0x11 0 0 0xFF02)
  | .wfe => some (packSI 0x11 0 0 0xFF03)
  | .yield => some (packSI 0x11 0 0 0xFF04)
  | .halt => some (packSI 0x11 0 0 0xFF05)
  | .fencei => some (packSI 0x11 0 0 0xFF06)
  | .vqsave a => some (packSI 0x11 0 a 0xFF07)
  | .vqload a => some (packSI 0x11 0 a 0xFF08)
  | .fence dir sc => some (packSM 0x12 0 0 0 ((0 : BitVec 8) ++ dir.code ++ sc.code))
  | .ldfeKeep d a imm => some (packSM 0x12 d a 1 imm)
  | .ldfeClr d a imm => some (packSM 0x12 d a 2 imm)
  | .stfe s a imm => some (packSM 0x12 s a 3 imm)
  | .send a b sc fl => some (packSR 0x13 0 a b ((0 : BitVec 1) ++ sc.code ++ fl ++ (0 : BitVec 4)))
  | .recv d => some (packSR 0x13 d 0 0 1)
  | .htset a b => some (packSR 0x13 0 a b 2)
  | .msgret => some (packSR 0x13 0 0 0 3)
  | .forkS a b imm => some (packSM 0x14 a b 0 imm)
  | .forkD a b imm => some (packSM 0x14 a b 1 imm)
  | .cend => some (packSM 0x14 0 0 2 0)
  | .exitl => some (packSM 0x14 0 0 3 0)
  | .fdeclCarry r => some (packSM 0x14 0 r 4 0)
  | .fdeclIndImm r imm => some (packSM 0x14 1 r 4 imm)
  | .fdeclIndReg r s => some (packSM 0x14 2 r 4 ((0 : BitVec 8) ++ s))
  | .fdeclRed r op => some (packSM 0x14 3 r 4 ((0 : BitVec 9) ++ op.code))
  | .fdeclVlive v => some (packSM 0x14 4 0 4 ((0 : BitVec 7) ++ v))
  | .cpy a => some (packSR 0x15 0 a 0 0)
  | .barinit a b => some (packSR 0x15 0 a b 1)
  | .bararv a b => some (packSR 0x15 0 a b 2)
  | .barwt a b => some (packSR 0x15 0 a b 3)
  | .mgkick a => some (packSR 0x15 0 a 0 4)
  | .mgstat d => some (packSR 0x15 d 0 0 5)
  | .svbegin a b slot => some (packSR 0x16 0 a b (svFunct slot 0))
  | .svwarm a slot => some (packSR 0x16 0 a 0 (svFunct slot 1))
  | .svchk d a b slot => some (packSR 0x16 d a b (svFunct slot 2))
  | .svend a slot => some (packSR 0x16 0 a 0 (svFunct slot 3))
  | .lreq d a => some (packSR 0x17 d a 0 0)
  | .lgrant a b => some (packSR 0x17 0 a b 1)
  | .lreclaim a => some (packSR 0x17 0 a 0 2)
  | .ldone a => some (packSR 0x17 0 a 0 3)
  | .lrelease a => some (packSR 0x17 0 a 0 4)
  | .tlbinv a b => some (packSR 0x18 0 a b 0)
  | .pgmig a b => some (packSR 0x18 0 a b 1)
  | .odrain d a => some (packSR 0x18 d a 0 2)
  | .launch a => some (packSR 0x19 0 a 0 0)
  | .pref a imm => some (packSM 0x3E 0 a 0 imm)
  | .resid a imm => some (packSM 0x3E 0 a 1 imm)
  | .hintNoOp w => some ((0x3E : BitVec 6) ++ w)
  | .undefinedWord w => some w
  | .convoy count units rsv db => some (packHeader count units rsv db)
  | _ => none

/-- The unit and operation of a vector instruction with its operand fields (R53). -/
def memberCode : Instr → Option (BitVec 3 × BitVec 5 × VOp)
  | .vld o => some (0, 0, o)
  | .vlds o => some (0, 1, o)
  | .vldx o => some (0, 2, o)
  | .vldt o => some (0, 3, o)
  | .vldp o => some (0, 4, o)
  | .vst o => some (1, 0, o)
  | .vsts o => some (1, 1, o)
  | .vstx o => some (1, 2, o)
  | .vstt o => some (1, 3, o)
  | .vadd o => some (2, 0, o)
  | .vsub o => some (2, 1, o)
  | .vmin o => some (2, 2, o)
  | .vmax o => some (2, 3, o)
  | .vand o => some (2, 4, o)
  | .vor o => some (2, 5, o)
  | .vxor o => some (2, 6, o)
  | .vsll o => some (2, 7, o)
  | .vsrl o => some (2, 8, o)
  | .vsra o => some (2, 9, o)
  | .vabs o => some (2, 10, o)
  | .vcmp o => some (2, 11, o)
  | .vsel o => some (2, 12, o)
  | .vbcast o => some (2, 13, o)
  | .vmvxs o => some (2, 14, o)
  | .vmvsx o => some (2, 15, o)
  | .setvl o => some (2, 16, o)
  | .vrng o => some (2, 17, o)
  | .vfadd o => some (3, 0, o)
  | .vfsub o => some (3, 1, o)
  | .vfmin o => some (3, 2, o)
  | .vfmax o => some (3, 3, o)
  | .vfsgn o => some (3, 4, o)
  | .vfcmp o => some (3, 5, o)
  | .vcvt o => some (3, 6, o)
  | .vcvts o => some (3, 7, o)
  | .vscalemx o => some (3, 8, o)
  | .mand o => some (3, 9, o)
  | .mor o => some (3, 10, o)
  | .mxor o => some (3, 11, o)
  | .mandn o => some (3, 12, o)
  | .mpop o => some (3, 13, o)
  | .mffs o => some (3, 14, o)
  | .mmvx o => some (3, 15, o)
  | .mfromx o => some (3, 16, o)
  | .vfmul o => some (4, 0, o)
  | .vfma o => some (4, 1, o)
  | .vfms o => some (4, 2, o)
  | .vfnma o => some (4, 3, o)
  | .vfdiv o => some (4, 4, o)
  | .vfsqrt o => some (4, 5, o)
  | .vmul o => some (4, 6, o)
  | .vmulh o => some (4, 7, o)
  | .msetml o => some (5, 0, o)
  | .mend o => some (5, 1, o)
  | .mzero o => some (5, 2, o)
  | .mxacc o => some (5, 3, o)
  | .mxdec o => some (5, 4, o)
  | .mxin o => some (5, 5, o)
  | .mxout o => some (5, 6, o)
  | .mlu o => some (5, 7, o)
  | .mtrs o => some (5, 8, o)
  | .rpass o => some (5, 9, o)
  | .vsfu o => some (6, 0, o)
  | .vslup o => some (7, 0, o)
  | .vsldn o => some (7, 1, o)
  | .vgathr o => some (7, 2, o)
  | .vcompr o => some (7, 3, o)
  | .vexpnd o => some (7, 4, o)
  | .vrev o => some (7, 5, o)
  | .vred o => some (7, 6, o)
  | .vfred o => some (7, 7, o)
  | .vscan o => some (7, 8, o)
  | .vfscan o => some (7, 9, o)
  | .setvlf o => some (7, 10, o)
  | _ => none

/-- The 64-bit word of a vector instruction (R50). -/
def encodeMember (i : Instr) : Option Word :=
  match memberCode i with
  | some (unit, op, o) => some (packV unit op o)
  | none => none

/-- The bytes of an instruction that has an encoding: four for a scalar word or a convoy header, eight for a member. -/
def encode (i : Instr) : Option (List Byte) :=
  match encodeWord i with
  | some w => some (natToBytes 4 w.toNat)
  | none =>
    match encodeMember i with
    | some w => some (natToBytes 8 w.toNat)
    | none => none

end Sys2Proof
end

