-- ==== Sys2Proof/Machine/State.lean ====
section
/-! DEFINITION. The state of the machine as plain data: every register, memory, queue and buffer the spec names, from the
hart to the fabric (R3, R10), the state after reset, and the reasons a step can stop. Nothing here computes; the
operations stand in the other files of this folder.

Keys. A hart is named by bits 25:0 of its `HARTID` (R15): package, die, ring, core, slot; an engine hart, which reads slot 7,
by those bits and, times 2^26, 8 times its package and the number of its kind (R22). A core is that key without the slot, a ring without the core, a die without the ring, a package without the die. A context is named by its package and
its identifier. -/

namespace Sys2Proof.Machine

/-- A finite table from numbers to values. A key that is not listed stands for the table's default. -/
abbrev Tab (α : Type) := List (Nat × α)

/-- Byte-addressed memory in canonical form: addresses strictly rising and no listed byte equal to what an unlisted
address reads as (zero), with the marked 8-byte words strictly rising (R77). -/
structure Mem where
  cells : List Host.Cell
  marks : List Nat
  deriving DecidableEq, Repr, Inhabited

/-! ### Accesses to memory -/

/-- A translation that an access holds (R286): the page, run, 64 MiB entry or 1 GiB group of `size` bytes at `va`, its physical
base, its permission bits, in `cause` the fault that its translation met (0: none), and whether a `tlbinv` has dropped or reloaded
the translation since (R287). (DEDUCED: log entry 43) -/
structure Pin where
  ctx : Nat
  va : Nat
  size : Nat
  pa : Nat
  perm : BitVec 5
  cause : Nat
  stale : Bool
  deriving DecidableEq, Repr

/-- Who makes an access that crosses the fabric: the scalar front end, the vector unit or the fetch of a hart, a copy of a core
(source or destination side, notices), a merge network's read or write, a message of a ring, the agents of a package. The
second number tells apart accesses that one agent holds together. (DESIGN CHOICE: log entry 90) -/
inductive Who where
  | scalar (hart phase : Nat)
  | vector (hart : Nat)
  | fetch (hart phase : Nat)
  | copy (core copy side : Nat)
  | merge (ring part : Nat)
  | message (ring : Nat)
  | agent (pkg part : Nat)
  deriving DecidableEq, Repr

/-! ### Harts -/

/-- What a stalled hart waits for (R25 `WaitUntil`, R150); `drain` is a wait for its queue entries that R242 lists, `queueEmpty` another
one. The instruction executes again when the hart issues. (DESIGN CHOICE: log entry 11) -/
inductive Wait where
  | none
  | recv
  | recvVector
  | wfe
  | fullEmpty (granule : Nat)
  | barrier (loc : Nat)
  | delivery (r : Reg)
  | drain
  | queueEmpty
  | queueRoom
  | oldest
  | copySlot
  | mergeSlot
  | injection
  | vestibule
  | pins
  | migration
  | remote
  | stopping
  | spill
  deriving DecidableEq, Repr, Inhabited

/-- One entry of the vector queue (R155, R156, R161). `id` names the entry on its core in commit order; `pins` are the pages that
a memory form holds (R118, R286). -/
structure Entry where
  id : Nat
  insn : Word
  x : PVal
  crm : BitVec 3
  db : Bool
  first : Bool
  ccount : Nat
  slot : Nat
  start : Nat
  pend : Tab PVal
  pins : List Pin
  frozen : Bool
  started : Bool
  parked : Bool
  deriving DecidableEq, Repr

/-- A convoy that passed its checks and waits for queue entries (R155): header address, `DB` and the member words. -/
structure PendingConvoy where
  addr : Nat
  db : Bool
  words : List Word
  deriving DecidableEq, Repr

/-- What a fork saves as F and its chunks start from (R203, R23): the vector state, the controls and the privilege of the
forking hart. -/
structure Saved where
  v : Tab (Tab PVal)
  m : Tab (BitVec 128)
  vl : Nat
  lanes : Mem
  fstat : Word
  vstat : Word
  hctl : Word
  priv : BitVec 2
  deriving DecidableEq, Repr

/-- An item of a declaration set (R200). -/
inductive DeclItem where
  | carry (r : Reg)
  | indImm (r : Reg) (stride : BitVec 13)
  | indReg (r s : Reg)
  | red (r : Reg) (op : RedOp)
  | vlive (v : VReg)
  deriving DecidableEq, Repr

/-- The exact partial of a reduction register (R39, R300): a sum in units of 2^-1074 for the additions of floating point,
a word for the other operators, and what was seen. -/
structure Partial where
  sum : Int
  val : Word
  negInf : Bool
  posInf : Bool
  nan : Bool
  poison : Bool
  deriving DecidableEq, Repr

/-- A fork that runs sequentially on its own hart (R202, R203 with c = n). -/
structure SeqFork where
  n : Nat
  i : Nat
  body : Nat
  target : Nat
  decls : List DeclItem
  x0 : Tab PVal
  saved : Saved
  parts : Tab Partial
  chunkno : Nat
  deriving DecidableEq, Repr

/-- A pending supervisor event (R144): cause code, `TADDR`, `TVAL`. -/
structure Event where
  code : Nat
  addr : Word
  val : Word
  deriving DecidableEq, Repr

/-- A hart slot and all the state of the hart in it (R10, R13). `engine` is set in an engine hart (R15, R18), `vecRole` where
its microcode declares a vector role (R10). -/
structure Hart where
  live : Bool
  engine : Bool
  vecRole : Bool
  stopped : Bool
  retiring : Bool
  pc : Word
  x : Tab PVal
  v : Tab (Tab PVal)
  m : Tab (BitVec 128)
  vl : Nat
  lanes : Mem
  queue : List Entry
  pendConvoy : Option PendingConvoy
  fstat : Word
  vstat : Word
  hctl : Word
  rxwdog : Word
  rxCount : Nat
  tcause : Word
  tpc : Word
  tqpos : Word
  telem : Word
  taddr : Word
  tval : Word
  tvec : Word
  priv : BitVec 2
  ppriv : BitVec 2
  route : BitVec 2
  spec : Bool
  ctx : Nat
  ringidx : Nat
  chunkno : Nat
  latch : Bool
  wait : Wait
  yielded : List Nat
  events : List Event
  decls : List DeclItem
  forks : List SeqFork
  deriving DecidableEq, Repr, Inhabited

/-- An empty slot: every register zero and unpoisoned (R23), `HCTL` at 0x10 (R13). (DESIGN CHOICE: log entry 9) -/
def Hart.empty : Hart :=
  { live := false, engine := false, vecRole := false, stopped := false, retiring := false, pc := 0, x := [], v := [], m := [], vl := 0,
    lanes := { cells := [], marks := [] }, queue := [], pendConvoy := none, fstat := 0, vstat := 0, hctl := 0x10,
    rxwdog := 0, rxCount := 0, tcause := 0, tpc := 0, tqpos := 0, telem := 0, taddr := 0, tval := 0, tvec := 0,
    priv := 0, ppriv := 0, route := 0, spec := false, ctx := 0, ringidx := 0, chunkno := 0, latch := false,
    wait := .none, yielded := [], events := [], decls := [], forks := [] }

/-! ### Cores -/

/-- A fragment of the operand ring (R193): its containers with their poison, and its length. -/
structure Fragment where
  len : Nat
  data : Tab PVal
  deriving DecidableEq, Repr

/-- A solve slot (R197). -/
structure SolveSlot where
  len : Nat
  base : Nat
  cur : Word
  hash : Word
  dl : Nat
  iter : Nat
  svalid : Bool
  active : Bool
  owner : Nat
  deriving DecidableEq, Repr

/-- A handler table entry (R230): its two dwords. -/
structure Handler where
  w0 : Word
  w1 : Word
  deriving DecidableEq, Repr

/-- Where a copy stands (R169 to R174). -/
inductive CopyPhase where
  | kicked | moving | adding | record
  deriving DecidableEq, Repr

/-- A copy in flight (R169 to R174): who kicked it, the descriptor once read, the prefix performed, the prefix counted
into the barrier word, the status and address it ends with, and the pages it holds (R286). -/
structure Copy where
  id : Nat
  addr : Nat
  ctx : Nat
  priv : BitVec 2
  phase : CopyPhase
  desc : List PVal
  pos : Nat
  counted : Nat
  status : Nat
  stAddr : Nat
  pins : List Pin
  deriving DecidableEq, Repr

/-- A core and what its harts share. `mxTiles` lists tile elements by 4096·t + 64·i + j. -/
structure Core where
  fused : Bool
  halfLanes : Bool
  strict : Bool
  opp : Nat
  last : Nat
  commitSeq : Nat
  reserved : List (Nat × Nat)
  queueWait : List Nat
  mxOwner : Option Nat
  mxMvl : Nat
  mxType : BitVec 4
  mxTiles : Tab PVal
  mxWait : List Nat
  landing : Option Fragment
  outBuf : Option Fragment
  solve : Tab SolveSlot
  handlers : Tab Handler
  recvQ : List (Word × Nat)
  recvWait : List Nat
  msgdrop : Nat
  hintdrop : Nat
  copies : List Copy
  copySeq : Nat
  copyWait : List Nat
  deriving DecidableEq, Repr

/-- A core at package reset (R153, R193, R197, R230, R235). (DESIGN CHOICE: log entry 9) -/
def Core.initial : Core :=
  { fused := false, halfLanes := false, strict := false, opp := 0, last := 7, commitSeq := 0, reserved := [],
    queueWait := [], mxOwner := none, mxMvl := 1, mxType := 0, mxTiles := [], mxWait := [], landing := none,
    outBuf := none, solve := [], handlers := [], recvQ := [], recvWait := [], msgdrop := 0, hintdrop := 0, copies := [],
    copySeq := 0, copyWait := [] }

/-! ### Rings -/

/-- The life of a chunk (R216). -/
inductive ChunkState where
  | waiting | spec | ended | oldest | commit
  deriving DecidableEq, Repr

/-- A chunk of a parallel fork (R207 to R216): its versions (bytes, the words whose marker
they set and those whose marker they clear), the words it has exposed-read, its
start and end values of the carried registers, and its partials. `fenced` tells that it executed a fence while speculative, so that
its versions drain as it becomes oldest, `vvOpen` that a `fence.vv` found entries queued, so that its stores as the oldest chunk
perform at once (R182, R212). -/
structure Chunk where
  num : Nat
  state : ChunkState
  hart : Nat
  i : Nat
  starts : Tab PVal
  verified : Bool
  ends : Option (Tab PVal)
  bytes : List Host.Cell
  marks : List Nat
  clears : List Nat
  reads : List Nat
  parts : Tab Partial
  exited : Bool
  fenced : Bool
  vvOpen : Bool
  noRoom : Bool
  deriving DecidableEq, Repr

/-- A fork that runs in parallel (R202, R203): the frame the sequencer keeps. `prev` are the start values of the chunk that
committed last, which the prediction uses (R208). `forker` is the forking hart as it was at the fork, or, once `parked` is set, as
chunk 0 left it before another chunk ran on it (R207, R217). -/
structure Fork where
  hart : Nat
  strip : Bool
  n : Nat
  c : Nat
  body : Nat
  target : Nat
  decls : List DeclItem
  x0 : Tab PVal
  saved : Saved
  chunks : List Chunk
  oldest : Nat
  created : Nat
  last : Option Nat
  folds : Tab Partial
  fflags : BitVec 5
  vflags : BitVec 5
  singcol : Option (BitVec 6)
  chunkno : Nat
  prev : Tab PVal
  forker : Hart
  parked : Bool
  deriving DecidableEq, Repr

/-- A message packet (R220, R226, R227): destination word, header word and payload words. `dir` is the ring it runs on,
`crossed` whether it has crossed the dateline, `vc` the channel it was injected on, `esc` the stop it is entering on the
escape channel, `notice` whether a lease agent sent it (R345). -/
structure Packet where
  id : Nat
  dest : Word
  header : Word
  payload : List Word
  dir : Nat
  crossed : Bool
  vc : Nat
  esc : Option Nat
  notice : Bool
  deriving DecidableEq, Repr

/-- A flit of a packet at a stop (R222, R223): `chan` is 0 for VC0, 1 for VC1 and 2 for the escape channel; `shared` tells
whether it holds a slot of the shared pool. -/
structure Flit where
  pkt : Nat
  seq : Nat
  chan : Nat
  shared : Bool
  deriving DecidableEq, Repr

/-- What resolution decided (R231). -/
inductive Resolution where
  | queue
  | handler (pc : Word) (sup : Bool) (ctx : Nat) (cause : Nat)
  deriving DecidableEq, Repr

/-- One stop of one message ring (R222): the flits at its input, the packet whose tail has yet to enter on each channel, the
packets waiting for injection with the flits of the first already sent, and the ejection buffer with the flits that have
reached it, when the packet arrived and what resolution decided. -/
structure Stop where
  input : List Flit
  entering : Tab Nat
  inj : List Nat
  injSent : Nat
  eject : Option Nat
  ejected : Nat
  arrived : Nat
  resolved : Option Resolution
  deriving DecidableEq, Repr

/-- An empty stop. -/
def Stop.empty : Stop :=
  { input := [], entering := [], inj := [], injSent := 0, eject := none, ejected := 0, arrived := 0, resolved := none }

/-- A merge command (R246, R247): the block and descriptor table as read at acceptance. -/
structure MergeCmd where
  addr : Nat
  ctx : Nat
  priv : BitVec 2
  core : Nat
  block : List PVal
  table : List PVal
  fault : Option Nat
  deriving DecidableEq, Repr

/-- How a merge command ends (R254). -/
structure MergeEnd where
  status : Nat
  flags : BitVec 3
  rows : Nat
  detail : Word
  deriving DecidableEq, Repr

/-- The running merge command (R255): the header as read, the line it is at, the entries done, the cursors, the flags so far,
whether its first pointer is written, and how it has ended. -/
structure MergeRun where
  cmd : MergeCmd
  hdr : List PVal
  line : Nat
  entries : Nat
  cursors : List Nat
  flags : BitVec 3
  begun : Bool
  done : Option MergeEnd
  deriving DecidableEq, Repr

/-- The ring program on a ring (R298) and the launch it belongs to; `want` is the byte of its placement map (R291). -/
structure Program where
  hart : Nat
  launch : Nat
  ctx : Nat
  prio : Nat
  ringidx : Nat
  seq : Nat
  record : List Word
  want : Nat
  deriving DecidableEq, Repr

/-- A ring: its program, the parallel fork of its sequencer, its special-function units, message rings and merge network.
`stops` is keyed by 8·direction + position; `stalled` are the harts that were blocked as `RINGSTALL` was raised, until one of them
has left that state (R242); `sfuFused` lists the special-function units that are fused off (R239). -/
structure Ring where
  prog : Option Program
  fork : Option Fork
  sfuFused : List Nat
  sfu : Tab (List (Nat × Nat))
  stops : Tab Stop
  packets : Tab Packet
  packetSeq : Nat
  arrivalSeq : Nat
  stalled : List Nat
  mergeQ : List MergeCmd
  mergeRun : Option MergeRun
  mergeWait : List Nat
  deriving DecidableEq, Repr

/-- A ring with nothing on it. (DESIGN CHOICE: log entry 9) -/
def Ring.initial : Ring :=
  { prog := none, fork := none, sfuFused := [], sfu := [], stops := [], packets := [], packetSeq := 0, arrivalSeq := 0, stalled := [], mergeQ := [],
    mergeRun := none, mergeWait := [] }

/-! ### Dies -/

/-- A resident context of a die (R279, R284, R285): descriptor fields and the vector translation table with its poison. -/
structure Resident where
  ctx : Nat
  root : Nat
  apBase : Nat
  apLen : Nat
  img : Nat
  tvec : Word
  vtt : Tab PVal
  deriving DecidableEq, Repr

/-- A translation a die may reuse until a `tlbinv` covers it (R283). -/
structure Trans where
  ctx : Nat
  va : Nat
  size : Nat
  pa : Nat
  perm : BitVec 5
  deriving DecidableEq, Repr

/-- The tokens of one line on one die (R268): tokens held by each core, which core holds the owner token, the agent whose persistent
request is active, with those whose requests wait, and the attempts that agents have made in vain (R269); and, as masks, which of
its four sectors the caches of the die hold and which of these are dirty (R266). An agent is numbered twice its hart, plus one where it is
the hart's vector agent. (DEDUCED: log entry 37) -/
structure LineTokens where
  held : Tab Nat
  owner : Option Nat
  persistent : List Nat
  unserved : Tab Nat
  valid : Nat
  dirty : Nat
  deriving DecidableEq, Repr

/-- An orphan line as the L2 holds it (R316): the mask of its sectors, its bytes, and its marked words, one bit each. (DEDUCED: log entry 46) -/
structure OrphanLine where
  sectors : Nat
  bytes : List Byte
  marks : Nat
  deriving DecidableEq, Repr

/-- A compute die (R266 to R274, R285, R315, R316); `orphans` are its orphan lines by their line numbers,
`slicesFused` its L2 slices that are fused off (R267). -/
structure Die where
  failed : Bool
  resident : List (Option Resident)
  tlb : List Trans
  lines : Tab LineTokens
  eccce : Nat
  eccue : Nat
  ecclog : Word
  sramce : Nat
  sramue : Nat
  orphans : Tab OrphanLine
  slicesFused : List Nat
  deriving DecidableEq, Repr

/-- A die at package reset. (DESIGN CHOICE: log entry 9) -/
def Die.initial : Die :=
  { failed := false, resident := [], tlb := [], lines := [], eccce := 0, eccue := 0, ecclog := 0, sramce := 0,
    sramue := 0, orphans := [], slicesFused := [] }

/-! ### The package, its hosts, the fabric and the leases -/

/-- A launch record in the Vestibule or being placed (R291, R293): its eight dwords, the next ring index to place, and once
it has been checked (R295) the bytes of its map. -/
structure Record where
  id : Nat
  words : List Word
  placed : Nat
  map : Option (List Nat)
  deriving DecidableEq, Repr

/-- A launch some of whose ring programs have been placed (R302): those that have not yet ended, and the status a failure
gave it. -/
structure Launch where
  id : Nat
  words : List Word
  unplaced : Nat
  running : List Nat
  status : Nat
  deriving DecidableEq, Repr

/-- What a saved hart keeps that its record in the save slot has no field for (R300): the frames of its sequential forks, its
pending events (R144), and whether it had stopped for lack of a trap vector (R138). (DESIGN CHOICE: log entry 77) -/
structure SavedHart where
  slot : Nat
  forks : List SeqFork
  events : List Event
  stopped : Bool
  deriving DecidableEq, Repr

/-- A ring program that a pre-emption saved (R296, R299): its save slot, the live positions of its ring, the byte of its map,
and what the slot has no field for: of its harts, of the oldest chunk (its next iteration), the scopes of the words in
the receive queues, the solve slots its context owns at each position (R197), and the events that it takes when it is restored (R274). (DESIGN CHOICE: log entry 77) -/
structure SavedProgram where
  launch : Nat
  ctx : Nat
  ringidx : Nat
  prio : Nat
  seq : Nat
  addr : Nat
  words : List Word
  live : List Nat
  want : Nat
  harts : List SavedHart
  iter : Nat
  scopes : Tab (List Nat)
  owned : Tab (List Nat)
  checks : List Event
  deriving DecidableEq, Repr

/-- What the package sends to its hosts: interrupts, answers to reads, posted memory writes of the copy engines (R313), and
answers of the DOE mailbox. (DESIGN CHOICE: log entry 88) -/
inductive HostOut where
  | memoryWrite (port addr : Nat) (bytes : List Byte)
  | msix (port vec : Nat)
  | readData (bytes : List Byte)
  | readAbort
  | readUnsupported
  | registerValue (w : Word)
  | doeResponse (bytes : List Byte)
  | doeError
  deriving DecidableEq, Repr

/-- A fabric packet (R329): header fields, payload flits as word pairs, and the bit errors its slices picked up, a header
error of slice `i` (a mask over the control field) under key `i` and an error of payload flit `k` (a mask over the symbol) under
key `64·(k+1)+i`. Once the packet has been received, `errors` lists the payload flits that are uncorrectable. `txn`, the number of a request, ties a
response to its request, as the spec's "in request order" does. (DESIGN CHOICE: log entry 90) -/
structure FabPacket where
  dst : Nat
  src : Nat
  ch : Nat
  type : Nat
  seq : Nat
  txn : Nat
  payload : List (Word × Word)
  errors : SliceErrors
  deriving DecidableEq, Repr

/-- One element of a request (R329, R339): `pos` is the index of its first byte in the access, `target` and `la` where it goes,
`size` its bytes, `data` and `cmp` its operands. -/
structure RemElem where
  pos : Nat
  target : Nat
  la : Nat
  size : Nat
  data : Word
  cmp : Word
  deriving DecidableEq, Repr

/-- A packet of an access whose response is due: its number, and which frames (an ACCEPT) or elements it carries. -/
structure Sent where
  num : Nat
  accept : Bool
  idx : List Nat
  deriving DecidableEq, Repr

/-- An access over the fabric (R338, R339): who makes it, with what kind and pages; the frames that it asked acceptance for
and the causes it got (0: accepted); the elements under way with their responses (data, poison, status); and the packets not yet
answered. `id` is its name, and its packets are numbered from 65536·id by `count`. (DESIGN CHOICE: log entry 90) -/
structure Txn where
  id : Nat
  count : Nat
  who : Who
  ctx : Nat
  kind : Nat
  amo : Nat
  pins : List Pin
  frames : List (Nat × Nat)
  answers : Tab Nat
  elems : List RemElem
  resps : Tab (Word × Bool × Nat)
  sent : List Sent
  deriving DecidableEq, Repr

/-- An UNPIN whose response is due (R338): its packet, the access it belongs to, and the first address of its unit at its target. (DESIGN CHOICE: log entry 90) -/
structure Unpin where
  num : Nat
  who : Who
  ctx : Nat
  target : Nat
  la : Nat
  deriving DecidableEq, Repr

/-- An acceptance that a target holds (R338): the package and the access it was given to, and its 1 GiB unit. -/
structure Accepted where
  requester : Nat
  txn : Nat
  unit : Nat
  deriving DecidableEq, Repr

/-- The states of a lease at the borrower (R360). -/
inductive BorrowState where
  | requested | granted | reclaiming | demoted | lost
  deriving DecidableEq, Repr

/-- A lease at the borrower (R347, R350, R356): frames below `migrated` are backed by the Escrow. `serial` tells leases apart
that had the same handle one after the other, as the agents' messages must (R360). (DESIGN CHOICE: log entry 101) -/
structure Borrow where
  handle : Nat
  serial : Nat
  state : BorrowState
  ctx : Nat
  lender : Nat
  units : Nat
  escrow : Nat
  mbox : Nat
  tag : Nat
  lease : Nat
  base : Nat
  wfin : Nat
  deadline : Nat
  migrated : Nat
  deriving DecidableEq, Repr

/-- A request the lender holds (R351). `reqno` is the name of the borrower's lease: its handle and 2^16 times its serial. -/
structure LeaseReq where
  borrower : Nat
  reqno : Nat
  units : Nat
  wmin : Nat
  deriving DecidableEq, Repr

/-- A lease at the lender (R352, R355). `marked` is a grant that still waits for pins. -/
structure Lend where
  id : Nat
  borrower : Nat
  reqno : Nat
  base : Nat
  units : Nat
  wfin : Nat
  mbox : Nat
  marked : Bool
  deadline : Option Nat
  deriving DecidableEq, Repr

/-- A message between lease agents (R360); `handle` is the name of the borrower's lease, as in `LeaseReq`. -/
inductive LeaseMsg where
  | request (borrower handle units wmin : Nat)
  | grant (lender handle lease base wfin : Nat)
  | refuse (lender handle : Nat)
  | cancel (borrower handle : Nat)
  | reclaim (lender handle : Nat)
  | done (borrower handle : Nat)
  | revoke (lender handle : Nat)
  | giveBack (borrower handle : Nat)
  deriving DecidableEq, Repr

/-- A migration that is in progress (R288): the page of `size` bytes at `va` of a context of a package moves from the
physical base `old` to `new`, and requests to the old frames are forwarded. -/
structure Migration where
  pkg : Nat
  ctx : Nat
  va : Nat
  old : Nat
  new : Nat
  size : Nat
  deriving DecidableEq, Repr

/-- A package (R303 to R324, R331, R337, R341, R345). `state` is `PKGSTAT.STATE`: 0 BOOT, 1 READY, 2 RECOVERY,
3 THERMAL. `expert` lists the contexts whose `CTXCTL.EXPERT` is 1, `hot` is set from a thermal stop
until the dies have cooled (R323). `msix` holds the dwords of the MSI-X tables, those of port q from 128·q on, `msixPending` the
pending bits, by 64·port + vector, `aer` the uncorrectable errors that a port has logged (R309, R312). `outbox` are the packets that wait for a credit of their channel, `rooms` the room reserved at
the receive port for responses (request, channel, flits) (R332, R334), `fabCorrected` the flits corrected (R328), and
`agentWrites` the mailbox records that the lease agent has yet to write in another package (R353). -/
structure Pkg where
  state : Nat
  edge : BitVec 2
  timebase : Nat
  ctxtab : Word
  memwin : Word
  vestdrop : Nat
  recdrop : Nat
  hosterr : Nat
  health : Word
  pwrlim : Nat
  alertctl : Word
  ctxevt : Word
  msix : Tab Word
  msixPending : List Nat
  aer : Tab Nat
  links : Tab Bool
  throttled : Bool
  hot : Bool
  firmware : List Byte
  nextFirmware : Option (List Byte)
  rollback : Nat
  badSectors : List Nat
  scrubbed : List Nat
  fusedSites : List Nat
  expert : List Nat
  vestibule : List Record
  recordSeq : Nat
  launches : List Launch
  saved : List SavedProgram
  dispatchSeq : Nat
  orphanSeen : Bool
  dieNet : List Packet
  expw : Tab Word
  down : Bool
  sliceLive : List Nat
  isolated : List Nat
  fablog : Word
  lagdest : Word
  txSeq : Tab Nat
  outbox : List FabPacket
  rooms : List (Nat × Nat × Nat)
  rx : List FabPacket
  fabIn : List FabPacket
  fabCorrected : Nat
  txns : List Txn
  txnSeq : Nat
  unpins : List Unpin
  accepts : List Accepted
  borrows : List Borrow
  lends : List Lend
  requests : List LeaseReq
  leaseSeq : Nat
  leaseIn : List LeaseMsg
  agentWrites : List (Nat × List Word)
  hostOut : List HostOut
  deriving DecidableEq, Repr

/-- A package at power-on (R311, R318): STATE is BOOT and the registers hold their reset values. (DESIGN CHOICE: log entry 9) -/
def Pkg.initial : Pkg :=
  { state := 0, edge := 0, timebase := 0, ctxtab := 0, memwin := 0, vestdrop := 0, recdrop := 0, hosterr := 0,
    health := 0xFFFF, pwrlim := 2800, alertctl := 0, ctxevt := 0, msix := [], msixPending := [], aer := [], links := [], throttled := false, hot := false,
    firmware := [], nextFirmware := none, rollback := 0, badSectors := [], scrubbed := [], fusedSites := [], expert := [],
    vestibule := [], recordSeq := 0, launches := [], saved := [], dispatchSeq := 0, orphanSeen := false,
    dieNet := [], expw := [], down := false, sliceLive := [], isolated := [], fablog := 0, lagdest := 0, txSeq := [],
    outbox := [], rooms := [], rx := [], fabIn := [], fabCorrected := 0, txns := [], txnSeq := 0, unpins := [], accepts := [], borrows := [], lends := [], requests := [],
    leaseSeq := 0, leaseIn := [], agentWrites := [], hostOut := [] }

/-! ### The machine -/

/-- What moves next: the issue opportunity of a core, the vector unit working for the entry at a position of a hart's queue, as far
as it comes or for one element group (R159), an event, a core's persistent request (R269), a line that a die's L2 writes back and drops (R266), an uncorrectable
error that appears in a sector of memory and that nobody has read yet (R272), an error that a die corrects in its memory
or in its on-chip storage (R272, R274), or that the dies of a package have fallen below 95 °C (R323). -/
inductive Act where
  | issue (core : Nat)
  | vector (hart pos : Nat)
  | group (hart pos : Nat)
  | event (i : Instr)
  | persist (core line : Nat)
  | decay (pkg sector : Nat)
  | writeback (die line : Nat)
  | corrected (die : Nat) (sram : Bool)
  | cooled (pkg : Nat)
  deriving DecidableEq, Repr

/-- A waiter on a full/empty bit (R168), in order of arrival: granule, hart, whether it waits for full. -/
structure FeWaiter where
  granule : Nat
  hart : Nat
  full : Bool
  deriving DecidableEq, Repr

/-- The whole machine. `cur` is the hart that executes, `entry` the vector queue entry it executes (the entry's `id`),
`byGroup` whether the vector unit stops after one element group,
`dropped` the harts whose `tlbinv` has dropped its translations and waits for pins (R287),
`agenda` the moves already fixed (inputs from outside stand there), `free` the counter behind the free values. -/
structure State where
  pkgs : Tab Pkg
  dies : Tab Die
  rings : Tab Ring
  cores : Tab Core
  harts : Tab Hart
  mem : Mem
  full : List Nat
  feWait : List FeWaiter
  wires : List FabPacket
  migrations : List Migration
  dropped : List Nat
  cur : Nat
  entry : Nat
  byGroup : Bool
  agenda : List Act
  free : Nat
  deriving DecidableEq, Repr

/-- Why the machine stops. (DESIGN CHOICE: log entry 107) -/
inductive Fault where
  /-- Raised by the meaning of an event that names a unit the part does not have (a package above 127, a die above 3, a
  ring above 15, a core or slot above 7). Safe: the spec gives no such unit, and the model stops. -/
  | noSuchUnit
  deriving DecidableEq, Repr

/-- Why an instruction has no meaning here. (DESIGN CHOICE: log entry 107) -/
inductive Refusal where
  /-- Raised by an arm of `exec` whose instruction has no meaning yet. Safe: the model stops. -/
  | notModelled (mnemonic : String)
  deriving DecidableEq, Repr

/-- The machine right after reset: memory lists nothing, every component is at its reset record, no move is fixed. (DESIGN CHOICE: log entry 8, DESIGN CHOICE: log entry 9) -/
def State.reset : State :=
  { pkgs := [], dies := [], rings := [], cores := [], harts := [], mem := { cells := [], marks := [] }, full := [],
    feWait := [], wires := [], migrations := [], dropped := [], cur := 0, entry := 0, byGroup := false, agenda := [], free := 0 }

end Sys2Proof.Machine
end

