-- ==== Sys2Proof/Machine/Sparse.lean ====
section
/-! DEFINITION. The operations over finite tables and over byte memory that every other definition uses. A table is read at
the first entry of a key, so that reading after writing answers what was written whatever the table. -/

namespace Sys2Proof.Machine

/-- The value of a table at a key, `d` where the key is not listed. -/
def tget {α : Type} (d : α) : Tab α → Nat → α
  | [], _ => d
  | (a, v) :: r, k => if a = k then v else tget d r k

/-- Enter a value under a key, in the place that keeps rising keys rising. -/
def tput {α : Type} : Tab α → Nat → α → Tab α
  | [], k, v => [(k, v)]
  | (a, w) :: r, k, v => if a = k then (k, v) :: r else if k < a then (k, v) :: (a, w) :: r else (a, w) :: tput r k v

/-- Remove a key. -/
def tdel {α : Type} (m : Tab α) (k : Nat) : Tab α := m.filter (fun e => e.1 != k)

/-- Write a value so that a value equal to the default is not listed. -/
def tset {α : Type} [DecidableEq α] (d : α) (m : Tab α) (k : Nat) (v : α) : Tab α :=
  if v = d then tdel m k else tput m k v

/-- Change the value under a key. -/
def tmod {α : Type} (d : α) (m : Tab α) (k : Nat) (f : α → α) : Tab α := tput m k (f (tget d m k))

/-- The element of a list at an index, or a default. -/
def lget {α : Type} (d : α) (l : List α) (i : Nat) : α := l.getD i d

/-- Enter a number in a rising list of numbers. -/
def sins (k : Nat) : List Nat → List Nat
  | [] => [k]
  | a :: r => if a = k then a :: r else if k < a then k :: a :: r else a :: sins k r

/-- Remove a number. -/
def sdel (k : Nat) (l : List Nat) : List Nat := l.filter (· != k)

/-- Append a number unless it is there already. -/
def joinLast (k : Nat) (l : List Nat) : List Nat := if k ∈ l then l else l ++ [k]

/-- The byte at an address; an unlisted address reads as zero. (DESIGN CHOICE: log entry 8) -/
def Mem.byte (m : Mem) (a : Nat) : Byte := tget 0 m.cells a

/-- Whether the byte at an address lies in a marked word (R77). (DESIGN CHOICE: log entry 8) -/
def Mem.marked (m : Mem) (a : Nat) : Bool := m.marks.contains (a / 8)

/-- Write one byte. -/
def Mem.setByte (m : Mem) (a : Nat) (b : Byte) : Mem := { m with cells := tset 0 m.cells a b }

/-- Mark the word of an address. -/
def Mem.mark (m : Mem) (a : Nat) : Mem := { m with marks := sins (a / 8) m.marks }

/-- Clear the marker of the word of an address. -/
def Mem.unmark (m : Mem) (a : Nat) : Mem := { m with marks := sdel (a / 8) m.marks }

/-- Make `n` bytes from `a` zero and unmarked. -/
def Mem.clear (m : Mem) (a n : Nat) : Mem :=
  { cells := m.cells.filter (fun c => c.1 < a || a + n ≤ c.1),
    marks := m.marks.filter (fun w => w < a / 8 || (a + n + 7) / 8 ≤ w) }

/-- Mark every word of `n` bytes from `a`, their data zero (R272 step 1). -/
def Mem.poisonRange (m : Mem) (a n : Nat) : Mem :=
  let m' := m.clear a n
  (List.range (n / 8)).foldl (fun r i => r.mark (a + 8 * i)) m'

/-- The entries of a table below a bound and not below another. -/
def tslice {α : Type} (m : Tab α) (lo hi : Nat) : Tab α := m.filter (fun e => lo ≤ e.1 && e.1 < hi)

/-- Copy `n` bytes with their markers from one place to another: what the destination held is gone. -/
def Mem.move (m : Mem) (src dst n : Nat) : Mem :=
  let base := m.clear dst n
  let cells := (tslice m.cells src (src + n)).foldl (fun c e => tset 0 c (e.1 - src + dst) e.2) base.cells
  let marks := (m.marks.filter (fun w => src / 8 ≤ w && w < (src + n) / 8)).foldl
    (fun l w => sins (w - src / 8 + dst / 8) l) base.marks
  { cells := cells, marks := marks }

/-- The little-endian number of `n` bytes from `a`. -/
def Mem.num (m : Mem) (a : Nat) : Nat → Nat
  | 0 => 0
  | n + 1 => (m.byte a).toNat + 256 * m.num (a + 1) n

/-- Write the low `n` bytes of a number from `a`, little-endian (R6). -/
def Mem.setNum (m : Mem) (a : Nat) : Nat → Nat → Mem
  | 0, _ => m
  | n + 1, v => (m.setByte a (BitVec.ofNat 8 v)).setNum (a + 1) n (v / 256)

/-- Whether any of `n` bytes from `a` lies in a marked word. -/
def Mem.anyMarked (m : Mem) (a n : Nat) : Bool :=
  m.marks.any (fun w => a / 8 ≤ w && w * 8 < a + n && n != 0)

/-- Whether a list of numbers rises strictly. -/
def rising : List Nat → Bool
  | [] => true
  | [_] => true
  | a :: b :: r => decide (a < b) && rising (b :: r)

/-- The canonical form of a memory: addresses rise strictly, no listed byte is zero, and the marks rise strictly. -/
def Mem.wf (m : Mem) : Bool :=
  rising (m.cells.map (·.1)) && m.cells.all (fun c => c.2 != 0) && rising m.marks

end Sys2Proof.Machine
end

