-- ==== Sys2Proof/Machine/Ops.lean ====
section
/-! DEFINITION. The named operations over the state: keys, registers, waiting, supervisor events (R144, R145), taking an
exception (R135 to R138) and returning from one (R85). -/

namespace Sys2Proof.Machine

/-- What a meaning answers. -/
abbrev Out := Host.Outcome State Fault Refusal

/-- An event whose condition does not hold does not come about: the machine goes on as it is. (DESIGN CHOICE: log entry 107) -/
def State.noEvent (s : State) : Out := .next s

/-! ### Keys (R15) -/

/-- Bits 25:0 of `HARTID`: an engine hart's key without its kind. -/
abbrev hartBits (h : Nat) : Nat := h % 67108864
/-- The core of a hart. -/
abbrev coreOf (h : Nat) : Nat := hartBits h / 8
/-- The slot of a hart. -/
abbrev slotOf (h : Nat) : Nat := h % 8
/-- The ring of a core. -/
abbrev ringOfCore (c : Nat) : Nat := c / 8
/-- The position of a core on its ring. -/
abbrev posOf (c : Nat) : Nat := c % 8
/-- The ring of a hart. -/
abbrev ringOf (h : Nat) : Nat := hartBits h / 64
/-- The die of a ring. -/
abbrev dieOfRing (r : Nat) : Nat := r / 256
/-- The die of a hart. -/
abbrev dieOf (h : Nat) : Nat := hartBits h / 16384
/-- The package of a die. -/
abbrev pkgOfDie (d : Nat) : Nat := d / 16
/-- The package of a ring. -/
abbrev pkgOfRing (r : Nat) : Nat := r / 4096
/-- The package of a hart. -/
abbrev pkgOf (h : Nat) : Nat := hartBits h / 262144
/-- The ring at a number on a die. -/
abbrev ringKey (die ring : Nat) : Nat := die * 256 + ring
/-- The core at a position of a ring. -/
abbrev coreKey (ring pos : Nat) : Nat := ring * 8 + pos
/-- The hart in a slot of a core. -/
abbrev hartKey (core slot : Nat) : Nat := core * 8 + slot
/-- The die at a number of a package. -/
abbrev dieKey (pkg die : Nat) : Nat := pkg * 16 + die

/-- Whether a ring exists on the DN-4816 (R3): packages 0 to 127, dies 0 to 3, rings 0 to 15. (DESIGN CHOICE: log entry 10) -/
def ringExists (r : Nat) : Bool := r / 4096 < 128 && r / 256 % 16 < 4 && r % 256 < 16

/-! ### Components -/

/-- The hart in a slot. (DESIGN CHOICE: log entry 10, DESIGN CHOICE: log entry 128) -/
abbrev State.hart (s : State) (k : Nat) : Hart := tget Hart.empty s.harts k
/-- Replace a hart. -/
abbrev State.setHart (s : State) (k : Nat) (h : Hart) : State := { s with harts := tput s.harts k h }
/-- Change a hart. -/
abbrev State.modHart (s : State) (k : Nat) (f : Hart → Hart) : State := s.setHart k (f (s.hart k))
/-- A core. (DESIGN CHOICE: log entry 10) -/
abbrev State.core (s : State) (k : Nat) : Core := tget Core.initial s.cores k
/-- Change a core. -/
abbrev State.modCore (s : State) (k : Nat) (f : Core → Core) : State := { s with cores := tput s.cores k (f (s.core k)) }
/-- A ring. (DESIGN CHOICE: log entry 10) -/
abbrev State.ring (s : State) (k : Nat) : Ring := tget Ring.initial s.rings k
/-- Change a ring. -/
abbrev State.modRing (s : State) (k : Nat) (f : Ring → Ring) : State := { s with rings := tput s.rings k (f (s.ring k)) }
/-- A die. (DESIGN CHOICE: log entry 10) -/
abbrev State.die (s : State) (k : Nat) : Die := tget Die.initial s.dies k
/-- Change a die. -/
abbrev State.modDie (s : State) (k : Nat) (f : Die → Die) : State := { s with dies := tput s.dies k (f (s.die k)) }
/-- A package. (DESIGN CHOICE: log entry 10) -/
abbrev State.pkg (s : State) (k : Nat) : Pkg := tget Pkg.initial s.pkgs k
/-- Change a package. -/
abbrev State.modPkg (s : State) (k : Nat) (f : Pkg → Pkg) : State := { s with pkgs := tput s.pkgs k (f (s.pkg k)) }
/-- The hart that executes. -/
abbrev State.me (s : State) : Hart := s.hart s.cur
/-- Change the hart that executes. -/
abbrev State.modMe (s : State) (f : Hart → Hart) : State := s.modHart s.cur f

/-- The key of an engine hart of a package: its kind is 1 for the copy engine of a core (R169), 2 for the merge network of a ring, 3 for the
gather engine of a quad, 4 for the dispatcher of a die, 5 for the lease agent of a package. -/
abbrev engineKey (pkg kind bits : Nat) : Nat := (8 * pkg + kind) * 67108864 + bits
/-- A hart in slots 0 to 3 is a vector hart (R3). -/
abbrev isVector (k : Nat) : Bool := slotOf k < 4

/-- The harts of a core that are live. -/
def State.liveOn (s : State) (core : Nat) : List Nat :=
  ((List.range 8).map (hartKey core)).filter (fun k => (s.hart k).live)

/-- The live positions of a ring, ascending (R164). -/
def State.livePositions (s : State) (ring : Nat) : List Nat :=
  (List.range 8).filter (fun p => !(s.core (coreKey ring p)).fused)

/-- `RINGSIZE` (R13, R164). -/
def State.ringSize (s : State) (ring : Nat) : Nat := (s.livePositions ring).length

/-- The live position that follows in ring order (R193); on a ring of one live core, the core itself. -/
def State.nextLive (s : State) (ring pos : Nat) : Nat :=
  let order := (List.range 8).map (fun i => (pos + 1 + i) % 8)
  ((order.filter (fun p => !(s.core (coreKey ring p)).fused)).head?).getD pos

/-- Every live hart of the rings; an engine hart belongs to none. -/
def State.liveHarts (s : State) : List Nat := (s.harts.filter (fun (e : Nat × Hart) => e.2.live && !e.2.engine)).map (·.1)

/-- Advance the counter behind the free values. -/
abbrev State.tick (s : State) : State := { s with free := s.free + 1 }

/-! ### x registers (R10, R11) -/

/-- `X(n)` with its poison: `x0` reads 0, unpoisoned. -/
def Hart.getX (h : Hart) (r : Reg) : PVal := if r = 0 then PVal.clean 0 else tget (PVal.clean 0) h.x r.toNat

/-- `SetX(n, v, p)`: a write of `x0` is discarded with its poison. -/
def Hart.setX (h : Hart) (r : Reg) (p : PVal) : Hart :=
  if r = 0 then h else { h with x := tset (PVal.clean 0) h.x r.toNat p }

/-- An x register of the executing hart. -/
abbrev State.getX (s : State) (r : Reg) : PVal := s.me.getX r
/-- Write an x register of the executing hart. -/
abbrev State.setX (s : State) (r : Reg) (p : PVal) : State := s.modMe (fun h => h.setX r p)

/-- Go on at the next word. -/
def State.advance (s : State) : State := s.modMe (fun h => { h with pc := h.pc + 4 })

/-- Write a result and go on at the next word. -/
def State.result (s : State) (d : Reg) (p : PVal) : State := (s.setX d p).advance

/-! ### Vector state (R10) -/

/-- Container `e` of `vn`. -/
def Hart.getV (h : Hart) (n e : Nat) : PVal := tget (PVal.clean 0) (tget [] h.v n) e
/-- `SetV(n, e, v, p)`. -/
def Hart.setV (h : Hart) (n e : Nat) (p : PVal) : Hart :=
  { h with v := tset [] h.v n (tset (PVal.clean 0) (tget [] h.v n) e p) }
/-- Mask register `mn`. -/
def Hart.getM (h : Hart) (n : Nat) : BitVec 128 := tget 0 h.m n
/-- Write mask register `mn`. -/
def Hart.setM (h : Hart) (n : Nat) (b : BitVec 128) : Hart := { h with m := tset 0 h.m n b }

/-- The state F of a fork (R203). -/
def Hart.save (h : Hart) : Saved :=
  { v := h.v, m := h.m, vl := h.vl, lanes := h.lanes, fstat := h.fstat, vstat := h.vstat, hctl := h.hctl,
    priv := h.priv }

/-! ### Waiting (R25 `WaitUntil`, R150) -/

/-- The executing hart stalls; the instruction executes again. (DESIGN CHOICE: log entry 11) -/
def State.stall (s : State) (w : Wait) : State := s.modMe (fun h => { h with wait := w })

/-- The name under which a vector queue entry of a hart waits for the receive queue (R93, R236). -/
abbrev vectorPop (k : Nat) : Nat := k + 2 ^ 32

/-- Take a hart out of every list of waiters (R155, R168, R169, R189, R236, R247, R287): it joins again as a new arrival. -/
def State.leaveWaits (s : State) (k : Nat) : State :=
  let c := coreOf k
  let s1 := s.modCore c (fun x => { x with
    queueWait := sdel k x.queueWait, mxWait := sdel k x.mxWait, recvWait := sdel k (sdel (vectorPop k) x.recvWait),
    copyWait := sdel k x.copyWait })
  let s2 := s1.modRing (ringOf k) (fun r => { r with mergeWait := sdel k r.mergeWait })
  { s2 with feWait := s2.feWait.filter (fun w => w.hart != k), dropped := sdel k s2.dropped }

/-- Set the event latch of every hart of a core (R86). (DEDUCED: log entry 127) -/
def State.latchCore (s : State) (core : Nat) : State :=
  (List.range 8).foldl (fun t i => t.modHart (hartKey core i) (fun h => { h with latch := Bool.or h.live h.latch })) s

/-! ### Contexts -/

/-- The resident record of a context on a die (R285). -/
def State.residentOf (s : State) (die ctx : Nat) : Option Resident :=
  (s.die die).resident.findSome? (fun r => match r with
    | some x => if x.ctx = ctx then some x else none
    | none => none)

/-- The trap vector of a context, 0 where the context is not resident (R138). -/
def State.ctxTvec (s : State) (die ctx : Nat) : Word :=
  match s.residentOf die ctx with
  | some r => r.tvec
  | none => 0

/-- `CTXCTL.EXPERT` of a hart's context (R19). -/
def State.expert (s : State) (k : Nat) : Bool := (s.pkg (pkgOf k)).expert.contains (s.hart k).ctx

/-! ### Host output and alerts (R311) -/

/-- Send something to a host. (DESIGN CHOICE: log entry 88) -/
def State.toHost (s : State) (p : Nat) (o : HostOut) : State :=
  s.modPkg p (fun x => { x with hostOut := x.hostOut ++ [o] })

/-- The vector control of an MSI-X vector: masked until the host writes its table entry. -/
def msixReset (i : Nat) : Word := if i % 2 = 1 then 0x100000000 else 0

/-- A dword of the MSI-X tables of a package (R309). -/
def Pkg.msixDword (p : Pkg) (i : Nat) : Word := tget (msixReset i) p.msix i

/-- Send an MSI-X vector on a port; a masked one becomes pending (R309). -/
def State.sendMsix (s : State) (p port vec : Nat) : State :=
  if ((s.pkg p).msixDword (128 * port + 2 * vec + 1)).getLsbD 32 then s.modPkg p (fun x => { x with msixPending := sins (64 * port + vec) x.msixPending })
  else s.toHost p (.msix port vec)

/-- Send the alert when `ALERTCTL.EN` is 1. -/
def State.alert (s : State) (p : Nat) : State :=
  let a := (s.pkg p).alertctl
  if a.getLsbD 63 then s.sendMsix p (a.extractLsb' 8 1).toNat (a.extractLsb' 0 6).toNat else s

/-- Add 1 to a counter that holds at 2^32 - 1. -/
def count32 (n : Nat) : Nat := min (n + 1) 0xFFFFFFFF

/-- Count in `HOSTERR`; the alert goes out at a multiple of 256. -/
def State.hostErr (s : State) (p : Nat) : State :=
  let n := count32 (s.pkg p).hosterr
  let s1 := s.modPkg p (fun x => { x with hosterr := n })
  if n % 256 = 0 then s1.alert p else s1

/-! ### Supervisor events (R144, R145) -/

/-- Leave an event pending in a hart and set its latch (R86, R144). -/
def State.postEvent (s : State) (k : Nat) (e : Event) : State :=
  s.modHart k (fun h => { h with events := h.events ++ [e], latch := true })

/-- Whether a hart can enter a handler (R145): it is live, not stopped, and it or its context has a trap vector. -/
def State.canEnter (s : State) (k : Nat) : Bool :=
  let h := s.hart k
  h.live && !h.stopped && (h.tvec != 0 || s.ctxTvec (dieOf k) h.ctx != 0)

/-- The ring programs of a context that can take an event: ring, program. (DESIGN CHOICE: log entry 69) -/
def State.takers (s : State) (pkg ctx : Nat) : List (Nat × Program) :=
  s.rings.filterMap (fun e => match e.2.prog with
    | some p => if pkgOfRing e.1 = pkg && p.ctx = ctx && s.canEnter p.hart then some (e.1, p) else none
    | none => none)

/-- The program of lowest `RINGIDX` in a list. (DESIGN CHOICE: log entry 69, DESIGN CHOICE: log entry 130) -/
def lowestRing : List (Nat × Program) → Option Program
  | [] => none
  | (_, p) :: r => match lowestRing r with
    | none => some p
    | some q => if p.ringidx ≤ q.ringidx then some p else some q

/-- Who takes an event raised to the supervisor of a context (R145): the program on the agent's ring, else the lowest
`RINGIDX` on its die, else the lowest in the package. -/
def State.taker (s : State) (ring ctx : Nat) : Option Nat :=
  let all := s.takers (pkgOfRing ring) ctx
  match all.filter (fun e => e.1 = ring) with
  | (_, p) :: _ => some p.hart
  | [] => match lowestRing (all.filter (fun e => dieOfRing e.1 = dieOfRing ring)) with
    | some p => some p.hart
    | none => (lowestRing all).map (·.hart)

/-- Record an event that no ring program can take in `CTXEVT` and send the alert (R145, R311). -/
def State.ctxEvent (s : State) (p ctx code : Nat) : State :=
  let n := count32 ((s.pkg p).ctxevt.extractLsb' 0 32).toNat
  let w : Word := (1 : BitVec 1) ++ (0 : BitVec 7) ++ BitVec.ofNat 8 code ++ BitVec.ofNat 16 ctx ++ BitVec.ofNat 32 n
  (s.modPkg p (fun x => { x with ctxevt := w })).alert p

/-- Raise an event to the supervisor of a context on behalf of an agent of a ring (R145). -/
def State.raise (s : State) (ring ctx code : Nat) (addr val : Word) : State :=
  match s.taker ring ctx with
  | some k => s.postEvent k { code := code, addr := addr, val := val }
  | none => s.ctxEvent (pkgOfRing ring) ctx code

/-! ### Packets of the fabric (R329, R332 to R334) -/

/-- The flits of a packet: its header and its payload (R329). -/
def FabPacket.flits (p : FabPacket) : Nat := 8 + p.payload.length

/-- The flits of the response to a request: one of the header and one for each element (R329). -/
def FabPacket.answerFlits (p : FabPacket) : Nat := 8 + (if p.type = 2 || p.type = 3 then 1 else p.payload.length)

/-- The shared flit slots of a pool (R332). -/
abbrev sharedSlots : Nat := 960

/-- The shared slots that packets (channel, flits) take of a pool: each channel owns one slot (R332). -/
def sharedUse (l : List (Nat × Nat)) : Nat :=
  ((List.range 64).map (fun c => ((l.filter (fun e => e.1 = c)).map (·.2)).sum - 1)).sum

/-- What stands in the receive port of a package: requests not yet served, and the room reserved for responses (R334). -/
def Pkg.portUse (p : Pkg) : List (Nat × Nat) :=
  ((p.fabIn ++ p.rx).filter (fun q => q.type != 6)).map (fun q => (q.ch, q.flits)) ++ p.rooms.map (·.2)

/-- What stands in the switch input port of a package. -/
def State.inputUse (s : State) (pkg : Nat) : List (Nat × Nat) := (s.wires.filter (fun q => q.src = pkg)).map (fun q => (q.ch, q.flits))

/-- Whether a package may inject a packet (R332, R334): the switch has credits for it, and of a request or a message the receive
port has room for the whole response. No request and no message leaves a package that is `DOWN` (R330). -/
def State.mayInject (s : State) (pkg : Nat) (p : FabPacket) : Bool :=
  sharedUse ((p.ch, p.flits) :: s.inputUse pkg) ≤ sharedSlots &&
  (p.type = 6 || (!(s.pkg pkg).down && sharedUse ((32 + p.ch, p.answerFlits) :: (s.pkg pkg).portUse) ≤ sharedSlots))

/-- Inject the packets of an outbox that may go; those of one channel keep their order (R332, R335). -/
def State.inject (s : State) (pkg : Nat) : List FabPacket → List Nat → State
  | [], _ => s
  | p :: r, blocked =>
    if blocked.contains p.ch || !s.mayInject pkg p then s.inject pkg r (p.ch :: blocked)
    else
      let s1 := s.modPkg pkg (fun q => { q with
        outbox := q.outbox.erase p, rooms := if p.type = 6 then q.rooms else q.rooms ++ [(p.txn, 32 + p.ch, p.answerFlits)] })
      ({ s1 with wires := s1.wires ++ [p] }).inject pkg r blocked

/-- Send a packet with the next sequence number of its channel (R329): it is injected as soon as it may. (DEDUCED: log entry 89) -/
def State.sendPacket (s : State) (src : Nat) (p : FabPacket) : State :=
  let n := tget 0 (s.pkg src).txSeq p.ch
  let s1 := s.modPkg src (fun x => { x with
    txSeq := tput x.txSeq p.ch ((n + 1) % 16), outbox := x.outbox ++ [{ p with src := src, seq := n }] })
  s1.inject src (s1.pkg src).outbox []

/-- The channel of a request (R333). -/
def requestChannel (die la : Nat) : Nat := 4 * (die % 4) + la / 4096 % 4

/-! ### Accesses over the fabric (R338, R339) -/

/-- The ring of an agent; the agents of a package act from its die 0. -/
def Who.ring : Who → Nat
  | .scalar k _ | .vector k | .fetch k _ => ringOf k
  | .copy c _ _ => ringOfCore c
  | .merge r _ | .message r => r
  | .agent p _ => ringKey (dieKey p 0) 0
/-- The package of an agent. -/
def Who.pkg (w : Who) : Nat := pkgOfRing w.ring
/-- The die of an agent. -/
def Who.die (w : Who) : Nat := dieOfRing w.ring

/-- Whether an access has packets unanswered or responses that its agent has not taken yet. -/
def Txn.busy (t : Txn) : Bool := !t.sent.isEmpty || !t.elems.isEmpty

/-- The access that an agent has under way. -/
def State.txnOf (s : State) (w : Who) : Option Txn := (s.pkg w.pkg).txns.find? (fun t => t.who == w)

/-- The 1 GiB units that an access has asked acceptance for, each with its first address. -/
def Txn.units (t : Txn) : List (Nat × Nat) :=
  t.frames.foldl (fun u f => if u.any (fun g => g.1 = f.1 && g.2 / 2 ^ 30 = f.2 / 2 ^ 30) then u else u ++ [f]) []

/-- Send an UNPIN, whose number names the access that it belongs to. -/
def State.sendUnpin (s : State) (pkg : Nat) (n : Unpin) : State :=
  (s.modPkg pkg (fun p => { p with unpins := p.unpins ++ [n] })).sendPacket pkg
    { dst := n.target, src := pkg, ch := requestChannel n.who.die n.la, type := 5, seq := 0, txn := n.num,
      payload := [(BitVec.ofNat 64 (n.la % 2 ^ 43), 0)], errors := [] }

/-- The UNPINs of an access, one for each unit, numbered after its other packets. -/
def Txn.unpins (t : Txn) : List Unpin :=
  t.units.zipIdx.map (fun e =>
    { num := 65536 * t.id + t.count + 1 + e.2, who := t.who, ctx := t.ctx, target := e.1.1, la := e.1.2 })

/-- An access ends: its acceptances are released by UNPIN (R338). Of a package that is `DOWN` nothing leaves (R330), and the targets keep
them. -/
def State.endTxn (s : State) (t : Txn) : State :=
  let pkg := t.who.pkg
  let s1 := s.modPkg pkg (fun p => { p with txns := p.txns.filter (fun x => x.id != t.id) })
  if (s.pkg pkg).down then s1 else t.unpins.foldl (fun u n => u.sendUnpin pkg n) s1

/-- An agent gives up or ends what it has under way. -/
def State.release (s : State) (w : Who) : State :=
  match s.txnOf w with
  | none => s
  | some t => s.endTxn t

/-- The reads that the merge network makes for a kick of a hart before it accepts it (R247): the block and the table. -/
abbrev kickPart (k i : Nat) : Who := .merge (ringOf k) (4 + 2 * k + i)

/-- A hart gives up every access that it has under way. -/
def State.releaseHart (s : State) (k : Nat) : State :=
    [.vector k, .fetch k 0, .fetch k 1, .scalar k 0, .scalar k 1, kickPart k 0, kickPart k 1].foldl State.release s

/-- Whether the scalar front end of a hart has an access with another package under way: it stands inside an instruction
(R339). (DEDUCED: log entry 110) -/
def State.midAccess (s : State) (k : Nat) : Bool := (s.pkg (pkgOf k)).txns.any (fun t => match t.who with
  | .scalar h _ => h = k
  | _ => false)

/-- Whether the front end of a hart waits for the vector unit to stop between element groups (R159): for a trap or an event, or since its
receive watchdog has run out in a `recv` (R147). -/
def Hart.stopping (h : Hart) : Bool :=
  h.wait == .stopping || (h.wait == .recv && h.rxwdog != 0 && h.rxwdog.toNat ≤ h.rxCount && !h.spec)

/-- Whether an element group of a hart has been begun and waits: for another package, or within the group for tokens of a line. It ends
before a stop takes effect (R159, R269, R339). -/
def State.groupAbroad (s : State) (k : Nat) : Bool :=
  (s.pkg (pkgOf k)).txns.any (fun t => t.who == .vector k && t.busy) ||
  ((s.hart k).queue.any (fun e => e.started && !e.frozen && e.start % 16 != 0) &&
    (s.die (dieOf k)).lines.any (fun l => l.2.unserved.any (fun u => u.1 = 2 * k + 1)))

/-! ### Taking an exception (R135 to R138) -/

/-- The trap record registers keep their RSV bits at zero (R135). -/
def tcauseMask : Word := 0xC0000000000000FF
/-- Bits 47:2. -/
def pcMask : Word := 0x0000FFFFFFFFFFFC

/-- What a trap entry writes: cause, position, container, address and value. -/
structure TrapInfo where
  cause : Word
  tpc : Word
  tqpos : Nat
  telem : Nat
  addr : Word
  val : Word
  deriving DecidableEq, Repr

/-- Stop an entry between element groups: it keeps its start index and the pending values of a reduction (R159), and neither its pages
nor what a special-function unit was to work on (R113). -/
def Entry.stop (e : Entry) : Entry :=
  { e with started := false, parked := false, pins := [], pend := e.pend.filter (fun p => p.1 < 16) }

/-- Stop the entries of a queue between element groups and keep them, frozen (R137 step 2). -/
def freezeQueue (q : List Entry) : List Entry := q.map (fun e => { e.stop with frozen := true })

/-- Take the requests of a hart out of the special-function units: they have not started (R113). -/
def State.cancelSfu (s : State) (k : Nat) : State :=
  s.modRing (ringOf k) (fun r => { r with sfu := r.sfu.map (fun u => (u.1, u.2.filter (fun q => q.1 != k))) })

/-- Release the units that a hart's convoys had reserved (R159): a reservation names the convoy by its first entry. -/
def State.releaseUnits (s : State) (k : Nat) : State :=
  let ids := (s.hart k).queue.map (·.id)
  s.modCore (coreOf k) (fun c => { c with reserved := c.reserved.filter (fun r => !ids.contains r.2) })

/-- The hart's share of a trap entry: the record, the privilege, the frozen queue, and the entry address. -/
def Hart.enter (h : Hart) (t : TrapInfo) (entry : Word) : Hart :=
  { h with queue := freezeQueue h.queue, tcause := t.cause &&& tcauseMask, tpc := t.tpc &&& pcMask,
           tqpos := BitVec.ofNat 64 (t.tqpos % 16), telem := BitVec.ofNat 64 (t.telem % 128), taddr := t.addr,
           tval := t.val, ppriv := h.priv, priv := if h.priv = 0 then 1 else h.priv, pc := entry, wait := .none,
           pendConvoy := none, rxCount := 0, retiring := false }

/-- The entry address of a hart (R138): `TVEC`, else the trap vector of its context, else none. -/
def State.entryPc (s : State) (k : Nat) : Option Word :=
  let h := s.hart k
  if h.tvec != 0 then some h.tvec
  else if s.ctxTvec (dieOf k) h.ctx != 0 then some (s.ctxTvec (dieOf k) h.ctx)
  else none

/-- `TVAL` of the `MACHINE_CHECK` for a hart stopped for lack of a trap vector (R138). -/
def stoppedVal (k : Nat) (cause : Word) : Word :=
  BitVec.ofNat 64 (3 + 256 * (k / 8 % 8) + 2048 * (k % 8)) ||| (cause.extractLsb' 62 1).zeroExtend 64 <<< 14 |||
    (cause.extractLsb' 63 1).zeroExtend 64 <<< 15 ||| (cause.extractLsb' 0 8).zeroExtend 64 <<< 16

/-- Taking an exception: the one operation for every trap and event (R137, R138). Without a trap vector the hart keeps its
pc, privilege and slot, takes no further instruction, and `MACHINE_CHECK` is raised for it. -/
def State.takeTrap (s : State) (k : Nat) (t : TrapInfo) : State :=
  let s0 := (((s.leaveWaits k).cancelSfu k).releaseUnits k).releaseHart k
  match s0.entryPc k with
  | some pc => s0.modHart k (fun h => h.enter t pc)
  | none =>
    let s1 := s0.modHart k (fun h => { h.enter t h.pc with priv := h.priv, ppriv := h.ppriv, stopped := true })
    s1.raise (ringOf k) (s1.hart k).ctx 0x23 (s1.hart k).tpc (stoppedVal k (s1.hart k).tcause)

/-- The return from an exception (R85): pc and privilege from the record, frozen entries resume (R141). -/
def Hart.leave (h : Hart) : Hart :=
  { h with pc := h.tpc, priv := h.ppriv, queue := h.queue.map (fun e => { e with frozen := false }) }

/-! ### Cause codes (R136) -/

/-- `ILLEGAL` -/
abbrev cIllegal : Nat := 0x01
/-- `ILLEGAL_CONVOY` -/
abbrev cIllegalConvoy : Nat := 0x02
/-- `PRIV` -/
abbrev cPriv : Nat := 0x03
/-- `MISALIGN` -/
abbrev cMisalign : Nat := 0x04
/-- `PAGE_ABSENT` -/
abbrev cPageAbsent : Nat := 0x05
/-- `PROTECT` -/
abbrev cProtect : Nat := 0x06
/-- `POISON_CONSUME` -/
abbrev cPoison : Nat := 0x07
/-- `DEADLINE_MISS` -/
abbrev cDeadline : Nat := 0x08
/-- `SUBBYTE_STRIDE` -/
abbrev cSubbyte : Nat := 0x09
/-- `FP_ENABLED` -/
abbrev cFp : Nat := 0x0A
/-- `BREAK` -/
abbrev cBreak : Nat := 0x0B
/-- `SYSCALL` -/
abbrev cSyscall : Nat := 0x0C
/-- `WATCHDOG` -/
abbrev cWatchdog : Nat := 0x0D
/-- `RINGSTALL` -/
abbrev cRingstall : Nat := 0x20
/-- `LEASE_LOST` -/
abbrev cLeaseLost : Nat := 0x21
/-- `ORPHAN` -/
abbrev cOrphan : Nat := 0x22
/-- `MACHINE_CHECK` -/
abbrev cMachineCheck : Nat := 0x23

/-- A trap of a scalar instruction of the executing hart (R67, R136), `TPC` its own address. In a speculative chunk it
stalls until the chunk is oldest (R69); while an element group of the hart is under way at another package it waits for that
(R137, R339). (DEDUCED: log entry 55) -/
def State.trap (s : State) (code : Nat) (addr val : Word) : State :=
  if s.me.spec then s.stall .oldest
  else if s.groupAbroad s.cur then s.stall .stopping
  else s.takeTrap s.cur { cause := BitVec.ofNat 64 code, tpc := s.me.pc, tqpos := 0, telem := 0, addr := addr, val := val }

/-- A trap of a vector queue entry of a hart (R139): `VEC` is 1 and `TPC` is the scalar front end's pc (R140). It is taken at an
instruction boundary (R137): while the front end stands inside an instruction, or an element group of the hart is under way, the
entry waits at its start index and faults again. (DEDUCED: log entry 55, DEDUCED: log entry 110) -/
def State.vtrap (s : State) (k pos elem code : Nat) (addr val : Word) : State :=
  if s.midAccess k || s.groupAbroad k then s
  else s.takeTrap k { cause := BitVec.ofNat 64 (code + 2 ^ 62), tpc := (s.hart k).pc, tqpos := pos, telem := elem, addr := addr,
                      val := val }

/-- The value of a 32-bit word as `TVAL` holds it. -/
def State.trapWord (s : State) (code : Nat) (i : Instr) : State :=
  s.trap code 0 (((encodeWord i).getD 0).zeroExtend 64)

/-- An unpoisoned operand, or the trap of the consumption point (R148). -/
def State.consume (s : State) (p : PVal) (point : Nat) (k : Word → State) : State :=
  if p.poison then s.trap cPoison 0 (BitVec.ofNat 64 point) else k p.val

end Sys2Proof.Machine
end

