-- ==== Sys2Proof/Machine/Chunks.lean ====
section
/-! DEFINITION. What a fork does to the instructions of its body: the roles of declared registers (R200, R205, R206), the
start of a chunk (R203, R207), squashes (R210), and the guard that every scalar instruction passes (R69, R94, R214). -/

namespace Sys2Proof.Machine

/-! ### The registers a scalar word names -/

/-- The x registers an instruction writes. -/
def xWrites : Instr → List Reg
  | .add d _ _ | .sub d _ _ | .and d _ _ | .or d _ _ | .xor d _ _ | .sll d _ _ | .srl d _ _ | .sra d _ _ | .slt d _ _
  | .sltu d _ _ | .mul d _ _ | .mulh d _ _ | .mulhu d _ _ | .div d _ _ | .divu d _ _ | .rem d _ _ | .remu d _ _
  | .min d _ _ | .max d _ _ | .minu d _ _ | .maxu d _ _ => [d]
  | .clz d _ | .ctz d _ | .popc d _ => [d]
  | .addi d _ _ | .andi d _ _ | .ori d _ _ | .xori d _ _ | .slti d _ _ => [d]
  | .slli d _ _ | .srli d _ _ | .srai d _ _ => [d]
  | .lui d _ | .auipc d _ => [d]
  | .lb d _ _ | .lh d _ _ | .lw d _ _ | .ld d _ _ | .lbu d _ _ | .lhu d _ _ | .lwu d _ _ => [d]
  | .ldaq d _ _ _ => [d]
  | .amoswap d _ _ _ _ _ | .amoadd d _ _ _ _ _ | .amoand d _ _ _ _ _ | .amoor d _ _ _ _ _ | .amoxor d _ _ _ _ _
  | .amomin d _ _ _ _ _ | .amomax d _ _ _ _ _ | .cas d _ _ _ _ _ => [d]
  | .jal d _ => [d]
  | .jalr d _ _ => [d]
  | .fadd d _ _ _ _ | .fsub d _ _ _ _ | .fmul d _ _ _ _ | .ffma d _ _ _ _ | .fdiv d _ _ _ _ => [d]
  | .fsqrt d _ _ _ => [d]
  | .fcmp d _ _ _ _ => [d]
  | .fcvt d _ _ _ _ => [d]
  | .sysr d _ => [d]
  | .sysx d _ _ => [d]
  | .ctxctlWrite d _ | .corectlWrite d _ => [d]
  | .svbufWrite d _ _ => [d]
  | .ldfeKeep d _ _ | .ldfeClr d _ _ => [d]
  | .recv d | .mgstat d => [d]
  | .svchk d _ _ _ => [d]
  | .lreq d _ | .odrain d _ => [d]
  | _ => []

/-- The registers `send` takes its payload from (R228). -/
def payloadRegs (b : Reg) (f : BitVec 3) : List Reg :=
  (List.range (2 * f.toNat)).map (fun i => BitVec.ofNat 5 (b.toNat + i))

/-- The x registers an instruction reads, or names without writing. -/
def xReads : Instr → List Reg
  | .add _ a b | .sub _ a b | .and _ a b | .or _ a b | .xor _ a b | .sll _ a b | .srl _ a b | .sra _ a b | .slt _ a b
  | .sltu _ a b | .mul _ a b | .mulh _ a b | .mulhu _ a b | .div _ a b | .divu _ a b | .rem _ a b | .remu _ a b
  | .min _ a b | .max _ a b | .minu _ a b | .maxu _ a b => [a, b]
  | .clz _ a | .ctz _ a | .popc _ a => [a]
  | .addi _ a _ | .andi _ a _ | .ori _ a _ | .xori _ a _ | .slti _ a _ => [a]
  | .slli _ a _ | .srli _ a _ | .srai _ a _ => [a]
  | .lb _ a _ | .lh _ a _ | .lw _ a _ | .ld _ a _ | .lbu _ a _ | .lhu _ a _ | .lwu _ a _ => [a]
  | .sb s a _ | .sh s a _ | .sw s a _ | .sd s a _ => [s, a]
  | .ldaq _ a _ _ => [a]
  | .strl a b _ _ => [a, b]
  | .amoswap _ a b _ _ _ | .amoadd _ a b _ _ _ | .amoand _ a b _ _ _ | .amoor _ a b _ _ _ | .amoxor _ a b _ _ _
  | .amomin _ a b _ _ _ | .amomax _ a b _ _ _ => [a, b]
  | .cas d a b _ _ _ => [d, a, b]
  | .beq a b _ | .bne a b _ | .blt a b _ | .bge a b _ | .bltu a b _ | .bgeu a b _ => [a, b]
  | .jalr _ a _ => [a]
  | .fadd _ a b _ _ | .fsub _ a b _ _ | .fmul _ a b _ _ | .fdiv _ a b _ _ => [a, b]
  | .ffma d a b _ _ => [d, a, b]
  | .fsqrt _ a _ _ => [a]
  | .fcmp _ a b _ _ => [a, b]
  | .fcvt _ a _ _ _ => [a]
  | .sysw a _ => [a]
  | .sysx _ a _ => [a]
  | .ctxctlWrite _ a | .corectlWrite _ a => [a]
  | .svbufWrite _ a _ => [a]
  | .vqsave a | .vqload a => [a]
  | .ldfeKeep _ a _ | .ldfeClr _ a _ => [a]
  | .stfe s a _ => [s, a]
  | .send a b _ f => a :: (if f = 0 then [] else payloadRegs b f)
  | .htset a b => [a, b]
  | .forkS a b _ | .forkD a b _ => [a, b]
  | .fdeclCarry r => [r]
  | .fdeclIndImm r _ => [r]
  | .fdeclIndReg r t => [r, t]
  | .fdeclRed r _ => [r]
  | .cpy a | .mgkick a => [a]
  | .barinit a b | .bararv a b | .barwt a b => [a, b]
  | .svbegin a b _ => [a, b]
  | .svwarm a _ | .svend a _ => [a]
  | .svchk _ a b _ => [a, b]
  | .lreq _ a | .odrain _ a => [a]
  | .lgrant a b | .tlbinv a b | .pgmig a b => [a, b]
  | .lreclaim a | .ldone a | .lrelease a | .launch a => [a]
  | .pref a _ | .resid a _ => [a]
  | _ => []

/-- Every x register but `x0` that a scalar instruction names. -/
def xNames (i : Instr) : List Reg := (xWrites i ++ xReads i).filter (· != 0)

/-- The x register that a vector instruction delivers to, through the read queue (R94). -/
def vectorXDest : Instr → Option Reg
  | .vmvxs o | .setvl o | .mpop o | .mffs o | .mmvx o | .setvlf o =>
    if o.vd = 0 then none else some (o.vd.extractLsb' 0 5)
  | _ => none

/-- The x register that a vector instruction captures at commit (R92): its x field. -/
def vectorXSource (i : Instr) : Option Reg :=
  match memberCode i with
  | some (_, _, o) => if o.x = 0 then none else some o.x
  | none => none

/-- The vector instruction of an entry. Entries hold checked words, so the word always decodes. -/
def Entry.instr (e : Entry) : Instr :=
  match decodeMember e.insn with
  | .ok i => i
  | .error _ => .undefinedWord 0

/-- Whether an x register awaits a delivery from an entry that is not frozen (R94, R142). -/
def Hart.xPending (h : Hart) (r : Reg) : Bool :=
  h.queue.any (fun e => !e.frozen && vectorXDest e.instr == some r)

/-- Whether every entry of the queue that is not frozen has completed (R142). -/
def Hart.drained (h : Hart) : Bool := h.queue.all (·.frozen)

/-! ### Declared registers -/

/-- The register a declaration item names. -/
def DeclItem.reg? : DeclItem → Option Reg
  | .carry r => some r
  | .indImm r _ => some r
  | .indReg r _ => some r
  | .red r _ => some r
  | .vlive _ => none

/-- The chunk that a hart runs in a parallel fork of its ring, with the fork. -/
def State.chunkOf (s : State) (k : Nat) : Option (Fork × Chunk) :=
  match (s.ring (ringOf k)).fork with
  | none => none
  | some f =>
    match f.chunks.find? (fun c => c.hart = k && (c.state == .spec || c.state == .oldest)) with
    | some c => some (f, c)
    | none => none

/-- Whether a hart belongs to a parallel fork but runs no chunk of it now: it has ended its chunk, or its chunk 0 has
committed (R216). Such a hart does not issue. -/
def State.idleInFork (s : State) (k : Nat) : Bool :=
  match (s.ring (ringOf k)).fork with
  | none => false
  | some f => (f.hart = k || f.chunks.any (fun c => c.hart = k)) && (s.chunkOf k).isNone

/-- The declaration sets of the forks open on a hart, innermost first. -/
def State.openDecls (s : State) (k : Nat) : List (List DeclItem) :=
  (s.hart k).forks.map (·.decls) ++ (match s.chunkOf k with
    | some (f, _) => [f.decls]
    | none => [])

/-- How many forks are open on a hart. -/
def State.openForks (s : State) (k : Nat) : Nat := (s.openDecls k).length

/-- The item that declares a register: where several open forks declare it, the innermost declaration holds, whatever its kind. (DESIGN CHOICE: log entry 133) -/
def State.role (s : State) (k : Nat) (r : Reg) : Option DeclItem :=
  (s.openDecls k).findSome? (fun ds => ds.find? (fun d => d.reg? = some r))

/-- The update instruction of a reduction register, and the register or immediate whose value it combines (R206). -/
def isUpdate (op : RedOp) (r : Reg) : Instr → Bool
  | .fadd d a b _ ty => d == r && a == r && b != r && ((op == .addF64 && ty == .f64) || (op == .addF32 && ty == .f32))
  | .min d a b => d == r && a == r && b != r && (op == .minF64 || op == .minF32 || op == .minS64)
  | .max d a b => d == r && a == r && b != r && (op == .maxF64 || op == .maxF32 || op == .maxS64)
  | .minu d a b => d == r && a == r && b != r && op == .minN64
  | .maxu d a b => d == r && a == r && b != r && op == .maxN64
  | .add d a b => d == r && a == r && b != r && op == .addS64
  | .addi d a _ => d == r && a == r && op == .addS64
  | .and d a b => d == r && a == r && b != r && op == .and
  | .or d a b => d == r && a == r && b != r && op == .or
  | .xor d a b => d == r && a == r && b != r && op == .xor
  | _ => false

/-- The reduction operator that an instruction updates on a hart, if it is an update there (R206). (DEDUCED: log entry 49) -/
def State.updateOf (s : State) (k : Nat) (i : Instr) : Option (Reg × RedOp) :=
  match xWrites i with
  | [d] => match s.role k d with
    | some (.red _ op) => if isUpdate op d i then some (d, op) else none
    | _ => none
  | _ => none

/-- Whether an instruction breaks the rules of declared registers (R205, R206): it writes an induction register, or names
a reduction register without being its update. (DEDUCED: log entry 49) -/
def State.breaksDecls (s : State) (k : Nat) (i : Instr) : Bool :=
  (xWrites i).any (fun d => match s.role k d with
    | some (.indImm _ _) | some (.indReg _ _) => true
    | _ => false) ||
  (xNames i).any (fun r => match s.role k r with
    | some (.red _ op) => !(isUpdate op r i)
    | _ => false)

/-! ### Speculative stalls -/

/-- Whether a system register's minimum privilege is above user (R13). -/
def supervisorReg (n : Nat) : Bool :=
  (0x20 ≤ n && n ≤ 0x26) || n == 0x30 || n == 0x50 || n == 0x81 || (0x90 ≤ n && n ≤ 0x94) || n == 0xA0 || n == 0xB0 ||
  (0xC0 ≤ n && n ≤ 0xCF) || n == 0xD1 || n == 0xD8

/-- The scalar instructions that stall until their chunk is oldest, whatever their operands (R69, R183, R214, R257). A write of
`SVBUFn` does too, since a squash must leave nothing of it (R210), and so does `fencei`, which waits until the hart's earlier stores have
performed (R88, R212). (DEDUCED: log entry 116, DEDUCED: log entry 118) -/
def stallsSpec : Instr → Bool
  | .ldaq .. | .strl .. | .amoswap .. | .amoadd .. | .amoand .. | .amoor .. | .amoxor .. | .amomin .. | .amomax .. | .cas .. => true
  | .sysr _ n => supervisorReg n.toNat
  | .sysw _ n => supervisorReg n.toNat
  | .sysx _ _ n => supervisorReg n.toNat
  | .ctxctlWrite .. | .corectlWrite .. | .svbufWrite .. => true
  | .ecall | .ebreak | .tret | .vqsave _ | .vqload _ => true
  | .fence _ sc => sc == .d || sc == .p || sc == .s
  | .ldfeKeep .. | .ldfeClr .. | .stfe .. => true
  | .send .. | .recv _ | .htset .. | .msgret => true
  | .exitl => true
  | .cpy _ | .barinit .. | .bararv .. | .barwt .. | .mgkick _ | .mgstat _ => true
  | .svbegin .. | .svwarm .. | .svchk .. | .svend .. => true
  | .lreq .. | .lgrant .. | .lreclaim _ | .ldone _ | .lrelease _ => true
  | .tlbinv .. | .pgmig .. | .odrain .. | .launch _ => true
  | .halt | .fencei => true
  | _ => false

/-- What may hold a scalar instruction of the executing hart back. -/
inductive Hold where
  | delivery (r : Reg)
  | badReg
  | oldest
  deriving DecidableEq, Repr

/-- Whether and why an instruction is held back: an x register awaits a delivery (R94), a declared register is misused
(R205, R206), or the chunk must be oldest first (R69, R214). (DESIGN CHOICE: log entry 131) -/
def State.hold (s : State) (i : Instr) : Option Hold :=
  match (xNames i).find? (fun r => s.me.xPending r) with
  | some r => some (.delivery r)
  | none =>
    if s.breaksDecls s.cur i then some .badReg
    else if s.me.spec && stallsSpec i then some .oldest
    else none

/-- The shape of every scalar instruction: held back, or its own effect. -/
def State.scalar (s : State) (i : Instr) (body : State → State) : State :=
  match s.hold i with
  | some (.delivery r) => s.stall (.delivery r)
  | some .badReg => s.trapWord cIllegal i
  | some .oldest => s.stall .oldest
  | none => body s

/-! ### Chunks -/

/-- The identity of a reduction operator (R39, R129). -/
def identity : RedOp → Word
  | .addF64 | .addF32 | .addS64 | .or | .xor | .maxN64 => 0
  | .minF64 => 0x7FF0000000000000
  | .maxF64 => 0xFFF0000000000000
  | .minF32 => 0x7F800000
  | .maxF32 => 0xFF800000
  | .minS64 => 0x7FFFFFFFFFFFFFFF
  | .maxS64 => 0x8000000000000000
  | .minN64 | .and => 0xFFFFFFFFFFFFFFFF

/-- The partial a chunk starts with. -/
def Partial.start (op : RedOp) : Partial :=
  { sum := 0, val := identity op, negInf := false, posInf := false, nan := false, poison := false }

/-- The partials of a declaration set at the start of a chunk (R203), by register. -/
def startParts (ds : List DeclItem) : Tab Partial :=
  ds.filterMap (fun d => match d with
    | .red r op => some (r.toNat, Partial.start op)
    | _ => none)

/-- The stride of an induction register with its poison: the immediate, or what `xS` held at the fork (R200). -/
def strideOf (x0 : Tab PVal) : DeclItem → Option (Reg × PVal)
  | .indImm r imm => some (r, PVal.clean (imm.signExtend 64))
  | .indReg r t => some (r, if t = 0 then PVal.clean 0 else tget (PVal.clean 0) x0 t.toNat)
  | _ => none

/-- A sum of values with poison (R42, R68): data zero where either is poisoned. -/
def addP (a b : PVal) : PVal := if a.poison || b.poison then PVal.poisoned else PVal.clean (a.val + b.val)

/-- The x registers a chunk starts with (R203): X0, carried registers from `starts`, induction registers exact. -/
def startX (ds : List DeclItem) (x0 starts : Tab PVal) (firstIter : Nat) : Tab PVal :=
  ds.foldl (fun x d => match d with
    | .carry r => tset (PVal.clean 0) x r.toNat (tget (PVal.clean 0) starts r.toNat)
    | .indImm r _ | .indReg r _ =>
      (match strideOf x0 d with
       | some (_, st) => tset (PVal.clean 0) x r.toNat
           (addP (tget (PVal.clean 0) x0 r.toNat)
             { val := BitVec.ofNat 64 firstIter * st.val, poison := st.poison })
       | none => x)
    | _ => x) x0

/-- Step the induction registers at a `cend` (R203). -/
def stepInductions (ds : List DeclItem) (x0 x : Tab PVal) : Tab PVal :=
  ds.foldl (fun y d => match strideOf x0 d with
    | some (r, st) => tset (PVal.clean 0) y r.toNat (addP (tget (PVal.clean 0) y r.toNat) st)
    | none => y) x

/-- The vector registers a chunk starts with: the live-ins (R203). -/
def liveIns (ds : List DeclItem) (v : Tab (Tab PVal)) : Tab (Tab PVal) :=
  v.filter (fun e => ds.any (fun d => match d with
    | .vlive r => r.toNat == e.1
    | _ => false))

/-- `FSTAT` with its flags clear. -/
def clearFlags (w : Word) : Word := w &&& 0xFFFFFFFFFFFFFFE0

/-- StartChunk on a hart (R203): the registers and the pc of chunk `j` whose first iteration is `it`. (DEDUCED: log entry 49) -/
def Hart.startChunk (h : Hart) (ds : List DeclItem) (x0 starts : Tab PVal) (f : Saved) (j it body : Nat) : Hart :=
  { h with
    x := startX ds x0 starts it, v := liveIns ds f.v, m := f.m, vl := f.vl, lanes := { cells := [], marks := [] },
    hctl := f.hctl, fstat := clearFlags f.fstat, vstat := 0, pc := BitVec.ofNat 64 body, chunkno := j, queue := [],
    pendConvoy := none, wait := .none }

/-- A hart created for chunk `j` ≥ 1 (R22, R23): the forking hart's privilege and context, route 1, speculative. (DESIGN CHOICE: log entry 21) -/
def chunkHart (parent : Hart) (f : Saved) : Hart :=
  { Hart.empty with live := true, priv := f.priv, route := 1, spec := true, ctx := parent.ctx, ringidx := parent.ringidx }

/-- Change the fork of a ring. -/
def State.modFork (s : State) (ring : Nat) (g : Fork → Fork) : State :=
  s.modRing ring (fun r => { r with fork := r.fork.map g })

/-- Change one chunk of a fork. -/
def Fork.modChunk (f : Fork) (j : Nat) (g : Chunk → Chunk) : Fork :=
  { f with chunks := f.chunks.map (fun c => if c.num = j then g c else c) }

/-- The chunk of a number. -/
def Fork.chunk? (f : Fork) (j : Nat) : Option Chunk := f.chunks.find? (fun c => c.num = j)

/-- The matrix unit of a core is released and its tiles are lost (R24, R189). -/
def Core.freeMatrix (c : Core) (k : Nat) : Core :=
  if c.mxOwner = some k then { c with mxOwner := none, mxTiles := [] } else c

/-- A slot becomes free (R24): its hart leaves every waiter list, gives up its accesses and releases the matrix unit. -/
def State.freeSlot (s : State) (k : Nat) : State :=
  let s1 := (((s.leaveWaits k).cancelSfu k).releaseUnits k).releaseHart k
  (s1.modCore (coreOf k) (fun c => c.freeMatrix k)).setHart k Hart.empty

/-- A key that no hart has: the hart of a waiting chunk, and of a chunk whose hart is gone. (DESIGN CHOICE: log entry 21) -/
abbrev noHart : Nat := 2 ^ 40

/-! ### Start values (R208) -/

/-- Whether a chunk holds a hart. -/
def Chunk.started (c : Chunk) : Bool := c.state != .waiting

/-- The start values that a chunk is running with, if it is still known. -/
def Fork.startsOf (f : Fork) (j : Nat) : Option (Tab PVal) :=
  match f.chunk? j with
  | some c => if c.started then some c.starts else none
  | none => if j + 1 = f.oldest then some f.prev else none

/-- The predicted value of one carried register: a + (a - b) modulo 2^64, with the poison of `a` and `b`. (DEDUCED: log entry 51) -/
def predict (a b : PVal) : PVal := if a.poison || b.poison then PVal.poisoned else PVal.clean (a.val + (a.val - b.val))

/-- The predicted start values of chunk `j` (R208). (DEDUCED: log entry 51) -/
def Fork.prediction (f : Fork) (j : Nat) : Tab PVal :=
  match f.startsOf (j - 1) with
  | none => []
  | some a => match (if j ≤ 1 then none else f.startsOf (j - 2)) with
    | none => a
    | some b => a.map (fun e => (e.1, predict e.2 (tget (PVal.clean 0) b e.1)))

/-- The end values that chunk `j - 1` delivers, if it has ended. -/
def Fork.delivered (f : Fork) (j : Nat) : Option (Tab PVal) := (f.chunk? (j - 1)).bind (·.ends)

/-- Everything a squashed chunk did is discarded, and it starts again on its slot (R210, R216) with some start values. -/
def State.restartChunk (s : State) (ring : Nat) (f : Fork) (c : Chunk) (starts : Tab PVal) : State :=
  if c.hart = noHart then s else
  let s1 := ((s.leaveWaits c.hart).cancelSfu c.hart).releaseUnits c.hart
  let h := (chunkHart (s.hart f.hart) f.saved).startChunk f.decls f.x0 starts f.saved c.num (c.num * f.c) f.body
  (s1.setHart c.hart h).modFork ring (fun g => g.modChunk c.num (fun d =>
    { d with
      state := .spec, i := d.num * f.c, starts := starts, ends := none, bytes := [], marks := [], clears := [], reads := [],
      parts := startParts f.decls, exited := false, fenced := false, vvOpen := false, noRoom := false }))

/-- A squash of chunk `j` and every younger chunk, with restart (R210), in ascending order: each starts again with delivered values where
the chunk before it has ended, else with values predicted anew (R208). The oldest chunk is never squashed. (DEDUCED: log entry 56) -/
def State.squashFrom (s : State) (ring j : Nat) : State :=
  match (s.ring ring).fork with
  | none => s
  | some f =>
    (f.chunks.filter (fun c => j ≤ c.num && (c.state == .spec || c.state == .ended) && c.num != f.oldest)).foldl
      (fun t c => match (t.ring ring).fork with
        | none => t
        | some g =>
          (t.restartChunk ring g c ((g.delivered c.num).getD (g.prediction c.num))).modFork ring (fun u =>
            u.modChunk c.num (fun d => { d with verified := (g.delivered c.num).isSome }))) s

/-- Discard every chunk younger than `j`, without restart (R210): their slots become free. -/
def State.discardYounger (s : State) (ring j : Nat) : State :=
  match (s.ring ring).fork with
  | none => s
  | some f =>
    let s1 := (f.chunks.filter (fun c => j < c.num && c.state != .waiting && c.hart != f.hart)).foldl
      (fun t c => t.freeSlot c.hart) s
    s1.modFork ring (fun g => { g with chunks := g.chunks.filter (fun c => c.num ≤ j), created := j })

/-- The lowest chunk above `low` that has exposed-read one of some words (R210). (DEDUCED: log entry 56) -/
def Fork.exposed (f : Fork) (low : Nat) (words : List Nat) : Option Nat :=
  (f.chunks.filter (fun c => low < c.num && (c.state == .spec || c.state == .ended) && c.reads.any words.contains)).foldl
    (fun m c => match m with
      | none => some c.num
      | some n => some (min n c.num)) none

/-- A write by an agent outside every fork, or by the oldest chunk of one, squashes the chunks that exposed-read the words
(R210). `own` names the ring and chunk of a writer inside a fork. A strip farm keeps no exposed-read bits (R215). (DEDUCED: log entry 56) -/
def State.squashReaders (s : State) (own : Option (Nat × Nat)) (words : List Nat) : State :=
  s.rings.foldl (fun t e => match e.2.fork with
    | none => t
    | some f =>
      let low := match own with
        | some (r, j) => if r = e.1 then j else f.oldest
        | none => f.oldest
      match f.exposed low words with
      | some j => t.squashFrom e.1 j
      | none => t) s

end Sys2Proof.Machine
end

