-- ==== Sys2Proof/Machine/Fp.lean ====
section
/-! DEFINITION. Number formats and the order of arithmetic (R26 to R36): values are computed exactly as sign, integer and
power of two, and rounded once. Everything here is a function of bits, modes and flags; no state. -/

namespace Sys2Proof.Machine

/-! ### Flags (R16) -/

/-- The five sticky flags, NV DZ OF UF NX from bit 4 to bit 0. -/
abbrev Flags := BitVec 5
/-- Invalid. -/
abbrev fNV : Flags := 16
/-- Division by zero. -/
abbrev fDZ : Flags := 8
/-- Overflow. -/
abbrev fOF : Flags := 4
/-- Underflow. -/
abbrev fUF : Flags := 2
/-- Inexact. -/
abbrev fNX : Flags := 1

/-! ### Formats (R26) -/

/-- Exponent bits of a floating-point type. -/
def expBits : Ty → Nat
  | .f64 => 11 | .f32 => 8 | .bf16 => 8 | .f16 => 5 | .e4m3 => 4 | .e5m2 => 5 | .e2m1 => 2 | _ => 0
/-- Fraction bits of a floating-point type. -/
def fracBits : Ty → Nat
  | .f64 => 52 | .f32 => 23 | .bf16 => 7 | .f16 => 10 | .e4m3 => 3 | .e5m2 => 2 | .e2m1 => 1 | _ => 0
/-- The exponent bias. -/
def bias (t : Ty) : Nat := 2 ^ (expBits t - 1) - 1
/-- The exponent of the smallest normal number. -/
def eMin (t : Ty) : Int := 1 - (bias t : Int)

/-- A value: a NaN (signalling or not), an infinity, or a finite number ±m·2^e. Zero has m = 0. -/
inductive FVal where
  | nan (signalling : Bool)
  | inf (neg : Bool)
  | fin (neg : Bool) (m : Nat) (e : Int)
  deriving DecidableEq, Repr

/-- A number read from its bits (R26, R29). -/
def unpack (t : Ty) (bits : Nat) : FVal :=
  let fb := fracBits t
  let frac := bits % 2 ^ fb
  let ex := bits / 2 ^ fb % 2 ^ expBits t
  let neg := bits / 2 ^ (t.width - 1) % 2 == 1
  let finite := if ex = 0 then FVal.fin neg frac (eMin t - fb) else .fin neg (frac + 2 ^ fb) ((ex : Int) - bias t - fb)
  match t with
  | .e2m1 => finite
  | .e4m3 => if ex = 15 && frac = 7 then .nan false else finite
  | _ =>
    if ex = 2 ^ expBits t - 1 then
      if frac = 0 then .inf neg else .nan (frac < 2 ^ (fb - 1) && t != .e5m2)
    else finite

/-- Whether an encoding is a nonzero subnormal. -/
def isSubnormal (t : Ty) (bits : Nat) : Bool :=
  bits % 2 ^ fracBits t != 0 && bits / 2 ^ fracBits t % 2 ^ expBits t == 0

/-- Read an operand under `FTZ` (R30): a subnormal of FP64, FP32, FP16 or BF16 is the zero of its sign. -/
def readF (ftz : Bool) (t : Ty) (bits : Nat) : FVal :=
  match unpack t bits with
  | .fin neg m e => if ftz && t.isFp && isSubnormal t bits then .fin neg 0 e else .fin neg m e
  | v => v

/-- The canonical NaN of a type (R29). -/
def canonNaN : Ty → Nat
  | .f64 => 0x7FF8000000000000 | .f32 => 0x7FC00000 | .bf16 => 0x7FC0 | .f16 => 0x7E00 | .e4m3 => 0x7F | .e5m2 => 0x7E
  | _ => 0

/-- The sign bit of a type, set or not. -/
def signBit (t : Ty) (neg : Bool) : Nat := if neg then 2 ^ (t.width - 1) else 0
/-- The bits of an infinity. -/
def infBits (t : Ty) (neg : Bool) : Nat := signBit t neg + (2 ^ expBits t - 1) * 2 ^ fracBits t
/-- The magnitude bits of the largest finite number (R26). -/
def maxMag : Ty → Nat
  | .e4m3 => 0x7E | .e2m1 => 7
  | t => (2 ^ expBits t - 1) * 2 ^ fracBits t - 1

/-! ### Rounding (R32, R33) -/

/-- An exact magnitude: m·2^e, or a little more when `sticky`. -/
structure Mag where
  m : Nat
  e : Int
  sticky : Bool
  deriving DecidableEq, Repr

/-- The number of bits of a number. -/
def bitLen (n : Nat) : Nat := if n = 0 then 0 else Nat.log2 n + 1

/-- A magnitude as a multiple of 2^q: the integer part, the remainder below it as a fraction `rem / 2^sh`, and whether
anything is left. -/
def splitAt (a : Mag) (q : Int) : Nat × Nat × Nat :=
  if q ≤ a.e then (a.m * 2 ^ (a.e - q).toNat, 0, 0)
  else (a.m / 2 ^ (q - a.e).toNat, a.m % 2 ^ (q - a.e).toNat, (q - a.e).toNat)

/-- Whether rounding goes up in magnitude, for the four directed and nearest modes (R32). -/
def roundsUp (rm : Rm) (neg : Bool) (n rem sh : Nat) (sticky : Bool) : Bool :=
  let inexact := rem != 0 || sticky
  match rm with
  | .rtz => false
  | .rdn => neg && inexact
  | .rup => !neg && inexact
  | _ => sh != 0 && (2 ^ (sh - 1) < rem || (rem == 2 ^ (sh - 1) && (sticky || n % 2 == 1)))

/-- The multiple of 2^q that a magnitude rounds to, and whether it is inexact. -/
def roundAt (rm : Rm) (neg : Bool) (a : Mag) (q : Int) : Nat × Bool :=
  let (n, rem, sh) := splitAt a q
  (if roundsUp rm neg n rem sh a.sticky then n + 1 else n, rem != 0 || a.sticky)

/-- The exponent of the leading bit. -/
def leadExp (a : Mag) : Int := a.e + (bitLen a.m : Int) - 1

/-- The exponent of the unit in the last place of a type at a magnitude. -/
def quantum (t : Ty) (a : Mag) : Int := max (leadExp a) (eMin t) - fracBits t

/-- The magnitude bits of n·2^q in a type, beyond the largest finite number where it does not fit. -/
def magBits (t : Ty) (n : Nat) (q : Int) : Nat := (q + fracBits t + bias t - 1).toNat * 2 ^ fracBits t + n

/-- Whether a magnitude is tiny after rounding: rounded with unbounded exponent it stays below the normal range (R30). -/
def tinyAfter (t : Ty) (rm : Rm) (neg : Bool) (a : Mag) : Bool :=
  leadExp a < eMin t &&
    !(leadExp a == eMin t - 1 && (roundAt rm neg a (leadExp a - fracBits t)).1 == 2 ^ (fracBits t + 1))

/-- How an overflow is delivered in FP64, FP32, FP16, BF16 and E5M2 (R34, IEEE 754-2019). -/
def overflowBits (t : Ty) (rm : Rm) (neg : Bool) : Nat :=
  match rm with
  | .rtz => signBit t neg + maxMag t
  | .rdn => if neg then infBits t neg else signBit t neg + maxMag t
  | .rup => if neg then signBit t neg + maxMag t else infBits t neg
  | _ => infBits t neg

/-- Deliver a rounded magnitude under `FTZ` (R30): a subnormal result becomes the zero of its sign, with UF and NX. -/
def deliver (ftz : Bool) (t : Ty) (neg : Bool) (mag : Nat) (fl : Flags) : Nat × Flags :=
  if ftz && t.isFp && mag != 0 && mag < 2 ^ fracBits t then (signBit t neg, fl ||| fUF ||| fNX)
  else (signBit t neg + mag, fl)

/-- `Round(y, t, rm)` of a nonzero magnitude (R25), for the types 8 to 11. -/
def roundMag (ftz : Bool) (t : Ty) (rm : Rm) (neg : Bool) (a : Mag) : Nat × Flags :=
  let q := quantum t a
  let (n, inexact) := roundAt rm neg a q
  let mag := magBits t n q
  if maxMag t < mag then (overflowBits t rm neg, fOF ||| fNX)
  else
    let fl : Flags := if inexact then (if tinyAfter t rm neg a then fUF ||| fNX else fNX) else 0
    deliver ftz t neg mag fl

/-- `Round` of a finite value: a zero keeps its sign. -/
def roundFin (ftz : Bool) (t : Ty) (rm : Rm) (neg : Bool) (m : Nat) (e : Int) : Nat × Flags :=
  if m = 0 then (signBit t neg, 0) else roundMag ftz t rm neg { m := m, e := e, sticky := false }

/-! ### Exact sums and products -/

/-- A finite value as an integer multiple of 2^e, for any e at or below its own exponent. -/
def scaled (neg : Bool) (m : Nat) (ex e : Int) : Int :=
  let v : Int := (m : Int) * 2 ^ (ex - e).toNat
  if neg then -v else v

/-- The sum of two finite values: sign, magnitude and exponent, with the sign of an exact zero (R80, R99). -/
def addFin (rm : Rm) (n1 : Bool) (m1 : Nat) (e1 : Int) (n2 : Bool) (m2 : Nat) (e2 : Int) : Bool × Nat × Int :=
  let e := min e1 e2
  let v := scaled n1 m1 e1 e + scaled n2 m2 e2 e
  if v = 0 then
    (if m1 = 0 && m2 = 0 && n1 = n2 then n1 else rm == .rdn, 0, e)
  else (decide (v < 0), v.natAbs, e)

/-- Whether a value is a signalling NaN. -/
def FVal.isSnan : FVal → Bool
  | .nan s => s
  | _ => false
/-- Whether a value is a NaN. -/
def FVal.isNan : FVal → Bool
  | .nan _ => true
  | _ => false
/-- The opposite value. -/
def FVal.negate : FVal → FVal
  | .nan s => .nan s
  | .inf n => .inf (!n)
  | .fin n m e => .fin (!n) m e

/-- The sum, rounded (R80). -/
def fpAdd (ftz : Bool) (t : Ty) (rm : Rm) (a b : FVal) : Nat × Flags :=
  let sn : Flags := if a.isSnan || b.isSnan then fNV else 0
  match a, b with
  | .nan _, _ | _, .nan _ => (canonNaN t, sn)
  | .inf n1, .inf n2 => if n1 = n2 then (infBits t n1, 0) else (canonNaN t, fNV)
  | .inf n, _ | _, .inf n => (infBits t n, 0)
  | .fin n1 m1 e1, .fin n2 m2 e2 =>
    let (n, m, e) := addFin rm n1 m1 e1 n2 m2 e2
    roundFin ftz t rm n m e

/-- The product, rounded (R80). -/
def fpMul (ftz : Bool) (t : Ty) (rm : Rm) (a b : FVal) : Nat × Flags :=
  let sn : Flags := if a.isSnan || b.isSnan then fNV else 0
  match a, b with
  | .nan _, _ | _, .nan _ => (canonNaN t, sn)
  | .inf n1, .inf n2 => (infBits t (n1 != n2), 0)
  | .inf n1, .fin n2 m _ | .fin n2 m _, .inf n1 => if m = 0 then (canonNaN t, fNV) else (infBits t (n1 != n2), 0)
  | .fin n1 m1 e1, .fin n2 m2 e2 => roundFin ftz t rm (n1 != n2) (m1 * m2) (e1 + e2)

/-- Whether a product is 0 × ∞. -/
def zeroTimesInf : FVal → FVal → Bool
  | .inf _, .fin _ m _ => m == 0
  | .fin _ m _, .inf _ => m == 0
  | _, _ => false

/-- The fused multiply-add a × b + c, rounded once (R80, R99). -/
def fpFma (ftz : Bool) (t : Ty) (rm : Rm) (a b c : FVal) : Nat × Flags :=
  if a.isNan || b.isNan || c.isNan then
    (canonNaN t, if a.isSnan || b.isSnan || c.isSnan || zeroTimesInf a b then fNV else 0)
  else if zeroTimesInf a b then (canonNaN t, fNV)
  else match a, b, c with
    | .fin n1 m1 e1, .fin n2 m2 e2, .fin n3 m3 e3 =>
      let (n, m, e) := addFin rm (n1 != n2) (m1 * m2) (e1 + e2) n3 m3 e3
      roundFin ftz t rm n m e
    | .fin .., .fin .., .inf n => (infBits t n, 0)
    | x, y, z =>
      let np := (match x with | .inf n => n | .fin n _ _ => n | .nan _ => false) !=
                (match y with | .inf n => n | .fin n _ _ => n | .nan _ => false)
      match z with
      | .inf n => if n = np then (infBits t np, 0) else (canonNaN t, fNV)
      | _ => (infBits t np, 0)

/-- The quotient, rounded (R80). -/
def fpDiv (ftz : Bool) (t : Ty) (rm : Rm) (a b : FVal) : Nat × Flags :=
  let sn : Flags := if a.isSnan || b.isSnan then fNV else 0
  match a, b with
  | .nan _, _ | _, .nan _ => (canonNaN t, sn)
  | .inf _, .inf _ => (canonNaN t, fNV)
  | .inf n1, .fin n2 _ _ => (infBits t (n1 != n2), 0)
  | .fin n1 _ _, .inf n2 => (signBit t (n1 != n2), 0)
  | .fin n1 m1 e1, .fin n2 m2 e2 =>
    if m2 = 0 then
      if m1 = 0 then (canonNaN t, fNV) else (infBits t (n1 != n2), fDZ)
    else if m1 = 0 then (signBit t (n1 != n2), 0)
    else
      let k := fracBits t + 4 + bitLen m2
      let num := m1 * 2 ^ k
      roundMag ftz t rm (n1 != n2) { m := num / m2, e := e1 - e2 - k, sticky := num % m2 != 0 }

/-- The integer square root, one result bit a step from bit `k - 1` down. -/
def isqrtBits (n : Nat) : Nat → Nat → Nat
  | 0, r => r
  | k + 1, r => isqrtBits n k (if (r + 2 ^ k) * (r + 2 ^ k) ≤ n then r + 2 ^ k else r)

/-- The integer square root. -/
def isqrt (n : Nat) : Nat := isqrtBits n (bitLen n / 2 + 1) 0

/-- The square root of a positive magnitude to more bits than any type holds, with a sticky bit. -/
def sqrtMag (m : Nat) (e : Int) (bits : Nat) : Mag :=
  let m1 := if e % 2 = 0 then m else 2 * m
  let e1 := if e % 2 = 0 then e else e - 1
  let n := m1 * 2 ^ (2 * bits)
  let r := isqrt n
  { m := r, e := e1 / 2 - bits, sticky := r * r != n }

/-- The square root, rounded (R80). -/
def fpSqrt (ftz : Bool) (t : Ty) (rm : Rm) (a : FVal) : Nat × Flags :=
  match a with
  | .nan s => (canonNaN t, if s then fNV else 0)
  | .inf neg => if neg then (canonNaN t, fNV) else (infBits t false, 0)
  | .fin neg m e =>
    if m = 0 then (signBit t neg, 0)
    else if neg then (canonNaN t, fNV)
    else roundMag ftz t rm false (sqrtMag m e (fracBits t + 4))

/-! ### Comparison, minimum and maximum (R29, R81) -/

/-- The order of two numbers that are not NaN: less, equal or greater. Zeros are equal. -/
def fpOrder (a b : FVal) : Ordering :=
  match a, b with
  | .inf n1, .inf n2 => if n1 = n2 then .eq else if n1 then .lt else .gt
  | .inf n, _ => if n then .lt else .gt
  | _, .inf n => if n then .gt else .lt
  | .fin n1 m1 e1, .fin n2 m2 e2 => compare (scaled n1 m1 e1 (min e1 e2)) (scaled n2 m2 e2 (min e1 e2))
  | _, _ => .eq

/-- Whether the value is negative, as its sign bit says. -/
def FVal.isNeg : FVal → Bool
  | .nan _ => false
  | .inf n => n
  | .fin n _ _ => n

/-- The bits of an operand as R29 delivers it: after `FTZ`, so a subnormal is the zero of its sign. -/
def afterFtz (ftz : Bool) (t : Ty) (bits : Nat) : Nat :=
  if ftz && t.isFp && isSubnormal t bits then bits / 2 ^ (t.width - 1) % 2 * 2 ^ (t.width - 1) else bits

/-- minimumNumber or maximumNumber of two encodings (R29). -/
def fpMinMax (isMax ftz : Bool) (t : Ty) (x y : Nat) : Nat × Flags :=
  let a := readF ftz t x
  let b := readF ftz t y
  let fl : Flags := if a.isSnan || b.isSnan then fNV else 0
  if a.isNan && b.isNan then (canonNaN t, fl)
  else if a.isNan then (afterFtz ftz t y, fl)
  else if b.isNan then (afterFtz ftz t x, fl)
  else
    let aLess := match fpOrder a b with
      | .lt => true
      | .gt => false
      | .eq => a.isNeg
    (afterFtz ftz t (if aLess != isMax then x else y), fl)

/-- The outcome of a comparison and NV (R81, R101): predicate 0 eq, 1 lt, 2 le, 3 unordered. -/
def fpCompare (pred : Nat) (a b : FVal) : Bool × Flags :=
  let un := a.isNan || b.isNan
  let sn := a.isSnan || b.isSnan
  let quiet : Flags := if sn then fNV else 0
  let loud : Flags := if un then fNV else 0
  match pred with
  | 0 => (!un && fpOrder a b == .eq, quiet)
  | 1 => (!un && fpOrder a b == .lt, loud)
  | 2 => (!un && fpOrder a b != .gt, loud)
  | _ => (un, quiet)

/-! ### Integers -/

/-- The integer that w bits stand for. -/
def intOf (signed : Bool) (w bits : Nat) : Int :=
  let b := bits % 2 ^ w
  if signed && 2 ^ (w - 1) ≤ b then (b : Int) - 2 ^ w else b
/-- The bits of an integer modulo 2^w. -/
def wrapInt (w : Nat) (v : Int) : Nat := (v % (2 ^ w : Nat)).toNat
/-- The least value of an integer type. -/
def intMin (t : Ty) : Int := if t.signed then -(2 ^ (t.width - 1) : Nat) else 0
/-- The greatest value of an integer type. -/
def intMax (t : Ty) : Int := if t.signed then (2 ^ (t.width - 1) : Nat) - 1 else (2 ^ t.width : Nat) - 1
/-- `Sat(y, t)` (R25): the clamped bits and whether it clipped. -/
def satInt (t : Ty) (v : Int) : Nat × Bool :=
  if v < intMin t then (wrapInt t.width (intMin t), true)
  else if intMax t < v then (wrapInt t.width (intMax t), true)
  else (wrapInt t.width v, false)

/-! ### Conversions (R33, R34) -/

/-- What a conversion delivers: bits, floating-point flags, and whether `VSTAT.SAT` is set. -/
structure Cvt where
  bits : Nat
  flags : Flags
  sat : Bool
  deriving DecidableEq, Repr

/-- How a conversion rounds: under a mode, or stochastically with a 32-bit draw (R33). -/
inductive CvtMode where
  | mode (rm : Rm)
  | draw (u : Nat)
  deriving DecidableEq, Repr

/-- The overflow result of a conversion (R34). -/
def cvtOverflow (t : Ty) (mode : CvtMode) (sat neg : Bool) : Nat × Flags :=
  match t with
  | .e4m3 => (if sat then signBit t neg + maxMag t else canonNaN t, fOF ||| fNX)
  | .e2m1 => (signBit t neg + maxMag t, fOF ||| fNX)
  | _ =>
    if t == .e5m2 && sat then (signBit t neg + maxMag t, fOF ||| fNX)
    else match mode with
      | .mode rm => (overflowBits t rm neg, fOF ||| fNX)
      | .draw _ => (infBits t neg, fOF ||| fNX)

/-- A nonzero finite value to a floating-point type (R33, R34). (DESIGN CHOICE: log entry 129) -/
def cvtFin (ftz : Bool) (t : Ty) (mode : CvtMode) (sat neg : Bool) (a : Mag) : Nat × Flags :=
  let q := quantum t a
  let (n0, rem, sh) := splitAt a q
  let up := match mode with
    | .mode rm => roundsUp rm neg n0 rem sh a.sticky
    | .draw u => u % 2 ^ 32 < rem * 2 ^ 32 / 2 ^ sh
  let mag := magBits t (if up then n0 + 1 else n0) q
  let inexact := rem != 0 || a.sticky
  if maxMag t < mag then cvtOverflow t mode sat neg
  else
    let tiny := match mode with
      | .mode rm => tinyAfter t rm neg a
      | .draw _ => mag < 2 ^ fracBits t
    deliver ftz t neg mag (if inexact then (if tiny then fUF ||| fNX else fNX) else 0)

/-- A value to a floating-point type (R34). -/
def cvtToFp (ftz : Bool) (t : Ty) (mode : CvtMode) (sat : Bool) (v : FVal) : Nat × Flags :=
  match v with
  | .nan s =>
    (match t with
     | .e2m1 => (0, fNV)
     | _ => (canonNaN t, if s then fNV else 0))
  | .inf neg =>
    (match t with
     | .e4m3 => (if sat then signBit t neg + maxMag t else canonNaN t, fNV)
     | .e2m1 => (signBit t neg + maxMag t, fNV)
     | .e5m2 => (if sat then signBit t neg + maxMag t else infBits t neg, 0)
     | _ => (infBits t neg, 0))
  | .fin neg m e => if m = 0 then (signBit t neg, 0) else cvtFin ftz t mode sat neg { m := m, e := e, sticky := false }

/-- A value to an integer type (R34): rounded, clamped with NV, NX when inexact and not clamped. -/
def cvtToInt (t : Ty) (rm : Rm) (v : FVal) : Nat × Flags :=
  match v with
  | .nan _ => (0, fNV)
  | .inf neg => (wrapInt t.width (if neg then intMin t else intMax t), fNV)
  | .fin neg m e =>
    let (n, inexact) := roundAt rm neg { m := m, e := e, sticky := false } 0
    let i : Int := if neg then -(n : Int) else n
    let (b, clipped) := satInt t i
    (b, if clipped then fNV else if inexact then fNX else 0)

/-- A conversion of one element (R34, R105). -/
def convert (ftz : Bool) (dt st : Ty) (mode : CvtMode) (sat : Bool) (bits : Nat) : Cvt :=
  let rm := match mode with
    | .mode r => r
    | .draw _ => .rne
  if st.isInt then
    let i := intOf st.signed st.width bits
    if dt.isInt then
      if sat then
        let (b, c) := satInt dt i
        { bits := b, flags := 0, sat := c }
      else { bits := wrapInt dt.width i, flags := 0, sat := false }
    else
      let (b, f) := cvtToFp ftz dt mode sat (.fin (decide (i < 0)) i.natAbs 0)
      { bits := b, flags := f, sat := false }
  else
    let v := readF ftz st bits
    let (b, f) := if dt.isInt then cvtToInt dt rm v else cvtToFp ftz dt mode sat v
    { bits := b, flags := f, sat := false }

/-! ### Containers (R27) -/

/-- Element `i` of a container. -/
def elemOf (t : Ty) (c : Word) (i : Nat) : Nat := c.toNat / 2 ^ (t.width * i) % 2 ^ t.width
/-- A container from its elements, element 0 lowest. -/
def packElems (t : Ty) (es : List Nat) : Word :=
  BitVec.ofNat 64 (es.foldr (fun e acc => e % 2 ^ t.width + 2 ^ t.width * acc) 0)
/-- The elements of a container. -/
def elemsOf (t : Ty) (c : Word) : List Nat := (List.range t.elems).map (elemOf t c)
/-- A container with one element replaced. -/
def putElem (t : Ty) (c : Word) (i e : Nat) : Word := packElems t ((elemsOf t c).set i e)
/-- One element in every place (R92, R111). -/
def replicate (t : Ty) (e : Nat) : Word := packElems t (List.replicate t.elems e)

end Sys2Proof.Machine
end

