-- ==== Sys2Proof/Machine/Flags.lean ====
section
/-! DEFINITION. The flags and controls an instruction reads and raises: `FSTAT` (R16), `VSTAT` (R17), the helper `Flag`
(R25), and the exact partials of reduction registers with their fold at a join (R39, R206). -/

namespace Sys2Proof.Machine

/-! ### FSTAT (R16) -/

/-- `FSTAT.FTZ`. -/
def Hart.ftz (h : Hart) : Bool := h.fstat.getLsbD 8
/-- `FSTAT.TEN`, in the order of the flags. -/
def Hart.ten (h : Hart) : Flags := h.fstat.extractLsb' 9 5
/-- `FSTAT.RM` as a mode; a value of 4 is the stochastic mode. -/
def Hart.rmField (h : Hart) : BitVec 3 := h.fstat.extractLsb' 5 3
/-- A value of a rounding field as a mode of an operation that makes no draw: 4 rounds RNE (R32). -/
def modeOf (c : BitVec 3) : Rm :=
  match c.toNat with
  | 1 => .rtz
  | 2 => .rdn
  | 3 => .rup
  | _ => .rne
/-- The rounding mode of a scalar operation (R32, R80): field 7 selects `FSTAT.RM`. -/
def Hart.rounding (h : Hart) (rm : Rm) : Rm :=
  match rm with
  | .dyn => modeOf h.rmField
  | r => r
/-- OR flags into `FSTAT.FLAGS` (R25 `Flag`). -/
def Hart.raiseFlags (h : Hart) (f : Flags) : Hart := { h with fstat := h.fstat ||| f.zeroExtend 64 }

/-- The end of a scalar floating-point instruction: the flags are set; an enabled one traps `FP_ENABLED` and nothing else
is written (R67, R136), else the result is. -/
def State.fpResult (s : State) (d : Reg) (v : Word) (f : Flags) : State :=
  let s1 := s.modMe (fun h => h.raiseFlags f)
  if f &&& s.me.ten != 0 then s1.trap cFp 0 ((f &&& s.me.ten).zeroExtend 64) else s1.result d (PVal.clean v)

/-! ### VSTAT (R17) -/

/-- Bit 0, `EMPTY`. -/
abbrev vEmpty : Word := 1
/-- Bit 1, `TBLOOR`. -/
abbrev vTbloor : Word := 2
/-- Bit 2, `SING`. -/
abbrev vSing : Word := 4
/-- Bit 3, `WSMISS`. -/
abbrev vWsmiss : Word := 8
/-- Bit 4, `SAT`. -/
abbrev vSat : Word := 16
/-- Set flags of `VSTAT`. -/
def Hart.raiseV (h : Hart) (w : Word) : Hart := { h with vstat := h.vstat ||| w }
/-- Set `SING` and the first singular column. -/
def Hart.setSing (h : Hart) (col : BitVec 6) : Hart :=
  { h with vstat := (h.vstat &&& 0xFFFFFFFFFFFFC0FF) ||| vSing ||| (col.zeroExtend 64 <<< 8) }

/-! ### Partials (R39, R206) -/

/-- A finite value in units of 2^-1074. -/
def units (neg : Bool) (m : Nat) (e : Int) : Int := scaled neg m e (-1074)

/-- One contribution to an FP sum. -/
def Partial.addValue (p : Partial) : FVal → Partial
  | .nan _ => { p with nan := true }
  | .inf true => { p with negInf := true }
  | .inf false => { p with posInf := true }
  | .fin n m e => { p with sum := p.sum + units n m e }

/-- A word combined with a word by an operator other than an FP sum; `nv` tells that a signalling NaN took part. -/
def redWord (op : RedOp) (ftz : Bool) (a b : Word) : Word × Bool :=
  let fp (t : Ty) (isMax : Bool) : Word × Bool :=
    let r := fpMinMax isMax ftz t (a.toNat % 2 ^ t.width) (b.toNat % 2 ^ t.width)
    (BitVec.ofNat 64 r.1, r.2 != 0)
  match op with
  | .minF64 => fp .f64 false
  | .maxF64 => fp .f64 true
  | .minF32 => fp .f32 false
  | .maxF32 => fp .f32 true
  | .addS64 => (a + b, false)
  | .minS64 => (if a.toInt ≤ b.toInt then a else b, false)
  | .maxS64 => (if a.toInt ≤ b.toInt then b else a, false)
  | .minN64 => (if a.toNat ≤ b.toNat then a else b, false)
  | .maxN64 => (if a.toNat ≤ b.toNat then b else a, false)
  | .and => (a &&& b, false)
  | .or => (a ||| b, false)
  | .xor => (a ^^^ b, false)
  | .addF64 | .addF32 => (b, false)

/-- An update of a partial by one operand (R206): exact, and poisoned by a poisoned operand. -/
def Partial.update (p : Partial) (op : RedOp) (ftz : Bool) (x : PVal) : Partial :=
  if x.poison then { p with poison := true }
  else match op with
    | .addF64 => p.addValue (readF ftz .f64 x.val.toNat)
    | .addF32 => p.addValue (readF ftz .f32 (x.val.toNat % 2 ^ 32))
    | o =>
      let r := redWord o ftz p.val x.val
      { p with val := r.1, nan := p.nan || r.2 }

/-- Two partials as one (R39: the fold in chunk order). -/
def Partial.join (op : RedOp) (ftz : Bool) (p q : Partial) : Partial :=
  let r := redWord op ftz p.val q.val
  { sum := p.sum + q.sum, val := r.1, negInf := p.negInf || q.negInf, posInf := p.posInf || q.posInf,
    nan := p.nan || q.nan || r.2, poison := p.poison || q.poison }

/-- The value a fold leaves in its register and the flags it raises (R39): rounded once, RNE. A poisoned fold leaves data
zero with poison and raises nothing. (DEDUCED: log entry 23) -/
def Partial.result (p : Partial) (op : RedOp) (ftz : Bool) : PVal × Flags :=
  if p.poison then (PVal.poisoned, 0)
  else
    let fpAdd (t : Ty) : PVal × Flags :=
      if p.nan || (p.negInf && p.posInf) then (PVal.clean (BitVec.ofNat 64 (canonNaN t)), fNV)
      else if p.negInf then (PVal.clean (BitVec.ofNat 64 (infBits t true)), 0)
      else if p.posInf then (PVal.clean (BitVec.ofNat 64 (infBits t false)), 0)
      else
        let r := roundFin ftz t .rne (decide (p.sum < 0)) p.sum.natAbs (-1074)
        (PVal.clean (BitVec.ofNat 64 r.1), r.2)
    match op with
    | .addF64 => fpAdd .f64
    | .addF32 => fpAdd .f32
    | _ => (PVal.clean p.val, if p.nan then fNV else 0)

/-- The start of a fold: the identity updated by the register's value at the fork. (DEDUCED: log entry 23) -/
def foldStart (op : RedOp) (ftz : Bool) (r0 : PVal) : Partial :=
  match op with
  | .addF64 | .addF32 => (Partial.start op).update op ftz r0
  | _ => if r0.poison then { (Partial.start op) with poison := true } else { (Partial.start op) with val := r0.val }

/-- Combine an operand into the partial of a reduction register of the executing hart: that of the innermost open fork that
declares it (R206). -/
def State.combine (s : State) (r : Reg) (op : RedOp) (x : PVal) : State :=
  let k := s.cur
  let up := fun (ps : Tab Partial) => tmod (Partial.start op) ps r.toNat (fun p => p.update op s.me.ftz x)
  let declares := fun (ds : List DeclItem) => ds.any (fun d => d.reg? = some r)
  match s.me.forks.findIdx? (fun f => declares f.decls) with
  | some n => s.modHart k (fun h => { h with forks := h.forks.modify n (fun f => { f with parts := up f.parts }) })
  | none => match s.chunkOf k with
    | some (_, c) => s.modFork (ringOf k) (fun f => f.modChunk c.num (fun d => { d with parts := up d.parts }))
    | none => s

end Sys2Proof.Machine
end

