-- ==== Sys2Proof/Machine/Memory.lean ====
section
/-! DEFINITION. Where bytes live and how an agent reaches them: the physical map (R305), the windows (R278), translation
(R277 to R284), the tokens of the L1 caches (R268), versions of chunks (R209), errors found on demand (R272), poison
markers (R77), and remote accesses (R336 to R340). Every load and store of a hart goes through `State.load` and
`State.store`. -/

namespace Sys2Proof.Machine

/-! ### Locations -/

/-- Device memory of a package. -/
abbrev locDev (pkg pa : Nat) : Nat := pkg * 2 ^ 52 + pa
/-- A byte of a core's TCM. -/
abbrev locTcm (core off : Nat) : Nat := 2 ^ 60 + core * 2 ^ 17 + off
/-- A byte of a ring's scratchpad. -/
abbrev locScratch (ring off : Nat) : Nat := 2 ^ 61 + ring * 2 ^ 22 + off
/-- A byte of a die store. -/
abbrev locStore (die off : Nat) : Nat := 2 ^ 62 + die * 2 ^ 25 + off

/-- Whether a location is device memory. -/
abbrev isDev (l : Nat) : Bool := l < 2 ^ 60
/-- Whether a location lies in a TCM. -/
abbrev isTcm (l : Nat) : Bool := 2 ^ 60 ≤ l && l < 2 ^ 61
/-- Whether a location lies in a scratchpad. -/
abbrev isScratch (l : Nat) : Bool := 2 ^ 61 ≤ l && l < 2 ^ 62
/-- Whether a location lies in a die store. -/
abbrev isStore (l : Nat) : Bool := 2 ^ 62 ≤ l && l < 2 ^ 63
/-- Whether a location is versioned memory (R209): cached device memory, TCMs, scratchpads. -/
abbrev isVersioned (l : Nat) : Bool := l < 2 ^ 62

/-- Who holds the memory at a location, seen from the context that reaches it: the package or its rings themselves; a lease of
that context, or one of another context of the package, whose lodging it is (R347); or another package. -/
inductive Holder where
  | home
  | own
  | other
  deriving DecidableEq, Repr

/-- Where an address leads: a location, the memory of a failed die (R315 step 4), another package, or a byte of another package
that has been fetched. -/
inductive Place where
  | at (loc : Nat) (holder : Holder)
  | dead
  | remote (target la : Nat)
  | got (byte : Byte) (poison : Bool)
  deriving DecidableEq, Repr

/-- The home die of a device byte, `none` where nothing is populated (R305, R306): the HBM of a die, or an Attic site with
the die that homes it now. -/
def State.homeOf (s : State) (pkg pa : Nat) : Option (Nat × Bool) :=
  if pa < 0x10000000000 then
    let d := pa / 0x4000000000
    if pa % 0x4000000000 < 0x1DCD650000 then some (d, true) else none
  else if 0x40000000000 ≤ pa && pa < 0x40000000000 + 12 * 0x4000000000 then
    let k := (pa - 0x40000000000) / 0x4000000000
    if pa % 0x4000000000 < 0x3B9ACA0000 && !((s.pkg pkg).fusedSites.contains k) then
      let first := lget 0 [0, 2, 1, 3] (k / 3)
      let second := lget 0 [2, 0, 3, 1] (k / 3)
      if (s.die (dieKey pkg first)).failed then some (second, false) else some (first, false)
    else none
  else none

/-- Whether a physical byte lies in a unit that this package has marked LENT (R348, R352). (DEDUCED: log entry 99) -/
def Pkg.isLent (p : Pkg) (pa : Nat) : Bool :=
  p.lends.any (fun l => l.base ≤ pa && pa < l.base + l.units * Config.leaseUnit)

/-- Whether a physical byte lies in a reserved Escrow (R349). -/
def Pkg.isEscrow (p : Pkg) (pa : Nat) : Bool :=
  p.borrows.any (fun b => b.escrow ≤ pa && pa < b.escrow + b.units * Config.leaseUnit)

/-- The lease whose lodging holds a remote address: from GRANTED until FREE (R347). (DEDUCED: log entry 96) -/
def Pkg.lodging (p : Pkg) (target la : Nat) : Option Borrow :=
  p.borrows.find? (fun b => b.lender = target && b.state != .requested && b.base ≤ la &&
    la < b.base + b.units * Config.leaseUnit)

/-- Whether a package has a port on the fabric: it exists and its boot has trained links. -/
def State.hasPort (s : State) (pkg : Nat) : Bool := pkg < 128 && !(s.pkg pkg).sliceLive.isEmpty

/-- The name of a lease in the agents' messages. (DESIGN CHOICE: log entry 101, DESIGN CHOICE: log entry 101) -/
def Borrow.name (b : Borrow) : Nat := b.handle + 2 ^ 16 * b.serial

/-- Whether the lender of a lease still serves its units to the borrower: it can be reached, and the lease has not ended there
(R355, R361). -/
def State.served (s : State) (pkg : Nat) (b : Borrow) : Bool :=
  !(s.pkg pkg).down && !(s.pkg b.lender).down &&
  (s.pkg b.lender).lends.any (fun l => l.borrower = pkg && l.reqno = b.name && !l.marked)

/-- The backing byte of a lodging byte (R347): the lender's frame, or the escrow frame once the frame has migrated. While the
lender does not serve its frames they read as zero with poison and lose what is written (R341, R357, R361). -/
def State.backing (s : State) (pkg : Nat) (b : Borrow) (la : Nat) : Place :=
  let off := la - b.base
  if off / 4096 < b.migrated then
    (match s.homeOf pkg (b.escrow + off) with
     | some (d, _) => if (s.die (dieKey pkg d)).failed then .dead else .at (locDev pkg (b.escrow + off)) .home
     | none => .dead)
  else if !s.served pkg b then .dead
  else match s.homeOf b.lender la with
    | some (d, _) => if (s.die (dieKey b.lender d)).failed then .dead else .at (locDev b.lender la) .home
    | none => .dead

/-- A physical byte address as its home serves it: a frame that is migrating is reached at its new place (R288). -/
def State.forward (s : State) (pkg pa : Nat) : Nat :=
  match s.migrations.find? (fun m => m.pkg = pkg && m.old ≤ pa && pa < m.old + m.size) with
  | some m => pa - m.old + m.new
  | none => pa

/-- What a physical byte address leads to for an agent of a context, or no access (`PROTECT`). (DEDUCED: log entry 96) -/
def State.physical (s : State) (pkg ctx pa0 : Nat) : Option Place :=
  let pa := s.forward pkg pa0
  if pa / 2 ^ 51 % 2 = 1 then
    let target := pa / 2 ^ 44 % 128
    let la := pa % 2 ^ 44
    match (s.pkg pkg).lodging target la with
    | some b => match s.backing pkg b la with
      | .at l _ => some (.at l (if b.ctx = ctx then .own else .other))
      | p => some p
    | none => some (.remote target la)
  else match s.homeOf pkg pa with
    | none => none
    | some (d, _) =>
      if (s.pkg pkg).isLent pa || (s.pkg pkg).isEscrow pa then none
      else if (s.die (dieKey pkg d)).failed then some .dead
      else some (.at (locDev pkg pa) .home)

/-! ### Agents and translation -/

/-- Who makes an access: the executing hart or an engine acting with a hart's context and privilege (R169, R247). -/
structure Agent where
  hart : Option Nat
  core : Nat
  ctx : Nat
  user : Bool
  deriving DecidableEq, Repr

/-- The agent of a hart. -/
def State.agentOf (s : State) (k : Nat) : Agent :=
  { hart := some k, core := coreOf k, ctx := (s.hart k).ctx, user := (s.hart k).priv = 0 }

/-- Access kinds (R136). -/
abbrev kLoad : Nat := 0
/-- A store. -/
abbrev kStore : Nat := 1
/-- An instruction fetch. -/
abbrev kFetch : Nat := 2
/-- An atomic. -/
abbrev kAtomic : Nat := 3

/-- Why a translation gives no place (R282): cause code. -/
abbrev XFault := Nat

/-- Whether permissions U X W R (bits 4 to 1 of an entry) allow an access (R282). -/
def permits (entry : Nat) (user : Bool) (kind : Nat) : Bool :=
  let r := entry / 2 % 2 = 1
  let w := entry / 4 % 2 = 1
  let x := entry / 8 % 2 = 1
  let u := entry / 16 % 2 = 1
  (match kind with
   | 0 => decide r
   | 1 => decide w
   | 2 => decide x
   | _ => decide r && decide w) && (!user || decide u)

/-- A window address (R278). -/
def State.window (s : State) (core va kind : Nat) : Except XFault Place :=
  let ring := ringOfCore core
  let off := va % 2 ^ 32
  if kind = kFetch then .error cProtect
  else match va / 2 ^ 32 % 256 with
    | 0 => if off < Config.tcmBytes then .ok (.at (locTcm core off) .home) else .error cProtect
    | 1 =>
      let p := off / Config.tcmBytes
      if p < 8 && !(s.core (coreKey ring p)).fused then .ok (.at (locTcm (coreKey ring p) (off % Config.tcmBytes)) .home)
      else .error cProtect
    | 2 => if off < Config.scratchBytes then .ok (.at (locScratch ring off) .home) else .error cProtect
    | 3 => if off < Config.dieStoreBytes then .ok (.at (locStore (dieOfRing ring) off) .home) else .error cProtect
    | _ => .error cProtect

/-! ### Sectors and the errors found in them (R266, R272) -/

/-- A line no cache holds. -/
def LineTokens.home : LineTokens := { held := [], owner := none, persistent := [], unserved := [], valid := 0, dirty := 0 }

/-- The bit of a location's sector in the masks of its line (R266). -/
def sectorBit (l : Nat) : Nat := 2 ^ (l % 128 / 32)

/-- The die that counts errors of a device byte: its home die. -/
def State.eccDie (s : State) (l : Nat) : Nat :=
  let pkg := l / 2 ^ 52
  dieKey pkg (match s.homeOf pkg (l % 2 ^ 52) with
    | some (d, _) => d
    | none => 0)

/-- Whether the caches of a die hold a sector (R266); those of a borrower hold lines of its lodging (R347). -/
def State.cached (s : State) (l : Nat) : Bool :=
  s.dies.any (fun e => (tget LineTokens.home e.2.lines (l / 128)).valid &&& sectorBit l != 0)

/-- A sector comes into the caches of a die, clean or dirty (R266). (DEDUCED: log entry 37) -/
def State.fill (s : State) (die l : Nat) (dirty : Bool) : State :=
  s.modDie die (fun d =>
    let t := tget LineTokens.home d.lines (l / 128)
    let u := { t with valid := t.valid ||| sectorBit l, dirty := if dirty then t.dirty ||| sectorBit l else t.dirty }
    { d with lines := tput d.lines (l / 128) u })

/-- An uncorrectable sector is found: its words are marked with data zero, counted and logged (R272). A sector whose markers the scrubber
has written beneath a cached copy has been counted already. (DESIGN CHOICE: log entry 39) -/
def State.poisonSector (s : State) (l : Nat) (scrub : Bool) : State :=
  let base := l / 32 * 32
  let x := base % 2 ^ 52 / 32
  let log : Word := BitVec.ofNat 64 (2 ^ 63 + (if scrub then 2 ^ 62 else 0) + base % 2 ^ 52)
  let s1 := { s with mem := s.mem.poisonRange base 32 }
  let s2 := s1.modPkg (l / 2 ^ 52) (fun p => { p with badSectors := sdel x p.badSectors, scrubbed := sdel x p.scrubbed })
  let s3 := if (s.pkg (l / 2 ^ 52)).scrubbed.contains x then s2
    else s2.modDie (s.eccDie l) (fun d => { d with eccue := count32 d.eccue, ecclog := log })
  if scrub then s3 else s3.fill (s.eccDie l) l true

/-- Whether the sector of a location has an error that a read of it from memory would find: no cache holds the sector. -/
def State.badAt (s : State) (l : Nat) : Bool :=
  isDev l && (s.pkg (l / 2 ^ 52)).badSectors.contains (l % 2 ^ 52 / 32) && !s.cached l

/-- A demand read of a location finds the error of its sector. (DESIGN CHOICE: log entry 39) -/
def State.demand (s : State) (l : Nat) : State := if s.badAt l then s.poisonSector l false else s

/-- Demand reads of several places. -/
def State.demandAll (s : State) (ps : List Place) : State :=
  ps.foldl (fun t p => match p with
    | .at l _ => t.demand l
    | _ => t) s

/-- Sectors that are overwritten whole before anybody reads them are never found in error (R272). (DESIGN CHOICE: log entry 39) -/
def State.healSectors (s : State) (pkg lo n : Nat) : State :=
  s.modPkg pkg (fun p => { p with
    badSectors := p.badSectors.filter (fun x => x < lo || lo + n ≤ x), scrubbed := p.scrubbed.filter (fun x => x < lo || lo + n ≤ x) })

/-- The sectors of a line in a mask are written back: what they overwrite in memory is never read (R266, R272). -/
def State.writeBack (s : State) (line mask : Nat) : State :=
  ((List.range 4).filter mask.testBit).foldl (fun t i =>
    t.healSectors (128 * line / 2 ^ 52) (128 * line % 2 ^ 52 / 32 + i) 1) s

/-- Whether a list of locations holds the whole sector of one of them. -/
def wholeSector (locs : List Nat) (l : Nat) : Bool := (List.range 32).all (fun i => locs.contains (l / 32 * 32 + i))

/-- Writes of whole words come to the sectors of their locations (R266, R272): a sector that they overwrite whole is not read, so that its
error is never found. -/
def State.overwrite (s : State) (locs : List Nat) : State :=
  (locs.filter (fun l => s.badAt l && wholeSector locs l)).foldl (fun t l => t.healSectors (l / 2 ^ 52) (l % 2 ^ 52 / 32) 1) s

/-- A write comes to the sectors of its locations: one that it does not overwrite whole is read first. -/
def State.toWrite (s : State) (locs : List Nat) : State := locs.foldl State.demand (s.overwrite locs)

/-! ### Translation (R277, R280 to R284) -/

/-- Whether an address lies in the aperture of a resident context. -/
def Resident.inAperture (r : Resident) (va : Nat) : Bool := r.apBase ≤ va && va < r.apBase + r.apLen * 2 ^ 26

/-- The fault of an entry of the vector translation table (R282, R284): 0 where it translates. -/
def apertureCause (e : PVal) : Nat :=
  let v := e.val.toNat
  if e.poison then cPoison
  else if v % 2 = 0 then cPageAbsent
  else if v / 2 ^ 52 != 0 || v / 64 % 2 ^ 20 != 0 || (v / 4 % 2 = 1 && v / 2 % 2 = 0) then cProtect
  else 0

/-- The translation of an address by the vector translation table (R284): its entry, or the first entry of its 1 GiB group. (DESIGN CHOICE: log entry 34) -/
def State.aperture (s : State) (r : Resident) (va : Nat) : Pin :=
  let i := (va - r.apBase) / 2 ^ 26
  let g := i / 16 * 16
  let e := tget (PVal.clean 0) r.vtt i
  let first := tget (PVal.clean 0) r.vtt g
  if e.val.getLsbD 5 && Config.runEntry s.free va % 2 = 1 then
    { ctx := r.ctx, va := r.apBase + g * 2 ^ 26, size := 2 ^ 30, pa := first.val.toNat / 2 ^ 26 % 2 ^ 26 * 2 ^ 26,
      perm := BitVec.ofNat 5 (first.val.toNat % 32), cause := apertureCause first, stale := false }
  else
    { ctx := r.ctx, va := r.apBase + i * 2 ^ 26, size := 2 ^ 26, pa := e.val.toNat / 2 ^ 26 % 2 ^ 26 * 2 ^ 26,
      perm := BitVec.ofNat 5 (e.val.toNat % 32), cause := apertureCause e, stale := false }

/-- One entry of a page table in memory (R283): its value and poison, or `none` where no table frame may lie (R282). -/
def State.pte (s : State) (pkg ctx pa : Nat) : Option PVal :=
  match (if pa / 2 ^ 51 % 2 = 1 then none else s.physical pkg ctx pa) with
  | some (.at l _) => some { val := BitVec.ofNat 64 (s.mem.num l 8), poison := s.mem.marked l }
  | some .dead => some PVal.poisoned
  | _ => none

/-- The walker's load of a page table entry is a demand read (R272). -/
def State.pteDemand (s : State) (pkg ctx pa : Nat) : State :=
  match s.physical pkg ctx pa with
  | some (.at l _) => s.demand l
  | _ => s

/-- The page size of a leaf at a level. -/
def pageSize (level : Nat) : Nat := 2 ^ (12 + 9 * level)

/-- What a walk finds: the leaf entry, its address, its level and whether a run covers it. -/
structure Leaf where
  entry : Nat
  addr : Nat
  level : Nat
  run : Nat
  deriving DecidableEq, Repr

/-- The leaf that an entry is at a level, or the fault it gives (R280, R282); `none` for a pointer. -/
def leafOf (e addr level : Nat) : Except XFault (Option Leaf) :=
  if e % 2 = 0 then .error cPageAbsent
  else if e / 2 ^ 52 != 0 || e / 64 % 64 != 0 then .error cProtect
  else if e / 2 % 8 = 0 then (if level = 0 || e / 16 % 4 != 0 then .error cProtect else .ok none)
  else if level = 3 || (e / 4 % 2 = 1 && e / 2 % 2 = 0) then .error cProtect
  else if e / 4096 % 2 ^ 40 * 4096 % pageSize level != 0 then .error cProtect
  else .ok (some { entry := e, addr := addr, level := level,
                   run := if e / 32 % 2 = 1 then (if level = 0 then 16 else if level = 1 then 32 else 1) else 1 })

/-- A walk of the page table from a level down (R280, R282): each entry is read on demand. -/
def State.walk (s : State) (pkg ctx va : Nat) : Nat → Nat → State × Except XFault Leaf
  | fuel, table =>
    let addr := table + 8 * (va / pageSize fuel % 512)
    let s1 := s.pteDemand pkg ctx addr
    match s1.pte pkg ctx addr with
    | none => (s1, .error cProtect)
    | some p =>
      if p.poison then (s1, .error cPoison)
      else match leafOf p.val.toNat addr fuel with
        | .error f => (s1, .error f)
        | .ok (some l) => (s1, .ok l)
        | .ok none => match fuel with
          | 0 => (s1, .error cProtect)
          | k + 1 => s1.walk pkg ctx va k (p.val.toNat / 4096 % 2 ^ 40 * 4096)

/-- The entry of a contiguous run that an access translates by, and the physical address it gives (R281). An entry of the run that
is no leaf of it, or is poisoned, is not used. (DESIGN CHOICE: log entry 34) -/
def State.byRun (s : State) (pkg ctx va : Nat) (l : Leaf) : State × Nat × Nat :=
  let size := pageSize l.level
  if l.run = 1 then (s, l.entry, l.entry / 4096 % 2 ^ 40 * 4096 + va % size)
  else
    let i := va / size % l.run
    let j := Config.runEntry s.free va % l.run
    let at_ := l.addr - 8 * i + 8 * j
    let s1 := s.pteDemand pkg ctx at_
    let e := match s1.pte pkg ctx at_ with
      | some p => if p.poison then l.entry else match leafOf p.val.toNat at_ l.level with
        | .ok (some m) => if m.run = l.run then m.entry else l.entry
        | _ => l.entry
      | none => l.entry
    (s1, e, e / 4096 % 2 ^ 40 * 4096 / (size * l.run) * (size * l.run) + va % (size * l.run))

/-- Keep a translation in a die (R283). (DESIGN CHOICE: log entry 33) -/
def State.keepTrans (s : State) (die : Nat) (x : Trans) : State :=
  if (s.die die).tlb.contains x then s else s.modDie die (fun d => { d with tlb := x :: d.tlb })

/-- A translation that a die holds, as an access holds it. -/
def Trans.pin (t : Trans) : Pin := { ctx := t.ctx, va := t.va, size := t.size, pa := t.pa, perm := t.perm, cause := 0, stale := false }

/-- A page that does not translate. -/
def faultPin (ctx va cause : Nat) : Pin := { ctx := ctx, va := va / 4096 * 4096, size := 4096, pa := 0, perm := 0, cause := cause, stale := false }

/-- Translate the page of an address outside the windows (R277, R283, R284): by the aperture, by a translation that the die may reuse,
or by a walk, which the die may keep. -/
def State.translate (s : State) (pkg die ctx va : Nat) : State × Pin :=
  match s.residentOf die ctx with
  | none => (s, faultPin ctx va cPageAbsent)
  | some r =>
    if r.inAperture va then (s, s.aperture r va)
    else match (s.die die).tlb.find? (fun t => t.ctx = ctx && t.va ≤ va && va < t.va + t.size && Config.reuse s.free va) with
      | some t => (s, t.pin)
      | none => match s.walk pkg ctx va 3 r.root with
        | (s1, .error f) => (s1, faultPin ctx va f)
        | (s1, .ok l) =>
          let (s2, e, pa) := s1.byRun pkg ctx va l
          let size := pageSize l.level * l.run
          let t : Trans := { ctx := ctx, va := va / size * size, size := size, pa := pa / size * size, perm := BitVec.ofNat 5 (e % 32) }
          (s2.keepTrans die t, t.pin)

/-- What an access has translated: the state, the pages it holds, and where a byte lies or the fault it meets. -/
structure Xlated where
  st : State
  pins : List Pin
  ans : Except XFault Place

/-- Whether an address lies in the aperture of an agent's context. -/
def State.inAperture (s : State) (ag : Agent) (va : Nat) : Bool :=
  match s.residentOf (dieOfRing (ringOfCore ag.core)) ag.ctx with
  | some r => r.inAperture va
  | none => false

/-- Where a byte lies by the page that an access holds for it. -/
def State.byPin (s : State) (ag : Agent) (p : Pin) (va kind : Nat) : Except XFault Place :=
  if p.cause != 0 then .error p.cause
  else if !permits p.perm.toNat ag.user kind then .error cProtect
  else match s.physical (pkgOfRing (ringOfCore ag.core)) ag.ctx (p.pa + (va - p.va)) with
    | some q => .ok q
    | none => .error cProtect

/-- Where a byte of an agent's virtual address space lies (R277): by a page that the access holds already (R286), else translated
now. Vector memory forms reach only the aperture and the windows (R284). (DESIGN CHOICE: log entry 33, DEDUCED: log entry 43) -/
def State.xlate (s : State) (ag : Agent) (pins : List Pin) (vecForm : Bool) (va kind : Nat) : Xlated :=
  if 2 ^ 48 ≤ va then { st := s, pins := pins, ans := .error cProtect }
  else if va / 2 ^ 40 = 0xFF then { st := s, pins := pins, ans := s.window ag.core va kind }
  else if vecForm && !s.inAperture ag va then { st := s, pins := pins, ans := .error cProtect }
  else match pins.find? (fun p => p.ctx = ag.ctx && p.va ≤ va && va < p.va + p.size) with
    | some p => { st := s, pins := pins, ans := s.byPin ag p va kind }
    | none =>
      let r := s.translate (pkgOfRing (ringOfCore ag.core)) (dieOfRing (ringOfCore ag.core)) ag.ctx va
      { st := r.1, pins := pins ++ [r.2], ans := r.1.byPin ag r.2 va kind }

/-- A byte of an access with where it lies or the fault it meets. -/
abbrev ByteAt := Nat × Except XFault Place

/-- What an access of several bytes has translated. -/
structure Spread where
  st : State
  pins : List Pin
  bytes : List ByteAt

/-- Translate every byte of an access before any performs (R76): each page once (R286). -/
def State.spread (s : State) (ag : Agent) (pins : List Pin) (vecForm : Bool) (kind : Nat) : List Nat → Spread
  | [] => { st := s, pins := pins, bytes := [] }
  | va :: r =>
    let x := s.xlate ag pins vecForm va kind
    let y := x.st.spread ag x.pins vecForm kind r
    { y with bytes := (va, x.ans) :: y.bytes }

/-- A fault of an access: cause code and the lowest faulting byte. -/
structure AccFault where
  cause : Nat
  addr : Nat
  deriving DecidableEq, Repr

/-- The addresses of `n` bytes, modulo 2^64. -/
def byteAddrs (va n : Nat) : List Nat := (List.range n).map (fun i => (va + i) % 2 ^ 64)

/-- The fault at the lowest byte of an access, if any byte faults. -/
def lowestOf : List ByteAt → Option AccFault
  | [] => none
  | (va, r) :: l => match r, lowestOf l with
    | .ok _, f => f
    | .error c, none => some { cause := c, addr := va }
    | .error c, some f => some (if va ≤ f.addr then { cause := c, addr := va } else f)

/-- The places of the bytes that translate. -/
def okPlaces (bs : List ByteAt) : List Place := bs.filterMap (fun b => match b.2 with
  | .ok p => some p
  | .error _ => none)

/-- The bytes of an access once translated: each by itself; and where they lie, or the fault that the access meets. -/
structure Places where
  st : State
  pins : List Pin
  bytes : List ByteAt
  ans : Except AccFault (List Place)

/-- Whether a byte translates through a poisoned entry (R282, R284). -/
def poisonedAt (b : ByteAt) : Bool := match b.2 with
  | .error c => c = cPoison
  | .ok _ => false

/-- The translation fault of an access. Of a hart, a poisoned entry comes before every other cause (R67), and one of the vector translation
table is reported at the lowest byte of the access (R284); of an engine, and among the other causes, the lowest byte decides. -/
def State.accessFault (s : State) (ag : Agent) (va : Nat) (bs : List ByteAt) : Option AccFault :=
  match ag.hart, lowestOf (bs.filter poisonedAt) with
  | some _, some f => some (if s.inAperture ag f.addr then { f with addr := va } else f)
  | _, _ => lowestOf bs

/-- The places of `n` bytes for an agent: every page translates before any byte performs (R76). -/
def State.places (s : State) (ag : Agent) (pins : List Pin) (kind va n : Nat) : Places :=
  let x := s.spread ag pins false kind (byteAddrs va n)
  { st := x.st, pins := x.pins, bytes := x.bytes,
    ans := match s.accessFault ag va x.bytes with
      | none => .ok (okPlaces x.bytes)
      | some f => .error f }

/-- Whether a remote place names the agent's own package, or one without a port on the fabric: cause 6 `SELF` (R336). -/
def State.isSelf (s : State) (pkg target : Nat) : Bool := target = pkg || !s.hasPort target

/-! ### Tokens of the L1 caches (R268, R269) -/

/-- T, the tokens of a line on the DN-4816. -/
abbrev lineTokensMax : Nat := 129

/-- Tokens held by a core. -/
def LineTokens.of (t : LineTokens) (core : Nat) : Nat := tget 0 t.held core
/-- Tokens that rest at the home or proxy slice. -/
def LineTokens.atHome (t : LineTokens) : Nat := lineTokensMax - (t.held.map (·.2)).sum

/-- A core gives one token to another (a read request, R268): the core that holds most keeps the rest. -/
def LineTokens.give (t : LineTokens) (src dst : Nat) : LineTokens :=
  { t with held := tset 0 (tset 0 t.held src (t.of src - 1)) dst (tget 0 (tset 0 t.held src (t.of src - 1)) dst + 1) }

/-- Every token, and the owner token, goes to one core (a write request, R268). -/
def LineTokens.takeAll (t : LineTokens) (core : Nat) (p : List Nat) : LineTokens :=
  { t with held := [(core, lineTokensMax)], owner := some core, persistent := p }

/-- Whether a core can hold a token of a line: it does, or one rests at the home slice, or the owner sends one, which it does while it holds
two (R268, the DN-4816). -/
def LineTokens.serves (t : LineTokens) (core : Nat) : Bool :=
  1 ≤ t.of core || 1 ≤ t.atHome || t.owner.any (fun o => 2 ≤ t.of o)

/-- A core that holds no token of a line gets one: from the home slice, else from the owner. -/
def LineTokens.getOne (t : LineTokens) (core : Nat) : LineTokens :=
  if 1 ≤ t.of core then t
  else if 1 ≤ t.atHome then
    { t with held := tset 0 t.held core 1, owner := if t.atHome = 1 && t.owner.isNone then some core else t.owner }
  else match t.owner.filter (fun o => 2 ≤ t.of o) with
    | some o => t.give o core
    | none => t

/-- The core of an agent that asks for a line. -/
abbrev agentCore (a : Nat) : Nat := coreOf (a / 2)

/-- Whether an access of a core to a location is not served (R268, R269): another core's persistent request holds the line, or a load finds
no token. (DEDUCED: log entry 38) -/
def State.lineBusy (s : State) (core kind l : Nat) : Bool :=
  let t := tget LineTokens.home (s.die (dieOfRing (ringOfCore core))).lines (l / 128)
  isDev l && (t.persistent.head?.any (fun a => agentCore a != core) || (kind = kLoad && !t.serves core))

/-- While a persistent request is active, every token goes to its core (R268, R269). -/
def LineTokens.honour (t : LineTokens) : LineTokens :=
  match t.persistent with
  | a :: _ => t.takeAll (agentCore a) t.persistent
  | [] => t

/-- A line of which the caches of a die give up everything; the requests for it stay. -/
def LineTokens.snooped (t : LineTokens) : LineTokens :=
  { LineTokens.home with persistent := t.persistent, unserved := t.unserved }.honour

/-- A write on one die takes the line from the caches of the other dies: the snoops of R307. What they hold dirty is written back. (DEDUCED: log entry 37) -/
def State.snoop (s : State) (die l : Nat) : State :=
  let line := fun (d : Die) => tget LineTokens.home d.lines (l / 128)
  (s.dies.filter (fun (e : Nat × Die) => e.1 != die && (line e.2).valid != 0)).foldl (fun (t : State) e =>
    (t.writeBack (l / 128) (line e.2).dirty).modDie e.1 (fun d => { d with
      lines := if (line d).persistent.isEmpty && (line d).unserved.isEmpty then tdel d.lines (l / 128)
        else tput d.lines (l / 128) (line d).snooped })) s

/-- The tokens a core's access to a device line moves (R268), its sector that comes into the caches (R266), and the snoops of a write
(R307). (DEDUCED: log entry 37) -/
def State.tokens (s : State) (core l : Nat) (write : Bool) : State :=
  if isDev l then
    let die := dieOfRing (ringOfCore core)
    (if write then s.snoop die l else s).modDie die (fun d =>
      let t := tget LineTokens.home d.lines (l / 128)
      let u := if write then { t.takeAll core t.persistent with dirty := t.dirty ||| sectorBit l } else t.getOne core
      { d with lines := tput d.lines (l / 128) { u with valid := t.valid ||| sectorBit l }.honour })
  else s

/-- The tokens that accesses of several locations move, once the sectors that they need have been read. -/
def State.tokensAll (s : State) (core : Nat) (locs : List Nat) (write : Bool) : State :=
  locs.foldl (fun t l => t.tokens core l write) (if write then s.toWrite locs else locs.foldl State.demand s)

/-! ### Committed memory and versions -/

/-- A committed byte and whether its word is marked. -/
def State.committed (s : State) (l : Nat) : Byte × Bool := (s.mem.byte l, s.mem.marked l)

/-- The byte of a version, if a chunk holds one. -/
def Chunk.byte? (c : Chunk) (l : Nat) : Option Byte := (c.bytes.find? (fun e => e.1 = l)).map (·.2)

/-- What a chunk says of the marker of a word (R77, R209): it set it, it cleared it by a store of the whole word, or it left it as it
found it. -/
def Chunk.marker? (c : Chunk) (w : Nat) : Option Bool :=
  if c.marks.contains w then some true else if c.clears.contains w then some false else none

/-- The nearest chunk at or below a number that answers a question. -/
def Fork.nearest {α : Type} (f : Fork) (j : Nat) (ask : Chunk → Option α) : Option (Nat × α) :=
  (f.chunks.filter (fun c => c.num ≤ j)).foldl (fun best c => match ask c with
    | none => best
    | some b => match best with
      | none => some (c.num, b)
      | some (n, _) => if n < c.num then some (c.num, b) else best) none

/-- What a hart reads at a versioned location (R209): its own chunk's version, the nearest older one's, or committed
memory, byte and marker each from the first that holds it; and whether the read is exposed. (DESIGN CHOICE: log entry 2, DEDUCED: log entry 114) -/
def State.readLoc (s : State) (hart : Option Nat) (l : Nat) : Byte × Bool × Bool :=
  match hart.bind (fun k => s.chunkOf k) with
  | some (f, c) =>
    if isVersioned l then
      let b := f.nearest c.num (fun d => d.byte? l)
      let m := f.nearest c.num (fun d => d.marker? (l / 8))
      ((b.map (·.2)).getD (s.committed l).1, (m.map (·.2)).getD (s.committed l).2,
        b.map (·.1) != some c.num || m.map (·.1) != some c.num)
    else ((s.committed l).1, (s.committed l).2, false)
  | none => ((s.committed l).1, (s.committed l).2, false)

/-- What a place reads as: data and poison. The memory of a failed die reads as zero with poison (R315). -/
def State.readPlace (s : State) (hart : Option Nat) : Place → Byte × Bool
  | .at l h => if h = .home then (let r := s.readLoc hart l; (r.1, r.2.1)) else s.committed l
  | .dead => (0, true)
  | .remote _ _ => (0, true)
  | .got b p => (b, p)

/-- Set the exposed-read bits of a load of a chunk (R209); a strip farm keeps none (R215). -/
def State.exposeReads (s : State) (hart : Option Nat) (ps : List Place) : State :=
  match hart with
  | none => s
  | some k => match s.chunkOf k with
    | none => s
    | some (f, c) =>
      if f.strip then s
      else
        let words := ps.filterMap (fun p => match p with
          | .at l .home => if isVersioned l && (s.readLoc hart l).2.2 then some (l / 8) else none
          | _ => none)
        s.modFork (ringOf k) (fun g => g.modChunk c.num (fun d => { d with reads := words.foldl (fun a w => sins w a) d.reads }))

/-- The number that a list of places reads as, little-endian. -/
def State.readPlaces (s : State) (hart : Option Nat) : List Place → Nat
  | [] => 0
  | p :: r => (s.readPlace hart p).1.toNat + 256 * s.readPlaces hart r

/-- Whether any place of a list reads as poisoned. -/
def State.anyPoison (s : State) (hart : Option Nat) (ps : List Place) : Bool := ps.any (fun p => (s.readPlace hart p).2)

/-- The locations of a list of places, in order. -/
def locsOf (ps : List Place) : List Nat :=
  ps.filterMap (fun p => match p with
    | .at l _ => some l
    | _ => none)

/-- Whether a list of locations holds a whole word. -/
def wholeWord (locs : List Nat) (w : Nat) : Bool := (List.range 8).all (fun i => locs.contains (w * 8 + i))

/-- Write bytes and markers (R77): a poisoned store marks every word it touches, an unpoisoned store clears the marker of
a word it writes whole. -/
def Mem.write (m : Mem) (locs : List Nat) (bytes : List Byte) (poison : Bool) : Mem :=
  let m1 := (locs.zip bytes).foldl (fun r e => r.setByte e.1 e.2) m
  if poison then locs.foldl (fun r l => r.mark l) m1
  else locs.foldl (fun r l => if wholeWord locs (l / 8) then r.unmark l else r) m1

/-- A write that performs in committed memory, by an agent outside every fork or by chunk `own` of a fork (R210). (DESIGN CHOICE: log entry 2) -/
def State.commitWrite (s : State) (own : Option (Nat × Nat)) (locs : List Nat) (bytes : List Byte) (poison : Bool) : State :=
  let s1 := s.toWrite locs
  let s2 := { s1 with mem := s1.mem.write locs bytes poison }
  s2.squashReaders own (locs.map (· / 8))

/-- A write by an agent that has no L1 (an engine, a host, another package): it performs at the home slice, and the L1 copies of its
lines give up their tokens (R268). (DEDUCED: log entry 102) -/
def State.homeWrite (s : State) (locs : List Nat) (bytes : List Byte) (poison : Bool) : State :=
  let s1 := (locs.filter isDev).foldl (fun t l => (t.snoop (t.eccDie l) l).modDie (t.eccDie l) (fun d =>
    let k := tget LineTokens.home d.lines (l / 128)
    let u := { k with held := [], owner := none, valid := k.valid ||| sectorBit l, dirty := k.dirty ||| sectorBit l }
    { d with lines := tput d.lines (l / 128) u.honour })) (s.toWrite locs)
  s1.commitWrite none locs bytes poison

/-- The place list of a write: bytes for a failed die are discarded (R315). -/
def livePairs (ps : List Place) (bytes : List Byte) : List (Nat × Byte) :=
  (ps.zip bytes).filterMap (fun e => match e.1 with
    | .at l _ => some (l, e.2)
    | _ => none)

/-- Put bytes into a chunk's version (R209, R77): a poisoned store sets the markers of its words, a clean store of a whole word
clears it, and any other store leaves it as it was found. (DEDUCED: log entry 114) -/
def Chunk.putVersion (c : Chunk) (prs : List (Nat × Byte)) (poison : Bool) : Chunk :=
  let locs := prs.map (·.1)
  let words := locs.map (· / 8)
  let whole := words.filter (wholeWord locs)
  { c with
    bytes := prs.foldl (fun b e => tput b e.1 e.2) c.bytes,
    marks := if poison then words.foldl (fun a w => sins w a) c.marks else c.marks.filter (fun w => !whole.contains w),
    clears := if poison then c.clears.filter (fun w => !words.contains w) else whole.foldl (fun a w => sins w a) c.clears }

/-- Drain one word of a version: its bytes with the marker the chunk gave the word, or each byte by itself where the chunk left the
marker as it was (R77, R211, R275). (DEDUCED: log entry 114) -/
def State.drainWord (s : State) (own : Nat × Nat) (c : Chunk) (w : Nat) : State :=
  let es := c.bytes.filter (fun e => e.1 / 8 = w)
  match c.marker? w with
  | some p => s.commitWrite (some own) (es.map (·.1)) (es.map (·.2)) p
  | none => es.foldl (fun t e => t.commitWrite (some own) [e.1] [e.2] false) s

/-- Whether a location lies in the memory of a die that has failed: what is stored there is discarded (R315). -/
def State.deadLoc (s : State) (l : Nat) : Bool :=
  isDev l && (s.homeOf (l / 2 ^ 52) (l % 2 ^ 52)).any (fun d => (s.die (dieKey (l / 2 ^ 52) d.1)).failed)

/-- Drain a chunk's versions into memory (R211, R214), with all tokens as a store takes them (R268); those of a failed die's memory are
discarded (R315). The chunks of its own fork have read these bytes from the versions already, so the drain squashes only readers of other
forks (R210). Sectors of words that the chunk stored whole are not read (R272). (DEDUCED: log entry 54) -/
def State.drainChunk (s : State) (ring j : Nat) : State :=
  match ((s.ring ring).fork).bind (fun f => (f.chunk? j).map (fun c => (f, c))) with
  | none => s
  | some (f, c) =>
    let live := c.bytes.filter (fun e => !s.deadLoc e.1)
    let words := (live.map (fun e => e.1 / 8)).eraseDups
    let s0 := s.overwrite ((live.filter (fun e => (c.marker? (e.1 / 8)).isSome)).map (·.1))
    let s1 := words.foldl (fun t w =>
      (t.tokensAll (coreOf c.hart) ((live.filter (fun e => e.1 / 8 = w)).map (·.1)) true).drainWord (ring, f.created) c w) s0
    s1.modFork ring (fun g => g.modChunk j (fun d => { d with bytes := [], marks := [], clears := [] }))

/-- Whether a drain of a chunk must wait for another core's persistent request (R269). -/
def State.drainBusy (s : State) (ring j : Nat) : Bool :=
  match ((s.ring ring).fork).bind (fun f => f.chunk? j) with
  | none => false
  | some c => c.bytes.any (fun e => s.lineBusy (coreOf c.hart) kStore e.1)

/-- Whether a store of a speculative chunk finds room for a version (R213): once it has found none, the chunk waits until it is oldest. (DEDUCED: log entry 115) -/
def State.hasRoom (s : State) (k : Nat) : Bool :=
  Config.versionRoom s.free (ringOf k) && !(s.chunkOf k).any (fun c => c.2.noRoom)

/-- A store of a speculative chunk has found no room for a version (R213). -/
def State.foundNoRoom (s : State) (k : Nat) : State :=
  match s.chunkOf k with
  | some (_, c) => s.modFork (ringOf k) (fun g => g.modChunk c.num (fun d => { d with noRoom := true }))
  | none => s

/-- Whether a store to a place can be a version: the die store and leased memory are not versioned (R209, R214). (DEDUCED: log entry 112) -/
def Place.versioned : Place → Bool
  | .at l h => isVersioned l && h == .home
  | _ => true

/-- Whether a store by a hart makes a version (R209, R213): the hart runs a chunk, the memory is versioned, and there is room. (DEDUCED: log entry 112, DEDUCED: log entry 115) -/
def State.makesVersion (s : State) (k : Nat) (ps : List Place) : Bool :=
  match s.chunkOf k with
  | some (_, c) => ps.all Place.versioned && (c.state == .spec || (!c.vvOpen && Config.versionRoom s.free (ringOf k)))
  | none => false

/-- A store by a hart to local places: a version in a chunk, which holds no tokens (R268); else committed memory, after the chunk's
versions (R209, R210, R213). (DESIGN CHOICE: log entry 36) -/
def State.writePlaces (s : State) (k : Nat) (ps : List Place) (bytes : List Byte) (poison : Bool) : State :=
  let prs := livePairs ps bytes
  match s.chunkOf k with
  | some (f, c) =>
    if s.makesVersion k ps then
      let s1 := s.modFork (ringOf k) (fun g => g.modChunk c.num (fun d => d.putVersion prs poison))
      if f.strip then s1
      else match f.exposed c.num (prs.map (fun e => e.1 / 8)) with
        | some j => s1.squashFrom (ringOf k) j
        | none => s1
    else ((s.drainChunk (ringOf k) c.num).tokensAll (coreOf k) (prs.map (·.1)) true).commitWrite (some (ringOf k, c.num))
      (prs.map (·.1)) (prs.map (·.2)) poison
  | none => (s.tokensAll (coreOf k) (prs.map (·.1)) true).commitWrite none (prs.map (·.1)) (prs.map (·.2)) poison

/-- Count an attempt of an agent at lines that are not served to it (R269). -/
def State.unservedAt (s : State) (agent kind : Nat) (locs : List Nat) : State :=
  let core := agentCore agent
  (((locs.filter (s.lineBusy core kind)).map (· / 128)).eraseDups).foldl (fun t line => t.modDie (dieOfRing (ringOfCore core)) (fun d =>
    { d with lines := tmod LineTokens.home d.lines line (fun x => { x with unserved := tmod 0 x.unserved agent (· + 1) }) })) s

/-- Count an attempt of a hart to drain its chunk's versions. -/
def State.unservedOwn (s : State) (k : Nat) : State :=
  match s.chunkOf k with
  | some (_, c) => s.unservedAt (2 * k) kStore (c.bytes.map (·.1))
  | none => s

/-- Whether a drain of a hart's own versions must wait (R269). -/
def State.ownBusy (s : State) (k : Nat) : Bool :=
  match s.chunkOf k with
  | some (_, c) => s.drainBusy (ringOf k) c.num
  | none => false

/-- Drain the versions of the oldest chunk that a hart runs (R214). (DEDUCED: log entry 54) -/
def State.drainOwn (s : State) (k : Nat) : State :=
  match s.chunkOf k with
  | some (_, c) => s.drainChunk (ringOf k) c.num
  | none => s

/-! ### Elements of an access over the fabric (R329, R339) -/

/-- Cut a run of bytes into elements, each a power of two of at most 8 bytes: offset and size. (DESIGN CHOICE: log entry 42) -/
def cuts : Nat → Nat → Nat → List (Nat × Nat)
  | 0, _, _ => []
  | fuel + 1, off, n =>
    if n = 0 then []
    else
      let z := if 8 ≤ n then 8 else if 4 ≤ n then 4 else if 2 ≤ n then 2 else 1
      (off, z) :: cuts fuel (off + z) (n - z)

/-- The runs of remote bytes of a list of places, each within one 16-byte granule of one target (R76): index, target, local address,
length. -/
def remoteRuns : List Place → Nat → List (Nat × Nat × Nat × Nat)
  | [], _ => []
  | .remote t la :: r, i => match remoteRuns r (i + 1) with
    | (j, u, lb, n) :: l =>
      if j = i + 1 && u = t && lb = la + 1 && la / 16 = lb / 16 then (i, t, la, n + 1) :: l else (i, t, la, 1) :: (j, u, lb, n) :: l
    | [] => [(i, t, la, 1)]
  | _ :: r, i => remoteRuns r (i + 1)

/-- The elements that the remote bytes of an access make, with the bytes that a store gives them and the value that
a `cas` compares (R339). -/
def fabElems (ps : List Place) (bytes : List Byte) (cmp : Word) : List RemElem :=
  (remoteRuns ps 0).flatMap (fun r => (cuts r.2.2.2 0 r.2.2.2).map (fun c =>
    { pos := r.1 + c.1, target := r.2.1, la := r.2.2.1 + c.1, size := c.2,
      data := BitVec.ofNat 64 (bytesToNat ((bytes.drop (r.1 + c.1)).take c.2)), cmp := cmp }))

/-- The 4 KiB frames of some elements, each with the address of its first element: memory is populated frame by frame, so that an
acceptance for each finds what is not (R338). (DEDUCED: log entry 93) -/
def framesOf (es : List RemElem) : List (Nat × Nat) :=
  es.foldl (fun u e => if u.any (fun g => g.1 = e.target && g.2 / 4096 = e.la / 4096) then u else u ++ [(e.target, e.la)]) []

/-- The flits of an element of a request (R329). -/
def elemFlit (kind amo : Nat) (e : RemElem) : List (Word × Word) :=
  (BitVec.ofNat 64 (e.la % 2 ^ 43 + bitLen (e.size - 1) * 2 ^ 48 + (if kind = kAtomic then amo * 2 ^ 51 else 0)),
    if kind = kLoad then 0 else e.data) :: (if kind = kAtomic && amo = 9 then [(e.cmp, 0)] else [])

/-- Group numbered items by a key into lists of at most `n`, in the order in which they come (R339). -/
def batches {α : Type} (key : α → Nat × Nat) (n : Nat) : Nat → List (Nat × α) → List (List (Nat × α))
  | 0, _ => []
  | _, [] => []
  | fuel + 1, x :: r =>
    let same := ((x :: r).filter (fun y => key y.2 == key x.2)).take n
    same :: batches key n fuel ((x :: r).filter (fun y => !(same.any (fun z => z.1 = y.1))))

/-- The items of a list with their indices. -/
def numbered {α : Type} (l : List α) : List (Nat × α) := l.zipIdx.map (fun e => (e.2, e.1))

/-! ### Failures (R341) -/

/-- Log a remote failure (R341). (DEDUCED: log entry 95) -/
def State.fabLog (s : State) (pkg cause target la : Nat) : State :=
  s.modPkg pkg (fun p => { p with
    fablog := BitVec.ofNat 64 (2 ^ 63 + cause % 16 * 2 ^ 56 + target % 128 * 2 ^ 49 + la % 2 ^ 43) })

/-- An agent that is no engine: its failures in transit are raised to the ring program of its ring (R341). -/
def Who.isHart : Who → Bool
  | .scalar _ _ | .vector _ | .fetch _ _ => true
  | _ => false

/-- The merge network of a ring. -/
def Who.isMerge : Who → Bool
  | .merge _ _ => true
  | _ => false

/-- An access of an agent fails in transit (R341): logged; of a hart, `MACHINE_CHECK` goes to the ring program of the requester's ring, or
where there is none the package records it (R145). A merge network raises it to the supervisor of its command's context (R145); a copy
reports it by its status (R173). (DEDUCED: log entry 95) -/
def State.transitFail (s : State) (w : Who) (ctx cause target la : Nat) : State :=
  let s1 := s.fabLog w.pkg cause target la
  let addr : Word := BitVec.ofNat 64 (2 ^ 51 + target * 2 ^ 44 + la)
  if w.isMerge then s1.raise w.ring ctx cMachineCheck addr (BitVec.ofNat 64 cause)
  else if !w.isHart then s1
  else match (s1.ring w.ring).prog with
    | some p => s1.postEvent p.hart { code := cMachineCheck, addr := addr, val := BitVec.ofNat 64 cause }
    | none => s1.ctxEvent w.pkg ctx cMachineCheck

/-! ### Making an access (R338, R339) -/

/-- Change an access. -/
def State.modTxn (s : State) (pkg id : Nat) (f : Txn → Txn) : State :=
  s.modPkg pkg (fun p => { p with txns := p.txns.map (fun t => if t.id = id then f t else t) })

/-- Send one packet of an access, and note what it carries. -/
def State.sendPart (s : State) (t : Txn) (target la type : Nat) (accept : Bool) (idx : List Nat) (payload : List (Word × Word)) : State :=
  let pkg := t.who.pkg
  let n := match (s.pkg pkg).txns.find? (fun x => x.id = t.id) with
    | some x => x.count + 1
    | none => 1
  let num := 65536 * t.id + n
  (s.modTxn pkg t.id (fun x => { x with count := n, sent := x.sent ++ [{ num := num, accept := accept, idx := idx }] })).sendPacket pkg
    { dst := target, src := pkg, ch := requestChannel t.who.die la, type := type, seq := 0, txn := num, payload := payload, errors := [] }

/-- Whether nothing can leave a package for the fabric (R330, R341). -/
def State.cutOff (s : State) (pkg : Nat) : Bool := (s.pkg pkg).down || !s.hasPort pkg

/-- Ask acceptance for frames of an access, from index `i` on (R338); bit 43 of the local address goes with it, as the target checks
it (log entry 93). Where the fabric cannot be used they fail in transit. -/
def State.ask (s : State) (t : Txn) (i : Nat) (frames : List (Nat × Nat)) : State :=
  let pkg := t.who.pkg
  let s1 := s.modTxn pkg t.id (fun x => { x with frames := x.frames ++ frames })
  let items := (numbered frames).map (fun e => (e.1 + i, e.2))
  if s.cutOff pkg then
    (frames.foldl (fun u f => u.transitFail t.who t.ctx 4 f.1 f.2) s1).modTxn pkg t.id (fun x => { x with
      answers := items.foldl (fun m e => tput m e.1 4) x.answers })
  else (batches (fun f => (f.1, requestChannel t.who.die f.2)) 31 items.length items).foldl (fun u b => match b with
    | [] => u
    | (_, f) :: _ => u.sendPart t f.1 f.2 4 true (b.map (·.1)) (b.map (fun e => (BitVec.ofNat 64 (e.2.2 % 2 ^ 44), 0)))) s1

/-- The index of the frame of an element in what an access has asked for. -/
def Txn.frameOf (t : Txn) (e : RemElem) : Nat := t.frames.findIdx (fun f => f.1 = e.target && f.2 / 4096 = e.la / 4096)

/-- What the acceptance of an element's frame got: 0, or a cause. -/
def Txn.causeOf (t : Txn) (e : RemElem) : Nat := tget 0 t.answers (t.frameOf e)

/-- The first of some elements whose frame the target refuses, with the cause. -/
def Txn.refusedIn (t : Txn) (es : List RemElem) : Option (RemElem × Nat) :=
  (es.map (fun e => (e, t.causeOf e))).find? (fun e => 1 ≤ e.2 && e.2 ≤ 3)

/-- What an access over the fabric has come to: it waits; its target refuses an element; or every element is answered, with data,
poison and status. -/
inductive Got where
  | wait (s : State)
  | refused (s : State) (e : RemElem) (cause : Nat)
  | done (s : State) (resp : List (Word × Bool × Nat))

/-- An agent's access, begun if need be. -/
def State.begun (s : State) (w : Who) (ctx kind amo : Nat) (pins : List Pin) : State × Txn :=
  match s.txnOf w with
  | some t => (s, t)
  | none =>
    let t : Txn := { id := (s.pkg w.pkg).txnSeq, count := 0, who := w, ctx := ctx, kind := kind, amo := amo, pins := pins, frames := [],
                     answers := [], elems := [], resps := [], sent := [] }
    (s.modPkg w.pkg (fun p => { p with txnSeq := t.id + 1, txns := p.txns ++ [t] }), t)

/-- Hold acceptances for the frames of some elements (R338): `none` once every one of them is answered. -/
def State.acquire (s : State) (w : Who) (ctx kind amo : Nat) (pins : List Pin) (es : List RemElem) : Option State :=
  if es.isEmpty then none
  else
    let (s1, t) := s.begun w ctx kind amo pins
    if !t.sent.isEmpty then some s1
    else
      let new := (framesOf es).filter (fun f => !(t.frames.any (fun g => g.1 = f.1 && g.2 / 4096 = f.2 / 4096)))
      if new.isEmpty then none
      else some (s1.ask t t.frames.length new)

/-- What the acceptances of an access have come to: they are waited for, one is refused, or they are held. -/
inductive Held where
  | wait (s : State)
  | refused (s : State) (e : RemElem) (cause : Nat)
  | ok (s : State)

/-- Take the acceptances for some elements before any of them performs (R338). -/
def State.holdFrames (s : State) (w : Who) (ctx kind amo : Nat) (pins : List Pin) (es : List RemElem) : Held :=
  match s.acquire w ctx kind amo pins es with
  | some u => .wait u
  | none => match (s.txnOf w).bind (fun t => t.refusedIn es) with
    | some (e, c) => .refused s e c
    | none => .ok s

/-- Send the requests of an access (R339): elements whose acceptance failed in transit fail with it, and so do all where the fabric
cannot be used any more (R330). -/
def State.sendRequests (s : State) (t : Txn) (es : List RemElem) : State :=
  let pkg := t.who.pkg
  let lost := (numbered es).filter (fun e => t.causeOf e.2 != 0)
  let live := (numbered es).filter (fun e => t.causeOf e.2 = 0)
  let fail := fun (l : List (Nat × RemElem)) (cause : Nat → Nat) (u : State) => u.modTxn pkg t.id (fun x => { x with
    resps := l.foldl (fun m e => tput m e.1 (0, true, cause e.1)) x.resps })
  let s1 := fail lost (fun i => (es[i]?).elim 4 t.causeOf) (s.modTxn pkg t.id (fun x => { x with elems := es, resps := [] }))
  if s.cutOff pkg then fail live (fun _ => 4) (live.foldl (fun u e => u.transitFail t.who t.ctx 4 e.2.target e.2.la) s1)
  else (batches (fun x => (x.target, requestChannel t.who.die x.la)) 31 live.length live).foldl (fun u b => match b with
    | [] => u
    | (_, f) :: _ => u.sendPart t f.target f.la (if t.kind = kStore then 1 else if t.kind = kAtomic then 2 else 0) false
        (b.map (·.1)) (b.flatMap (fun e => elemFlit t.kind t.amo e.2))) s1

/-- The responses of an access in the order of its elements. -/
def Txn.inOrder (t : Txn) : List (Word × Bool × Nat) := (List.range t.elems.length).map (fun i => tget (0, true, 4) t.resps i)

/-- The answers of an access are taken: they are forgotten, unless the agent asks for them again until it ends. -/
def State.taken (s : State) (t : Txn) (keep : Bool) : State :=
  if keep then s else s.modTxn t.who.pkg t.id (fun x => { x with elems := [], resps := [] })

/-- Perform elements whose acceptances are held: they are sent once, and the execution that finds all of them answered takes the
answers (R339). -/
def State.request (s : State) (w : Who) (keep : Bool) (es : List RemElem) : Got :=
  match s.txnOf w with
  | none => .done s []
  | some t =>
    if !t.sent.isEmpty then .wait s
    else match t.refusedIn es with
      | some (e, c) => .refused s e c
      | none =>
        if t.elems == es && !es.isEmpty then
          .done (s.taken t keep) t.inOrder
        else
          let s1 := s.sendRequests t es
          match s1.txnOf w with
          | some u => if u.sent.isEmpty then .done (s1.taken u keep) u.inOrder else .wait s1
          | none => .done s1 []

/-- A whole access of an agent: acceptances, requests, and, unless it is kept, the end once it is answered or refused. -/
def State.overFabric (s : State) (w : Who) (ctx kind amo : Nat) (pins : List Pin) (keep : Bool) (es : List RemElem) : Got :=
  match s.acquire w ctx kind amo pins es with
  | some u => .wait u
  | none => match s.request w keep es with
    | .wait u => .wait u
    | .refused u e c => .refused (u.release w) e c
    | .done u r => .done (if keep then u else u.release w) r

/-- The pages that an access under way holds. -/
def State.heldPins (s : State) (w : Who) : List Pin :=
  match s.txnOf w with
  | some t => t.pins
  | none => []

/-- A byte of the responses of a load: by the element that holds it. -/
def respByte (es : List RemElem) (resp : List (Word × Bool × Nat)) (i : Nat) : Place :=
  match (es.zip resp).find? (fun e => e.1.pos ≤ i && i < e.1.pos + e.1.size) with
  | some (e, r) => .got (BitVec.ofNat 8 (r.1.toNat / 256 ^ (i - e.pos))) r.2.1
  | none => .got 0 true

/-- The places of an access whose remote bytes have been fetched. -/
def fetchedPlaces (ps : List Place) (es : List RemElem) (resp : List (Word × Bool × Nat)) : List Place :=
  ps.zipIdx.map (fun e => match e.1 with
    | .remote _ _ => respByte es resp e.2
    | p => p)

/-! ### Accesses of a hart -/

/-- What an access of a hart answers: done, stalled, or a trap with cause, `TADDR` and `TVAL`. -/
inductive Acc where
  | done (s : State) (v : Nat) (poison : Bool)
  | stall (s : State) (w : Wait)
  | fault (s : State) (cause addr val : Nat)

/-- `TVAL` of a translation fault: the access kind, or the consumption point of a poisoned entry (R282). -/
def faultVal (cause kind : Nat) : Nat := if cause = cPoison then 2 else kind

/-- Whether any place of a list lies in another package. -/
def anyRemote (ps : List Place) : Bool := ps.any (fun p => match p with
  | .remote _ _ => true
  | _ => false)

/-- A poisoned store may not leave the package (R340): it would go to another package, or to another context's lodging. (DEDUCED: log entry 96) -/
def egress (ps : List Place) : Bool :=
  ps.any (fun p => match p with
    | .remote _ _ => true
    | .at _ h => h == .other
    | _ => false)

/-- Whether a speculative chunk must be oldest before it reaches a place (R214). (DEDUCED: log entry 55, DEDUCED: log entry 112) -/
def needsOldest (ps : List Place) : Bool :=
  ps.any (fun p => match p with
    | .remote _ _ => true
    | .at l h => isStore l || h != .home
    | _ => false)

/-- The first place of a list that fails with cause 6 (R336): its index, target and local address. -/
def State.selfIn (s : State) (pkg : Nat) (ps : List Place) : Option (Nat × Nat × Nat) :=
  ps.zipIdx.findSome? (fun e => match e.1 with
    | .remote t la => if s.isSelf pkg t then some (e.2, t, la) else none
    | _ => none)

/-- What an access of an agent with remote bytes has come to: it waits; a byte is refused (its index, the cause, target and local
address); or the places with the remote bytes fetched, and the status of a failure in transit (0: none). -/
inductive Reached where
  | wait (s : State)
  | refused (s : State) (i cause target la : Nat)
  | ok (s : State) (ps : List Place) (lost : Nat)

/-- Ask the fabric for the places of an access, up to the first that fails with cause 6: the lowest byte that is refused, or every
acceptance is held (R336, R338). Refusals are not logged here (R341). -/
def State.asked (s : State) (w : Who) (ctx kind amo : Nat) (pins : List Pin) (ps : List Place) : Reached :=
  let self := s.selfIn w.pkg ps
  match s.holdFrames w ctx kind amo pins (fabElems (ps.take ((self.map (·.1)).getD ps.length)) [] 0) with
  | .wait u => .wait u
  | .refused u e c => .refused (u.release w) e.pos c e.target e.la
  | .ok u => match self with
    | some (i, t, la) => .refused (u.release w) i 6 t la
    | none => .ok u ps 0

/-- Ask the fabric for the bytes of an access below the one at which translation faults: a refused byte there is the lowest that
faults (R338). -/
def State.askedBelow (s : State) (w : Who) (ctx kind amo : Nat) (x : Places) (f : AccFault) : Reached :=
  match s.asked w ctx kind amo x.pins (okPlaces (x.bytes.takeWhile (fun b => b.1 != f.addr))) with
  | .ok u ps lost => .ok (u.release w) ps lost
  | r => r

/-- Reach the places of an access by an agent (R336 to R339): a store sends its bytes, a load fetches them. -/
def State.reach (s : State) (w : Who) (ctx kind amo : Nat) (pins : List Pin) (keep : Bool) (ps : List Place)
    (bytes : List Byte) (cmp : Word) : Reached :=
  if !anyRemote ps then .ok s ps 0
  else match s.asked w ctx kind amo pins ps with
    | .ok u _ _ =>
      let es := fabElems ps bytes cmp
      match u.overFabric w ctx kind amo pins keep es with
      | .wait v => .wait v
      | .refused v e c => .refused v e.pos c e.target e.la
      | .done v resp => .ok v (fetchedPlaces ps es resp) ((resp.map (·.2.2)).foldl (fun a c => if a = 0 then c else a) 0)
    | r => r

/-- A dword from a list of places, with its poison. -/
def State.dwordAt (s : State) (hart : Option Nat) (ps : List Place) (i : Nat) : PVal :=
  let q := (ps.drop (8 * i)).take 8
  { val := BitVec.ofNat 64 (s.readPlaces hart q), poison := s.anyPoison hart q }

/-! ### Acceptance at the target (R337, R338) -/

/-- Whether a window of a package covers a local byte for a requester (R337). -/
def windowNames (w : Word) (requester la : Nat) : Bool :=
  let base := (w.extractLsb' 30 13).toNat
  let len := (w.extractLsb' 16 14).toNat
  w.getLsbD 63 && (w.getLsbD 59 || (w.extractLsb' 52 7).toNat == requester) && base ≤ la / 2 ^ 30 && la / 2 ^ 30 < base + len

/-- Whether a window's permissions allow an access kind (R337); a fetch reads. -/
def windowAllows (w : Word) (kind : Nat) : Bool :=
  match kind with
  | 1 => w.getLsbD 61
  | 3 => w.getLsbD 60
  | _ => w.getLsbD 62

/-- Whether the borrower of a lease may use the units (R347): from GRANTED until FREE, and only while the lender has not taken them
back. (DEDUCED: log entry 94) -/
def State.leaseServes (s : State) (target requester : Nat) (l : Lend) : Bool :=
  !l.marked && l.borrower = requester &&
  (s.pkg requester).borrows.any (fun b => b.lender = target && b.name = l.reqno && b.state != .requested)

/-- The cause with which a target refuses a local byte to a requester, 0 where it accepts (R338). A lent unit belongs to
its borrower alone (R347, R348). (DEDUCED: log entry 94) -/
def State.acceptance (s : State) (target requester la kind : Nat) : Nat :=
  let p := s.pkg target
  if la / 2 ^ 43 % 2 = 1 || (s.homeOf target la).isNone then 3
  else if p.lends.any (fun l => s.leaseServes target requester l && l.base ≤ la && la < l.base + l.units * Config.leaseUnit) then 0
  else if p.isLent la || p.isEscrow la then 1
  else
    let ws := (List.range 16).map (fun i => tget 0 p.expw i)
    if !(ws.any (fun w => windowNames w requester la)) then 1
    else if ws.any (fun w => windowNames w requester la && windowAllows w kind) then 0 else 2

/-! ### Scalar loads and stores of a hart (R75 to R77) -/

/-- A fault of a hart's access that a refusal or cause 6 gives (R336, R338): `PROTECT`, logged. -/
def State.refusedFault (s : State) (k va i cause target la kind : Nat) : Acc :=
  .fault (s.fabLog (pkgOf k) cause target la) cProtect ((va + i) % 2 ^ 64) kind

/-- An access of a hart that does not translate: the fault `f` that its bytes meet (R67, R76). A poisoned entry comes first, then poisoned
data that would leave the package (point 8), then the lowest byte that faults: a byte below `f` may be refused (R338). -/
def State.missed (s : State) (w : Who) (k va kind amo : Nat) (poison : Bool) (x : Places) (f : AccFault) : Acc :=
  if f.cause = cPoison then .fault s f.cause f.addr 2
  else if (s.hart k).spec && needsOldest (okPlaces x.bytes) then .stall s .oldest
  else if poison && egress (okPlaces x.bytes) then .fault s cPoison va 8
  else match s.askedBelow w (s.hart k).ctx kind amo x f with
    | .wait u => .stall u .remote
    | .refused u i c t la => u.refusedFault k va i c t la kind
    | .ok u _ _ => .fault u f.cause f.addr (faultVal f.cause kind)

/-- Whether a hart's access must wait for tokens (R268, R269). -/
def State.anyBusy (s : State) (k kind : Nat) (ps : List Place) : Bool := (locsOf ps).any (s.lineBusy (coreOf k) kind)

/-- A load of local bytes. -/
def State.loadLocal (s : State) (k : Nat) (ps : List Place) : Acc :=
  let s1 := ((s.demandAll ps).exposeReads (some k) ps)
  let s2 := s1.tokensAll (coreOf k) (locsOf ps) false
  .done s2 (s2.readPlaces (some k) ps) (s2.anyPoison (some k) ps)

/-- A load of `n` bytes at a virtual address by a hart. (DESIGN CHOICE: log entry 42) -/
def State.load (s : State) (k va n : Nat) : Acc :=
  let x := s.places (s.agentOf k) (s.heldPins (.scalar k 0)) kLoad va n
  match x.ans with
  | .error f => x.st.missed (.scalar k 0) k va kLoad 0 false x f
  | .ok ps =>
    if (s.hart k).spec && needsOldest ps then .stall x.st .oldest
    else if x.st.anyBusy k kLoad ps then .stall (x.st.unservedAt (2 * k) kLoad (locsOf ps)) .remote
    else match x.st.reach (.scalar k 0) (s.hart k).ctx kLoad 0 x.pins false ps [] 0 with
      | .wait u => .stall u .remote
      | .refused u i c t la => u.refusedFault k va i c t la kLoad
      | .ok u qs _ => u.loadLocal k qs

/-- A store of the low `n` bytes of a number by a hart. (DESIGN CHOICE: log entry 36, DESIGN CHOICE: log entry 42) -/
def State.store (s : State) (k va n v : Nat) (poison : Bool) : Acc :=
  let x := s.places (s.agentOf k) (s.heldPins (.scalar k 0)) kStore va n
  match x.ans with
  | .error f => x.st.missed (.scalar k 0) k va kStore 0 poison x f
  | .ok ps =>
    if (s.hart k).spec && needsOldest ps then .stall x.st .oldest
    else if poison && egress ps then .fault x.st cPoison va 8
    else if x.st.anyBusy k kStore ps then .stall (x.st.unservedAt (2 * k) kStore (locsOf ps)) .remote
    else if (s.hart k).spec && !(s.hasRoom k) then .stall (x.st.foundNoRoom k) .oldest
    else match x.st.reach (.scalar k 0) (s.hart k).ctx kStore 0 x.pins false ps (natToBytes n v) 0 with
      | .wait u => .stall u .remote
      | .refused u i c t la => u.refusedFault k va i c t la kStore
      | .ok u qs _ => .done (u.writePlaces k qs (natToBytes n v) poison) 0 false

/-! ### Scopes of memories (R166) -/

/-- Whether a byte of a package lies in an exported window or in a unit that it has lent: agents of other packages may reach it
(R337, R347). -/
def State.exported (s : State) (pkg pa : Nat) : Bool :=
  (s.pkg pkg).isLent pa || (s.pkg pkg).expw.any (fun w =>
    w.2.getLsbD 63 && (w.2.extractLsb' 30 13).toNat ≤ pa / 2 ^ 30 &&
      pa / 2 ^ 30 < (w.2.extractLsb' 30 13).toNat + (w.2.extractLsb' 16 14).toNat)

/-- The scope of the memory a place lies in (R166). -/
def State.scopeOf (s : State) : Place → Scope
  | .at l h =>
    if isTcm l || isScratch l then .g else if isStore l then .d
    else if h = .home && !s.exported (l / 2 ^ 52) (l % 2 ^ 52) then .p else .s
  | .remote _ _ => .s
  | _ => .p

end Sys2Proof.Machine
end

