-- ==== Sys2Proof/Machine/Operands.lean ====
section
/-! DEFINITION. The operand forms of the scalar instructions and what each form does once: a register result with its
poison (R68), a branch and a jump (R73, R74), a load, a store (R75) and an atomic (R78). -/

namespace Sys2Proof.Machine

/-- `SExt(imm, n)` of an immediate field (R45). -/
abbrev sext {n : Nat} (imm : BitVec n) : Word := imm.signExtend 64
/-- `ZExt(imm, n)`. -/
abbrev zext {n : Nat} (imm : BitVec n) : Word := imm.zeroExtend 64

/-- A result computed from sources: poisoned where one of them is (R68). -/
def fromSources (srcs : List PVal) (v : Word) : PVal := if srcs.any (·.poison) then PVal.poisoned else PVal.clean v

/-- An integer instruction: it writes its result, or is the update of a reduction register and combines `other` (R70, R72,
R206). -/
def State.alu (s : State) (i : Instr) (d : Reg) (srcs : List PVal) (other : PVal) (v : Word) : State :=
  s.scalar i (fun t => match t.updateOf t.cur i with
    | some (r, op) => (t.combine r op other).advance
    | none => t.result d (fromSources srcs v))

/-- A register-register instruction of major 0x01. -/
def State.aluRR (s : State) (i : Instr) (d a b : Reg) (f : Word → Word → Word) : State :=
  s.alu i d [s.getX a, s.getX b] (s.getX b) (f (s.getX a).val (s.getX b).val)

/-- An instruction with an immediate. -/
def State.aluRI (s : State) (i : Instr) (d a : Reg) (imm : Word) (f : Word → Word → Word) : State :=
  s.alu i d [s.getX a] (PVal.clean imm) (f (s.getX a).val imm)

/-- 1 for a condition that holds, else 0. -/
def boolWord (c : Bool) : Word := if c then 1 else 0

/-- A jump to a target after its checks (R74): misaligned, outside the address space, or taken. -/
def State.goto (s : State) (target : Word) (k : State → State) : State :=
  if target.extractLsb' 0 2 != 0 then s.trap cMisalign target 2
  else if target.extractLsb' 48 16 != 0 then s.trap cProtect target 2
  else k s

/-- A branch (R73): a poisoned operand traps whether or not the branch would be taken. -/
def State.branch (s : State) (i : Instr) (a b : Reg) (imm : BitVec 13) (c : Word → Word → Bool) : State :=
  s.scalar i (fun t =>
    if (t.getX a).poison || (t.getX b).poison then t.trap cPoison 0 1
    else if c (t.getX a).val (t.getX b).val then
      let target := t.me.pc + sext imm * 4
      t.goto target (fun u => u.modMe (fun h => { h with pc := target }))
    else t.advance)

/-- Deliver a hart's access: done, stalled or trapped. -/
def State.deliver (_s : State) (r : Acc) (k : State → Nat → Bool → State) : State :=
  match r with
  | .done t v p => k t v p
  | .stall t w => t.stall w
  | .fault t c a v => t.trap c (BitVec.ofNat 64 a) (BitVec.ofNat 64 v)

/-- The bytes a load reads as the value of its destination (R75, R77). -/
def loaded (n : Nat) (signed : Bool) (v : Nat) (poison : Bool) : PVal :=
  if poison then PVal.poisoned
  else PVal.clean (if signed then BitVec.ofInt 64 (intOf true (8 * n) v) else BitVec.ofNat 64 v)

/-- A scalar load (R75 to R77). -/
def State.loadInstr (s : State) (i : Instr) (d a : Reg) (imm : BitVec 13) (n : Nat) (signed : Bool) : State :=
  s.scalar i (fun t => t.consume (t.getX a) 2 (fun base =>
    t.deliver (t.load t.cur (base + sext imm).toNat n)
      (fun u v p => u.result d (loaded n signed v p))))

/-- A scalar store (R75 to R77). -/
def State.storeInstr (s : State) (i : Instr) (x a : Reg) (imm : BitVec 13) (n : Nat) : State :=
  s.scalar i (fun t => t.consume (t.getX a) 2 (fun base =>
    t.deliver (t.store t.cur (base + sext imm).toNat n ((t.getX x).val.toNat % 2 ^ (8 * n)) (t.getX x).poison)
      (fun u _ _ => u.advance)))

/-! ### Atomics (R78) -/

/-- The new value of an atomic, none where memory is left unchanged. `old`, `x` and `cmp` are n-byte values. -/
def amoNew (op n old x cmp : Nat) : Option Nat :=
  let w := 8 * n
  let mn := if intOf true w old ≤ intOf true w x then old else x
  let mx := if intOf true w old ≤ intOf true w x then x else old
  match op with
  | 0 => none
  | 1 => some x
  | 2 => some x
  | 3 => some ((old + x) % 2 ^ w)
  | 4 => some (old &&& x)
  | 5 => some (old ||| x)
  | 6 => some (old ^^^ x)
  | 7 => some mn
  | 8 => some mx
  | _ => if old = cmp then some x else none

/-- The indivisible step of an atomic on local places: the value read with its poison, and the write, directly in committed
memory after the chunk's versions have drained (R78, R210, R214). -/
def State.amoLocal (s : State) (k : Nat) (ps : List Place) (op n : Nat) (x : PVal) (cmp : Nat) : State × Nat × Bool :=
  let s0 := (s.drainOwn k).demandAll ps
  let old := s0.readPlaces none ps
  let pois := s0.anyPoison none ps
  let s1 := s0.tokensAll (coreOf k) (locsOf ps) true
  match (if pois then none else amoNew op n old (x.val.toNat % 2 ^ (8 * n)) cmp) with
  | none => (s1, old, pois)
  | some v =>
    let prs := livePairs ps (natToBytes n v)
    let own := (s1.chunkOf k).map (fun c => (ringOf k, c.2.num))
    (s1.commitWrite own (prs.map (·.1)) (prs.map (·.2)) x.poison, old, pois)

/-- The accesses of an atomic by a hart, local or at another package. -/
def State.amo (s : State) (k va op n : Nat) (x : PVal) (cmp : Nat) : Acc :=
  let y := s.places (s.agentOf k) (s.heldPins (.scalar k 0)) kAtomic va n
  match y.ans with
  | .error f => y.st.missed (.scalar k 0) k va kAtomic op (x.poison && op != 0) y f
  | .ok ps =>
    if (s.hart k).spec then .stall y.st .oldest
    else if x.poison && op != 0 && egress ps then .fault y.st cPoison va 8
    else if y.st.anyBusy k kAtomic ps || y.st.ownBusy k then
      .stall ((y.st.unservedAt (2 * k) kAtomic (locsOf ps)).unservedOwn k) .remote
    else if anyRemote ps then
      match (y.st.drainOwn k).reach (.scalar k 0) (s.hart k).ctx kAtomic op y.pins false ps (natToBytes n x.val.toNat) (BitVec.ofNat 64 cmp) with
      | .wait u => .stall u .remote
      | .refused u i c t la => u.refusedFault k va i c t la kAtomic
      | .ok u qs _ => .done u (u.readPlaces none qs) (u.anyPoison none qs)
    else
      let (s1, v, p) := y.st.amoLocal k ps op n x cmp
      .done s1 v p

/-- Bytes of an atomic's width. -/
def amoBytes : AmoWidth → Nat
  | .w => 4
  | .d => 8

/-- An atomic instruction: the checks in the order of R78, the indivisible step, the old value sign-extended into `xd`.
`data` is `xb`'s value, `cmp` the value compared by `cas`. -/
def State.atomic (s : State) (i : Instr) (op : Nat) (d a : Reg) (data : PVal) (cmp : Option PVal) (width : AmoWidth) : State :=
  s.scalar i (fun t => t.consume (t.getX a) 2 (fun base =>
    let n := amoBytes width
    if base.toNat % n != 0 then t.trap cMisalign base 3
    else if (cmp.map (·.poison)).getD false then t.trap cPoison base 1
    else t.deliver (t.amo t.cur base.toNat op n data ((cmp.map (fun c => c.val.toNat % 2 ^ (8 * n))).getD 0))
      (fun u v p => if op = 1 then u.advance else u.result d (loaded n true v p))))

end Sys2Proof.Machine
end

