-- ==== Sys2Proof/Machine/System.lean ====
section
/-! DEFINITION. System registers (R13 to R20 and the registers later chapters define) and the system functions (R84 to
R88). -/

namespace Sys2Proof.Machine

/-! ### Reading -/

/-- A bit of a word at a place. -/
abbrev bitAt (c : Bool) (n : Nat) : Word := if c then BitVec.ofNat 64 (2 ^ n) else 0

/-- `HSTAT` (R18). -/
def hstatOf (k : Nat) (h : Hart) : Word :=
  bitAt h.engine 63 ||| bitAt h.spec 7 ||| (zext h.route <<< 5) ||| bitAt (isVector k) 4 ||| (zext h.ppriv <<< 2) ||| zext h.priv

/-- The dies of a package that are live. -/
def State.liveDies (s : State) (pkg : Nat) : List Nat := (List.range 4).filter (fun d => !(s.die (dieKey pkg d)).failed)

/-- The configuration registers (R20). (DEDUCED: log entry 18, DESIGN CHOICE: log entry 19) -/
def State.config (s : State) (k : Nat) (n : Nat) : Word :=
  match n with
  | 0 => BitVec.ofNat 64 (0x0FEF * 2 ^ 48 + 0x4816 * 2 ^ 32) ||| (zext Config.foundry <<< 24) ||| (zext Config.stepping <<< 16)
  | 1 => BitVec.ofNat 64 (4 * 2 ^ 48 + 8 * 2 ^ 40 + (if (s.core (coreOf k)).halfLanes then 8 else 16) * 2 ^ 32 + 128 * 2 ^ 16 + 64)
  | 2 => BitVec.ofNat 64 (16 * 2 ^ 56 + (s.liveDies (pkgOf k)).length * 2 ^ 52 + 8 * 2 ^ 44 + (32 - (s.die (dieOf k)).slicesFused.length) * 2 ^ 32 +
      32 * 2 ^ 16 + 4096)
  | _ => BitVec.ofNat 64 (1000 * 2 ^ 48 + Config.reclGib * 2 ^ 32 + 128 * (s.liveDies (pkgOf k)).length * 2 ^ 16 + (3072 - 256 * (s.pkg (pkgOf k)).fusedSites.length))

/-- `MXSTAT` (R185). -/
def mxstatOf (k : Nat) (c : Core) : Word :=
  let own := c.mxOwner == some k
  bitAt own 63 ||| bitAt (c.mxOwner.isSome && !own) 62 ||| bitAt c.landing.isSome 61 |||
    (if own then BitVec.ofNat 64 (c.mxMvl % 128 * 256) ||| zext c.mxType else 0)

/-- A solve slot nobody has used. -/
def SolveSlot.empty : SolveSlot :=
  { len := 0, base := 0, cur := 0, hash := 0, dl := 0, iter := 0, svalid := false, active := false, owner := 0 }

/-- A solve slot of a core (R197). -/
abbrev Core.slot (c : Core) (n : Nat) : SolveSlot := tget SolveSlot.empty c.solve n

/-- The solve slot registers (R197), by number from 0x60. -/
def solveReg (c : Core) (n : Nat) : Word :=
  let v := c.slot (n % 4)
  match n / 4 with
  | 0 => BitVec.ofNat 64 (v.len % 2 ^ 16 * 2 ^ 48 + v.base % 2 ^ 48)
  | 1 => v.cur
  | 2 => v.hash
  | 3 => BitVec.ofNat 64 v.dl
  | 4 => BitVec.ofNat 64 v.iter
  | _ => bitAt v.svalid 63 ||| bitAt v.active 62 ||| BitVec.ofNat 64 (v.owner % 2 ^ 16)

/-- `FABSTAT` (R331). -/
def fabstatOf (p : Pkg) : Word :=
  bitAt p.down 63 ||| BitVec.ofNat 64 ((p.sliceLive.filter (fun i => i < 36 && !p.isolated.contains i)).foldl (fun a i => a ||| 2 ^ i) 0)

/-- The registers that only a vector hart has (R10, R185, R197). -/
def vectorOnly (n : Nat) : Bool := n == 0x11 || n == 0x12 || n == 0x51 || (0x60 ≤ n && n ≤ 0x77)

/-- The registers whose access waits for the vector queue (R83), `MXSTAT` when it is read, as `sysr` and `sysx` do (R48, R185). -/
def waitsQueue (n : Nat) (reads : Bool) : Bool := (0x10 ≤ n && n ≤ 0x13) || (n == 0x51 && reads)

/-- The value of a system register, none for a number that names none (R13). -/
def State.sysRead (s : State) (k n : Nat) : Option Word :=
  let h := s.hart k
  let core := s.core (coreOf k)
  let die := s.die (dieOf k)
  let pkg := s.pkg (pkgOf k)
  match n with
  | 0x00 => some (BitVec.ofNat 64 (hartBits k))
  | 0x01 => some (BitVec.ofNat 64 (posOf (coreOf k)))
  | 0x02 => some (BitVec.ofNat 64 h.ringidx)
  | 0x03 => some (BitVec.ofNat 64 h.chunkno)
  | 0x04 => some (BitVec.ofNat 64 h.ctx)
  | 0x05 => some (BitVec.ofNat 64 (s.ringSize (ringOf k)))
  | 0x08 => some (BitVec.ofNat 64 pkg.timebase)
  | 0x10 => some h.fstat
  | 0x11 => some h.vstat
  | 0x12 => some (BitVec.ofNat 64 h.vl)
  | 0x13 => some h.hctl
  | 0x14 => some h.rxwdog
  | 0x18 => some (hstatOf k h)
  | 0x20 => some h.tcause
  | 0x21 => some h.tpc
  | 0x22 => some h.tqpos
  | 0x23 => some h.telem
  | 0x24 => some h.taddr
  | 0x25 => some h.tval
  | 0x26 => some h.tvec
  | 0x30 => some (boolWord (s.expert k))
  | 0x40 | 0x41 | 0x42 | 0x43 => some (s.config k (n - 0x40))
  | 0x50 => some (boolWord core.strict)
  | 0x51 => some (mxstatOf k core)
  | 0x80 => some (BitVec.ofNat 64 core.recvQ.length)
  | 0x81 => some (BitVec.ofNat 64 core.msgdrop)
  | 0x90 => some (BitVec.ofNat 64 die.eccce)
  | 0x91 => some (BitVec.ofNat 64 die.eccue)
  | 0x92 => some die.ecclog
  | 0x93 => some (BitVec.ofNat 64 die.sramce)
  | 0x94 => some (BitVec.ofNat 64 die.sramue)
  | 0xA0 => some (BitVec.ofNat 64 core.hintdrop)
  | 0xB0 => some pkg.ctxtab
  | 0xD0 => some (fabstatOf pkg)
  | 0xD1 => some pkg.fablog
  | 0xD8 => some pkg.lagdest
  | _ =>
    if 0x60 ≤ n ∧ n ≤ 0x77 then some (solveReg core (n - 0x60))
    else if 0xC0 ≤ n ∧ n ≤ 0xCF then some (tget 0 pkg.expw (n - 0xC0))
    else none

/-! ### Writing -/

/-- The fields of `FSTAT` a write stores: a `RM` of 5, 6 or 7 leaves that field (R16). -/
def fstatWrite (old w : Word) : Word :=
  let v := w &&& 0x3FFF
  if 5 ≤ (v.extractLsb' 5 3).toNat then (v &&& 0xFFFFFFFFFFFFFF1F) ||| (old &&& 0xE0) else v

/-- `HCTL` after a write: a `VQDEPTH` outside 4 to 16 is ignored (R18). (DEDUCED: log entry 17) -/
def hctlWrite (old w : Word) : Word :=
  let d := w.toNat % 32
  if 4 ≤ d ∧ d ≤ 16 then BitVec.ofNat 64 d else old

/-- Whether a write puts a non-basic value into an expert field (R19, R153). (DEDUCED: log entry 17) -/
def expertWrite (n : Nat) (w : Word) : Bool :=
  match n with
  | 0x10 => w.extractLsb' 8 6 != 0
  | 0x13 => w.toNat % 32 < 16
  | 0x14 => w != 0
  | 0x50 => w.getLsbD 0
  | _ => false

/-- A counter register keeps bits 31:0. -/
abbrev low32 (w : Word) : Nat := w.toNat % 2 ^ 32

/-- Make a context the owner of a solve slot and store its buffer (R197). -/
def SolveSlot.setBuffer (v : SolveSlot) (ctx : Nat) (w : Word) : SolveSlot :=
  let v1 := { v with len := (w.extractLsb' 48 16).toNat, base := (w.extractLsb' 0 48).toNat }
  if v.owner = ctx then v1 else { v1 with owner := ctx, svalid := false, active := false }

/-- Change one solve slot. -/
def Core.modSlot (c : Core) (n : Nat) (f : SolveSlot → SolveSlot) : Core := { c with solve := tmod SolveSlot.empty c.solve n f }

/-- Whether a hart of a context other than the writer is live (R19). -/
def State.othersOfContext (s : State) (k : Nat) : Bool :=
  s.harts.any (fun e => e.1 != k && e.2.live && !e.2.engine && pkgOf e.1 = pkgOf k && e.2.ctx = (s.hart k).ctx)

/-- The write of a system register; RO registers ignore it (R13). (DEDUCED: log entry 17) -/
def State.sysWrite (s : State) (k n : Nat) (w : Word) : State :=
  let hart := fun f => s.modHart k f
  let core := fun f => s.modCore (coreOf k) f
  let die := fun f => s.modDie (dieOf k) f
  let pkg := fun f => s.modPkg (pkgOf k) f
  match n with
  | 0x10 => hart (fun h => { h with fstat := fstatWrite h.fstat w })
  | 0x11 => hart (fun h => { h with vstat := w &&& 0x3F1F })
  | 0x13 => hart (fun h => { h with hctl := hctlWrite h.hctl w })
  | 0x14 => hart (fun h => { h with rxwdog := w })
  | 0x20 => hart (fun h => { h with tcause := w &&& tcauseMask })
  | 0x21 => hart (fun h => { h with tpc := w &&& pcMask })
  | 0x22 => hart (fun h => { h with tqpos := w &&& 0xF })
  | 0x23 => hart (fun h => { h with telem := w &&& 0x7F })
  | 0x24 => hart (fun h => { h with taddr := w })
  | 0x25 => hart (fun h => { h with tval := w })
  | 0x26 => hart (fun h => { h with tvec := w &&& pcMask })
  | 0x30 =>
    if s.othersOfContext k then s
    else pkg (fun p => { p with expert := if w.getLsbD 0 then sins (s.hart k).ctx p.expert else sdel (s.hart k).ctx p.expert })
  | 0x50 => core (fun c => { c with strict := w.getLsbD 0, opp := if w.getLsbD 0 && !c.strict then 0 else c.opp })
  | 0x60 | 0x61 | 0x62 | 0x63 => core (fun c => c.modSlot (n - 0x60) (fun v => v.setBuffer (s.hart k).ctx w))
  | 0x81 => core (fun c => { c with msgdrop := low32 w })
  | 0x90 => die (fun d => { d with eccce := low32 w })
  | 0x91 => die (fun d => { d with eccue := low32 w })
  | 0x92 => die (fun d => { d with ecclog := if w.getLsbD 63 then d.ecclog &&& 0x7FFFFFFFFFFFFFFF else d.ecclog })
  | 0x93 => die (fun d => { d with sramce := low32 w })
  | 0x94 => die (fun d => { d with sramue := low32 w })
  | 0xA0 => core (fun c => { c with hintdrop := low32 w })
  | 0xD1 => pkg (fun p => { p with fablog := if w.getLsbD 63 then p.fablog &&& 0x7FFFFFFFFFFFFFFF else p.fablog })
  | 0xD8 => pkg (fun p => { p with lagdest := w })
  | _ =>
    if 0xC0 ≤ n ∧ n ≤ 0xCF then pkg (fun p => { p with expw := tput p.expw (n - 0xC0) (w &&& 0xFFF007FFFFFF0000) })
    else s

/-! ### The accesses (R48, R83) -/

/-- The checks every access makes first (R13, R67): the number, the registers of a vector hart, the privilege; then the wait
for the vector queue (R83). -/
def State.sysAccess (s : State) (i : Instr) (n : Nat) (reads : Bool) (k : State → Word → State) : State :=
  match s.sysRead s.cur n with
  | none => s.trapWord cIllegal i
  | some v =>
    if vectorOnly n && !isVector s.cur && !s.me.vecRole then s.trapWord cIllegal i
    else if supervisorReg n && s.me.priv = 0 then s.trapWord cPriv i
    else if waitsQueue n reads && !s.me.drained then s.stall .drain
    else k s v

/-- A read. -/
def State.sysReadInstr (s : State) (i : Instr) (d : Reg) (n : Nat) : State :=
  s.scalar i (fun t => t.sysAccess i n true (fun u v => u.result d (PVal.clean v)))

/-- A write, with the old value into `xd` (`x0` discards): poisoned data traps, then a non-basic value of an expert field
(R13, R19). -/
def State.sysWriteInstr (s : State) (i : Instr) (d a : Reg) (n : Nat) (reads : Bool) : State :=
  s.scalar i (fun t => t.sysAccess i n reads (fun u old => u.consume (u.getX a) 4 (fun w =>
    if expertWrite n w && !(u.expert u.cur) then u.trapWord cPriv i
    else (u.sysWrite u.cur n w).result d (PVal.clean old))))

/-- `sysr`: the register's value into `xd` (R13, R48). -/
def execSysr (d : Reg) (num : BitVec 16) (s : State) : Out := .next (s.sysReadInstr (.sysr d num) d num.toNat)

/-- `sysw`: the value of `xa` into the register (R13, R48). -/
def execSysw (a : Reg) (num : BitVec 16) (s : State) : Out := .next (s.sysWriteInstr (.sysw a num) 0 a num.toNat false)

/-- `sysx`: read and write as one access (R48). -/
def execSysx (d a : Reg) (num : BitVec 16) (s : State) : Out := .next (s.sysWriteInstr (.sysx d a num) d a num.toNat true)

/-- A write of `CTXCTL`: it takes effect when no other hart of the context is live (R19). -/
def execCtxctlWrite (d a : Reg) (s : State) : Out := .next (s.sysWriteInstr (.ctxctlWrite d a) d a 0x30 false)

/-- A write of `CORECTL` (R153). -/
def execCorectlWrite (d a : Reg) (s : State) : Out := .next (s.sysWriteInstr (.corectlWrite d a) d a 0x50 false)

/-- A write of `SVBUF0` to `SVBUF3` (R197). -/
def execSvbufWrite (d a : Reg) (slot : BitVec 2) (s : State) : Out :=
  .next (s.sysWriteInstr (.svbufWrite d a slot) d a (0x60 + slot.toNat) false)

/-! ### System functions -/

/-- `ecall` raises `SYSCALL` (R84). -/
def execEcall (s : State) : Out := .next (s.scalar .ecall (fun t => t.trap cSyscall 0 0))

/-- `ebreak` raises `BREAK` (R84). -/
def execEbreak (s : State) : Out := .next (s.scalar .ebreak (fun t => t.trap cBreak 0 0))

/-- `tret`: the return from a trap (R85). -/
def execTret (s : State) : Out :=
  .next (s.scalar .tret (fun t =>
    if t.me.priv = 0 || (t.me.priv = 1 && t.me.ppriv = 3) then t.trapWord cPriv .tret
    else t.modMe (fun h => h.leave)))

/-- The rank of a pending event among those of its hart: its code (R144); but `ORPHAN` comes after the `MACHINE_CHECK` of the die failure
that made the orphans (R315, R316). -/
def eventRank (es : List Event) (e : Event) : Nat :=
  if e.code = cOrphan && es.any (fun m => m.code = cMachineCheck && m.addr = 0 && m.val = e.addr) then cMachineCheck + 1 else e.code

/-- The event of lowest rank in a list, the first of several. -/
def lowestRank (rank : Event → Nat) : List Event → Option Event
  | [] => none
  | e :: r => match lowestRank rank r with
    | none => some e
    | some f => if rank e ≤ rank f then some e else some f

/-- The pending event that is taken first. -/
def firstEvent (es : List Event) : Option Event := lowestRank (eventRank es) es

/-- A hart takes its first pending event with a resumption address (R144): a trap entry with `EVT` set. -/
def State.takeEvent (s : State) (k : Nat) (tpc : Word) : State :=
  match firstEvent (s.hart k).events with
  | none => s
  | some e =>
    (s.modHart k (fun h => { h with events := h.events.erase e })).takeTrap k
      { cause := BitVec.ofNat 64 (e.code + 2 ^ 63), tpc := tpc, tqpos := 0, telem := 0, addr := e.addr, val := e.val }

/-- `wfe` (R86, R144): in a speculative chunk it continues at once; above user privilege it is where a pending event is
taken; else it needs the event latch and clears it. (DESIGN CHOICE: log entry 14) -/
def execWfe (s : State) : Out :=
  .next (s.scalar .wfe (fun t =>
    if t.me.spec then t.advance
    else if t.me.priv != 0 && !t.me.events.isEmpty then
      if t.groupAbroad t.cur then t.stall .stopping
      else (t.modMe (fun h => { h with latch := false })).takeEvent t.cur (t.me.pc + 4)
    else if t.me.latch then (t.modMe (fun h => { h with latch := false })).advance
    else t.stall .wfe))

/-- The other harts of a core that may be ready: live and not stopped, retiring, waiting or committing (R150). -/
def State.readyOthers (s : State) (k : Nat) : List Nat :=
  (s.liveOn (coreOf k)).filter (fun j => j != k &&
    (let h := s.hart j; !h.stopped && !h.retiring && h.wait == .none && h.pendConvoy.isNone))

/-- `yield` (R87): in packed mode the harts that are ready go first. -/
def execYield (s : State) : Out :=
  .next (s.scalar .yield (fun t =>
    (t.modMe (fun h => { h with yielded := if (t.core (coreOf t.cur)).strict then [] else t.readyOthers t.cur })).advance))

/-- A retiring instruction: the frozen entries are discarded and the hart waits for its retirement, its pc at the
instruction (R24, R142). (DEDUCED: log entry 20) -/
def State.retire (s : State) : State :=
  s.modMe (fun h => { h with retiring := true, queue := h.queue.filter (fun e => !e.frozen) })

/-- `halt` (R24): with a fork open it traps, else the hart retires. -/
def execHalt (s : State) : Out :=
  .next (s.scalar .halt (fun t => if t.openForks t.cur != 0 then t.trapWord cIllegal .halt else t.retire))

/-- `fencei` (R88): earlier vector entries have completed, and the versions of the oldest chunk have drained; every other store of a step
has performed with it. Nothing is kept of what a hart has fetched. (DEDUCED: log entry 118) -/
def execFencei (s : State) : Out :=
  .next (s.scalar .fencei (fun t =>
    if !t.me.drained then t.stall .drain
    else if t.ownBusy t.cur then (t.unservedOwn t.cur).stall .remote
    else (t.drainOwn t.cur).advance))

end Sys2Proof.Machine
end

