-- ==== Sys2Proof/Machine/Forks.lean ====
section
/-! DEFINITION. The instructions of forks (R200 to R206): declarations, `fork.s`, `fork.d`, `cend`, `exitl`, and the join. The
chunks of a parallel fork are created, started and committed by the events of RingEvents. -/

namespace Sys2Proof.Machine

/-! ### Declarations (R200) -/

/-- How many vector live-ins a declaration set holds. -/
def liveCount (ds : List DeclItem) : Nat := (ds.filter (fun d => d.reg? == none)).length

/-- Whether an item may join a declaration set on a hart (R200). -/
def declOk (vector : Bool) (ds : List DeclItem) (d : DeclItem) : Bool :=
  match d with
  | .vlive v => vector && !ds.contains (.vlive v) && liveCount ds < 8
  | .carry r | .indImm r _ | .indReg r _ | .red r _ => r != 0 && !ds.any (fun e => e.reg? == some r)

/-- An `fdecl` (R200). -/
def State.declare (s : State) (i : Instr) (d : DeclItem) : State :=
  s.scalar i (fun t =>
    if declOk (isVector t.cur) t.me.decls d then (t.modMe (fun h => { h with decls := h.decls ++ [d] })).advance
    else t.trapWord cIllegal i)

/-- `fdecl.carry` (R200). -/
def execFdeclCarry (r : Reg) (s : State) : Out := .next (s.declare (.fdeclCarry r) (.carry r))

/-- `fdecl.ind` with an immediate stride (R200). -/
def execFdeclIndImm (r : Reg) (imm : BitVec 13) (s : State) : Out := .next (s.declare (.fdeclIndImm r imm) (.indImm r imm))

/-- `fdecl.ind` with a register stride (R200). -/
def execFdeclIndReg (r t : Reg) (s : State) : Out := .next (s.declare (.fdeclIndReg r t) (.indReg r t))

/-- `fdecl.red` (R200). -/
def execFdeclRed (r : Reg) (op : RedOp) (s : State) : Out := .next (s.declare (.fdeclRed r op) (.red r op))

/-- `fdecl.vlive` (R200). -/
def execFdeclVlive (v : VReg) (s : State) : Out := .next (s.declare (.fdeclVlive v) (.vlive v))

/-! ### The join (R203) -/

/-- `FSTAT.FTZ` of a saved word. -/
def ftzOf (w : Word) : Bool := w.getLsbD 8

/-- The folds of a declaration set: register, operator. -/
def foldsOf (ds : List DeclItem) : List (Reg × RedOp) :=
  ds.filterMap (fun d => match d with
    | .red r op => some (r, op)
    | _ => none)

/-- The folds before any chunk: r0 of each reduction register (R39). -/
def startFolds (ds : List DeclItem) (x0 : Tab PVal) (ftz : Bool) : Tab Partial :=
  (foldsOf ds).map (fun d => (d.1.toNat, foldStart d.2 ftz (tget (PVal.clean 0) x0 d.1.toNat)))

/-- Add a chunk's partials to the folds (R211 step 3). -/
def addParts (ds : List DeclItem) (ftz : Bool) (folds parts : Tab Partial) : Tab Partial :=
  (foldsOf ds).map (fun d => (d.1.toNat,
    Partial.join d.2 ftz (tget (Partial.start d.2) folds d.1.toNat) (tget (Partial.start d.2) parts d.1.toNat)))

/-- The x registers after the join: those the loop left, with each reduction register at its fold; and the flags of the
folds (R203). -/
def joinX (ds : List DeclItem) (ftz : Bool) (folds : Tab Partial) (x : Tab PVal) : Tab PVal × Flags :=
  (foldsOf ds).foldl (fun acc d =>
    let r := (tget (Partial.start d.2) folds d.1.toNat).result d.2 ftz
    (tset (PVal.clean 0) acc.1 d.1.toNat r.1, acc.2 ||| r.2)) (x, 0)

/-- What a loop leaves for the join: x registers, flags, `VSTAT` flags, and the column of the last chunk that set `SING`. -/
structure LoopEnd where
  x : Tab PVal
  flags : BitVec 5
  vflags : BitVec 5
  sing : Option (BitVec 6)
  deriving DecidableEq, Repr

/-- The hart after a join (R203), without the trap. -/
def Hart.join (h : Hart) (ds : List DeclItem) (folds : Tab Partial) (f : Saved) (e : LoopEnd) (chunkno target : Nat) : Hart × Flags :=
  let (x, fl) := joinX ds (ftzOf f.fstat) folds e.x
  let sing := e.sing.getD (f.vstat.extractLsb' 8 6)
  ({ h with
     x := x, v := f.v, m := f.m, vl := f.vl, lanes := f.lanes, hctl := f.hctl,
     fstat := f.fstat ||| (e.flags.zeroExtend 64) ||| (fl.zeroExtend 64),
     vstat := (f.vstat.extractLsb' 0 5 ||| e.vflags).zeroExtend 64 ||| (sing.zeroExtend 64 <<< 8),
     chunkno := chunkno, pc := BitVec.ofNat 64 target, wait := .none },
   fl)

/-- The join on a hart: its registers are written, then an enabled flag of a fold traps with `TPC` at the join target. -/
def State.joinOn (s : State) (k : Nat) (ds : List DeclItem) (folds : Tab Partial) (f : Saved) (e : LoopEnd) (chunkno target : Nat) : State :=
  let (h, fl) := (s.hart k).join ds folds f e chunkno target
  let en := fl &&& f.fstat.extractLsb' 9 5
  let s1 := s.setHart k h
  if en != 0 then
    s1.takeTrap k { cause := BitVec.ofNat 64 cFp, tpc := h.pc, tqpos := 0, telem := 0, addr := 0, val := en.zeroExtend 64 }
  else s1

/-- What a hart's loop leaves. -/
def Hart.loopEnd (h : Hart) : LoopEnd :=
  { x := h.x, flags := h.fstat.extractLsb' 0 5, vflags := h.vstat.extractLsb' 0 5,
    sing := if h.vstat.getLsbD 2 then some (h.vstat.extractLsb' 8 6) else none }

/-! ### The start of a fork (R201 to R204) -/

/-- The chunk size (R204). (DEDUCED: log entry 52) -/
def chunkSize (n xb ringsize : Nat) : Nat :=
  let c := if xb = 0 then (n + 4 * ringsize - 1) / (4 * ringsize) else xb
  max (max 1 c) ((n + 65535) / 65536)

/-- The number of chunks. (DEDUCED: log entry 52) -/
def Fork.count (f : Fork) : Nat := (f.n + f.c - 1) / f.c

/-- The carried registers of a declaration set with values from a register file. -/
def carried (ds : List DeclItem) (x : Tab PVal) : Tab PVal :=
  ds.filterMap (fun d => match d with
    | .carry r => some (r.toNat, tget (PVal.clean 0) x r.toNat)
    | _ => none)

/-- A chunk that starts. -/
def newChunk (ds : List DeclItem) (num hart first : Nat) (st : ChunkState) (starts : Tab PVal) (verified : Bool) : Chunk :=
  { num := num, state := st, hart := hart, i := first, starts := starts, verified := verified, ends := none, bytes := [],
    marks := [], clears := [], reads := [], parts := startParts ds, exited := false, fenced := false,
    vvOpen := false, noRoom := false }

/-- StartChunk on a hart that keeps its queue: its entries are frozen or none. -/
def Hart.beginChunk (h : Hart) (ds : List DeclItem) (x0 starts : Tab PVal) (f : Saved) (j it body : Nat) : Hart :=
  { h.startChunk ds x0 starts f j it body with queue := h.queue }

/-- Whether a fork of the executing hart runs in parallel (R202): a ring program with no fork open. -/
def State.forkParallel (s : State) : Bool :=
  (match (s.ring (ringOf s.cur)).prog with
   | some p => p.hart == s.cur
   | none => false) && s.openForks s.cur == 0 && (s.ring (ringOf s.cur)).fork.isNone

/-- The effect of a fork of `n` iterations, `n` not 0 (R203). -/
def State.beginFork (s : State) (strip : Bool) (n c target : Nat) : State :=
  let k := s.cur
  let h := s.me
  let ds := h.decls
  let body := (h.pc + 4).toNat
  let started := fun (g : Hart) => { g.beginChunk ds h.x (carried ds h.x) h.save 0 0 body with decls := [] }
  if s.forkParallel then
    let f : Fork :=
      { hart := k, strip := strip, n := n, c := c, body := body, target := target, decls := ds, x0 := h.x, saved := h.save,
        chunks := [newChunk ds 0 k 0 .oldest (carried ds h.x) true], oldest := 0, created := 0, last := none,
        folds := startFolds ds h.x h.ftz, fflags := 0, vflags := 0, singcol := none, chunkno := h.chunkno, prev := [],
        forker := h, parked := false }
    (s.modHart k started).modRing (ringOf k) (fun r => { r with fork := some f })
  else
    s.modHart k (fun g => { started g with
      forks := { n := n, i := 0, body := body, target := target, decls := ds, x0 := h.x, saved := h.save,
                 parts := startParts ds, chunkno := h.chunkno } :: h.forks })

/-- Whether a declaration set holds a carried register. -/
def hasCarry (ds : List DeclItem) : Bool :=
  ds.any (fun d => match d with
    | .carry _ => true
    | _ => false)

/-- Whether a hart runs a chunk that holds versions: stores of it that have not performed (R209). -/
def State.ownVersions (s : State) (k : Nat) : Bool := (s.chunkOf k).any (fun c => !c.2.bytes.isEmpty)

/-- A `fork` (R201): it waits until the vector entries have completed and every earlier store has performed, those of a chunk's versions
once the chunk is oldest. A join target below 0 or above 48 bits keeps its bits 47:0 (R10). (DESIGN CHOICE: log entry 117) -/
def State.fork (s : State) (i : Instr) (strip : Bool) (a b : Reg) (imm : BitVec 13) : State :=
  s.scalar i (fun t =>
    let n := t.getX a
    let xb := t.getX b
    let target := (t.me.pc + imm.signExtend 64 * 4) &&& pcMask
    if !t.me.drained then t.stall .drain
    else if t.me.spec && t.ownVersions t.cur then t.stall .oldest
    else if t.ownBusy t.cur then (t.unservedOwn t.cur).stall .remote
    else if n.poison || xb.poison then t.trap cPoison 0 1
    else if strip && hasCarry t.me.decls then t.trapWord cIllegal i
    else if 4 ≤ t.openForks t.cur then t.trapWord cIllegal i
    else if n.val = 0 then (t.drainOwn t.cur).modMe (fun h => { h with decls := [], pc := target })
    else (t.drainOwn t.cur).beginFork strip n.val.toNat (chunkSize n.val.toNat xb.val.toNat (t.ringSize (ringOf t.cur))) target.toNat)

/-- `fork.s` (R201). -/
def execForkS (a b : Reg) (imm : BitVec 13) (s : State) : Out := .next (s.fork (.forkS a b imm) false a b imm)

/-- `fork.d` (R201, R215). -/
def execForkD (a b : Reg) (imm : BitVec 13) (s : State) : Out := .next (s.fork (.forkD a b imm) true a b imm)

/-! ### `cend` and `exitl` (R203, R216) -/

/-- The end of a sequential fork: the join on its own hart. In a speculative chunk a join that traps waits until the chunk
is oldest (R69). -/
def State.endSequential (s : State) (f : SeqFork) (x : Tab PVal) : State :=
  let h := s.me
  let folds := addParts f.decls (ftzOf f.saved.fstat) (startFolds f.decls f.x0 (ftzOf f.saved.fstat)) f.parts
  let fl := (joinX f.decls (ftzOf f.saved.fstat) folds x).2
  if !h.drained then s.stall .queueEmpty
  else if h.spec && fl &&& f.saved.fstat.extractLsb' 9 5 != 0 then s.stall .oldest
  else (s.modMe (fun g => { g with forks := g.forks.drop 1 })).joinOn s.cur f.decls folds f.saved { h.loopEnd with x := x }
    f.chunkno f.target

/-- The end of the executing hart's chunk (R216): its end values are ready, and the hart runs nothing until the commit. (DEDUCED: log entry 54) -/
def State.endChunk (s : State) (c : Chunk) (x : Tab PVal) (i : Nat) (exited : Bool) : State :=
  if !s.me.drained then s.stall .queueEmpty
  else
    (s.modMe (fun h => { h with x := x })).modFork (ringOf s.cur) (fun f => f.modChunk c.num (fun d =>
      { d with i := i, ends := some (carried f.decls x), exited := exited,
               state := if d.state == .oldest then .commit else .ended }))

/-- `cend` (R203). -/
def execCend (s : State) : Out :=
  .next (s.scalar .cend (fun t =>
    let h := t.me
    match h.forks with
    | f :: r =>
      let x := stepInductions f.decls f.x0 h.x
      if f.i + 1 = f.n then t.endSequential f x
      else t.modMe (fun g => { g with x := x, pc := BitVec.ofNat 64 f.body, forks := { f with i := f.i + 1 } :: r })
    | [] => match t.chunkOf t.cur with
      | none => t.trapWord cIllegal .cend
      | some (f, c) =>
        let x := stepInductions f.decls f.x0 h.x
        let i := c.i + 1
        if i = f.n || i = (c.num + 1) * f.c then t.endChunk c x i false
        else (t.modMe (fun g => { g with x := x, pc := BitVec.ofNat 64 f.body })).modFork (ringOf t.cur)
          (fun g => g.modChunk c.num (fun d => { d with i := i }))))

/-- `exitl` (R203, R210): in the oldest chunk it discards every younger chunk, and this chunk is the last. -/
def execExitl (s : State) : Out :=
  .next (s.scalar .exitl (fun t =>
    match t.me.forks with
    | f :: _ => t.endSequential f t.me.x
    | [] => match t.chunkOf t.cur with
      | none => t.trapWord cIllegal .exitl
      | some (_, c) =>
        if !t.me.drained then t.stall .queueEmpty
        else
          let ring := ringOf t.cur
          ((t.endChunk c t.me.x c.i true).discardYounger ring c.num).modFork ring (fun f => { f with last := some c.num })))

end Sys2Proof.Machine
end

