-- ==== Sys2Proof/Machine/ChunkEvents.lean ====
section
/-! DEFINITION. The events of a ring sequencer that runs a fork in parallel (R207, R208, R211, R216): a chunk is created, starts
on a slot, receives its carried values, and commits. -/

namespace Sys2Proof.Machine

/-- The live positions of a ring in ring order from a position on (R164). -/
def State.liveFrom (s : State) (ring pos : Nat) : List Nat :=
  ((List.range 8).map (fun i => (pos + i) % 8)).filter (fun p => !(s.core (coreKey ring p)).fused)

/-- The core on which chunk `j` of a fork runs (R22, R164). -/
def State.chunkCore (s : State) (ring : Nat) (f : Fork) (j : Nat) : Nat :=
  let order := s.liveFrom ring (posOf (coreOf f.hart))
  coreKey ring (lget 0 order (j % order.length))

/-- The lowest free slot of a class on a core (R22): slots 0 to 3 for vector harts, 4 to 7 for scalar harts. -/
def State.freeSlotOf (s : State) (core : Nat) (vector : Bool) : Option Nat :=
  ((List.range 4).map (fun i => hartKey core (if vector then i else 4 + i))).find? (fun k => !(s.hart k).live)

/-- Whether a chunk is the last of its fork: by the iteration count, or because it executed `exitl`. -/
def Fork.isLast (f : Fork) (j : Nat) : Bool := j + 1 = f.count || f.last == some j

/-! ### Creation (R207) -/

/-- A chunk in WAITING: it holds no hart. -/
def waitingChunk (f : Fork) (j : Nat) : Chunk :=
  { newChunk f.decls j noHart (j * f.c) .waiting [] false with starts := [] }

/-- `CHUNK_CREATE`: chunk j is created once chunk j - 1 holds a hart. -/
def execChunkCreate (ring : Nat) (s : State) : Out :=
  if !ringExists ring then .fault .noSuchUnit
  else match (s.ring ring).fork with
    | none => s.noEvent
    | some f =>
      let j := f.created + 1
      if f.last.isSome || f.count ≤ j || !(f.chunks.any (fun c => c.num = f.created && c.started)) then s.noEvent
      else .next (s.modFork ring (fun g => { g with chunks := g.chunks ++ [waitingChunk g j], created := j }))

/-! ### Start (R207, R208, R216) -/

/-- `CHUNK_START`: a waiting chunk claims the lowest free vector slot at its position and starts with delivered or predicted
values. (DEDUCED: log entry 51) -/
def execChunkStart (ring chunk : Nat) (s : State) : Out :=
  if !ringExists ring then .fault .noSuchUnit
  else match (s.ring ring).fork with
    | none => s.noEvent
    | some f => match f.chunk? chunk with
      | none => s.noEvent
      | some c =>
        if c.state != .waiting || chunk = f.oldest then s.noEvent
        else match s.freeSlotOf (s.chunkCore ring f chunk) true with
          | none => s.noEvent
          | some k =>
            let starts := (f.delivered chunk).getD (f.prediction chunk)
            let h := (chunkHart (s.hart f.hart) f.saved).startChunk f.decls f.x0 starts f.saved chunk (chunk * f.c) f.body
            .next ((s.setHart k h).modFork ring (fun g => g.modChunk chunk (fun d =>
              { d with state := .spec, hart := k, starts := starts, verified := (f.delivered chunk).isSome })))

/-! ### Carried values (R208) -/

/-- `CARRIED_VALUE_DELIVERY`: the end values of chunk j - 1 reach chunk j; a difference in data or poison squashes chunk j and
every younger one, and chunk j starts again with the delivered values. -/
def execCarriedValueDelivery (ring chunk : Nat) (s : State) : Out :=
  if !ringExists ring then .fault .noSuchUnit
  else match (s.ring ring).fork with
    | none => s.noEvent
    | some f => match f.chunk? chunk, f.delivered chunk with
      | some c, some ends =>
        if !c.started || c.verified || chunk = 0 then s.noEvent
        else if c.starts = ends then .next (s.modFork ring (fun g => g.modChunk chunk (fun d => { d with verified := true })))
        else .next (s.squashFrom ring chunk)
      | _, _ => s.noEvent

/-! ### Commit (R211) -/

/-- A fork after its oldest chunk has committed: the fold, the flags of the join, and the next chunk. -/
def Fork.absorb (f : Fork) (c : Chunk) (e : LoopEnd) : Fork :=
  { f with
    folds := addParts f.decls (ftzOf f.saved.fstat) f.folds c.parts, fflags := f.fflags ||| e.flags,
    vflags := f.vflags ||| e.vflags,
    singcol := match e.sing with
      | some x => some x
      | none => f.singcol,
    chunks := f.chunks.filter (fun d => d.num != c.num), oldest := c.num + 1, prev := c.starts }

/-- A chunk's own hart retires; the forking hart stays (R207, R211). -/
def State.retireChunk (s : State) (f : Fork) (c : Chunk) : State := if c.hart = f.hart then s else s.freeSlot c.hart

/-- A hart as a chunk of number 1 or more starts on it: what R23 does not list is zero (R217), the queue with its entries and the
pending events aside. -/
def Hart.asChunk (h : Hart) (f : Saved) : Hart :=
  { h with rxwdog := 0, rxCount := 0, tcause := 0, tpc := 0, tqpos := 0, telem := 0, taddr := 0, tval := 0, tvec := 0, priv := f.priv,
           ppriv := 0, decls := [], forks := [] }

/-- A waiting chunk that has become the oldest runs on the forking hart (R207), whose own state is kept for the join. (DEDUCED: log entry 50) -/
def State.startOnFork (s : State) (ring : Nat) (f : Fork) (d : Chunk) (starts : Tab PVal) : State :=
  let h := s.hart f.hart
  let s1 := if f.parked then s else s.modFork ring (fun g => { g with forker := h, parked := true })
  (s1.setHart f.hart ((h.asChunk f.saved).beginChunk f.decls f.x0 starts f.saved d.num (d.num * f.c) f.body)).modFork ring (fun g =>
    g.modChunk d.num (fun x => { x with state := .oldest, hart := f.hart, starts := starts, verified := true }))

/-- The next chunk becomes the oldest (R216): a running one goes on with `HSTAT.SPEC` 0, an ended one is ready to commit. One that
executed a fence drains its versions now (R182, R212). (DEDUCED: log entry 53) -/
def State.makeOldest (s : State) (ring : Nat) (f : Fork) (d : Chunk) (ends : Tab PVal) : State :=
  match d.state with
  | .waiting => s.startOnFork ring f d ends
  | _ =>
    let s1 := (s.modHart d.hart (fun h => { h with spec := false, wait := if h.wait = .oldest then .none else h.wait })).modFork ring
      (fun g => g.modChunk d.num (fun x => { x with state := if x.state == .ended then .commit else .oldest, fenced := false }))
    if d.fenced then s1.drainChunk ring d.num else s1

/-- The join of a parallel fork on its forking hart (R203): where chunks ran on that hart, it has its own state again. -/
def State.joinFork (s : State) (ring : Nat) (f : Fork) (x : Tab PVal) : State :=
  let h := s.hart f.hart
  let s1 := if f.parked then
      s.setHart f.hart { f.forker with events := h.events, latch := h.latch, queue := h.queue, yielded := h.yielded }
    else s
  (s1.modRing ring (fun r => { r with fork := none })).joinOn f.hart f.decls f.folds f.saved
    { x := x, flags := f.fflags, vflags := f.vflags, sing := f.singcol } f.chunkno f.target

/-- `CHUNK_COMMIT`: the oldest chunk has ended; its versions drain, its partials and flags are added, and the next chunk
becomes the oldest, or the fork joins. (DEDUCED: log entry 53) -/
def execChunkCommit (ring : Nat) (s : State) : Out :=
  if !ringExists ring then .fault .noSuchUnit
  else match (s.ring ring).fork with
    | none => s.noEvent
    | some f => match f.chunk? f.oldest with
      | none => s.noEvent
      | some c =>
        if c.state != .commit then s.noEvent
        else if s.drainBusy ring c.num then .next (s.unservedAt (2 * c.hart) kStore (c.bytes.map (·.1)))
        else
          let e := (s.hart c.hart).loopEnd
          let ends := c.ends.getD []
          let f1 := f.absorb c e
          if f.isLast c.num then
            .next (((s.drainChunk ring c.num).retireChunk f c).joinFork ring f1 e.x)
          else match f.chunk? (c.num + 1) with
            | none => s.noEvent
            | some d =>
              if d.started && !d.verified && hasCarry f.decls then s.noEvent
              else if d.fenced && s.drainBusy ring d.num then .next (s.unservedAt (2 * d.hart) kStore (d.bytes.map (·.1)))
              else
                let s1 := (s.drainChunk ring c.num).retireChunk f c
                .next ((s1.modFork ring (fun g => g.absorb c e)).makeOldest ring f1 d ends)

end Sys2Proof.Machine
end

