-- ==== Sys2Proof/Machine/Remote.lean ====
section
/-! DEFINITION. The blocks of memory that control instructions and engines read and write whole: each block is translated first
(R286), its remote bytes are accepted and cross the fabric (R336 to R339), and its local bytes perform in committed memory. -/

namespace Sys2Proof.Machine

/-- The dwords of a block, with their poison, as committed memory or a chunk of a hart reads them. (DESIGN CHOICE: log entry 63) -/
def State.dwords (s : State) (hart : Option Nat) (ps : List Place) : List PVal :=
  (List.range (ps.length / 8)).map (s.dwordAt hart ps)

/-- The pages that the blocks of a hart's instruction hold: a page of one is the page of the other (R286). -/
def State.blockPins (s : State) (k : Nat) : List Pin := s.heldPins (.scalar k 0) ++ s.heldPins (.scalar k 1)

/-- Run a control instruction of the executing hart over the block it names, a load of its bytes or a store of `data`: a fault traps
with the access kind, a refused byte is logged and traps `PROTECT` (R338); `k` goes on with the places, remote bytes of a load
fetched. `phase` tells apart the blocks of one instruction, and `keep` holds the block until the instruction ends. (DESIGN CHOICE: log entry 63) -/
def State.withBlock (s : State) (phase : Nat) (keep : Bool) (va n kind : Nat) (data : List Byte) (k : State → List Place → State) :
    State :=
  let w := Who.scalar s.cur phase
  let x := s.places (s.agentOf s.cur) (s.blockPins s.cur) kind va n
  match x.ans with
  | .error f => s.deliver (x.st.missed w s.cur va kind 0 false x f) (fun u _ _ => u)
  | .ok ps =>
    if x.st.anyBusy s.cur kind ps then (x.st.unservedAt (2 * s.cur) kind (locsOf ps)).stall .remote
    else match x.st.reach w s.me.ctx kind 0 x.pins keep ps data 0 with
      | .wait u => u.stall .remote
      | .refused u i c t la => (u.fabLog (pkgOf s.cur) c t la).trap cProtect (BitVec.ofNat 64 (va + i)) (BitVec.ofNat 64 kind)
      | .ok u qs _ => k (if kind = kLoad then u.demandAll qs else u) qs

/-- The chunk on whose behalf a hart writes committed memory. -/
def State.ownChunk (s : State) (k : Nat) : Option (Nat × Nat) := (s.chunkOf k).map (fun c => (ringOf k, c.2.num))

/-- A write of a block by a hart that performs in committed memory at once, as a store of the hart does (R268). -/
def State.putBlock (s : State) (k : Nat) (ps : List Place) (bytes : List Byte) (poison : Bool) : State :=
  let prs := livePairs ps bytes
  (s.tokensAll (coreOf k) (prs.map (·.1)) true).commitWrite (s.ownChunk k) (prs.map (·.1)) (prs.map (·.2)) poison

/-- The bytes of a list of dwords. -/
def dwordBytes (ws : List Word) : List Byte := ws.flatMap (fun w => natToBytes 8 w.toNat)

/-! ### Engines -/

/-- What an access of an engine has come to: it waits for the fabric; it faults (cause and lowest byte, `remote` where an
acceptance failed); or its places, and whether a part failed in transit. -/
inductive EngineAcc where
  | wait (s : State)
  | fault (s : State) (cause addr : Nat) (remote : Bool)
  | ok (s : State) (ps : List Place) (lost : Bool)

/-- An access of an engine to `n` bytes (R169, R247): it holds the pages `held` besides those that it has under way. Errors of the
sectors that it reads are found (R272). (DESIGN CHOICE: log entry 63) -/
def State.engineAccess (s : State) (w : Who) (ag : Agent) (held : List Pin) (keep : Bool) (va n kind : Nat) (data : List Byte) : EngineAcc :=
  let x := s.places ag (s.heldPins w ++ held) kind va n
  match x.ans with
  | .error f => match x.st.askedBelow w ag.ctx kind 0 x f with
    | .wait u => .wait u
    | .refused u i c t la => .fault (u.fabLog w.pkg c t la) cProtect ((va + i) % 2 ^ 64) true
    | .ok u _ _ => .fault u f.cause f.addr false
  | .ok ps => match x.st.reach w ag.ctx kind 0 x.pins keep ps data 0 with
    | .wait u => .wait u
    | .refused u i c t la => .fault (u.fabLog w.pkg c t la) cProtect ((va + i) % 2 ^ 64) true
    | .ok u qs lost => .ok (if kind = kLoad then u.demandAll qs else u) qs (lost != 0)

/-- A write of an engine to local places (R268). -/
def State.enginePut (s : State) (ps : List Place) (bytes : List Byte) (poison : Bool) : State :=
  let prs := livePairs ps bytes
  s.homeWrite (prs.map (·.1)) (prs.map (·.2)) poison

/-! ### Barrier words (R175 to R177) -/

/-- The operation codes under which operations on a barrier word cross the fabric: `barinit`, an arrival, and the read of `barwt`. (DESIGN CHOICE: log entry 63) -/
abbrev opBarinit : Nat := 16
/-- An arrival. -/
abbrev opArrival : Nat := 17
/-- The read of `barwt`. -/
abbrev opBarwt : Nat := 18

/-- The state of a barrier word after an arrival (R177): low and high dwords. -/
def arrival (lo hi : Word) (a b : Nat) : Word × Word :=
  let expA := (hi.extractLsb' 48 15).toNat
  let expB := (hi.extractLsb' 0 48).toNat
  let ovf := lo.getLsbD 63
  let a1 := (lo.extractLsb' 48 15).toNat + a
  let b1 := (lo.extractLsb' 0 48).toNat + b
  let ovf1 := ovf || decide (expA < a1) || decide (expB < b1)
  let a2 := min a1 expA
  let b2 := min b1 expB
  if a2 = expA ∧ b2 = expB then (bitAt ovf1 63, hi ^^^ BitVec.ofNat 64 (2 ^ 63))
  else (bitAt ovf1 63 ||| BitVec.ofNat 64 (a2 * 2 ^ 48 + b2), hi)
where
  /-- A bit at a place. -/
  bitAt (c : Bool) (n : Nat) : Word := if c then BitVec.ofNat 64 (2 ^ n) else 0

/-- What an operation on a barrier word does (R177): the new dwords, none where it is only read or is poisoned; and what it answers,
the high dword and the poison. -/
def barrierStep (op : Nat) (operand : Word) (lo hi : PVal) : Option (Word × Word) × Word × Bool :=
  let pois := lo.poison || hi.poison
  if op = opBarinit then (some (0, operand &&& 0x7FFFFFFFFFFFFFFF), hi.val, false)
  else if pois then (none, 0, true)
  else if op = opArrival then
    (some (arrival lo.val hi.val (operand.extractLsb' 48 15).toNat (operand.extractLsb' 0 48).toNat), hi.val, false)
  else (none, hi.val, false)

/-- The element of an operation on a barrier word that lies in another package. (DESIGN CHOICE: log entry 63) -/
def barrierElem (ps : List Place) (operand : Word) : List RemElem :=
  match ps with
  | .remote t la :: _ => [{ pos := 0, target := t, la := la, size := 8, data := operand, cmp := 0 }]
  | _ => []

end Sys2Proof.Machine
end

