-- ==== Sys2Proof/Machine/LocalMem.lean ====
section
/-! DEFINITION. Full/empty bits (R165 to R168), fences (R182) and barrier words (R175 to R177). -/

namespace Sys2Proof.Machine

/-! ### Full/empty bits -/

/-- The granule of a location. -/
abbrev granule (l : Nat) : Nat := l / 16

/-- Whether a granule is full. (DESIGN CHOICE: log entry 8) -/
abbrev State.isFull (s : State) (g : Nat) : Bool := s.full.contains g

/-- Set a full/empty bit; a change sets the latch of every hart of the core that owns the TCM (R168). -/
def State.setFull (s : State) (g : Nat) (b : Bool) : State :=
  if s.isFull g = b then s
  else
    let s1 := { s with full := if b then sins g s.full else sdel g s.full }
    if isTcm (g * 16) then s1.latchCore ((g * 16 - 2 ^ 60) / 2 ^ 17) else s1

/-- Whether an older request on the granule would be served first (R168): one whose condition holds now. -/
def State.olderServed (s : State) (k g : Nat) : Bool :=
  (s.feWait.takeWhile (fun w => w.hart != k)).any (fun w => w.granule = g && w.full == s.isFull g)

/-- Join the waiters of a granule, unless there already. -/
def State.joinFe (s : State) (k g : Nat) (full : Bool) : State :=
  if s.feWait.any (fun w => w.hart = k) then s else { s with feWait := s.feWait ++ [{ granule := g, hart := k, full := full }] }

/-- Leave the waiters. -/
def State.leaveFe (s : State) (k : Nat) : State := { s with feWait := s.feWait.filter (fun w => w.hart != k) }

/-- A full/empty access (R167): the checks (an address outside the window region lies in no TCM and no die store window,
before any translation), the place, the drain of the chunk's versions (R183), the wait for the bit; `act` is the indivisible step on the places of
the word. (DEDUCED: log entry 35) -/
def State.feAccess (s : State) (i : Instr) (a : Reg) (imm : BitVec 13) (wantFull : Bool) (act : State → Nat → List Place → State) :
    State :=
  s.scalar i (fun t => t.consume (t.getX a) 2 (fun base =>
    let va := (base + sext imm).toNat
    if va % 8 != 0 then t.trap cMisalign (BitVec.ofNat 64 va) 3
    else if va / 2 ^ 40 != 0xFF then t.trap cProtect (BitVec.ofNat 64 va) 3
    else match (t.places (t.agentOf t.cur) [] kAtomic va 8).ans with
      | .error f => t.trap f.cause (BitVec.ofNat 64 f.addr) 3
      | .ok ps =>
        match ps with
        | .at l _ :: _ =>
          if isTcm l || isStore l then
            let g := granule l
            if t.ownBusy t.cur then (t.unservedOwn t.cur).stall .remote
            else
              let u := t.drainOwn t.cur
              if u.isFull g != wantFull || u.olderServed u.cur g then (u.joinFe u.cur g wantFull).stall (.fullEmpty g)
              else act (u.leaveFe u.cur) g ps
          else t.trap cProtect (BitVec.ofNat 64 va) 3
        | _ => t.trap cProtect (BitVec.ofNat 64 va) 3))

/-- `ldfe.keep`: waits for full, reads the word, leaves the bit (R167). -/
def execLdfeKeep (d a : Reg) (imm : BitVec 13) (s : State) : Out :=
  .next (s.feAccess (.ldfeKeep d a imm) a imm true (fun t _ ps => t.result d
    (if t.anyPoison none ps then PVal.poisoned else PVal.clean (BitVec.ofNat 64 (t.readPlaces none ps)))))

/-- `ldfe.clr`: waits for full, reads the word and empties the bit in one step (R167). -/
def execLdfeClr (d a : Reg) (imm : BitVec 13) (s : State) : Out :=
  .next (s.feAccess (.ldfeClr d a imm) a imm true (fun t g ps => (t.setFull g false).result d
    (if t.anyPoison none ps then PVal.poisoned else PVal.clean (BitVec.ofNat 64 (t.readPlaces none ps)))))

/-- `stfe`: waits for empty, writes the word and fills the bit in one step (R167). -/
def execStfe (x a : Reg) (imm : BitVec 13) (s : State) : Out :=
  .next (s.feAccess (.stfe x a imm) a imm false (fun t g ps =>
    ((t.putBlock t.cur ps (natToBytes 8 (t.getX x).val.toNat) (t.getX x).poison).setFull g true).advance))

/-! ### Fences (R182, R183) -/

/-- What a chunk remembers of a fence that it executed (R182, R212). -/
def State.noteFence (s : State) (k : Nat) (dir : FenceDir) : State :=
  match s.chunkOf k with
  | some (_, c) => s.modFork (ringOf k) (fun g => g.modChunk c.num (fun d => { d with
      fenced := d.fenced || d.state == .spec, vvOpen := d.vvOpen || (dir == .vv && !(s.hart k).drained) }))
  | none => s

/-- A fence (R182): `.vs` and `.all` wait for the earlier entries; in the oldest chunk its versions drain (R212, R214), and in a
speculative one they drain as it becomes oldest. Every other access of a step has performed with the step. (DESIGN CHOICE: log entry 2, DEDUCED: log entry 115) -/
def execFence (dir : FenceDir) (scope : Scope) (s : State) : Out :=
  .next (s.scalar (.fence dir scope) (fun t =>
    if (dir == .vs || dir == .all) && !t.me.drained then t.stall .drain
    else if t.me.spec then (t.noteFence t.cur dir).advance
    else if t.ownBusy t.cur then (t.unservedOwn t.cur).stall .remote
    else ((t.noteFence t.cur dir).drainOwn t.cur).advance))

/-! ### Barrier words (R175 to R177) -/

/-- An operation of a hart on the barrier word at an address (R176, R177): one indivisible step on a local word, or an atomic at
another package; the answer is the high dword and the poison. One that fails in transit answers 0 and traps nowhere (R341). -/
def State.barrierAccess (s : State) (va op : Nat) (operand : Word) (k : State → Word → Bool → State) : State :=
  let w := Who.scalar s.cur 0
  let x := s.places (s.agentOf s.cur) (s.heldPins w) kAtomic va 16
  match x.ans with
  | .error f => x.st.trap f.cause (BitVec.ofNat 64 f.addr) (BitVec.ofNat 64 (faultVal f.cause kAtomic))
  | .ok ps =>
    if x.st.anyBusy s.cur kAtomic ps || x.st.ownBusy s.cur then
      ((x.st.unservedAt (2 * s.cur) kAtomic (locsOf ps)).unservedOwn s.cur).stall .remote
    else
      let y := x.st.drainOwn s.cur
      if anyRemote ps then
        match y.selfIn (pkgOf s.cur) ps, y.overFabric w s.me.ctx kAtomic op x.pins false (barrierElem ps operand) with
        | some (i, t, la), _ => ((y.release w).fabLog (pkgOf s.cur) 6 t la).trap cProtect (BitVec.ofNat 64 (va + i)) 3
        | none, .wait u => u.stall .remote
        | none, .refused u e c => (u.fabLog (pkgOf s.cur) c e.target e.la).trap cProtect (BitVec.ofNat 64 va) 3
        | none, .done u r => match r with
          | (v, p, c) :: _ => k u v (p && c == 0)
          | [] => k u 0 false
      else
        let z := y.demandAll ps
        let r := barrierStep op operand (z.dwordAt none ps 0) (z.dwordAt none ps 1)
        k (match r.1 with
          | some ws => z.putBlock s.cur ps (dwordBytes [ws.1, ws.2]) false
          | none => z) r.2.1 r.2.2

/-- The checks of the barrier instructions in their order (R176), then the operation on the word. A poisoned `xb` is found before the
word is reached. -/
def State.barrier (s : State) (i : Instr) (a b : Reg) (op : Nat) (k : State → Word → Word → Bool → State) : State :=
  s.scalar i (fun t => t.consume (t.getX a) 2 (fun va =>
    if va.toNat % 16 != 0 then t.trap cMisalign va 3
    else if (t.getX b).poison then
      let x := t.places (t.agentOf t.cur) [] kAtomic va.toNat 16
      match x.ans with
      | .error f => x.st.trap f.cause (BitVec.ofNat 64 f.addr) (BitVec.ofNat 64 (faultVal f.cause kAtomic))
      | .ok _ => x.st.trap cPoison va 1
    else t.barrierAccess va.toNat op (t.getX b).val (fun u v p => k u va v p)))

/-- `barinit` (R176, R177). -/
def execBarinit (a b : Reg) (s : State) : Out :=
  .next (s.barrier (.barinit a b) a b opBarinit (fun t _ _ _ => t.advance))

/-- `bararv`: one arrival of R177. -/
def execBararv (a b : Reg) (s : State) : Out :=
  .next (s.barrier (.bararv a b) a b opArrival (fun t va _ p => if p then t.trap cPoison va 1 else t.advance))

/-- `barwt`: waits until `PHASE` is bit 0 of the operand (R176). -/
def execBarwt (a b : Reg) (s : State) : Out :=
  .next (s.barrier (.barwt a b) a b opBarwt (fun t va v p =>
    if p then t.trap cPoison va 1
    else if v.getLsbD 63 == (t.getX b).val.getLsbD 0 then t.advance
    else t.stall (.barrier va.toNat)))

end Sys2Proof.Machine
end

