-- ==== Sys2Proof/Machine/Engines.lean ====
section
/-! DEFINITION. The instructions that hand work to the engines: `cpy` (R169), `mgkick` and `mgstat` (R247, R256). The engines
themselves run by the events of CopyEvents and Merge. -/

namespace Sys2Proof.Machine

/-- The agent of an engine that acts for a kicking hart (R169, R247): its core, context and privilege. -/
def engineAgent (core ctx : Nat) (priv : BitVec 2) : Agent := { hart := none, core := core, ctx := ctx, user := priv = 0 }

/-- The checks of a kick: the address, its alignment, and the translation of its 64 bytes. -/
def State.kick (s : State) (a : Reg) (k : State → Nat → State) : State :=
  s.consume (s.getX a) 2 (fun va =>
    if va.toNat % 64 != 0 then s.trap cMisalign va 0
    else
      let x := s.places (s.agentOf s.cur) [] kLoad va.toNat 64
      match x.ans with
      | .error f => x.st.trap f.cause (BitVec.ofNat 64 f.addr) (BitVec.ofNat 64 (faultVal f.cause kLoad))
      | .ok _ => k x.st va.toNat)

/-- A copy as its kick hands it over. -/
def newCopy (id addr ctx : Nat) (priv : BitVec 2) : Copy :=
  { id := id, addr := addr, ctx := ctx, priv := priv, phase := .kicked, desc := [], pos := 0, counted := 0, status := 0, stAddr := 0,
    pins := [] }

/-- `cpy` (R169). -/
def execCpy (a : Reg) (s : State) : Out :=
  .next (s.scalar (.cpy a) (fun t => t.kick a (fun u va =>
    let k := u.cur
    let c := u.core (coreOf k)
    if c.copies.length < Config.copiesInFlight && (c.copyWait.head?).getD k == k && !u.ownBusy k then
      ((u.drainOwn k).modCore (coreOf k) (fun x =>
        { x with copies := x.copies ++ [newCopy x.copySeq va u.me.ctx u.me.priv], copySeq := x.copySeq + 1,
                 copyWait := sdel k x.copyWait })).advance
    else (u.modCore (coreOf k) (fun x => { x with copyWait := joinLast k x.copyWait })).stall .copySlot)))

/-- What an engine reads of a block: it waits for the fabric; the lowest faulting byte, its cause, and whether an acceptance failed; or
the dwords. -/
inductive EngineBlock where
  | wait (s : State)
  | fault (s : State) (cause addr : Nat) (remote : Bool)
  | ok (s : State) (ws : List PVal)

/-- A block that an engine reads (R169, R248). A part that fails in transit reads as zero with poison (R341). -/
def State.engineRead (s : State) (w : Who) (ag : Agent) (held : List Pin) (keep : Bool) (va n : Nat) : EngineBlock :=
  match s.engineAccess w ag held keep va n kLoad [] with
  | .wait u => .wait u
  | .fault u c a r => .fault u c a r
  | .ok u ps _ => .ok u (u.dwords none ps)

/-- A dword of a block, poisoned or not, as a number. -/
def blockDword (block : List PVal) (i : Nat) : Nat := (lget (PVal.clean 0) block i).val.toNat
/-- The poison of a dword of a block. -/
def blockPoison (block : List PVal) (i : Nat) : Bool := (lget (PVal.clean 0) block i).poison

/-- `NS` of a command block (R246). -/
def mergeStreams (block : List PVal) : Nat := blockDword block 0 / 256 % 32

/-- Whether a command block names a descriptor table that can be read. -/
def tableNamed (block : List PVal) : Bool :=
  !blockPoison block 0 && !blockPoison block 1 && 1 ≤ mergeStreams block && mergeStreams block ≤ 16 &&
  blockDword block 1 % 16 = 0

/-- The command that an acceptance enters, with the block and the descriptor table as read (R247, R248); `none` while the merge network
waits for the fabric. The block is held until the table has been read. -/
def State.mergeCommand (s : State) (k va : Nat) : State × Option MergeCmd :=
  let h := s.hart k
  let ag := engineAgent (coreOf k) h.ctx h.priv
  let cmd : MergeCmd :=
    { addr := va, ctx := h.ctx, priv := h.priv, core := coreOf k, block := [], table := [], fault := none }
  let ended := fun (u : State) => (u.release (kickPart k 0)).release (kickPart k 1)
  match s.engineRead (kickPart k 0) ag [] true va 64 with
  | .wait u => (u, none)
  | .fault u _ f _ => (ended u, some { cmd with fault := some f })
  | .ok t block =>
    if tableNamed block then
      match t.engineRead (kickPart k 1) ag [] false (blockDword block 1) (16 * mergeStreams block) with
      | .wait u => (u, none)
      | .fault u _ f _ => (ended u, some { cmd with block := block, fault := some f })
      | .ok u table => (ended u, some { cmd with block := block, table := table })
    else (ended t, some { cmd with block := block })

/-- `mgkick` (R247). While its command is being read, later kicks of the ring wait behind it. -/
def execMgkick (a : Reg) (s : State) : Out :=
  .next (s.scalar (.mgkick a) (fun t => t.kick a (fun u va =>
    let k := u.cur
    let r := u.ring (ringOf k)
    let join := fun (v : State) => v.modRing (ringOf k) (fun x => { x with mergeWait := joinLast k x.mergeWait })
    if r.mergeQ.length < 4 && (r.mergeWait.head?).getD k == k && !u.ownBusy k then
      match (u.drainOwn k).mergeCommand k va with
      | (v, none) => (join v).stall .mergeSlot
      | (v, some cmd) => (v.modRing (ringOf k) (fun x => { x with mergeQ := x.mergeQ ++ [cmd], mergeWait := sdel k x.mergeWait })).advance
    else (join u).stall .mergeSlot)))

/-- `mgstat` (R256). -/
def execMgstat (d : Reg) (s : State) : Out :=
  .next (s.scalar (.mgstat d) (fun t =>
    let r := t.ring (ringOf t.cur)
    let cmd := match r.mergeRun with
      | some m => if m.cmd.ctx = t.me.ctx then m.cmd.addr % 2 ^ 48 else 0
      | none => 0
    t.result d (PVal.clean (BitVec.ofNat 64
      ((if r.mergeRun.isSome then 2 ^ 63 else 0) + r.mergeQ.length % 8 * 2 ^ 60 + cmd)))))

end Sys2Proof.Machine
end

