-- ==== Sys2Proof/Machine/CopyEvents.lean ====
section
/-! DEFINITION. The copy engine of a core (R169 to R174): it reads a descriptor once, performs the positions of a copy, adds
the bytes to a barrier word, and writes the completion record. -/

namespace Sys2Proof.Machine

/-! ### Descriptors (R170) -/

/-- A dword of a copy's descriptor, 0 before it has been read. -/
def Copy.dword (c : Copy) (i : Nat) : Nat := (lget (PVal.clean 0) c.desc i).val.toNat
/-- `TAG`. -/
def Copy.tag (c : Copy) : Nat := c.dword 0 / 2 ^ 48
/-- `START`. -/
def Copy.startPos (c : Copy) : Nat := c.dword 0 / 2 ^ 8 % 2 ^ 40
/-- `SCOPE`. -/
def Copy.scope (c : Copy) : Nat := c.dword 0 / 2 ^ 5 % 8
/-- `SSP`. -/
def Copy.ssp (c : Copy) : Nat := c.dword 0 / 2 ^ 3 % 4
/-- `DSP`. -/
def Copy.dsp (c : Copy) : Nat := c.dword 0 / 2 % 4
/-- `FEK`. -/
def Copy.fek (c : Copy) : Bool := c.dword 0 % 2 = 1
/-- `LEN0`. -/
def Copy.len0 (c : Copy) : Nat := c.dword 3 % 2 ^ 32
/-- `CNT1`. -/
def Copy.cnt1 (c : Copy) : Nat := c.dword 3 / 2 ^ 32 % 2 ^ 16
/-- `CNT2`. -/
def Copy.cnt2 (c : Copy) : Nat := c.dword 3 / 2 ^ 48 % 2 ^ 15
/-- `ARVF`. -/
def Copy.arvf (c : Copy) : Bool := c.dword 3 / 2 ^ 63 = 1
/-- T, the bytes of the copy (R171). -/
def Copy.total (c : Copy) : Nat := c.len0 * c.cnt1 * c.cnt2
/-- `BAR`. -/
def Copy.bar (c : Copy) : Nat := c.dword 6
/-- `MBOX`. -/
def Copy.mbox (c : Copy) : Nat := c.dword 7

/-- Where row `row` of a side begins (R171): base and strides, modulo 2^64. `base` is 1 for the source and 2 for the
destination. -/
def Copy.rowAddr (c : Copy) (base row : Nat) : Nat :=
  let st : Word := BitVec.ofNat 64 (c.dword (3 + base))
  let s1 : Word := (st.extractLsb' 0 32).signExtend 64
  let s2 : Word := (st.extractLsb' 32 32).signExtend 64
  (BitVec.ofNat 64 (c.dword base) + BitVec.ofNat 64 (row / c.cnt1) * s2 + BitVec.ofNat 64 (row % c.cnt1) * s1).toNat

/-- The address of position `p` on a side. -/
def Copy.addrAt (c : Copy) (base p : Nat) : Nat := (c.rowAddr base (p / c.len0) + p % c.len0) % 2 ^ 64

/-- Whether the engine rejects a descriptor (R171). (DEDUCED: log entry 58) -/
def Copy.bad (c : Copy) : Bool :=
  c.total = 0 || 2 ^ 40 ≤ c.total || c.total ≤ c.startPos || c.ssp = 3 || c.dsp = 3 || 6 ≤ c.scope || c.bar % 16 != 0 ||
  c.mbox % 16 != 0 || c.desc.any (·.poison)

/-! ### The copies of a core -/

/-- A copy of a core. -/
def State.copy? (s : State) (core id : Nat) : Option Copy := (s.core core).copies.find? (fun c => c.id = id)

/-- Replace a copy. -/
def State.putCopy (s : State) (core : Nat) (c : Copy) : State :=
  s.modCore core (fun x => { x with copies := x.copies.map (fun d => if d.id = c.id then c else d) })

/-- The agent of a copy. -/
def Copy.agent (c : Copy) (core : Nat) : Agent := engineAgent core c.ctx c.priv

/-- Whether a last addition is due when a copy has ended (R174). -/
def Copy.needsAddition (c : Copy) : Bool := c.bar != 0 && (c.pos != c.counted || (c.status = 1 && c.arvf))

/-- A copy ends with a status at its position: the last addition follows, then the record. -/
def Copy.ended (c : Copy) (status addr : Nat) : Copy :=
  let d := { c with status := status, stAddr := addr }
  { d with phase := if d.needsAddition then .adding else .record }

/-- The status of a translation fault (R172): a poisoned entry forbids the access (R284). -/
def faultStatus (cause : Nat) : Nat := if cause = cPageAbsent then 2 else 3

/-! ### The descriptor (R169) -/

/-- The access of a copy: 0 reads the descriptor, 1 the source, 2 writes the destination, 3 adds to the barrier word, 4 writes the
record. -/
abbrev Copy.who (c : Copy) (core side : Nat) : Who := .copy core c.id side

/-- A copy ends before any position: its descriptor cannot be read, or is bad. -/
def Copy.rejected (c : Copy) (status addr : Nat) : Copy := { c with phase := .record, status := status, stAddr := addr }

/-- `COPY_DESCRIPTOR_READ`: the engine reads a descriptor once and rejects a bad one. A refused acceptance stops it with `REMOTE`
(R338). (DEDUCED: log entry 58) -/
def execCopyDescriptorRead (core copy : Nat) (s : State) : Out :=
  if !ringExists (ringOfCore core) then .fault .noSuchUnit
  else match s.copy? core copy with
    | none => s.noEvent
    | some c =>
      if c.phase != .kicked then s.noEvent
      else match s.engineRead (c.who core 0) (c.agent core) [] false c.addr 64 with
        | .wait t => .next t
        | .fault t _ a true => .next (t.putCopy core (c.rejected 7 a))
        | .fault t _ _ false => .next (t.putCopy core (c.rejected 5 c.addr))
        | .ok t d =>
          let c1 := { c with desc := d }
          if c1.bad then .next (t.putCopy core (c1.rejected 5 c.addr))
          else .next (t.putCopy core { c1 with phase := .moving, pos := c1.startPos, counted := c1.startPos })

/-! ### The positions (R171, R173) -/

/-- What a side of a piece is: device places, or an address behind a host port. -/
inductive Side where
  | device (ps : List Place)
  | host (port addr : Nat)
  deriving DecidableEq, Repr

/-- Why a piece cannot be performed: status and address. -/
structure CopyStop where
  status : Nat
  addr : Nat
  deriving DecidableEq, Repr

/-- A side of a piece once translated: the copy holds its pages. -/
structure SideAt where
  st : State
  copy : Copy
  ans : Except CopyStop Side

/-- Reach one side of a piece of `n` bytes (R171): the pages are pinned as the copy comes to them (R286). A host answers a read
with an error or not; a posted write has no answer (R313). (DESIGN CHOICE: log entry 59) -/
def State.copySide (s : State) (core : Nat) (c : Copy) (space kind va n : Nat) : SideAt :=
  let pkg := pkgOfRing (ringOfCore core)
  if space != 0 then
    { st := s, copy := c,
      ans := if !(tget false (s.pkg pkg).links (space - 1)) || (kind = kLoad && Config.hostFails s.free (space - 1) va) then
          .error { status := 6, addr := va }
        else .ok (.host (space - 1) va) }
  else
    let x := s.spread (c.agent core) c.pins false kind (byteAddrs va n)
    let c1 := { c with pins := x.pins }
    match lowestOf x.bytes with
    | some f => { st := x.st, copy := c1, ans := .error { status := faultStatus f.cause, addr := f.addr } }
    | none => match x.st.selfIn pkg (okPlaces x.bytes) with
      | some (i, t, la) => { st := x.st.fabLog pkg 6 t la, copy := c1, ans := .error { status := 7, addr := (va + i) % 2 ^ 64 } }
      | none => { st := x.st, copy := c1, ans := .ok (.device (okPlaces x.bytes)) }

/-- The places of a device side. -/
def Side.places : Side → List Place
  | .device ps => ps
  | .host _ _ => []

/-- A side of which bytes have been fetched. -/
def Side.withPlaces (qs : List Place) : Side → Side
  | .device _ => .device qs
  | h => h

/-- The bytes of a source side, each with the poison of its word. -/
def State.copyBytes (s : State) (n : Nat) : Side → List (Byte × Bool)
  | .device ps => ps.map (s.readPlace none)
  | .host port addr => (List.range n).map (fun i => (Config.hostByte s.free port ((addr + i) % 2 ^ 64), false))

/-- Whether poison may not go to a side (R173, point 7): the host, another package, or another context's lodging. -/
def Side.closed : Side → Bool
  | .host _ _ => true
  | .device ps => egress ps

/-- Write bytes to device places, run by run of one poison state (R77). -/
def State.writeRuns (s : State) : List (Place × Byte × Bool) → Nat → State
  | [], _ => s
  | _, 0 => s
  | (p, b, q) :: r, n + 1 =>
    let run := (p, b, q) :: r.takeWhile (fun e => e.2.2 == q)
    (s.enginePut (run.map (·.1)) (run.map (·.2.1)) q).writeRuns (r.dropWhile (fun e => e.2.2 == q)) n

/-- Write the bytes of a piece to its destination side. -/
def State.copyWrite (s : State) (pkg : Nat) (bs : List (Byte × Bool)) : Side → State
  | .device ps => s.writeRuns (ps.zip bs) bs.length
  | .host port addr => s.toHost pkg (.memoryWrite port addr (bs.map (·.1)))

/-- Whether a position from `p` on lies in a range of addresses of one side. -/
def Copy.touches (c : Copy) (base p lo n : Nat) : Bool :=
  let meets := fun (a m : Nat) => m != 0 && a < lo + n && lo < a + m
  let row := p / c.len0
  meets (c.addrAt base p) (c.len0 - p % c.len0) ||
    (List.range (c.cnt1 * c.cnt2 - 1 - row)).any (fun i => meets (c.rowAddr base (row + 1 + i)) c.len0)

/-- Whether a copy writes a later byte into the granule of an address than position `p` (R165). -/
def Copy.laterInGranule (c : Copy) (va p : Nat) : Bool := p + 1 < c.total && c.touches 2 (p + 1) (va / 16 * 16) 16

/-- The full/empty bits that a piece of `n` bytes from position `p` fills (R165). -/
def State.fillGranules (s : State) (c : Copy) (p : Nat) (ps : List Place) : State :=
  if c.fek then s
  else (ps.zipIdx).foldl (fun t e => match e.1 with
    | .at l _ =>
      if (isTcm l || isStore l) && !(c.laterInGranule (c.addrAt 2 (p + e.2)) (p + e.2)) then t.setFull (granule l) true else t
    | _ => t) s

/-- What a copy holds for a piece at other packages is released (R338). -/
def State.endPiece (s : State) (core : Nat) (c : Copy) : State := (s.release (c.who core 1)).release (c.who core 2)

/-- A copy stops before a position (R173): its pages are released, and an error of a host is counted (R311, R313). -/
def State.stopCopy (s : State) (core : Nat) (c : Copy) (pos status addr : Nat) : State :=
  let s1 := (s.endPiece core c).putCopy core ({ c with pins := [], pos := pos }.ended status addr)
  if status = 6 then s1.hostErr (pkgOfRing (ringOfCore core)) else s1

/-- The pages that later positions of a copy lie in: it holds them until those have performed (R286). -/
def Copy.laterPins (c : Copy) (pos : Nat) : List Pin :=
  c.pins.filter (fun p => (c.ssp = 0 && c.touches 1 pos p.va p.size) || (c.dsp = 0 && c.touches 2 pos p.va p.size))

/-- The state after a copy has moved on to a position: it has ended when that is T. -/
def State.copyTo (s : State) (core : Nat) (c : Copy) (pos : Nat) : State :=
  (s.endPiece core c).putCopy core
    (if pos = c.total then { c with pins := [], pos := pos }.ended 1 0 else { c with pins := c.laterPins pos, pos := pos })

/-- `good` of the `n` bytes of a piece have been written: where a poisoned word follows that may not leave, the copy stops (R173). -/
def State.copyWritten (s : State) (core : Nat) (c : Copy) (good n : Nat) : State :=
  if good < n then s.stopCopy core c (c.pos + good) 4 ((c.addrAt 1 c.pos + good) % 2 ^ 64)
  else s.copyTo core c (c.pos + n)

/-- The first of some elements that failed in transit. -/
def firstLost (es : List RemElem) (resp : List (Word × Bool × Nat)) : Option RemElem :=
  ((es.zip resp).find? (fun e => e.2.2.2 != 0)).map (·.1)

/-- The copy stops: an acceptance of a side is refused (R338). -/
def State.copyRefused (s : State) (core : Nat) (c : Copy) (base : Nat) (e : RemElem) (cause : Nat) : State :=
  (s.fabLog (pkgOfRing (ringOfCore core)) cause e.target e.la).stopCopy core c c.pos 7 ((c.addrAt base c.pos + e.pos) % 2 ^ 64)

/-- Send the destination elements of a piece, or take their answers; a failure in transit stops the copy (R341). -/
def State.copySend (s : State) (core : Nat) (c : Copy) (n : Nat) (es : List RemElem) : State :=
  match s.request (c.who core 2) false es with
  | .wait u => u
  | .refused u e cause => u.copyRefused core c 2 e cause
  | .done u resp => match firstLost es resp with
    | some e => u.stopCopy core c (c.pos + e.pos) 7 ((c.addrAt 2 c.pos + e.pos) % 2 ^ 64)
    | none => u.copyWritten core c (es.map (·.size)).sum n

/-- The bytes of a piece have been read: they are written, as far as poison lets them leave (R173). (DESIGN CHOICE: log entry 59) -/
def State.copyRead (s : State) (core : Nat) (c : Copy) (n : Nat) (src dst : Side) : State :=
  let s0 := s.demandAll src.places
  let bs := s0.copyBytes n src
  let good := if dst.closed then (bs.takeWhile (fun b => !b.2)).length else n
  let ps := dst.places.take good
  if anyRemote ps then s0.copySend core c n (fabElems ps (bs.map (·.1)) 0)
  else ((s0.copyWrite (pkgOfRing (ringOfCore core)) (bs.take good) (dst.withPlaces ps)).fillGranules c c.pos ps).copyWritten core c good n

/-- A piece of a copy of `n` bytes from its position: the acceptances of both sides are held before a byte performs (R338), then the
source is read, then the destination written. -/
def State.copyPiece (s : State) (core : Nat) (c : Copy) (n : Nat) (src dst : Side) : State :=
  let es := fabElems src.places [] 0
  match s.holdFrames (c.who core 1) c.ctx kLoad 0 c.pins es with
  | .wait u => u
  | .refused u e cause => u.copyRefused core c 1 e cause
  | .ok s1 => match s1.holdFrames (c.who core 2) c.ctx kStore 0 c.pins (fabElems dst.places [] 0) with
    | .wait u => u
    | .refused u e cause => u.copyRefused core c 2 e cause
    | .ok s2 => match s2.request (c.who core 1) true es with
      | .wait u => u
      | .refused u e cause => u.copyRefused core c 1 e cause
      | .done u resp => match firstLost es resp with
        | some e => u.stopCopy core c c.pos 7 ((c.addrAt 1 c.pos + e.pos) % 2 ^ 64)
        | none => u.copyRead core c n (src.withPlaces (fetchedPlaces src.places es resp)) dst

/-- Bytes of the next piece of a copy: in one row, one 64-byte block of the destination and one 4 KiB page of the source. (DEDUCED: log entry 57) -/
def Copy.pieceLen (c : Copy) : Nat :=
  min (min (c.len0 - c.pos % c.len0) (64 - c.addrAt 2 c.pos % 64)) (4096 - c.addrAt 1 c.pos % 4096)

/-- The elements of a piece that have left for another package. -/
def State.copyUnderWay (s : State) (core : Nat) (c : Copy) : Option (List RemElem) :=
  match s.txnOf (c.who core 2) with
  | some t => if t.elems.isEmpty then none else some t.elems
  | none => none

/-- `COPY_TRANSFER`: the next positions of a copy are performed, or the copy stops before them. (DEDUCED: log entry 57) -/
def execCopyTransfer (core copy : Nat) (s : State) : Out :=
  if !ringExists (ringOfCore core) then .fault .noSuchUnit
  else match s.copy? core copy with
    | none => s.noEvent
    | some c =>
      if c.phase != .moving then s.noEvent
      else match s.copyUnderWay core c with
        | some es => .next (s.copySend core c c.pieceLen es)
        | none =>
          let n := c.pieceLen
          let x := s.copySide core c c.ssp kLoad (c.addrAt 1 c.pos) n
          match x.ans with
          | .error e => .next (x.st.stopCopy core x.copy c.pos e.status e.addr)
          | .ok src =>
            let y := x.st.copySide core x.copy c.dsp kStore (c.addrAt 2 c.pos) n
            match y.ans with
            | .error e => .next (y.st.stopCopy core y.copy c.pos e.status e.addr)
            | .ok dst => .next ((y.st.putCopy core y.copy).copyPiece core y.copy n src dst)

/-! ### Barrier additions (R174) -/

/-- A copy whose addition cannot be made stops, its position the lowest not counted. -/
def State.additionFails (s : State) (core : Nat) (c : Copy) (status : Nat) : State :=
  (s.endPiece core c).putCopy core { c with status := status, stAddr := c.bar, pos := c.counted, phase := .record, pins := [] }

/-- What the next addition adds: the bytes performed and not yet counted, and in the last addition of a completed copy with `ARVF`
an arrival. -/
def Copy.addition (c : Copy) : Word :=
  BitVec.ofNat 64 ((if c.phase == .adding && c.status = 1 && c.arvf then 2 ^ 48 else 0) + (c.pos - c.counted))

/-- An addition has been made: when it was the last, the record is due. -/
def State.added (s : State) (core : Nat) (c : Copy) (operand : Word) : State :=
  (s.latchCore core).putCopy core { c with
    counted := c.counted + (operand.extractLsb' 0 48).toNat,
    phase := if c.phase == .adding && operand == c.addition then .record else c.phase }

/-- An addition to a barrier word in another package: one that is under way is finished before another is made. -/
def State.addRemote (s : State) (core : Nat) (c : Copy) (pins : List Pin) (ps : List Place) : State :=
  let w := c.who core 3
  let es := match s.txnOf w with
    | some t => if t.elems.isEmpty then barrierElem ps c.addition else t.elems
    | none => barrierElem ps c.addition
  match s.overFabric w c.ctx kAtomic opArrival pins false es with
  | .wait u => u
  | .refused u e cause => (u.fabLog w.pkg cause e.target e.la).additionFails core c 7
  | .done u resp => match es, resp with
    | e :: _, (_, p, st) :: _ =>
      if st != 0 then u.additionFails core c 7
      else if p then u.additionFails core c 8
      else u.added core c e.data
    | _, _ => u.additionFails core c 7

/-- `BARRIER_ADDITION`: the bytes performed and not yet counted are added to the barrier word as one arrival. -/
def execBarrierAddition (core copy : Nat) (s : State) : Out :=
  if !ringExists (ringOfCore core) then .fault .noSuchUnit
  else match s.copy? core copy with
    | none => s.noEvent
    | some c =>
      if !(c.bar != 0 && (c.phase == .adding || (c.phase == .moving && c.counted < c.pos))) then s.noEvent
      else
        let w := c.who core 3
        let x := s.places (c.agent core) (s.heldPins w ++ c.pins) kAtomic c.bar 16
        match x.ans with
        | .error f => .next (x.st.additionFails core c (faultStatus f.cause))
        | .ok ps => match x.st.selfIn w.pkg ps with
          | some (_, t, la) => .next ((x.st.fabLog w.pkg 6 t la).additionFails core c 7)
          | none =>
            if anyRemote ps then .next (x.st.addRemote core c x.pins ps)
            else
              let s1 := x.st.demandAll ps
              let r := barrierStep opArrival c.addition (s1.dwordAt none ps 0) (s1.dwordAt none ps 1)
              match r.1 with
              | none => .next (s1.additionFails core c 8)
              | some ws => .next ((s1.enginePut ps (dwordBytes [ws.1, ws.2]) false).added core c c.addition)

/-! ### The completion record (R172, R173) -/

/-- The bytes of a completion record. -/
def Copy.record (c : Copy) : List Byte :=
  dwordBytes [BitVec.ofNat 64 (c.status * 2 ^ 56 + c.tag * 2 ^ 40 + c.pos % 2 ^ 40), BitVec.ofNat 64 c.stAddr]

/-- What the write of a record has come to: it waits for the fabric, it is written, or it cannot be written. -/
inductive Recorded where
  | wait (s : State)
  | written (s : State)
  | unwritten (s : State)

/-- Write the record where it can be written. (DEDUCED: log entry 62) -/
def State.writeRecord (s : State) (core : Nat) (c : Copy) : Recorded :=
  if c.mbox % 16 != 0 || (lget (PVal.clean 0) c.desc 7).poison then .unwritten s
  else match s.engineAccess (c.who core 4) (c.agent core) [] false c.mbox 16 kStore c.record with
    | .wait u => .wait u
    | .fault u _ _ _ => .unwritten u
    | .ok u _ true => .unwritten u
    | .ok u ps false => .written ((u.enginePut ps c.record false).latchCore core)

/-- Raise `MACHINE_CHECK` for a copy (R173). (DEDUCED: log entry 62) -/
def State.copyCheck (s : State) (core : Nat) (c : Copy) (unwritten : Bool) : State :=
  s.raise (ringOfCore core) c.ctx cMachineCheck (BitVec.ofNat 64 c.addr)
    (BitVec.ofNat 64 (c.status + if unwritten then 256 else 0))

/-- A copy leaves its engine. -/
def State.dropCopy (s : State) (core : Nat) (c : Copy) : State :=
  s.modCore core (fun x => { x with copies := x.copies.filter (fun d => d.id != c.id) })

/-- `COMPLETION_RECORD`: the record is written as one store-release, and the copy has ended. (DEDUCED: log entry 58) -/
def execCompletionRecord (core copy : Nat) (s : State) : Out :=
  if !ringExists (ringOfCore core) then .fault .noSuchUnit
  else match s.copy? core copy with
    | none => s.noEvent
    | some c =>
      if c.phase != .record then s.noEvent
      else if c.mbox = 0 && !(lget (PVal.clean 0) c.desc 7).poison then
        .next (if c.status = 1 then s.dropCopy core c else (s.dropCopy core c).copyCheck core c false)
      else match s.writeRecord core c with
        | .wait u => .next u
        | .written u => .next (u.dropCopy core c)
        | .unwritten u => .next ((u.dropCopy core c).copyCheck core c true)

end Sys2Proof.Machine
end

