-- ==== Sys2Proof/Machine/Messages.lean ====
section
/-! DEFINITION. The instructions of the message ring (R226 to R237): `send`, `recv`, `htset`, `msgret`. The packets move by the
events of RingEvents. -/

namespace Sys2Proof.Machine

/-! ### Destination words (R226) -/

/-- The core that a destination word names, bits 25:3. -/
def destCore (d : Word) : Nat := d.toNat / 8 % 2 ^ 23
/-- `HANDLER`. -/
def destHandler (d : Word) : Nat := d.toNat / 2 ^ 40 % 256
/-- `DIR`. -/
def destDir (d : Word) : Nat := d.toNat / 2 ^ 38 % 4

/-- Whether a core lies within a scope around another (R179, R228). -/
def coreInScope (own dest : Nat) : Scope → Bool
  | .h => false
  | .c => own == dest
  | .g => own / 8 == dest / 8
  | .d => own / 2048 == dest / 2048
  | .p => own / 32768 == dest / 32768
  | .s => true

/-- The direction of a leg from one stop to another (R221): 0 clockwise, 1 counter-clockwise. -/
def ringDir (dir src dst : Nat) : Nat :=
  if dir = 1 then 0
  else if dir = 2 then 1
  else if (dst + 8 - src) % 8 ≤ (src + 8 - dst) % 8 then 0 else 1

/-- A stop of a ring, by direction and position. -/
abbrev Ring.stop (r : Ring) (dir pos : Nat) : Stop := tget Stop.empty r.stops (8 * dir + pos)
/-- Change a stop. -/
def Ring.modStop (r : Ring) (dir pos : Nat) (f : Stop → Stop) : Ring := { r with stops := tmod Stop.empty r.stops (8 * dir + pos) f }

/-- The stop a message leaves its sender's ring by: the destination, or stop 0 for another ring (R221). -/
def legEnd (ring : Nat) (d : Word) : Nat := if destCore d / 8 = ring then destCore d % 8 else 0

/-- Whether the injection of a stop accepts a packet: none waits there. (DESIGN CHOICE: log entry 138) -/
def State.injects (s : State) (ring dir pos : Nat) : Bool := ((s.ring ring).stop dir pos).inj.isEmpty

/-- Put a packet at the injection of a stop (R223). -/
def State.injectAt (s : State) (ring dir pos : Nat) (d hdr : Word) (payload : List Word) : State :=
  s.modRing ring (fun r =>
    let id := r.packetSeq
    ({ r with
       packetSeq := id + 1,
       packets := tput r.packets id
         { id := id, dest := d, header := hdr, payload := payload, dir := dir, crossed := false, vc := 0, esc := none,
           notice := false } }).modStop
      dir pos (fun p => { p with inj := p.inj ++ [id] }))

/-- Scopes that a message may name (R228). -/
def sendScope (sc : Scope) : Bool := sc != .h

/-- The header word (R227). -/
def headerWord (ctx : Nat) (d : Word) (f : Nat) (sc : Scope) (hart : Nat) : Word :=
  BitVec.ofNat 64 (ctx % 2 ^ 16 * 2 ^ 48 + destHandler d * 2 ^ 40 + f % 8 * 2 ^ 37 + sc.code.toNat * 2 ^ 32 + hart % 2 ^ 26)

/-- `send` (R228): the checks, the release, which drains the versions of the oldest chunk at every scope (R212, R233), the wait for the
injection, and the packet. A send to the hart's own core sets the latch of its harts (R86). -/
def execSend (a b : Reg) (scope : Scope) (flits : BitVec 3) (s : State) : Out :=
  .next (s.scalar (.send a b scope flits) (fun t =>
    let i := Instr.send a b scope flits
    let f := flits.toNat
    if !sendScope scope || (f = 0 && b != 0) || (0 < f && 31 < b.toNat + 2 * f - 1) then t.trapWord cIllegal i
    else t.consume (t.getX a) 6 (fun d =>
      let k := t.cur
      let ring := ringOf k
      let pos := posOf (coreOf k)
      let dir := ringDir (destDir d) pos (legEnd ring d)
      let regs := if f = 0 then [] else payloadRegs b flits
      if !coreInScope (coreOf k) (destCore d) scope then t.trapWord cIllegal i
      else if regs.any (fun r => (t.getX r).poison) then t.trap cPoison 0 6
      else if !t.injects ring dir pos then t.stall .injection
      else if t.ownBusy k then (t.unservedOwn k).stall .remote
      else
        let t1 := t.drainOwn k
        let t2 := if destCore d = coreOf k then t1.latchCore (coreOf k) else t1
        (t2.injectAt ring dir pos d (headerWord t.me.ctx d f scope k) (regs.map (fun r => (t.getX r).val))).advance)))

/-! ### The receive queue (R236) -/

/-- Whether a pop is served now: the queue holds a word and no older pop waits. -/
def Core.popServed (c : Core) (who : Nat) : Bool := !c.recvQ.isEmpty && (c.recvWait.head?).getD who == who

/-- Remove the oldest word and the pop that took it. -/
def Core.pop (c : Core) (who : Nat) : Core := { c with recvQ := c.recvQ.drop 1, recvWait := sdel who c.recvWait }

/-- `recv` (R236). -/
def execRecv (d : Reg) (s : State) : Out :=
  .next (s.scalar (.recv d) (fun t =>
    let c := t.core (coreOf t.cur)
    match c.recvQ with
    | (w, _) :: _ =>
      if c.popServed t.cur then (t.modCore (coreOf t.cur) (fun x => x.pop t.cur)).result d (PVal.clean w)
      else (t.modCore (coreOf t.cur) (fun x => { x with recvWait := joinLast t.cur x.recvWait })).stall .recv
    | [] => (t.modCore (coreOf t.cur) (fun x => { x with recvWait := joinLast t.cur x.recvWait })).stall .recv))

/-! ### The handler table (R230, R234) -/

/-- `VALID`. -/
def Handler.valid (h : Handler) : Bool := h.w1.getLsbD 63
/-- `OPEN`. -/
def Handler.open? (h : Handler) : Bool := h.w1.getLsbD 62
/-- `SUP`. -/
def Handler.sup (h : Handler) : Bool := h.w1.getLsbD 61
/-- `CTXID`. -/
def Handler.ctx (h : Handler) : Nat := (h.w1.extractLsb' 0 16).toNat
/-- Whether the reserved fields are zero. -/
def Handler.fieldsOk (h : Handler) : Bool :=
  h.w0.extractLsb' 48 16 == 0 && h.w0.extractLsb' 0 2 == 0 && h.w1.extractLsb' 16 45 == 0
/-- An empty entry. -/
def Handler.empty : Handler := { w0 := 0, w1 := 0 }
/-- An entry of a core's handler table. -/
abbrev Core.handler (c : Core) (n : Nat) : Handler := tget Handler.empty c.handlers n

/-- `htset` (R234): its release drains the versions of the oldest chunk before the entry changes. -/
def execHtset (a b : Reg) (s : State) : Out :=
  .next (s.scalar (.htset a b) (fun t =>
    let i := Instr.htset a b
    t.consume (t.getX a) 2 (fun nw => t.consume (t.getX b) 2 (fun va =>
      let n := nw.toNat % 256
      if va.toNat % 16 != 0 then t.trap cMisalign va 0
      else t.withBlock 0 false va.toNat 16 kLoad [] (fun u ps =>
        let w0 := u.dwordAt (some u.cur) ps 0
        let w1 := u.dwordAt (some u.cur) ps 1
        let e : Handler := { w0 := w0.val, w1 := w1.val }
        let old := (u.core (coreOf u.cur)).handler n
        if w0.poison || w1.poison then u.trap cPoison va 4
        else if !e.fieldsOk then u.trapWord cIllegal i
        else if u.me.priv = 0 && (e.sup || (e.valid && e.ctx != u.me.ctx) || (old.valid && old.ctx != u.me.ctx)) then
          u.trapWord cPriv i
        else if u.ownBusy u.cur then (u.unservedOwn u.cur).stall .remote
        else
          ((u.drainOwn u.cur).modCore (coreOf u.cur) (fun c => { c with handlers := tset Handler.empty c.handlers n e })).advance)))))

/-- `msgret` (R237): a hart that a message created retires; any other traps `ILLEGAL` (R24). (DEDUCED: log entry 20) -/
def execMsgret (s : State) : Out :=
  .next (s.scalar .msgret (fun t => if t.me.route != 2 then t.trapWord cIllegal .msgret else t.retire))

end Sys2Proof.Machine
end

