-- ==== Sys2Proof/Machine/Convoy.lean ====
section
/-! DEFINITION. Instruction fetch (R43, R136, R148 point 13), the checks of a convoy (R56, R57), its entry into the vector
queue (R155, R156) and its start (R49, R157). -/

namespace Sys2Proof.Machine

/-! ### Fetch -/

/-- Why a fetch stops: cause, address and value of the trap. -/
structure FetchStop where
  cause : Nat
  addr : Nat
  val : Nat
  deriving DecidableEq, Repr

/-- What a fetch of some bytes has come to: it waits, it stops, or the bytes. -/
inductive Fetched where
  | wait (s : State) (w : Wait)
  | stop (s : State) (f : FetchStop)
  | ok (s : State) (bytes : List Byte)

/-- The places of the bytes of a fetch below the first that faults. -/
def fetchPlaces : List ByteAt → List Place
  | (_, .ok p) :: r => p :: fetchPlaces r
  | _ => []

/-- Why a fetch goes no further than its first `n` bytes: a fault of translation, or a byte of another package with cause 6 or refused
(R136, R338). -/
def fetchEnd (bs : List ByteAt) (n : Nat) : Option FetchStop :=
  (bs.drop n).head?.map (fun b => match b with
    | (a, .error c) => { cause := c, addr := a, val := faultVal c kFetch }
    | (a, .ok _) => { cause := cProtect, addr := a, val := kFetch })

/-- The bytes of the places that a fetch reaches, after the errors of their sectors have been found (R272): all of them, or the first
in a marked word (R57, R148). A hart fetches through the versions of its chunk, and a fetch that an older chunk's store would change is
exposed as a load is, so that the store squashes the chunk (R2, R209, R210). (DEDUCED: log entry 118) -/
def State.fetched (s : State) (k va : Nat) (ps : List Place) (rest : Option FetchStop) : Fetched :=
  let t := (s.demandAll ps).exposeReads (some k) ps
  let bs := ps.map (t.readPlace (some k))
  match bs.findIdx? (·.2), rest with
  | some i, _ => .stop t { cause := cPoison, addr := (va + i) % 2 ^ 64, val := 13 }
  | none, some f => .stop t f
  | none, none => .ok t (bs.map (·.1))

/-- Fetch `n` bytes for a hart: the lowest byte that faults, is refused or lies in a marked word stops it (R57, R136). Bytes of another
package cross the fabric, for the oldest chunk alone (R214, R339). `phase` tells the members of a convoy from its header. -/
def State.fetch (s : State) (k phase va n : Nat) : Fetched :=
  let w := Who.fetch k phase
  let x := s.spread (s.agentOf k) (s.heldPins w) false kFetch (byteAddrs va n)
  let all := fetchPlaces x.bytes
  let ps := match x.st.selfIn w.pkg all with
    | some (i, _, _) => all.take i
    | none => all
  if (s.hart k).spec && needsOldest ps then .wait x.st .oldest
  else match x.st.holdFrames w (s.hart k).ctx kFetch 0 x.pins (fabElems ps [] 0) with
    | .wait u => .wait u .remote
    | h =>
      let (u, qs) := match h with
        | .refused u e c => (u.fabLog w.pkg c e.target e.la, ps.take e.pos)
        | .wait u | .ok u => (match x.st.selfIn w.pkg all with
          | some (_, t, la) => u.fabLog w.pkg 6 t la
          | none => u, ps)
      let es := fabElems qs [] 0
      match u.request w false es with
      | .wait v => .wait v .remote
      | .refused v _ _ => .wait v .remote
      | .done v resp => (v.release w).fetched k va (fetchedPlaces qs es resp) (fetchEnd x.bytes qs.length)

/-! ### The checks (R56, R57) -/

/-- What a member writes (R56): vector, mask and x registers, accumulator tiles, `vl`. -/
inductive Dest where
  | v (n : Nat)
  | m (n : Nat)
  | x (n : Nat)
  | acc (n : Nat)
  | vl
  deriving DecidableEq, Repr

/-- The destinations of a vector instruction (R53, R56). -/
def memberDests : Instr → List Dest
  | .vst _ | .vsts _ | .vstx _ | .vstt _ | .msetml _ | .mend _ | .rpass _ => []
  | .vcmp o | .vfcmp o | .mand o | .mor o | .mxor o | .mandn o | .mfromx o => [.m o.vd.toNat]
  | .vmvxs o | .mpop o | .mffs o | .mmvx o => if o.vd = 0 then [] else [.x o.vd.toNat]
  | .setvl o => (if o.vd = 0 then [] else [.x o.vd.toNat]) ++ [.vl]
  | .setvlf o => (if o.vd = 0 then [] else [.x o.vd.toNat]) ++ [.vl, .m o.vs1.toNat]
  | .mzero o | .mxacc o | .mxdec o | .mxin o => [.acc o.vd.toNat]
  | .mlu o => [.v o.vd.toNat, .acc o.vs3.toNat]
  | .vldp o => [.v o.vd.toNat, .m o.vs2.toNat]
  | i => match memberCode i with
    | some (_, _, o) => [.v o.vd.toNat]
    | none => []

/-- Whether a member pops the receive queue. -/
def readsQueue (o : VOp) : Bool := o.vs1 == 49 || o.vs2 == 49 || o.vs3 == 49
/-- Whether a member reads the landing. -/
def readsLanding (o : VOp) : Bool := o.vs1 == 48 || o.vs2 == 48 || o.vs3 == 48

/-- The unit code in slot `k` of a header's six unit fields. -/
def slotUnit (units : BitVec 18) (k : Nat) : Nat := units.toNat / 2 ^ (18 - 3 * k) % 8

/-- A failing check: cause and slot (0 for the header). -/
structure Bad where
  cause : Nat
  slot : Nat
  deriving DecidableEq, Repr

/-- The header's own checks (R57 steps 1 and 2). -/
def badHeader (count : Nat) (units : BitVec 18) (rsv : BitVec 4) (depth : Nat) : Option Bad :=
  if rsv != 0 || (List.range 6).any (fun i => count ≤ i && slotUnit units (i + 1) != 0) then some { cause := cIllegal, slot := 0 }
  else if count = 0 || count = 7 || depth < count then some { cause := cIllegalConvoy, slot := 0 }
  else none

/-- The members against R54 (R57 step 3), in slot order; `extra` are the rules of declared registers. -/
def badMember (extra : Instr → Bool) : List Word → Nat → Except Bad (List Instr)
  | [], _ => .ok []
  | w :: r, k => match decodeMember w with
    | .error _ => .error { cause := cIllegal, slot := k }
    | .ok i => if extra i then .error { cause := cIllegal, slot := k } else match badMember extra r (k + 1) with
      | .error b => .error b
      | .ok is => .ok (i :: is)

/-- The unit of a vector instruction. -/
def unitOf (i : Instr) : Nat :=
  match memberCode i with
  | some (u, _, _) => u.toNat
  | none => 0

/-- The operand fields of a vector instruction. -/
def fieldsOf (i : Instr) : Option VOp := (memberCode i).map (fun c => c.2.2)

/-- Whether a vector instruction pops the receive queue. -/
def popsQueue (i : Instr) : Bool := (fieldsOf i).any readsQueue

/-- The remaining rules of R56, in slot order of the later member (R57 step 4). `earlier` are the members before. -/
def badPair (unitAt : Nat → Nat) : List Instr → List Instr → Nat → Option Bad
  | _, [], _ => none
  | earlier, i :: r, k =>
    if unitAt k != unitOf i || earlier.any (fun j => unitOf j == unitOf i) ||
        earlier.any (fun j => (memberDests j).any (memberDests i).contains) ||
        (popsQueue i && earlier.any popsQueue) then some { cause := cIllegalConvoy, slot := k }
    else badPair unitAt (earlier ++ [i]) r (k + 1)

/-- A whole convoy (R57): its members, or the first failing check. -/
def checkConvoy (extra : Instr → Bool) (count : Nat) (units : BitVec 18) (rsv : BitVec 4) (depth : Nat) (words : List Word) :
    Except Bad (List Instr) :=
  match badHeader count units rsv depth with
  | some b => .error b
  | none => match badMember extra words 1 with
    | .error b => .error b
    | .ok is => match badPair (slotUnit units) [] is 1 with
      | some b => .error b
      | none => .ok is

/-- Whether a member breaks the rules of declared registers (R205, R206): it delivers to an induction or reduction register
or captures a reduction register. (DESIGN CHOICE: log entry 131) -/
def State.memberBreaks (s : State) (k : Nat) (i : Instr) : Bool :=
  (vectorXDest i).any (fun d => match s.role k d with
    | some (.indImm _ _) | some (.indReg _ _) | some (.red _ _) => true
    | _ => false) ||
  (vectorXSource i).any (fun r => match s.role k r with
    | some (.red _ _) => true
    | _ => false)

/-- `HCTL.VQDEPTH`. -/
def Hart.depth (h : Hart) : Nat := h.hctl.toNat % 32

/-- The bytes of a fetch as 64-bit words. (DEDUCED: log entry 27) -/
def fetchWords (bs : List Byte) (n : Nat) : List Word :=
  (List.range n).map (fun i => BitVec.ofNat 64 (bytesToNat ((bs.drop (8 * i)).take 8)))

/-- `CONVOY`: a convoy header (R49, R57, R141). The members are fetched, the convoy is checked whole, and it then waits for
its queue entries. (DEDUCED: log entry 27, DEDUCED: log entry 28) -/
def execConvoy (count : BitVec 3) (units : BitVec 18) (rsv : BitVec 4) (db : Bool) (s : State) : Out :=
  let k := s.cur
  let h := s.me
  let n := count.toNat
  .next (
    if !isVector k then s.trapWord cIllegal (.convoy count units rsv db)
    else if h.queue.any (·.frozen) then s.trap cIllegal 0 0
    else
      match s.fetch k 1 (h.pc + 4).toNat (8 * n) with
      | .wait t w => t.stall w
      | .stop t f => t.trap f.cause (BitVec.ofNat 64 f.addr) (BitVec.ofNat 64 f.val)
      | .ok s1 bs =>
        let words := fetchWords bs n
        match checkConvoy (s1.memberBreaks k) n units rsv h.depth words with
        | .error b =>
          s1.trap b.cause (if b.slot = 0 then h.pc else h.pc + 4 + BitVec.ofNat 64 (8 * (b.slot - 1))) (BitVec.ofNat 64 b.slot)
        | .ok is =>
          match (is.filterMap vectorXSource).find? h.xPending with
          | some r => s1.stall (.delivery r)
          | none =>
            (s1.modHart k (fun g => { g with pendConvoy := some { addr := h.pc.toNat, db := db, words := words }, wait := .none })).modCore
              (coreOf k) (fun c => { c with queueWait := joinLast k c.queueWait }))

/-! ### Entering the queue (R155, R156) -/

/-- The entries that a core's vector queue holds. -/
def State.queueUse (s : State) (core : Nat) : Nat :=
  ((List.range 4).map (fun i => (s.hart (hartKey core i)).queue.length)).sum

/-- Whether a waiting convoy of a hart fits: the hart's depth, and the room of the core's queue (R155). -/
def State.fitsHart (s : State) (k : Nat) : Bool :=
  match (s.hart k).pendConvoy with
  | some p => (s.hart k).queue.length + p.words.length ≤ (s.hart k).depth
  | none => false

/-- Whether the core's queue has room for a hart's waiting convoy. -/
def State.fitsCore (s : State) (k : Nat) : Bool :=
  match (s.hart k).pendConvoy with
  | some p => s.queueUse (coreOf k) + p.words.length ≤ Config.vqEntries
  | none => false

/-- Whether an older waiter comes first: entries go to the waiters in the order in which they began to wait (R155). -/
def State.olderWaits (s : State) (k : Nat) : Bool := !((s.core (coreOf k)).queueWait.takeWhile (· != k)).isEmpty

/-- The entry of a member (R156): the captured scalar, and `FSTAT.RM` when the rounding field is 7. -/
def entryOf (h : Hart) (id : Nat) (db : Bool) (n slot : Nat) (w : Word) : Entry :=
  let i := match decodeMember w with
    | .ok i => i
    | .error _ => .undefinedWord 0
  let x := match vectorXSource i with
    | some r => h.getX r
    | none => PVal.clean 0
  { id := id, insn := w, x := x, crm := if w.extractLsb' 20 3 == 7 then h.rmField else 0, db := db, first := slot == 1,
    ccount := n, slot := slot, start := 0, pend := [], pins := [], frozen := false, started := false, parked := false }

/-- The entries of a convoy in slot order. -/
def entriesOf (h : Hart) (seq : Nat) (p : PendingConvoy) : List Entry :=
  (p.words.zipIdx).map (fun e => entryOf h (seq + e.2) p.db p.words.length (e.2 + 1) e.1)

/-- `CONVOY_COMMIT`: a checked convoy enters the vector queue as one step once entries are free, and the scalar front end
goes on after its last member (R57, R155, R156). -/
def execConvoyCommit (hart : Nat) (s : State) : Out :=
  let h := s.hart hart
  if !ringExists (ringOf hart) then .fault .noSuchUnit
  else match h.pendConvoy with
    | none => s.noEvent
    | some p =>
      if !h.live || h.stopped || !s.fitsHart hart || !s.fitsCore hart || s.olderWaits hart then s.noEvent
      else
        let c := s.core (coreOf hart)
        let n := p.words.length
        .next ((s.modCore (coreOf hart) (fun x => { x with commitSeq := c.commitSeq + n, queueWait := sdel hart x.queueWait })).modHart
          hart (fun g => { g with
            queue := g.queue ++ entriesOf h c.commitSeq p, pendConvoy := none, pc := g.pc + 4 + BitVec.ofNat 64 (8 * n) }))

/-! ### What a member depends on (R158) -/

/-- The operand fields of a member, as far as one member can depend on another through them. -/
def fieldNumbers (o : VOp) : List Nat := [o.vd.toNat, o.vs1.toNat, o.vs2.toNat, o.vs3.toNat]

/-- Whether a member changes `vl` or fixes a limit that later members use. -/
def fixesLength : Instr → Bool
  | .setvl _ | .setvlf _ | .vld _ | .vlds _ | .vldx _ => true
  | _ => false

/-- Whether a member empties the landing (R193). -/
def emptiesLanding : Instr → Bool
  | .rpass o => o.lowBits 0 0 = 1
  | _ => false

/-- Whether a later member may not run before an earlier one has completed: a field they share, a length, memory, or the
landing. (DESIGN CHOICE: log entry 12) -/
def mustFollow (earlier later : Instr) : Bool :=
  fixesLength earlier || fixesLength later || (unitOf earlier ≤ 1 && unitOf later ≤ 1) ||
  (match fieldsOf earlier, fieldsOf later with
   | some a, some b => (fieldNumbers a).any (fieldNumbers b).contains || a.mask == b.mask && a.mask != 0 ||
       (memberDests earlier ++ memberDests later).any (fun d => match d with
         | .m _ | .acc _ | .vl => true
         | _ => false) || (readsLanding a && emptiesLanding later) || (emptiesLanding earlier && readsLanding b)
   | _, _ => true)

/-! ### Starting (R49, R157) -/

/-- The first convoy of a hart's queue among the entries that are not frozen: its entries. -/
def Hart.headConvoy (h : Hart) : List Entry :=
  match h.queue.filter (fun e => !e.frozen) with
  | [] => []
  | e :: r => e :: r.takeWhile (fun x => !x.first)

/-- The unit of an entry. -/
def Entry.unit (e : Entry) : Nat := (e.insn.extractLsb' 61 3).toNat

/-- Whether a unit of a core works for another convoy: one of its entries is started and has not completed. -/
def State.unitBusy (s : State) (core hart u : Nat) : Bool :=
  (List.range 4).any (fun i =>
    let k := hartKey core i
    k != hart && (s.hart k).queue.any (fun e => e.started && !e.frozen && e.unit == u))

/-- The convoy of a hart that is ready to start but for its units (R157): its first entry and its units. -/
def State.readyConvoy (s : State) (k : Nat) : Option (Entry × List Nat) :=
  let h := s.hart k
  match h.headConvoy with
  | [] => none
  | e :: r => if e.started || !h.live || h.stopped then none else some (e, (e :: r).map (·.unit))

/-- The ready convoys of a core reserve the units that are busy, each against every convoy committed later (R157). -/
def State.reserveUnits (s : State) (core : Nat) : State :=
  ((List.range 4).map (hartKey core)).foldl (fun (t : State) k => match t.readyConvoy k with
    | none => t
    | some (e, units) =>
      let new := units.filter (fun u => t.unitBusy core k u && !(t.core core).reserved.contains (u, e.id))
      if new.isEmpty then t else t.modCore core (fun c => { c with reserved := c.reserved ++ new.map (fun u => (u, e.id)) })) s

/-- Whether a unit is not free for a convoy of a hart: it is busy, or reserved by a convoy committed earlier (R157). -/
def State.unitTaken (s : State) (core hart id u : Nat) : Bool :=
  s.unitBusy core hart u || (s.core core).reserved.any (fun q => q.1 = u && q.2 < id)

/-- `CONVOY_START`: the next convoy of a hart starts once its previous convoy has drained and its units are free or reserved
for it (R157). -/
def execConvoyStart (hart : Nat) (s : State) : Out :=
  if !ringExists (ringOf hart) then .fault .noSuchUnit
  else match s.readyConvoy hart with
    | none => s.noEvent
    | some (e, units) =>
      let core := coreOf hart
      if units.any (s.unitTaken core hart e.id) then s.noEvent
      else
        let ids := (s.hart hart).headConvoy.map (·.id)
        .next ((s.modCore core (fun c => { c with reserved := c.reserved.filter (fun q => q.2 != e.id) })).modHart hart
          (fun g => { g with queue := g.queue.map (fun x => if ids.contains x.id then { x with started := true } else x) }))

end Sys2Proof.Machine
end

