-- ==== Sys2Proof/Machine/Vector.lean ====
section
/-! DEFINITION. What every vector queue entry does once: it is the executing entry of its hart, reads sources container by
container (R91 to R93), writes destinations, stops with its start index (R139), and completes (R94, R156). -/

namespace Sys2Proof.Machine

/-! ### The executing entry -/

/-- The entry that executes. -/
def State.entry? (s : State) : Option Entry := s.me.queue.find? (fun e => e.id = s.entry)

/-- Change the entry that executes. -/
def State.modEntry (s : State) (f : Entry → Entry) : State :=
  s.modMe (fun h => { h with queue := h.queue.map (fun e => if e.id = s.entry then f e else e) })

/-- An entry runs when it is started, not frozen and not parked at a special-function unit. -/
def Entry.runs (e : Entry) : Bool := e.started && !e.frozen && !e.parked

/-- The shape of every vector instruction: the event of an entry that runs. -/
def State.member (s : State) (k : State → Entry → State) : Out :=
  match s.entry? with
  | some e => if e.runs then .next (k s e) else s.noEvent
  | none => s.noEvent

/-- Remove an entry from a queue; the next entry of its convoy becomes its first. -/
def removeEntry (id : Nat) : List Entry → List Entry
  | [] => []
  | e :: r =>
    if e.id = id then
      (match e.first, r with
       | true, x :: xs => (if x.first then x else { x with first := true }) :: xs
       | _, _ => r)
    else e :: removeEntry id r

/-- The executing entry completes and leaves the queue (R155). -/
def State.complete (s : State) : State := s.modMe (fun h => { h with queue := removeEntry s.entry h.queue })

/-- The entry delivers a value through the read queue and completes (R94). -/
def State.completeX (s : State) (d : VReg) (p : PVal) : State := (s.setX (d.extractLsb' 0 5) p).complete

/-- The position of the executing entry in queue order (R135). -/
def State.entryPos (s : State) : Nat := (s.me.queue.findIdx? (fun e => e.id = s.entry)).getD 0

/-- The entry stops before a container and waits there: its start index counts the containers done. -/
def State.waitAt (s : State) (elem : Nat) : State := s.modEntry (fun e => { e with start := elem })

/-- The entry stops before a container with a trap of its hart (R139); in a speculative chunk it waits there until the chunk
is oldest (R69). -/
def State.trapAt (s : State) (elem code : Nat) (addr val : Word) : State :=
  let s1 := s.waitAt elem
  if s.me.spec then s1 else s1.vtrap s.cur s.entryPos elem code addr val

/-- Run a body for each container from a list until one stops. -/
inductive Lane where
  | go (s : State)
  | stop (s : State)

/-- The loop over containers: `done` follows the last. -/
def State.lanes (s : State) (body : State → Nat → Lane) (done : State → State) : List Nat → State
  | [] => done s
  | e :: r => match body s e with
    | .go t => t.lanes body done r
    | .stop t => t

/-- The containers from a start index below a limit. -/
def containers (start limit : Nat) : List Nat := (List.range (limit - start)).map (fun i => start + i)

/-- Where the work of a move ends: at `vl`, or at the next boundary between element groups (R154, R159). (DESIGN CHOICE: log entry 13) -/
def State.limit (s : State) (start : Nat) : Nat := if s.byGroup then min s.me.vl (start / 16 * 16 + 16) else s.me.vl

/-- The containers below a limit are done: the entry completes at `vl`, else it stands at the boundary. -/
def State.finish (s : State) (lim : Nat) : State := if lim < s.me.vl then s.waitAt lim else s.complete

/-- An entry runs a body for its containers from its start index on. -/
def State.sweep (s : State) (ent : Entry) (body : State → Nat → Lane) : State :=
  s.lanes body (fun t => t.finish (s.limit ent.start)) (containers ent.start (s.limit ent.start))

/-! ### Masks and sources -/

/-- `Active(e)` (R25), for a container below `vl`. -/
def Hart.active (h : Hart) (o : VOp) (e : Nat) : Bool :=
  e < h.vl && (match o.masked with
    | none => true
    | some m => (h.getM m).getLsbD e)

/-- What a source gives for a container. -/
inductive Source where
  | value (s : State) (p : PVal)
  | wait (s : State)

/-- A container of the landing (R193). -/
def Fragment.at (f : Fragment) (e : Nat) : PVal := if e < f.len then tget (PVal.clean 0) f.data e else PVal.clean 0

/-- Read container `e` of a source field: a vector register, the landing (48) or a pop of the receive queue (49) (R93). -/
def State.source (s : State) (r : VReg) (e : Nat) : Source :=
  if r.toNat < 48 then .value s (s.me.getV r.toNat e)
  else
    let c := s.core (coreOf s.cur)
    if r.toNat = 48 then
      match c.landing with
      | some f => .value s (f.at e)
      | none => .wait s
    else
      let who := vectorPop s.cur
      match c.recvQ with
      | (w, _) :: _ =>
        if c.popServed who then .value (s.modCore (coreOf s.cur) (fun x => x.pop who)) (PVal.clean w)
        else .wait (s.modCore (coreOf s.cur) (fun x => { x with recvWait := joinLast who x.recvWait }))
      | [] => .wait (s.modCore (coreOf s.cur) (fun x => { x with recvWait := joinLast who x.recvWait }))

/-- Read several sources of a container in order: their values, or the state in which the entry waits. -/
def State.sources (s : State) : List (VReg × Nat) → Except State (State × List PVal)
  | [] => .ok (s, [])
  | (r, e) :: rest => match s.source r e with
    | .wait t => .error t
    | .value t p => match t.sources rest with
      | .error u => .error u
      | .ok (u, ps) => .ok (u, p :: ps)

/-- Whether the executing entry reads the landing while it is empty: it stalls where it begins until the landing is full (R193). One whose
mask selects no container that is left reads nothing. (DESIGN CHOICE: log entry 134) -/
def State.landingAwaited (s : State) (o : VOp) : Bool :=
  readsLanding o && (s.core (coreOf s.cur)).landing.isNone && s.entry?.any (fun e => (containers e.start s.me.vl).any (s.me.active o))

/-- Whether an entry must wait before it reads the landing or the queue: until its chunk is oldest (R186, R214), or for a fragment (R193). -/
def State.holdsSpec (s : State) (o : VOp) : Bool :=
  (s.me.spec && (readsLanding o || readsQueue o)) || s.landingAwaited o

/-! ### Element-wise instructions (R91) -/

/-- What an operation gives for one container: its elements with the flags each raises, and whether `.sat` clipped. -/
structure LaneResult where
  elems : List (Nat × Flags)
  sat : Bool
  deriving DecidableEq, Repr

/-- The flags raised up to the first element that raises an enabled one, and that element's enabled flags (R35, R136). (DEDUCED: log entry 24) -/
def laneFlags (ten : Flags) : List (Nat × Flags) → Flags × Flags
  | [] => (0, 0)
  | (_, f) :: r => if f &&& ten != 0 then (f, f &&& ten) else ((laneFlags ten r).1 ||| f, (laneFlags ten r).2)

/-- Write one computed container: flags, an `FP_ENABLED` trap at it, or the result (R35, R91). `old` is the state in which
no word has been popped for the container. (DEDUCED: log entry 24) -/
def State.writeLane (s old : State) (o : VOp) (e : Nat) (r : LaneResult) : Lane :=
  let (f, en) := laneFlags s.me.ten r.elems
  if en != 0 then .stop ((old.modMe (fun h => h.raiseFlags f)).trapAt e cFp 0 (en.zeroExtend 64))
  else .go (s.modMe (fun h =>
    ((h.raiseFlags f).raiseV (if r.sat then vSat else 0)).setV o.vd.toNat e (PVal.clean (packElems o.ty (r.elems.map (·.1))))))

/-- An inactive container: zeroed when `z` is 1, else kept (R91). (DEDUCED: log entry 29) -/
def State.inactive (s : State) (o : VOp) (e : Nat) : State :=
  if o.z then s.modMe (fun h => h.setV o.vd.toNat e (PVal.clean 0)) else s

/-- The element-wise form: containers from the start index to `vl`, each read, computed and written by itself. `srcs` names
the registers and containers read for a container, `extra` a captured operand that enters every result. -/
def State.elementwise (s : State) (ent : Entry) (o : VOp) (srcs : Nat → List (VReg × Nat)) (extra : Bool)
    (f : Hart → Nat → List Word → LaneResult) : State :=
  if s.holdsSpec o then s
  else s.sweep ent (fun t e =>
    if t.me.active o e then
      match t.sources (srcs e) with
      | .error u => .stop (u.waitAt e)
      | .ok (u, ps) =>
        if extra || ps.any (·.poison) then .go (u.modMe (fun h => h.setV o.vd.toNat e PVal.poisoned))
        else u.writeLane t o e (f u.me e (ps.map (·.val)))
    else .go (t.inactive o e))

/-- The sources of a form that reads the same container of its registers. -/
def sameLane (rs : List VReg) (e : Nat) : List (VReg × Nat) := rs.map (fun r => (r, e))

/-! ### The second operand (R52, R98) -/

/-- Whether the second operand of a B form is the captured scalar. -/
def isScalar (o : VOp) : Bool := o.sel == 1

/-- The registers a B form reads. -/
def bSources (o : VOp) : List VReg := if o.sel = 0 then [o.vs1, o.vs2] else [o.vs1]

/-- The second operand container: the second value read, the scalar or the immediate in every element. -/
def secondOf (o : VOp) (ent : Entry) (imm : Int) (vals : List Word) : Word :=
  match o.sel with
  | 0 => lget 0 vals 1
  | 1 => replicate o.ty (ent.x.val.toNat % 2 ^ o.ty.width)
  | _ => replicate o.ty (wrapInt o.ty.width imm)

/-- `SExt(imm12, 12)`. -/
def imm12Of (o : VOp) : Int := intOf true 12 (o.lowBits 11 0)
/-- `SExt(imm8, 8)` of a compare. -/
def imm8Of (o : VOp) : Int := intOf true 8 (o.lowBits 7 0)
/-- `.sat` (R52). -/
def satOf (o : VOp) : Bool := o.lowBits 12 12 == 1

/-- The rounding mode of a vector operation that makes no draw (R32, R99). -/
def modeFor (o : VOp) (ent : Entry) : Rm :=
  match o.rm with
  | .dyn => modeOf ent.crm
  | .stoch => .rne
  | r => r

/-- Element-wise pairs of two containers. -/
def pairs (t : Ty) (a b : Word) : List (Nat × Nat) := (elemsOf t a).zip (elemsOf t b)

end Sys2Proof.Machine
end

