-- ==== Sys2Proof/Machine/VecArith.lean ====
section
/-! DEFINITION. Vector arithmetic (R96 to R112, R114): integer and floating-point element-wise instructions, compares,
conversions, masks, moves and the generator. -/

namespace Sys2Proof.Machine

/-! ### Integer arithmetic (R97, R98) -/

/-- The exact integer that an element receives: wrapped, or clamped under `.sat` (R97). -/
def intResult (t : Ty) (sat : Bool) (y : Int) : Nat × Bool := if sat then satInt t y else (wrapInt t.width y, false)

/-- An integer B instruction: `f` computes the exact result from the two elements as integers and as bits. -/
def State.vecInt (s : State) (o : VOp) (f : Int → Int → Nat → Nat → Int) : Out :=
  s.member (fun t ent => t.elementwise ent o (sameLane (bSources o)) (isScalar o && ent.x.poison) (fun _ _ vals =>
    let b := secondOf o ent (imm12Of o) vals
    let rs := (pairs o.ty (lget 0 vals 0) b).map (fun p =>
      intResult o.ty (satOf o) (f (intOf o.ty.signed o.ty.width p.1) (intOf o.ty.signed o.ty.width p.2) p.1 p.2))
    { elems := rs.map (fun r => (r.1, 0)), sat := rs.any (·.2) }))

/-- `vadd`: a + b (R97). -/
def execVadd (o : VOp) (s : State) : Out := s.vecInt o (fun x y _ _ => x + y)

/-- `vsub`: a - b (R97). -/
def execVsub (o : VOp) (s : State) : Out := s.vecInt o (fun x y _ _ => x - y)

/-- `vmin`: the smaller (R97). -/
def execVmin (o : VOp) (s : State) : Out := s.vecInt o (fun x y _ _ => min x y)

/-- `vmax`: the larger (R97). -/
def execVmax (o : VOp) (s : State) : Out := s.vecInt o (fun x y _ _ => max x y)

/-- `vand`: and of the bits (R97). -/
def execVand (o : VOp) (s : State) : Out := s.vecInt o (fun _ _ a b => (a &&& b : Nat))

/-- `vor`: or of the bits (R97). -/
def execVor (o : VOp) (s : State) : Out := s.vecInt o (fun _ _ a b => (a ||| b : Nat))

/-- `vxor`: exclusive or of the bits (R97). -/
def execVxor (o : VOp) (s : State) : Out := s.vecInt o (fun _ _ a b => (a ^^^ b : Nat))

/-- `vsll`: a × 2^s (R97). -/
def execVsll (o : VOp) (s : State) : Out := s.vecInt o (fun x _ _ b => x * 2 ^ (b % o.ty.width))

/-- `vsrl`: the bits shifted right with zero fill (R97). -/
def execVsrl (o : VOp) (s : State) : Out := s.vecInt o (fun _ _ a b => (a / 2 ^ (b % o.ty.width) : Nat))

/-- `vsra`: the bits shifted right, copying the top bit (R97). -/
def execVsra (o : VOp) (s : State) : Out := s.vecInt o (fun _ _ a b => intOf true o.ty.width a / 2 ^ (b % o.ty.width))

/-- `vmul`: a × b (R97). -/
def execVmul (o : VOp) (s : State) : Out := s.vecInt o (fun x y _ _ => x * y)

/-- `vmulh`: the high half of a × b (R97). -/
def execVmulh (o : VOp) (s : State) : Out := s.vecInt o (fun x y _ _ => x * y / 2 ^ o.ty.width)

/-- `vabs`: |a| (R97). -/
def execVabs (o : VOp) (s : State) : Out :=
  s.member (fun t ent => t.elementwise ent o (sameLane [o.vs1]) false (fun _ _ vals =>
    let rs := (elemsOf o.ty (lget 0 vals 0)).map (fun a => intResult o.ty (satOf o) (intOf true o.ty.width a).natAbs)
    { elems := rs.map (fun r => (r.1, 0)), sat := rs.any (·.2) }))

/-! ### Floating-point arithmetic (R99, R100) -/

/-- A floating-point B instruction: `f` computes one element with its flags from `FTZ`, the mode and the two elements. -/
def State.vecFp (s : State) (o : VOp) (f : Bool → Rm → Nat → Nat → Nat × Flags) : Out :=
  s.member (fun t ent => t.elementwise ent o (sameLane (bSources o)) (isScalar o && ent.x.poison) (fun h _ vals =>
    { elems := (pairs o.ty (lget 0 vals 0) (secondOf o ent 0 vals)).map (fun p => f h.ftz (modeFor o ent) p.1 p.2), sat := false }))

/-- `vfadd` (R99). -/
def execVfadd (o : VOp) (s : State) : Out := s.vecFp o (fun z m a b => fpAdd z o.ty m (readF z o.ty a) (readF z o.ty b))

/-- `vfsub` (R99). -/
def execVfsub (o : VOp) (s : State) : Out := s.vecFp o (fun z m a b => fpAdd z o.ty m (readF z o.ty a) (readF z o.ty b).negate)

/-- `vfmul` (R99). -/
def execVfmul (o : VOp) (s : State) : Out := s.vecFp o (fun z m a b => fpMul z o.ty m (readF z o.ty a) (readF z o.ty b))

/-- `vfdiv` (R99). -/
def execVfdiv (o : VOp) (s : State) : Out := s.vecFp o (fun z m a b => fpDiv z o.ty m (readF z o.ty a) (readF z o.ty b))

/-- `vfmin` (R99). -/
def execVfmin (o : VOp) (s : State) : Out := s.vecFp o (fun z _ a b => fpMinMax false z o.ty a b)

/-- `vfmax` (R99). -/
def execVfmax (o : VOp) (s : State) : Out := s.vecFp o (fun z _ a b => fpMinMax true z o.ty a b)

/-- A fused instruction: a × b + c with one rounding (R99). -/
def State.vecFused (s : State) (o : VOp) (negA negC : Bool) : Out :=
  s.member (fun t ent => t.elementwise ent o (sameLane [o.vs1, o.vs2, o.vs3]) false (fun h _ vals =>
    let sgn (n : Bool) (v : FVal) : FVal := if n then v.negate else v
    { elems := (List.range o.ty.elems).map (fun i =>
        fpFma h.ftz o.ty (modeFor o ent) (sgn negA (readF h.ftz o.ty (elemOf o.ty (lget 0 vals 0) i)))
          (readF h.ftz o.ty (elemOf o.ty (lget 0 vals 1) i)) (sgn negC (readF h.ftz o.ty (elemOf o.ty (lget 0 vals 2) i)))),
      sat := false }))

/-- `vfma`: a × b + c (R99). -/
def execVfma (o : VOp) (s : State) : Out := s.vecFused o false false

/-- `vfms`: a × b + (−c) (R99). -/
def execVfms (o : VOp) (s : State) : Out := s.vecFused o false true

/-- `vfnma`: (−a) × b + c (R99). -/
def execVfnma (o : VOp) (s : State) : Out := s.vecFused o true false

/-- `vfsqrt` (R99). -/
def execVfsqrt (o : VOp) (s : State) : Out :=
  s.member (fun t ent => t.elementwise ent o (sameLane [o.vs1]) false (fun h _ vals =>
    { elems := (elemsOf o.ty (lget 0 vals 0)).map (fun a => fpSqrt h.ftz o.ty (modeFor o ent) (readF h.ftz o.ty a)), sat := false }))

/-- The element of `vfsgn`: the magnitude of `a` under a sign chosen by the mode (R100). -/
def signElem (t : Ty) (mode a b : Nat) : Nat :=
  let top := 2 ^ (t.width - 1)
  let sa := a / top % 2
  let sb := b / top % 2
  let sign := match mode with
    | 0 => sb
    | 1 => 1 - sb
    | _ => (sa + sb) % 2
  a % top + sign * top

/-- `vfsgn`: bits move and nothing is raised (R100). -/
def execVfsgn (o : VOp) (s : State) : Out :=
  s.member (fun t ent => t.elementwise ent o (sameLane [o.vs1, o.vs2]) false (fun _ _ vals =>
    { elems := (pairs o.ty (lget 0 vals 0) (lget 0 vals 1)).map (fun p => (signElem o.ty (o.lowBits 1 0) p.1 p.2, 0)), sat := false }))

/-! ### Compares (R101, R102) -/

/-- Set or clear one bit of a mask. -/
def setMaskBit (m : BitVec 128) (e : Nat) (b : Bool) : BitVec 128 :=
  if b then m ||| BitVec.ofNat 128 (2 ^ e) else m &&& ~~~(BitVec.ofNat 128 (2 ^ e))

/-- A compare: each active container gives one bit of `md`; a poisoned operand is a consumption point (R101, R102). -/
def State.vecCompare (s : State) (o : VOp) (f : Hart → Nat → Nat → Bool × Flags) : Out :=
  s.member (fun t0 ent =>
    if t0.holdsSpec o then t0
    else t0.sweep ent (fun t e =>
      if t.me.active o e then
        match t.sources (sameLane (bSources o) e) with
        | .error u => .stop (u.waitAt e)
        | .ok (u, ps) =>
          if (isScalar o && ent.x.poison) || ps.any (·.poison) then .stop (t.trapAt e cPoison 0 5)
          else
            let vals := ps.map (·.val)
            let rs := (pairs o.ty (lget 0 vals 0) (secondOf o ent (imm8Of o) vals)).map (fun p => f u.me p.1 p.2)
            let (fl, en) := laneFlags u.me.ten (rs.map (fun r => (0, r.2)))
            if en != 0 then .stop ((t.modMe (fun h => h.raiseFlags fl)).trapAt e cFp 0 (en.zeroExtend 64))
            else
              let bit := if o.lowBits 11 11 = 1 then rs.any (·.1) else rs.all (·.1)
              .go (u.modMe (fun h => (h.raiseFlags fl).setM o.vd.toNat (setMaskBit (h.getM o.vd.toNat) e bit)))
      else .go t))

/-- The condition of `vcmp` on two elements (R101). -/
def intCondition (c : Nat) (a b : Int) : Bool :=
  match c with
  | 0 => a == b
  | 1 => a != b
  | 2 => a < b
  | 3 => a ≤ b
  | 4 => b < a
  | _ => b ≤ a

/-- `vcmp` (R101). -/
def execVcmp (o : VOp) (s : State) : Out :=
  s.vecCompare o (fun _ a b =>
    (intCondition (o.lowBits 10 8) (intOf o.ty.signed o.ty.width a) (intOf o.ty.signed o.ty.width b), 0))

/-- The condition of `vfcmp` on two elements, with NV (R101). -/
def fpCondition (c : Nat) (a b : FVal) : Bool × Flags :=
  match c with
  | 0 => fpCompare 0 a b
  | 1 => let r := fpCompare 0 a b; (!r.1, r.2)
  | 2 => fpCompare 1 a b
  | 3 => fpCompare 2 a b
  | 4 => fpCompare 1 b a
  | 5 => fpCompare 2 b a
  | _ => fpCompare 3 a b

/-- `vfcmp` (R101). -/
def execVfcmp (o : VOp) (s : State) : Out :=
  s.vecCompare o (fun h a b => fpCondition (o.lowBits 10 8) (readF h.ftz o.ty a) (readF h.ftz o.ty b))

/-! ### Conversions (R103 to R106) -/

/-- One round of the generator G (R114). -/
def rngRound (h z : Word) : Word :=
  let a := (z ^^^ h) * 0xB5C26A3D94F10E27
  let b := (a ^^^ (a >>> 31)) * 0x8F3AD6194C7B2E53
  b ^^^ (b >>> 29)

/-- The counter-based generator G (R114). -/
def rng (ctx : Nat) (key q : Word) : Word :=
  let h := key ^^^ (BitVec.ofNat 64 ctx <<< 48) ^^^ 0x5C3E91D72A08B6F1
  let d : Word := 0x9D7F4A61E3C50B8B
  rngRound (h + d + d + d) (rngRound (h + d + d) (rngRound (h + d) (rngRound h q)))

/-- How a vector conversion rounds (R32, R105). -/
def cvtMode (o : VOp) (st : Ty) (ent : Entry) (key : Word) (ctx q : Nat) : CvtMode :=
  let draw := CvtMode.draw ((rng ctx key (BitVec.ofNat 64 q)).toNat % 2 ^ 32)
  match o.rm with
  | .stoch => draw
  | .dyn => if ent.crm == 4 && cvtNarrows o.ty st then draw else .mode (modeOf ent.crm)
  | r => .mode r

/-- A value times a power of two. -/
def FVal.scale (v : FVal) (k : Int) : FVal :=
  match v with
  | .fin n m e => .fin n m (e + k)
  | x => x

/-- `Convert(s, q)` (R105, R106): the bits, the flags and whether `.sat` clipped an integer. `scale` is the E8M0 scale of the
element's block, none where no type is E2M1. -/
def convertElem (ftz : Bool) (dt st : Ty) (mode : CvtMode) (sat : Bool) (scale : Option Nat) (bits : Nat) : Cvt :=
  match scale with
  | none => convert ftz dt st mode sat bits
  | some 0xFF => { bits := if dt == .e2m1 then 0 else canonNaN dt, flags := fNV, sat := false }
  | some e =>
    let k : Int := (e : Int) - 127
    let v := (readF ftz st bits).scale (if st == .e2m1 then k else -k)
    let r := cvtToFp ftz dt mode sat v
    { bits := r.1, flags := r.2, sat := false }

/-- The registers a conversion reads for a container (R104, R106): the source, the old destination when it packs more
elements, and the scale container. -/
def cvtSources (o : VOp) (st : Ty) (e : Nat) : List (VReg × Nat) :=
  (o.vs1, e) :: ((if st.elems < o.ty.elems then [(o.vd, e)] else []) ++
    (if o.ty == .e2m1 || st == .e2m1 then [(o.vs2, e / 16)] else []))

/-- One container of a conversion (R104): elements of the destination with the flags of the converted ones. -/
def cvtLane (o : VOp) (st : Ty) (ent : Entry) (key : Word) (h : Hart) (e : Nat) (vals : List Word) : LaneResult :=
  let dt := o.ty
  let src := lget 0 vals 0
  let k := o.part
  let mx := dt == .e2m1 || st == .e2m1
  let scale := if mx then some ((lget 0 vals (if st.elems < dt.elems then 2 else 1)).toNat / 256 ^ (e / 2 % 8) % 256) else none
  let conv (i q : Nat) : Cvt := convertElem h.ftz dt st (cvtMode o st ent key h.ctx q) (satOf o) scale (elemOf st src i)
  if st.elems ≤ dt.elems then
    let cs := (List.range st.elems).map (fun i => conv i (e * dt.elems + k * st.elems + i))
    let old := if st.elems < dt.elems then elemsOf dt (lget 0 vals 1) else []
    { elems := (old.take (k * st.elems)).map (fun b => (b, 0)) ++ cs.map (fun c => (c.bits, c.flags)) ++
        (old.drop ((k + 1) * st.elems)).map (fun b => (b, 0)),
      sat := cs.any (·.sat) }
  else
    let cs := (List.range dt.elems).map (fun i => conv (k * dt.elems + i) (e * dt.elems + i))
    { elems := cs.map (fun c => (c.bits, c.flags)), sat := cs.any (·.sat) }

/-- A conversion under a key. -/
def State.vecConvert (s : State) (o : VOp) (keyed : Bool) : Out :=
  let st := o.srcTy.getD .s8
  s.member (fun t ent => t.elementwise ent o (cvtSources o st) (keyed && ent.x.poison)
    (cvtLane o st ent (if keyed then ent.x.val else 0)))

/-- `vcvt` (R103 to R106). -/
def execVcvt (o : VOp) (s : State) : Out := s.vecConvert o false

/-- `vcvts`: stochastic rounding under the captured key (R105). -/
def execVcvts (o : VOp) (s : State) : Out := s.vecConvert o true

/-- The scale candidate of a container (R107). -/
def scaleOf (ftz : Bool) (t : Ty) (c : Word) : Nat :=
  let vs := (elemsOf t c).map (readF ftz t)
  if vs.any (fun v => match v with
    | .fin _ _ _ => false
    | _ => true) then 0xFF
  else
    vs.foldl (fun best v => match v with
      | .fin _ m e => if m = 0 then best else max best (min 254 (max 0 (leadExp { m := m, e := e, sticky := false } - 2 + 127)).toNat)
      | _ => best) 0

/-- `vscalemx` (R107): byte e div 2 of `vd` becomes the larger of itself and the candidate of container e. -/
def execVscalemx (o : VOp) (s : State) : Out :=
  s.member (fun t0 ent =>
    if t0.holdsSpec o then t0
    else t0.sweep ent (fun t e =>
      if t.me.active o e then
        match t.source o.vs1 e with
        | .wait u => .stop (u.waitAt e)
        | .value u p =>
          let j := e / 16
          let old := u.me.getV o.vd.toNat j
          let b := e / 2 % 8
          let new := max (elemOf .n8 old.val b) (scaleOf u.me.ftz o.ty p.val)
          .go (u.modMe (fun h => h.setV o.vd.toNat j
            (if p.poison || old.poison then PVal.poisoned else PVal.clean (putElem .n8 old.val b new))))
      else .go t))

/-! ### Masks (R108, R109) -/

/-- A mask-to-mask instruction: bits 0 to vl − 1 (R108). -/
def State.vecMask (s : State) (o : VOp) (f : BitVec 128 → BitVec 128 → BitVec 128) : Out :=
  s.member (fun t _ =>
    let low : BitVec 128 := BitVec.ofNat 128 (2 ^ t.me.vl - 1)
    (t.modMe (fun h => h.setM o.vd.toNat
      ((f (h.getM o.vs1.toNat) (h.getM o.vs2.toNat) &&& low) ||| (h.getM o.vd.toNat &&& ~~~low)))).complete)

/-- `mand` (R108). -/
def execMand (o : VOp) (s : State) : Out := s.vecMask o (fun a b => a &&& b)

/-- `mor` (R108). -/
def execMor (o : VOp) (s : State) : Out := s.vecMask o (fun a b => a ||| b)

/-- `mxor` (R108). -/
def execMxor (o : VOp) (s : State) : Out := s.vecMask o (fun a b => a ^^^ b)

/-- `mandn` (R108). -/
def execMandn (o : VOp) (s : State) : Out := s.vecMask o (fun a b => a &&& ~~~b)

/-- The positions below `vl` whose mask bit is set, ascending. -/
def Hart.setBits (h : Hart) (m : Nat) : List Nat := (List.range h.vl).filter (h.getM m).getLsbD

/-- `mpop`: the number of set bits below `vl` (R109). -/
def execMpop (o : VOp) (s : State) : Out :=
  s.member (fun t _ => t.completeX o.vd (PVal.clean (BitVec.ofNat 64 (t.me.setBits o.vs1.toNat).length)))

/-- `mffs`: the lowest set bit below `vl`, or −1 (R109). -/
def execMffs (o : VOp) (s : State) : Out :=
  s.member (fun t _ => t.completeX o.vd (PVal.clean (match (t.me.setBits o.vs1.toNat).head? with
    | some e => BitVec.ofNat 64 e
    | none => BitVec.allOnes 64)))

/-- `mmvx`: one half of a mask (R109). -/
def execMmvx (o : VOp) (s : State) : Out :=
  s.member (fun t _ => t.completeX o.vd (PVal.clean ((t.me.getM o.vs1.toNat).extractLsb' (64 * o.lowBits 0 0) 64)))

/-- `mfromx`: one half of a mask from the captured scalar; poison is consumed (R102, R109). -/
def execMfromx (o : VOp) (s : State) : Out :=
  s.member (fun t ent =>
    if ent.x.poison then t.trapAt 0 cPoison 0 5
    else (t.modMe (fun h =>
      let m := h.getM o.vd.toNat
      h.setM o.vd.toNat (if o.lowBits 0 0 = 1 then ent.x.val ++ m.extractLsb' 0 64 else m.extractLsb' 64 64 ++ ent.x.val))).complete)

/-! ### Length, select, broadcast and moves (R96, R110 to R112, R114) -/

/-- `setvl` (R96). -/
def execSetvl (o : VOp) (s : State) : Out :=
  s.member (fun t ent =>
    if ent.x.poison then t.trapAt 0 cPoison 0 5
    else
      let n := min ent.x.val.toNat 128
      (t.modMe (fun h => { h with vl := n })).completeX o.vd (PVal.clean (BitVec.ofNat 64 n)))

/-- The container of a `vsel` source 49 where the container is inactive: nothing is popped for it (R93), and the spec states no value
for it, so that its word and its poison are free values, the same in every run (R2). -/
def openContainer (e : Nat) : PVal :=
  if (Config.unpopped (128 + e)).getLsbD 0 then PVal.poisoned else PVal.clean (Config.unpopped e)

/-- `vsel`: the container of vs1 where active, of vs2 elsewhere below `vl`, with its poison (R110). A source 49 pops a word for each
active container and for no other (R93). (DESIGN CHOICE: log entry 26) -/
def execVsel (o : VOp) (s : State) : Out :=
  s.member (fun t0 ent =>
    if t0.holdsSpec o then t0
    else t0.sweep ent (fun t e =>
      let give := fun (u : State) (p : PVal) => Lane.go (u.modMe (fun h => h.setV o.vd.toNat e p))
      if t.me.active o e then
        match t.sources (if o.vs2 == 49 then [(o.vs1, e), (o.vs2, e)] else [(o.vs1, e)]) with
        | .error u => .stop (u.waitAt e)
        | .ok (u, ps) => give u (lget (PVal.clean 0) ps 0)
      else if o.vs2 == 49 then give t (openContainer e)
      else match t.source o.vs2 e with
        | .wait u => .stop (u.waitAt e)
        | .value u p => give u p))

/-- `vbcast`: the captured scalar in every element of every active container (R111). -/
def execVbcast (o : VOp) (s : State) : Out :=
  s.member (fun t ent => t.elementwise ent o (fun _ => []) ent.x.poison (fun _ _ _ =>
    { elems := List.replicate o.ty.elems (ent.x.val.toNat % 2 ^ o.ty.width, 0), sat := false }))

/-- The value of an element in an x register: sign-extended for s types, else zero-extended (R112). -/
def elemWord (t : Ty) (bits : Nat) : Word := if t.signed then BitVec.ofInt 64 (intOf true t.width bits) else BitVec.ofNat 64 bits

/-- `vmvxs`: flat element j into an x register, with the poison of its container (R112). -/
def execVmvxs (o : VOp) (s : State) : Out :=
  s.member (fun t _ =>
    let j := o.lowBits 10 0
    let c := t.me.getV o.vs1.toNat (j / o.ty.elems)
    t.completeX o.vd (if c.poison then PVal.poisoned else PVal.clean (elemWord o.ty (elemOf o.ty c.val (j % o.ty.elems)))))

/-- `vmvsx`: the captured scalar into flat element j (R112). -/
def execVmvsx (o : VOp) (s : State) : Out :=
  s.member (fun t ent =>
    let j := o.lowBits 10 0
    let e := j / o.ty.elems
    let c := t.me.getV o.vd.toNat e
    let bad := ent.x.poison || (1 < o.ty.elems && c.poison)
    (t.modMe (fun h => h.setV o.vd.toNat e
      (if bad then PVal.poisoned
       else PVal.clean (putElem o.ty c.val (j % o.ty.elems) (ent.x.val.toNat % 2 ^ o.ty.width))))).complete)

/-- `vrng`: G(CTXID, K, e) in every active container (R114). -/
def execVrng (o : VOp) (s : State) : Out :=
  s.member (fun t0 ent => t0.sweep ent (fun t e =>
    if t.me.active o e then .go (t.modMe (fun h => h.setV o.vd.toNat e
      (if ent.x.poison then PVal.poisoned else PVal.clean (rng h.ctx ent.x.val (BitVec.ofNat 64 e)))))
    else .go (t.inactive o e)))

end Sys2Proof.Machine
end

