-- ==== Sys2Proof/Machine/VecMem.lean ====
section
/-! DEFINITION. The vector memory forms (R115 to R119, R134) and the lane tables (R121 to R123). -/

namespace Sys2Proof.Machine

/-! ### Addresses (R116) -/

/-- One element of a memory form: its address, its bytes, and the nibble of an E2M1 element. -/
structure Elem where
  addr : Nat
  bytes : Nat
  nib : Option Nat
  deriving DecidableEq, Repr

/-- How a memory form makes addresses. -/
inductive Form where
  | unit
  | strided
  | indexed (idx : VReg)
  deriving DecidableEq, Repr

/-- The stride of `vlds` and `vsts` (R115). -/
def strideField (o : VOp) : Int := intOf true 15 o.low.toNat

/-- An address modulo 2^64. -/
def wrapAddr (base : Word) (off : Int) : Nat := wrapInt 64 (base.toNat + off)

/-- The index of flat element `q` of an index register read as its index type. -/
def indexAt (h : Hart) (it : Ty) (idx : VReg) (q : Nat) : Int :=
  intOf it.signed it.width (elemOf it (h.getV idx.toNat (q / it.elems)).val (q % it.elems))

/-- Element `i` of container `e` of a memory form (R116). -/
def memElem (h : Hart) (o : VOp) (form : Form) (base : Word) (e i : Nat) : Elem :=
  let q := e * o.ty.elems + i
  let size := o.ty.bytes
  let nibble := o.ty == .e2m1
  match form with
  | .unit =>
    if nibble then { addr := wrapAddr base (q / 2 : Nat), bytes := 1, nib := some (q % 2) }
    else { addr := wrapAddr base (q * size : Nat), bytes := size, nib := none }
  | .strided =>
    let off := (q : Int) * strideField o
    if nibble then { addr := wrapAddr base (off / 2), bytes := 1, nib := some 0 }
    else { addr := wrapAddr base (off * size), bytes := size, nib := none }
  | .indexed idx =>
    let it := o.indexTy.getD .s64
    let bo := o.lowBits 5 5 = 1
    if o.lowBits 4 4 = 1 then
      let c0 := wrapAddr base (indexAt h it idx e * (if bo then 1 else 8))
      if nibble then { addr := (c0 + i / 2) % 2 ^ 64, bytes := 1, nib := some (i % 2) }
      else { addr := (c0 + i * size) % 2 ^ 64, bytes := size, nib := none }
    else { addr := wrapAddr base (indexAt h it idx q * (if bo then 1 else size)), bytes := size, nib := none }

/-- The elements of a container. (DESIGN CHOICE: log entry 106) -/
def memElems (h : Hart) (o : VOp) (form : Form) (base : Word) (e : Nat) : List Elem :=
  (List.range o.ty.elems).map (memElem h o form base e)

/-- Whether an index that a container uses is poisoned (R119 class 1). -/
def indexPoison (h : Hart) (o : VOp) (form : Form) (e : Nat) : Bool :=
  match form with
  | .indexed idx =>
    if o.lowBits 4 4 = 1 then (h.getV idx.toNat e).poison
    else
      let it := o.indexTy.getD .s64
      (List.range o.ty.elems).any (fun i => (h.getV idx.toNat ((e * o.ty.elems + i) / it.elems)).poison)
  | _ => false

/-! ### Planning (R118, R286) -/

/-- An element with the places of its bytes. -/
structure ElemAt where
  elem : Elem
  bytes : List ByteAt

/-- An active container of a memory form: its elements, and whether its index or its data is poisoned. -/
structure ContAt where
  cont : Nat
  elems : List ElemAt
  badIndex : Bool
  badData : Bool

/-- What a memory form has translated: the state, the pages it holds, and its containers. -/
structure Plan where
  st : State
  pins : List Pin
  conts : List ContAt

/-- Translate the elements of a container. -/
def State.planElems (s : State) (ag : Agent) (pins : List Pin) (kind : Nat) : List Elem → State × List Pin × List ElemAt
  | [] => (s, pins, [])
  | x :: r =>
    let y := s.spread ag pins true kind (byteAddrs x.addr x.bytes)
    let z := y.st.planElems ag y.pins kind r
    (z.1, z.2.1, { elem := x, bytes := y.bytes } :: z.2.2)

/-- Translate some containers of a memory form, every page before the first element performs: a page that the entry holds is not
translated again. A container with a poisoned index has no address. (DEDUCED: log entry 43) -/
def State.plan (s : State) (ag : Agent) (pins : List Pin) (kind : Nat) (els : Nat → List Elem) (badIndex badData : Nat → Bool) :
    List Nat → Plan
  | [] => { st := s, pins := pins, conts := [] }
  | e :: r =>
    let y := s.planElems ag pins kind (if badIndex e then [] else els e)
    let z := y.1.plan ag y.2.1 kind els badIndex badData r
    { z with conts := { cont := e, elems := y.2.2, badIndex := badIndex e, badData := badData e } :: z.conts }

/-- The places of an element. -/
def ElemAt.places (x : ElemAt) : List Place := okPlaces x.bytes

/-- The places of a container. -/
def ContAt.places (c : ContAt) : List Place := c.elems.flatMap ElemAt.places

/-! ### Faults of a container (R119) -/

/-- A fault of a container: cause, `TADDR`, `TVAL`, whether it is of class 3, and what `FABLOG` records of it when it is reported
(cause, target, local address). -/
structure ContFault where
  cause : Nat
  addr : Nat
  val : Nat
  page : Bool
  log : Option (Nat × Nat × Nat)
  deriving DecidableEq, Repr

/-- A byte that faults in class 3: its address, the cause, and what `FABLOG` records. -/
structure ByteFault where
  addr : Nat
  cause : Nat
  log : Option (Nat × Nat × Nat)
  deriving DecidableEq, Repr

/-- Why a target does not let an access use a byte: cause 6, or the cause of a refused acceptance; 0 where it does (R336, R338). -/
def State.refusal (s : State) (pkg : Nat) (t : Option Txn) (target la : Nat) : Nat :=
  if s.isSelf pkg target then 6
  else match t with
    | some x =>
      let c := x.causeOf { pos := 0, target := target, la := la, size := 1, data := 0, cmp := 0 }
      if c ≤ 3 then c else 0
    | none => 0

/-- The fault of a byte. -/
def State.byteFault (s : State) (pkg : Nat) (t : Option Txn) (b : ByteAt) : Option ByteFault :=
  match b.2 with
  | .error c => some { addr := b.1, cause := c, log := none }
  | .ok (.remote g la) =>
    let c := s.refusal pkg t g la
    if c = 0 then none else some { addr := b.1, cause := cProtect, log := some (c, g, la) }
  | .ok _ => none

/-- The lowest of some addresses. -/
def lowest : List Nat → Option Nat
  | [] => none
  | a :: r => match lowest r with
    | none => some a
    | some b => some (min a b)

/-- The fault at the lowest byte. -/
def lowestFault (fs : List ByteFault) : Option ByteFault := (lowest (fs.map (·.addr))).bind (fun a => fs.find? (fun f => f.addr = a))

/-- The fault of a container, in the priority of R119; `t` holds the acceptances that the entry has got. Of the causes of class 1 that
one container meets, a poisoned index comes first, then a poisoned aperture entry, then poisoned data that would leave. (DESIGN CHOICE: log entry 119) -/
def State.contFault (s : State) (pkg : Nat) (t : Option Txn) (kind : Nat) (c : ContAt) : Option ContFault :=
  let fs := (c.elems.flatMap (·.bytes)).filterMap (s.byteFault pkg t)
  if c.badIndex then some { cause := cPoison, addr := 0, val := 3, page := false, log := none }
  else match lowestFault (fs.filter (fun f => f.cause = cPoison)) with
    | some f => some { cause := cPoison, addr := f.addr, val := 3, page := false, log := none }
    | none =>
      if c.badData && egress c.places then
        some { cause := cPoison, addr := (lowest (c.elems.map (·.elem.addr))).getD 0, val := 8, page := false, log := none }
      else match lowest ((c.elems.filter (fun x => x.elem.addr % x.elem.bytes != 0)).map (·.elem.addr)) with
        | some a => some { cause := cMisalign, addr := a, val := kind, page := false, log := none }
        | none => (lowestFault fs).map (fun f => { cause := f.cause, addr := f.addr, val := kind, page := true, log := f.log })

/-- The lowest container that faults, with its fault. -/
def State.firstFault (s : State) (pkg : Nat) (t : Option Txn) (kind : Nat) (cs : List ContAt) : Option (Nat × ContFault) :=
  cs.findSome? (fun c => (s.contFault pkg t kind c).map (fun f => (c.cont, f)))

/-- The containers whose acceptances an entry needs: those below the first that faults, and that one where only its bytes fault. -/
def State.needed (s : State) (pkg kind : Nat) (cs : List ContAt) : List ContAt :=
  match s.firstFault pkg none kind cs with
  | some (k, f) => cs.filter (fun c => c.cont < k || c.cont = k && f.page)
  | none => cs

/-! ### Performing containers -/

/-- The value of a nibble in a byte. -/
def nibbleOf (n v : Nat) : Nat := v / 16 ^ n % 16
/-- A byte with one nibble replaced. -/
def putNibble (n old v : Nat) : Nat := if n = 0 then old / 16 * 16 + v % 16 else v % 16 * 16 + old % 16

/-- The data that a store of an element sends to another package: an E2M1 element sends its byte with the mask of the bits that the
target keeps, so that it is single-copy atomic for its byte (R120). (DESIGN CHOICE: log entry 120) -/
def elemData (x : Elem) (v : Nat) : Word :=
  match x.nib with
  | some n => BitVec.ofNat 64 (putNibble n 0 v + 256 * putNibble n 255 0)
  | none => BitVec.ofNat 64 v

/-- The elements of some containers that lie in another package, each by its place in the list (R339). -/
def remoteElems (load : Bool) (xs : List (ElemAt × Nat)) : List RemElem :=
  xs.zipIdx.filterMap (fun e => match e.1.1.places with
    | .remote t la :: _ => some { pos := e.2, target := t, la := la, size := e.1.1.elem.bytes,
                                  data := if load then 0 else elemData e.1.1.elem e.1.2, cmp := 0 }
    | _ => none)

/-- An element that is loaded: from its response, else from local memory. -/
def State.loadElem (s : State) (es : List RemElem) (resp : List (Word × Bool × Nat)) (i : Nat) (x : ElemAt) : Nat × Bool :=
  let pick := fun (v : Nat) => match x.elem.nib with
    | some n => nibbleOf n v
    | none => v
  match (es.zip resp).find? (fun e => e.1.pos = i) with
  | some (_, r) => (pick (r.1.toNat % 256 ^ x.elem.bytes), r.2.1)
  | none => (pick (s.readPlaces (some s.cur) x.places), s.anyPoison (some s.cur) x.places)

/-- Load some containers whose remote elements are answered; their local elements perform now (R118, R120). -/
def State.loadConts (s : State) (o : VOp) (es : List RemElem) (resp : List (Word × Bool × Nat)) (cs : List ContAt) : State :=
  let ps := cs.flatMap ContAt.places
  let s1 := ((s.demandAll ps).exposeReads (some s.cur) ps).tokensAll (coreOf s.cur) (locsOf ps) false
  cs.zipIdx.foldl (fun (t : State) c =>
    let vs := c.1.elems.zipIdx.map (fun x => s1.loadElem es resp (c.2 * o.ty.elems + x.2) x.1)
    t.modMe (fun h => h.setV o.vd.toNat c.1.cont
      (if vs.any (·.2) then PVal.poisoned else PVal.clean (packElems o.ty (vs.map (·.1)))))) s1

/-- Store one element to local places (R118). -/
def State.storeElem (s : State) (x : ElemAt) (v : Nat) (poison : Bool) : State :=
  let k := s.cur
  let ps := x.places
  if anyRemote ps then s
  else match x.elem.nib with
    | some n =>
      let s1 := (s.demandAll ps).exposeReads (some k) ps
      s1.writePlaces k ps (natToBytes 1 (putNibble n (s1.readPlaces (some k) ps) v)) poison
    | none => s.writePlaces k ps (natToBytes x.elem.bytes v) poison

/-- Store the local elements of some containers in ascending order (R120). Sectors that elements of whole words overwrite whole are not read
(R272). -/
def State.storeConts (s : State) (o : VOp) (cs : List (ContAt × PVal)) : State :=
  let ps := cs.flatMap (·.1.places)
  let words := (cs.flatMap (fun c => c.1.elems.filter (fun x => x.elem.bytes = 8))).flatMap ElemAt.places
  let s1 := if s.makesVersion s.cur ps then s else s.overwrite (locsOf words)
  cs.foldl (fun (t : State) c =>
    (c.1.elems.zip (elemsOf o.ty c.2.val)).foldl (fun u x => u.storeElem x.1 x.2 c.2.poison) t) s1

/-- The data of some containers of a store, or the state in which the entry waits for it. -/
def State.storeData (s : State) (r : VReg) (cs : List ContAt) : Except State (State × List PVal) := s.sources (cs.map (fun c => (r, c.cont)))

/-! ### The memory forms (R118) -/

/-- A memory form as it executes. -/
structure MemForm where
  o : VOp
  form : Form
  load : Bool

/-- The access kind. -/
def MemForm.kind (f : MemForm) : Nat := if f.load then kLoad else kStore

/-- Whether a form moves one container at a time: a store that pops the receive queue, and a load that overwrites its own index
register, whose later containers take their indexes from what it has written. (DEDUCED: log entry 121) -/
def MemForm.single (f : MemForm) : Bool :=
  if f.load then f.form == .indexed f.o.vd else f.o.vs1 == 49

/-- Whether the data of a container of a store is poisoned; a popped word never is. -/
def State.badData (s : State) (f : MemForm) (e : Nat) : Bool :=
  !f.load && (if f.o.vs1.toNat < 48 then (s.me.getV f.o.vs1.toNat e).poison
    else f.o.vs1 == 48 && (s.core (coreOf s.cur)).landing.any (fun x => (x.at e).poison))

/-- The plan of an entry from its start index on. -/
def State.memPlan (s : State) (f : MemForm) (ent : Entry) : Plan :=
  s.plan (s.agentOf s.cur) ent.pins f.kind (memElems s.me f.o f.form ent.x.val) (indexPoison s.me f.o f.form) (s.badData f)
    ((containers ent.start s.me.vl).filter (s.me.active f.o))

/-- Whether a fault trims a load (R118): it is of class 3 and an active container lies below. -/
def State.trims (s : State) (f : MemForm) (e : Nat) (c : ContFault) : Bool := f.load && c.page && (List.range e).any (s.me.active f.o)

/-- An entry traps for a fault at a container (R119), which `FABLOG` records where it failed remotely (R341). -/
def State.faultAt (s : State) (e : Nat) (c : ContFault) : State :=
  let s1 := match c.log with
    | some (n, t, la) => if s.me.spec || s.midAccess s.cur then s else s.fabLog (pkgOf s.cur) n t la
    | none => s
  s1.trapAt e c.cause (BitVec.ofNat 64 c.addr) (BitVec.ofNat 64 c.val)

/-- What moving the containers of one element group has come to. -/
inductive Moved where
  | wait (s : State)
  | done (s : State)

/-- Whether elements of a vector entry of a hart are under way at another package. -/
def State.underWay (s : State) (k : Nat) : Bool := (s.txnOf (.vector k)).any (fun t => !t.elems.isEmpty)

/-- Move containers that do not fault: their remote elements as requests, their local ones in this step. A store performs its local
elements as it sends the others, a load as it takes the responses. (DESIGN CHOICE: log entry 106) -/
def State.moveConts (s : State) (f : MemForm) (cs : List ContAt) : Moved :=
  let k := s.cur
  let w := Who.vector k
  let ps := cs.flatMap ContAt.places
  let under := s.underWay k
  let ask := fun (u : State) (es : List RemElem) (fin : State → List (Word × Bool × Nat) → State) =>
    if es.isEmpty then Moved.done (fin u [])
    else match u.request w false es with
      | .wait v | .refused v _ _ => .wait v
      | .done v r => .done (fin v r)
  if under && !f.load then ask s (((s.txnOf w).map (·.elems)).getD []) (fun u _ => u)
  else if s.anyBusy k f.kind ps then .wait (s.unservedAt (2 * k + 1) f.kind (locsOf ps))
  else if !f.load && s.me.spec && !s.hasRoom k then .wait (s.foundNoRoom k)
  else if f.load then
    let es := remoteElems true ((cs.flatMap (·.elems)).map (fun x => (x, 0)))
    ask s es (fun u r => u.loadConts f.o es r cs)
  else match s.storeData f.o.vs1 cs with
    | .error u => .wait u
    | .ok (u, ds) =>
      let xs := (cs.zip ds).flatMap (fun c => c.1.elems.zip (elemsOf f.o.ty c.2.val))
      ask (u.storeConts f.o (cs.zip ds)) (remoteElems false xs) (fun v _ => v)

/-- Where the containers that a form moves next end, below a limit: at the next boundary between element groups (R159), or after one
active container. (DEDUCED: log entry 121) -/
def MemForm.unitEnd (f : MemForm) (h : Hart) (start lim : Nat) : Nat :=
  let group := min lim (start / 16 * 16 + 16)
  if f.single then (((containers start group).find? (h.active f.o)).map (· + 1)).getD group else group

/-- The inactive containers of a load from one index to another (R118). -/
def State.inactives (s : State) (f : MemForm) (a b : Nat) : State :=
  if f.load then (containers a b).foldl (fun (t : State) e => if t.me.active f.o e then t else t.inactive f.o e) s else s

/-- A memory form works from its start index: its pages are translated and held, the acceptances that it needs are taken before its
first element performs (R338), a load is trimmed by a fault of class 3 before it performs (R118: the trim is no report, so that `FABLOG`
keeps its value), and it goes on group by group up to its end or the container that faults. It begins no group while the
front end waits for the groups under way (R159). -/
def State.move (s : State) (f : MemForm) : Nat → State
  | 0 => s
  | fuel + 1 => match s.entry? with
    | none => s
    | some ent =>
      let k := s.cur
      let w := Who.vector k
      let plan := s.memPlan f ent
      let s1 := plan.st.modEntry (fun x => { x with pins := plan.pins })
      let need := s1.needed (pkgOf k) f.kind plan.conts
      let ps := need.flatMap ContAt.places
      let far := ps.filterMap (fun p => match p with
        | .remote t la => if s1.isSelf (pkgOf k) t then none else some { pos := 0, target := t, la := la, size := 1, data := 0, cmp := 0 }
        | _ => none)
      if s1.me.spec && needsOldest ps || s1.me.stopping && !s1.underWay k && ent.start % 16 = 0 then s1
      else match s1.acquire w s1.me.ctx f.kind 0 plan.pins far with
        | some u => u
        | none =>
          let fault := s1.firstFault (pkgOf k) (s1.txnOf w) f.kind need <|> s1.firstFault (pkgOf k) none f.kind plan.conts
          match fault.filter (fun x => s1.trims f x.1 x.2) with
          | some (e, _) => (s1.modMe (fun h => { h with vl := e })).move f fuel
          | none =>
            let lim := (fault.map (·.1)).getD s1.me.vl
            let b := f.unitEnd s1.me ent.start lim
            match s1.moveConts f (plan.conts.filter (fun c => c.cont < b)) with
            | .wait u => u
            | .done u =>
              let u1 := (u.inactives f ent.start b).waitAt b
              if b < lim then (if u1.byGroup && b % 16 = 0 then u1 else u1.move f fuel)
              else match fault with
                | some (e, c) => u1.faultAt e c
                | none => (u1.release w).complete

/-- Whether `vlds` or `vsts` of E2M1 has an odd stride (R117). -/
def oddStride (o : VOp) (form : Form) : Bool := form == .strided && o.ty == .e2m1 && strideField o % 2 != 0

/-- A memory form (R117, R118). -/
def State.memory (s : State) (f : MemForm) : Out :=
  s.member (fun t ent =>
    if oddStride f.o f.form then t.trapAt 0 cSubbyte 0 (BitVec.ofInt 64 (strideField f.o))
    else if !f.load && t.holdsSpec f.o then t
    else if t.me.vl = 0 then t.complete
    else if ent.x.poison then t.trapAt ent.start cPoison 0 3
    else t.move f 130)

/-- A load of the vector unit. (DEDUCED: log entry 29) -/
def State.vecLoad (s : State) (o : VOp) (form : Form) : Out := s.memory { o := o, form := form, load := true }

/-- A store of the vector unit; the data comes from vs1. (DESIGN CHOICE: log entry 106) -/
def State.vecStore (s : State) (o : VOp) (form : Form) : Out := s.memory { o := o, form := form, load := false }

/-- `vld` (R115 to R119). -/
def execVld (o : VOp) (s : State) : Out := s.vecLoad o .unit

/-- `vlds` (R115 to R119). -/
def execVlds (o : VOp) (s : State) : Out := s.vecLoad o .strided

/-- `vldx` (R115 to R119): the index register is vs1. -/
def execVldx (o : VOp) (s : State) : Out := s.vecLoad o (.indexed o.vs1)

/-- `vst` (R115 to R119). -/
def execVst (o : VOp) (s : State) : Out := s.vecStore o .unit

/-- `vsts` (R115 to R119). -/
def execVsts (o : VOp) (s : State) : Out := s.vecStore o .strided

/-- `vstx` (R115 to R119): the index register is vs2. -/
def execVstx (o : VOp) (s : State) : Out := s.vecStore o (.indexed o.vs2)

/-! ### Lane tables (R121, R122) -/

/-- The offset of a table element in its lane's table. -/
def tableOffset (o : VOp) (j : Nat) : Nat := o.lowBits 9 0 + j * (o.ty.width / 8)
/-- Whether an element lies within the table. -/
def tableFits (o : VOp) (off : Nat) : Bool := off + o.ty.width / 8 ≤ 1024
/-- The place of an offset in the tables of a hart: container `e` belongs to lane e mod 16. -/
def tablePlace (e off : Nat) : Nat := e % 16 * 1024 + off

/-- Read one element of a hart's tables. -/
def readTable (m : Mem) (o : VOp) (e off : Nat) : Nat × Bool :=
  (m.num (tablePlace e off) (o.ty.width / 8), m.anyMarked (tablePlace e off) (o.ty.width / 8))

/-- `vldt` (R121). `TBLOOR` is set for an element beyond the table also where the container is delivered poisoned. (DESIGN CHOICE: log entry 122) -/
def execVldt (o : VOp) (s : State) : Out :=
  s.member (fun t0 ent => t0.sweep ent (fun t e =>
    if t.me.active o e then
      let ix := t.me.getV o.vs1.toNat e
      if ix.poison then .stop (t.trapAt e cPoison 0 3)
      else
        let offs := (elemsOf o.ty ix.val).map (tableOffset o)
        let rs := offs.map (fun off => if tableFits o off then readTable t.me.lanes o e off else (0, false))
        .go (t.modMe (fun h => (h.raiseV (if offs.all (tableFits o) then 0 else vTbloor)).setV o.vd.toNat e
          (if rs.any (·.2) then PVal.poisoned else PVal.clean (packElems o.ty (rs.map (·.1))))))
    else .go (t.inactive o e)))

/-- Write one element of the executing hart's tables (R77, R121). -/
def writeTable (m : Mem) (o : VOp) (e off v : Nat) (poison : Bool) : Mem :=
  let n := o.ty.width / 8
  m.write ((List.range n).map (fun i => tablePlace e off + i)) (natToBytes n v) poison

/-- `vstt` (R121). -/
def execVstt (o : VOp) (s : State) : Out :=
  s.member (fun t0 ent =>
    if t0.holdsSpec o then t0
    else t0.sweep ent (fun t e =>
      if t.me.active o e then
        let ix := t.me.getV o.vs2.toNat e
        if ix.poison then .stop (t.trapAt e cPoison 0 3)
        else match t.source o.vs1 e with
          | .wait u => .stop (u.waitAt e)
          | .value u p =>
            let offs := (elemsOf o.ty ix.val).map (tableOffset o)
            .go (u.modMe (fun h => { (h.raiseV (if offs.all (tableFits o) then 0 else vTbloor)) with
              lanes := (offs.zip (elemsOf o.ty p.val)).foldl
                (fun m w => if tableFits o w.1 then writeTable m o e w.1 w.2 p.poison else m) h.lanes }))
      else .go t))

/-- What one element of `vldp` reads: value, poison, whether it faults and whether it lies beyond the table (R122). -/
structure PeerRead where
  val : Nat
  poison : Bool
  fault : Bool
  beyond : Bool
  deriving DecidableEq, Repr

/-- Read one element from the tables of the peer hart that an index names (R122). -/
def State.readPeer (s : State) (o : VOp) (e j : Nat) : PeerRead :=
  let w := o.ty.width
  let core := coreKey (ringOf s.cur) (j / 2 ^ (w - 3) % 8)
  let peer := hartKey core (j / 2 ^ (w - 5) % 4)
  let off := tableOffset o (j % 2 ^ (w - 5))
  let h := s.hart peer
  let bad := (s.core core).fused || !h.live || h.ctx != s.me.ctx || h.spec || !tableFits o off
  if bad then { val := 0, poison := false, fault := true, beyond := !tableFits o off }
  else
    let r := readTable h.lanes o e off
    { val := r.1, poison := r.2, fault := false, beyond := false }

/-- `vldp` (R122): in a speculative chunk it waits until the chunk is oldest (R134). -/
def execVldp (o : VOp) (s : State) : Out :=
  s.member (fun t0 ent =>
    if t0.me.spec then t0
    else
      let act := (List.range t0.me.vl).filter (t0.me.active o)
      t0.sweep ent (fun t e =>
        if act.contains e then
          let ix := t.me.getV o.vs1.toNat e
          if ix.poison then .stop (t.trapAt e cPoison 0 3)
          else
            let rs := (elemsOf o.ty ix.val).map (t.readPeer o e)
            .go (t.modMe (fun h =>
              let h1 := (h.raiseV (if rs.any (·.beyond) then vTbloor else 0)).setV o.vd.toNat e
                (if rs.any (·.poison) then PVal.poisoned else PVal.clean (packElems o.ty (rs.map (·.val))))
              h1.setM o.vs2.toNat (setMaskBit (h1.getM o.vs2.toNat) e (rs.any (·.fault)))))
        else .go (t.inactive o e)))

end Sys2Proof.Machine
end

