-- ==== Sys2Proof/Machine/Pins.lean ====
section
/-! DEFINITION. Pins (R286): the translations that vector memory entries, copies and accesses over the fabric hold, for which
instructions wait (R287, R288, R350, R352, R359). An instruction that performs in one step holds no pin between steps. -/

namespace Sys2Proof.Machine

/-- Whether two ranges overlap. -/
def overlaps (a n b m : Nat) : Bool := a < b + m && b < a + n

/-- The pins of a package: of its vector entries, of its copies, and of what its agents have under way at other packages. (DEDUCED: log entry 43) -/
def State.pins (s : State) (pkg : Nat) : List Pin :=
  ((s.harts.filter (fun (e : Nat × Hart) => e.2.live && pkgOf e.1 = pkg)).flatMap (fun e => e.2.queue.flatMap (·.pins)) ++
    (s.cores.filter (fun (e : Nat × Core) => pkgOfRing (ringOfCore e.1) = pkg)).flatMap (fun e => e.2.copies.flatMap (·.pins)) ++
    (s.pkg pkg).txns.flatMap (·.pins)).filter (fun p => p.cause = 0)

/-- Whether a context of a package holds a pin that a test holds of. (DEDUCED: log entry 43) -/
def State.contextPins (s : State) (pkg ctx : Nat) (covers : Pin → Bool) : Bool := (s.pins pkg).any (fun p => p.ctx = ctx && covers p)

/-- Whether an acceptance of a package names a unit that a range touches (R338). -/
def Pkg.accepted (p : Pkg) (base n : Nat) : Bool :=
  p.accepts.any (fun a => overlaps base n (a.unit * Config.leaseUnit) Config.leaseUnit)

/-- Whether a pin of a package names a byte of a range of physical addresses, lodgings among them (R347). -/
def State.pinsRange (s : State) (pkg pa n : Nat) : Bool := (s.pins pkg).any (fun p => overlaps pa n p.pa p.size)

/-- Change the pins of a hart's entries. -/
def Hart.mapPins (h : Hart) (f : Pin → Pin) : Hart := { h with queue := h.queue.map (fun q => { q with pins := q.pins.map f }) }

/-- Change the pins of a core's copies. -/
def Core.mapPins (c : Core) (f : Pin → Pin) : Core := { c with copies := c.copies.map (fun d => { d with pins := d.pins.map f }) }

/-- Change the pins of the accesses that a package has under way. -/
def Pkg.mapPins (p : Pkg) (f : Pin → Pin) : Pkg := { p with txns := p.txns.map (fun t => { t with pins := t.pins.map f }) }

/-- Change the pins of a package. -/
def State.mapPins (s : State) (pkg : Nat) (f : Pin → Pin) : State :=
  let harts := s.harts.map (fun (e : Nat × Hart) => if pkgOf e.1 = pkg then (e.1, e.2.mapPins f) else e)
  let cores := s.cores.map (fun (e : Nat × Core) => if pkgOfRing (ringOfCore e.1) = pkg then (e.1, e.2.mapPins f) else e)
  { s with harts := harts, cores := cores }.modPkg pkg (fun p => p.mapPins f)

end Sys2Proof.Machine
end

