-- ==== Sys2Proof/Machine/Leases.lean ====
section
/-! DEFINITION. Leases (R344 to R363): what the lease agents do with units, mailboxes and notices, and the lease
instructions. The messages between agents are taken by the events of LeaseAgent. -/

namespace Sys2Proof.Machine

/-! ### Memory of whole units -/

/-- The committed bytes of a range of device memory become zero and unmarked, with sectors overwritten whole (R272); the chunks that
exposed-read them are squashed (R210). -/
def State.wipe (s : State) (loc n : Nat) : State :=
  let words := s.rings.flatMap (fun e => match e.2.fork with
    | some f => f.chunks.flatMap (fun c => c.reads.filter (fun w => loc / 8 ≤ w && w < (loc + n) / 8))
    | none => [])
  let s1 := s.healSectors (loc / 2 ^ 52) (loc % 2 ^ 52 / 32) (n / 32)
  { s1 with mem := s1.mem.clear loc n }.squashReaders none words

/-- The committed bytes of a range become zero and marked (R357). -/
def State.poisonBytes (s : State) (loc n : Nat) : State :=
  let s1 := s.wipe loc n
  { s1 with mem := s1.mem.poisonRange loc n }

/-- Every cached line of a range is dropped from every L1 (R352, R358): its tokens go home. (DEDUCED: log entry 102) -/
def State.dropLines (s : State) (loc n : Nat) : State :=
  { s with dies := s.dies.map (fun e => (e.1, { e.2 with
      lines := e.2.lines.filter (fun l => l.1 < loc / 128 || (loc + n) / 128 ≤ l.1) })) }

/-- The memory of units is zeroed and dropped from every cache, with the versions that chunks hold of it (R350, R352). (DEDUCED: log entry 113) -/
def State.clearUnits (s : State) (loc n : Nat) : State :=
  let t := (s.wipe loc n).dropLines loc n
  { t with rings := t.rings.map (fun e => (e.1, { e.2 with fork := e.2.fork.map (fun f =>
      { f with chunks := f.chunks.map (fun c => { c with
          bytes := c.bytes.filter (fun b => b.1 < loc || loc + n ≤ b.1),
          marks := c.marks.filter (fun w => w < loc / 8 || (loc + n) / 8 ≤ w),
          clears := c.clears.filter (fun w => w < loc / 8 || (loc + n) / 8 ≤ w) }) }) })) }

/-- Bytes of `n` units. -/
abbrev unitBytes (n : Nat) : Nat := n * Config.leaseUnit

/-- Whether every byte of `n` units from a base is populated, the Attic only where `attic` (R305, R350, R352). -/
def State.unitsPopulated (s : State) (pkg base n : Nat) (attic : Bool) : Bool :=
  (List.range n).all (fun i =>
    let last := base + (i + 1) * Config.leaseUnit - 1
    (s.homeOf pkg last).isSome && (!attic || 0x40000000000 ≤ last))

/-! ### Mailboxes and notices (R345, R346, R353) -/

/-- Where a byte lies for the lease agent of a package: the lent units and the Escrows are refused to everybody else (R348, R349). -/
def State.agentPlace (s : State) (pkg pa : Nat) : Option Place :=
  match s.physical pkg 0 pa with
  | some p => some p
  | none => (s.homeOf pkg (s.forward pkg pa)).map (fun d =>
      if (s.die (dieKey pkg d.1)).failed then .dead else .at (locDev pkg (s.forward pkg pa)) .home)

/-- A mailbox record as one single-copy-atomic store-release: in another package it is written over the fabric after those before it
(`State.agentWrite`), and where nothing is populated it is lost. (DESIGN CHOICE: log entry 126) -/
def State.leaseMailbox (s : State) (pkg addr status lease peer tag : Nat) (detail : Word) : State :=
  let w0 : Word := BitVec.ofNat 64 (status * 2 ^ 56 + lease % 2 ^ 16 * 2 ^ 40 + peer % 128 * 2 ^ 32 + tag % 2 ^ 16)
  let ps := (List.range 16).map (fun i => s.agentPlace pkg (addr + i))
  if ps.all (·.isSome) then
    if anyRemote (ps.filterMap id) then s.modPkg pkg (fun p => { p with agentWrites := p.agentWrites ++ [(addr, [w0, detail])] })
    else s.enginePut (ps.filterMap id) (dwordBytes [w0, detail]) false
  else s

/-- The lease agent of a package goes on with the oldest record that it has yet to write in another package: it is written, or it is
lost where its target refuses it or the fabric fails. (DESIGN CHOICE: log entry 126) -/
def State.agentWrite (s : State) (pkg : Nat) : State :=
  match (s.pkg pkg).agentWrites with
  | [] => s
  | (addr, ws) :: r =>
    let ps := ((List.range 16).map (fun i => s.agentPlace pkg (addr + i))).filterMap id
    let next := fun (t : State) => t.modPkg pkg (fun p => { p with agentWrites := r })
    match s.reach (.agent pkg 0) 0 kStore 0 [] false ps (dwordBytes ws) 0 with
    | .wait u => u
    | .refused u _ c t la => next (u.fabLog pkg c t la)
    | .ok u qs _ => next (u.enginePut qs (dwordBytes ws) false)

/-- `LAGDEST.EN`. -/
def Pkg.noticesOn (p : Pkg) : Bool := p.lagdest.getLsbD 63

/-- Count a notice that is not delivered in `LAGDEST.NDROP`. -/
def State.noticeDropped (s : State) (pkg : Nat) : State :=
  s.modPkg pkg (fun p =>
    let n := min ((p.lagdest.extractLsb' 48 15).toNat + 1) 0x7FFF
    { p with lagdest := (p.lagdest &&& 0x8000FFFFFFFFFFFF) ||| BitVec.ofNat 64 (n * 2 ^ 48) })

/-- The destination word of a notice: the package of the agent. -/
def noticeDest (p : Pkg) (pkg : Nat) : Word :=
  (p.lagdest &&& 0x0000FFFFFC03FFFF) ||| BitVec.ofNat 64 (pkg * 2 ^ 18)

/-- Whether a core exists and is live. -/
def State.coreLive (s : State) (core : Nat) : Bool :=
  ringExists (ringOfCore core) && !(s.die (dieOfRing (ringOfCore core))).failed && !(s.core core).fused

/-- Send a lease notice (R345): a message of one payload flit that enters the destination's ring by the die network. -/
def State.notice (s : State) (pkg ctx : Nat) (x10 x11 : Word) : State :=
  let p := s.pkg pkg
  if !p.noticesOn then s
  else
    let d := noticeDest p pkg
    if !s.coreLive (destCore d) then s.noticeDropped pkg
    else
      let hdr : Word := BitVec.ofNat 64 (ctx % 2 ^ 16 * 2 ^ 48 + destHandler d * 2 ^ 40 + 2 ^ 37 + 4 * 2 ^ 32 + pkg * 2 ^ 18)
      s.modPkg pkg (fun q => { q with dieNet := q.dieNet ++
        [{ id := 0, dest := d, header := hdr, payload := [x10, x11], dir := 0, crossed := false, vc := 0, esc := none, notice := true }] })

/-- The first word of a notice (R346). -/
def noticeWord (kind peer handle n : Nat) : Word :=
  BitVec.ofNat 64 (kind * 2 ^ 56 + peer % 128 * 2 ^ 40 + handle % 2 ^ 16 * 2 ^ 24 + n % 2 ^ 16)

/-- The package whose agent sent a message. -/
def LeaseMsg.sender : LeaseMsg → Nat
  | .request b _ _ _ | .cancel b _ | .done b _ | .giveBack b _ => b
  | .grant l _ _ _ _ | .refuse l _ | .reclaim l _ | .revoke l _ => l

/-- Send a message to another package's lease agent. It arrives unless the fabric is down at either end (R334, R341). (DEDUCED: log entry 98) -/
def State.leaseSend (s : State) (pkg : Nat) (m : LeaseMsg) : State :=
  if (s.pkg m.sender).down || (s.pkg pkg).down then s else s.modPkg pkg (fun p => { p with leaseIn := p.leaseIn ++ [m] })

/-! ### Leases by name -/

/-- The lowest number below 64 that a list does not hold. (DEDUCED: log entry 100) -/
def lowestFree (used : List Nat) : Option Nat := (List.range 64).find? (fun i => !used.contains i)

/-- The lease of a handle. -/
def Pkg.borrow? (p : Pkg) (handle : Nat) : Option Borrow := p.borrows.find? (fun b => b.handle = handle)
/-- The lease of a name. -/
def Pkg.named? (p : Pkg) (name : Nat) : Option Borrow := p.borrows.find? (fun b => b.name = name)
/-- The lease of an id. -/
def Pkg.lend? (p : Pkg) (id : Nat) : Option Lend := p.lends.find? (fun l => l.id = id)

/-- Change a lease of the borrower. -/
def State.modBorrow (s : State) (pkg handle : Nat) (f : Borrow → Borrow) : State :=
  s.modPkg pkg (fun p => { p with borrows := p.borrows.map (fun b => if b.handle = handle then f b else b) })
/-- Change a lease of the lender. -/
def State.modLend (s : State) (pkg id : Nat) (f : Lend → Lend) : State :=
  s.modPkg pkg (fun p => { p with lends := p.lends.map (fun l => if l.id = id then f l else l) })

/-- Write the borrower's mailbox of a lease. -/
def State.borrowRecord (s : State) (pkg : Nat) (b : Borrow) (status : Nat) (detail : Word) : State :=
  s.leaseMailbox pkg b.mbox status b.lease b.lender b.tag detail

/-- Write the lender's mailbox of a lease. -/
def State.lendRecord (s : State) (pkg : Nat) (l : Lend) (status : Nat) (detail : Word) : State :=
  s.leaseMailbox pkg l.mbox status l.id l.borrower l.reqno detail

/-- A lease at the borrower becomes FREE: the reservation of its Escrow ends. -/
def State.freeBorrow (s : State) (pkg handle : Nat) : State :=
  s.modPkg pkg (fun p => { p with borrows := p.borrows.filter (fun b => b.handle != handle) })

/-- Whether an acceptance is one of a lease's borrower for its units. -/
def Lend.names (l : Lend) (a : Accepted) : Bool :=
  a.requester = l.borrower && l.base ≤ a.unit * Config.leaseUnit && a.unit * Config.leaseUnit < l.base + unitBytes l.units

/-- A lease at the lender ends: the units are zeroed and accessible again, what the borrower still has under way there is served no
more (R362), and its record is written (R353, R360). (DEDUCED: log entry 94) -/
def State.endLend (s : State) (pkg : Nat) (l : Lend) (status : Nat) : State :=
  let loc := locDev pkg l.base
  let s1 := (s.clearUnits loc (unitBytes l.units)).modPkg pkg (fun p =>
    { p with lends := p.lends.filter (fun x => x.id != l.id), accepts := p.accepts.filter (fun a => !l.names a) })
  s1.lendRecord pkg l status 0

/-- Frames of a lease (R347). -/
def Borrow.frames (b : Borrow) : Nat := b.units * 2 ^ 18
/-- The physical base of a lodging (R347). -/
def Borrow.lodgingBase (b : Borrow) : Nat := 2 ^ 51 + b.lender % 128 * 2 ^ 44 + b.base

/-- A reclaim ends at the borrower with DEMOTED: `DONE` is sent, and the record says how many frames were dropped. -/
def State.demoted (s : State) (pkg : Nat) (b : Borrow) (dropped : Nat) : State :=
  let s1 := s.modBorrow pkg b.handle (fun x => { x with state := .demoted, migrated := b.frames })
  (s1.leaseSend b.lender (.done pkg b.name)).borrowRecord pkg b 4 (BitVec.ofNat 64 dropped)

/-- `ldone` on a lease that is RECLAIMING (R358): the frames not yet migrated are dropped. -/
def State.dropReclaim (s : State) (pkg : Nat) (b : Borrow) : State :=
  let s1 := s.dropLines (locDev b.lender (b.base + b.migrated * 4096)) ((b.frames - b.migrated) * 4096)
  s1.demoted pkg b (b.frames - b.migrated)

/-! ### The instructions (R350 to R359, R363) -/

/-- What every lease instruction checks first (R344); its release waits while the L1 of the hart cannot drain (R269). -/
def State.leaseInstr (s : State) (i : Instr) (k : State → State) : State :=
  s.scalar i (fun t => if t.me.priv = 0 then t.trapWord cPriv i else if t.ownBusy t.cur then (t.unservedOwn t.cur).stall .remote else k t)

/-- A 64-byte block that a lease instruction reads: aligned, translated, unpoisoned (point 11). -/
def State.leaseBlock (s : State) (va : Word) (k : State → List Word → State) : State :=
  if va.toNat % 64 != 0 then s.trap cMisalign va 0
  else s.withBlock 0 false va.toNat 64 kLoad [] (fun u ps =>
    let ws := u.dwords (some u.cur) ps
    if ws.any (·.poison) then u.trap cPoison va 11 else k u (ws.map (·.val)))

/-- A dword of a block. -/
abbrev dw (ws : List Word) (i : Nat) : Word := lget 0 ws i

/-- The request block's own rules (R350). -/
def requestBad (ws : List Word) : Bool :=
  (dw ws 0).extractLsb' 23 25 != 0 || (dw ws 1).extractLsb' 52 12 != 0 || (List.range 4).any (fun i => dw ws (4 + i) != 0) ||
  (dw ws 0).extractLsb' 0 16 == 0 || (dw ws 3).toNat % 16 != 0

/-- Whether units of a package are not FREE (R350, R352): lent already, or reserved as an Escrow. (DEDUCED: log entry 100) -/
def Pkg.unitsTaken (p : Pkg) (base n : Nat) : Bool :=
  p.lends.any (fun l => overlaps base n l.base (unitBytes l.units)) ||
  p.borrows.any (fun b => overlaps base n b.escrow (unitBytes b.units))

/-- `lreq` (R350). -/
def execLreq (d a : Reg) (s : State) : Out :=
  .next (s.leaseInstr (.lreq d a) (fun t => t.consume (t.getX a) 2 (fun va => t.leaseBlock va (fun u ws =>
    let pkg := pkgOf u.cur
    let p := u.pkg pkg
    let units := (dw ws 0).toNat % 2 ^ 16
    let escrow := (dw ws 1).toNat
    let lpkg := (dw ws 0).toNat / 2 ^ 16 % 128
    if requestBad ws then u.trapWord cIllegal (.lreq d a)
    else if escrow % Config.leaseUnit != 0 || !u.unitsPopulated pkg escrow units true ||
        p.unitsTaken escrow (unitBytes units) then
      u.trap cProtect (dw ws 1) 1
    else match lowestFree (p.borrows.map (·.handle)) with
      | none => u.result d (PVal.clean (BitVec.allOnes 64))
      | some h =>
        let v := u.drainOwn u.cur
        if p.accepted escrow (unitBytes units) || u.pinsRange pkg escrow (unitBytes units) then v.stall .pins
        else
          let wmin := max (dw ws 2).toNat (units * Config.reclGib * 1024)
          let b : Borrow :=
            { handle := h, serial := p.leaseSeq, state := .requested, ctx := u.me.ctx, lender := lpkg, units := units, escrow := escrow,
              mbox := (dw ws 3).toNat, tag := (dw ws 0).toNat / 2 ^ 48, lease := 0, base := 0, wfin := 0, deadline := 0,
              migrated := 0 }
          let u2 := v.clearUnits (locDev pkg escrow) (unitBytes units)
          (if lpkg = pkg || !u.hasPort lpkg then u2.borrowRecord pkg b 2 0
           else (u2.modPkg pkg (fun q => { q with borrows := q.borrows ++ [b], leaseSeq := q.leaseSeq + 1 })).leaseSend lpkg
             (.request pkg b.name units wmin)).result d (PVal.clean (BitVec.ofNat 64 h))))))

/-- The grant block's own rules (R352). (DEDUCED: log entry 100) -/
def grantBad (ws : List Word) : Bool :=
  (dw ws 0).extractLsb' 52 12 != 0 || (dw ws 0).extractLsb' 1 29 != 0 || (List.range 5).any (fun i => dw ws (3 + i) != 0) ||
  (dw ws 2).toNat % 16 != 0

/-- A grant whose units are marked waits for their pins and then completes (R352). (DEDUCED: log entry 99) -/
def State.completeGrant (s : State) (pkg : Nat) (l : Lend) (r : LeaseReq) : State :=
  let loc := locDev pkg l.base
  if (s.pkg pkg).accepted l.base (unitBytes l.units) || s.pinsRange pkg l.base (unitBytes l.units) then s.stall .pins
  else
    let s1 := s.clearUnits loc (unitBytes l.units)
    let s2 := s1.modPkg pkg (fun p => { p with requests := p.requests.filter (fun q => q != r) })
    let s3 := s2.modLend pkg l.id (fun x => { x with marked := false })
    ((s3.leaseSend l.borrower (.grant pkg l.reqno l.id l.base l.wfin)).lendRecord pkg l 0x11 (BitVec.ofNat 64 l.wfin)).advance

/-- `lgrant` (R352). (DEDUCED: log entry 99, DEDUCED: log entry 100) -/
def execLgrant (a b : Reg) (s : State) : Out :=
  .next (s.leaseInstr (.lgrant a b) (fun t => t.consume (t.getX a) 12 (fun req => t.consume (t.getX b) 2 (fun va =>
    t.leaseBlock va (fun u0 ws =>
      let u := u0.drainOwn u0.cur
      let pkg := pkgOf u.cur
      let p := u.pkg pkg
      let borrower := req.toNat / 2 ^ 40 % 128
      let reqno := req.toNat / 2 ^ 24 % 2 ^ 16
      let base := (dw ws 0).toNat / 2 ^ 30 * 2 ^ 30
      let mbox := (dw ws 2).toNat
      if grantBad ws then u0.trapWord cIllegal (.lgrant a b)
      else match p.requests.find? (fun r => r.borrower = borrower && r.reqno % 2 ^ 16 = reqno) with
        | none => (u.leaseMailbox pkg mbox 0x15 0 borrower reqno 0).advance
        | some r =>
          match p.lends.find? (fun l => l.marked && l.borrower = borrower && l.reqno = r.reqno) with
          | some l => u.completeGrant pkg l r
          | none =>
            let drop := fun (v : State) => v.modPkg pkg (fun q => { q with requests := q.requests.filter (fun x => x != r) })
            let refuse := (drop (u.leaseSend borrower (.refuse pkg r.reqno))).advance
            if (dw ws 0).getLsbD 0 then refuse
            else if !u.unitsPopulated pkg base r.units false || p.unitsTaken base (unitBytes r.units) then
              u0.trap cProtect (BitVec.ofNat 64 base) 1
            else match lowestFree (p.lends.map (·.id)) with
              | none => refuse
              | some id =>
                let l : Lend :=
                  { id := id, borrower := borrower, reqno := r.reqno, base := base, units := r.units,
                    wfin := max (dw ws 1).toNat r.wmin, mbox := mbox, marked := true, deadline := none }
                (u.modPkg pkg (fun q => { q with lends := q.lends ++ [l] })).completeGrant pkg l r)))))

/-- `lreclaim` (R355). -/
def execLreclaim (a : Reg) (s : State) : Out :=
  .next (s.leaseInstr (.lreclaim a) (fun t => t.consume (t.getX a) 12 (fun w =>
    let u := t.drainOwn t.cur
    let pkg := pkgOf u.cur
    match (u.pkg pkg).lend? (w.toNat % 2 ^ 16) with
    | some l =>
      if l.marked || l.deadline.isSome then u.advance
      else ((u.modLend pkg l.id (fun x => { x with deadline := some ((u.pkg pkg).timebase + l.wfin) })).leaseSend l.borrower
        (.reclaim pkg l.reqno)).advance
    | none => u.advance)))

/-- `ldone` (R358). -/
def execLdone (a : Reg) (s : State) : Out :=
  .next (s.leaseInstr (.ldone a) (fun t => t.consume (t.getX a) 12 (fun w =>
    let u := t.drainOwn t.cur
    let pkg := pkgOf u.cur
    match (u.pkg pkg).borrow? (w.toNat % 2 ^ 16) with
    | some b => if b.ctx = u.me.ctx && b.state == .reclaiming then (u.dropReclaim pkg b).advance else u.advance
    | none => u.advance)))

/-- `lrelease` (R359). -/
def execLrelease (a : Reg) (s : State) : Out :=
  .next (s.leaseInstr (.lrelease a) (fun t => t.consume (t.getX a) 12 (fun w =>
    let pkg := pkgOf t.cur
    match (t.pkg pkg).borrow? (w.toNat % 2 ^ 16) with
    | none => t.advance
    | some b =>
      if b.ctx != t.me.ctx then t.advance
      else
        let u := t.drainOwn t.cur
        if b.state == .granted && t.pinsRange pkg b.lodgingBase (unitBytes b.units) then u.stall .pins
        else
          let u1 := match b.state with
            | .requested => u.leaseSend b.lender (.cancel pkg b.name)
            | .granted => (u.dropLines (locDev b.lender b.base) (unitBytes b.units)).leaseSend b.lender (.giveBack pkg b.name)
            | .reclaiming => u.dropReclaim pkg b
            | .demoted | .lost => u
          ((u1.freeBorrow pkg b.handle).borrowRecord pkg b 6 0).advance)))

end Sys2Proof.Machine
end

