-- ==== Sys2Proof/Machine/DieOps.lean ====
section
/-! DEFINITION. The instructions of the die: `tlbinv` (R287), `pgmig` (R288), `odrain` (R317), `launch` (R294), the hints
(R55, R90), and a word that names no instruction (R54). -/

namespace Sys2Proof.Machine

/-! ### The image of a vector translation table (R285) -/

/-- Entry `i` of the image at a frame: the word with its poison. A frame where no agent may read gives a poisoned entry. (DEDUCED: log entry 47) -/
def State.imageEntry (s : State) (pkg ctx img i : Nat) : PVal := (s.pte pkg ctx (img + 8 * i)).getD PVal.poisoned

/-- The loads of an image's entries are demand reads (R272). -/
def State.demandImage (s : State) (pkg ctx img lo hi : Nat) : State :=
  (List.range (hi - lo)).foldl (fun v j => v.pteDemand pkg ctx (img + 8 * (lo + j))) s

/-- Load the entries of an image from one index below another into a table. (DEDUCED: log entry 47) -/
def State.loadImage (s : State) (pkg ctx img lo hi : Nat) (t : Tab PVal) : Tab PVal :=
  (List.range (hi - lo)).foldl (fun m j => tset (PVal.clean 0) m (lo + j) (s.imageEntry pkg ctx img (lo + j))) t

/-- Change the resident record of a context on a die. -/
def State.modResident (s : State) (die ctx : Nat) (f : Resident → Resident) : State :=
  s.modDie die (fun d => { d with resident := d.resident.map (fun r => r.map (fun x => if x.ctx = ctx then f x else x)) })

/-- The dies of a package. -/
def diesOf (pkg : Nat) : List Nat := (List.range 4).map (dieKey pkg)

/-! ### `tlbinv` (R287) -/

/-- The pages that a `tlbinv` covers. -/
inductive InvRange where
  | page (a : Nat)
  | span (lo hi : Nat)
  | all
  | entries (lo hi : Nat)
  deriving DecidableEq, Repr

/-- The range that the operands name. -/
def invRange (a b : Word) : InvRange :=
  let lo := a.toNat / 4096 * 4096
  let hi := lo + 4096 * (b.toNat % 2 ^ 40)
  match b.toNat / 2 ^ 62 with
  | 0 => .page lo
  | 1 => .span lo hi
  | 2 => .all
  | _ => .entries lo hi

/-- Whether a kept translation lies in the range. (DEDUCED: log entry 44) -/
def Trans.covered (t : Trans) (r : InvRange) : Bool :=
  match r with
  | .page a => t.va ≤ a && a < t.va + t.size
  | .span lo hi => overlaps lo (hi - lo) t.va t.size && lo < hi
  | .all => true
  | .entries _ _ => false

/-- Drop the translations of a context on one die. (DEDUCED: log entry 44) -/
def Die.dropTrans (d : Die) (ctx : Nat) (r : InvRange) : Die :=
  { d with tlb := d.tlb.filter (fun t => !(t.ctx = ctx && t.covered r)) }

/-- The table entries of an aperture that a range of addresses touches. -/
def Resident.entrySpan (r : Resident) (lo hi : Nat) : Nat × Nat :=
  let l := max lo r.apBase
  let h := min hi (r.apBase + r.apLen * 2 ^ 26)
  if l < h then ((l - r.apBase) / 2 ^ 26, (h - 1 - r.apBase) / 2 ^ 26 + 1) else (0, 0)

/-- Whether a translation that an access holds is one that a `tlbinv` drops or reloads, or would drop where the table of the aperture
held it (R287). (DEDUCED: log entry 44) -/
def State.invalidates (s : State) (die ctx : Nat) (r : InvRange) (p : Pin) : Bool :=
  p.ctx = ctx && (match r with
    | .page a => decide (p.va ≤ a ∧ a < p.va + p.size)
    | .span lo hi => overlaps lo (hi - lo) p.va p.size && decide (lo < hi)
    | .all => true
    | .entries lo hi => match s.residentOf die ctx with
      | none => false
      | some x =>
        let e := x.entrySpan lo hi
        overlaps (x.apBase + e.1 * 2 ^ 26) ((e.2 - e.1) * 2 ^ 26) p.va p.size && decide (e.1 < e.2))

/-- Drop a range on one die, and reload the entries that mode 3 names. -/
def State.invalidate (s : State) (die ctx : Nat) (r : InvRange) : State :=
  let s1 := s.modDie die (fun d => d.dropTrans ctx r)
  match r, s.residentOf die ctx with
  | .entries lo hi, some x =>
    let e := x.entrySpan lo hi
    let s2 := s1.demandImage (pkgOfDie die) ctx x.img e.1 e.2
    s2.modResident die ctx (fun y => { y with vtt := s2.loadImage (pkgOfDie die) ctx x.img e.1 e.2 x.vtt })
  | _, _ => s1

/-- The drop of a `tlbinv` on every die of the package: the pins on what it drops are the ones that it waits for. -/
def State.dropRange (s : State) (r : InvRange) : State :=
  let pkg := pkgOf s.cur
  let ctx := s.me.ctx
  let s1 := s.mapPins pkg (fun p => if s.invalidates (dieOf s.cur) ctx r p then { p with stale := true } else p)
  let s2 := (diesOf pkg).foldl (fun v d => v.invalidate d ctx r) s1
  { s2 with dropped := sins s2.cur s2.dropped }

/-- `tlbinv` (R287): the first execution drops the translations, and it waits for the pins on them. -/
def execTlbinv (a b : Reg) (s : State) : Out :=
  .next (s.scalar (.tlbinv a b) (fun t =>
    if t.me.priv = 0 then t.trapWord cPriv (.tlbinv a b)
    else t.consume (t.getX a) 2 (fun va => t.consume (t.getX b) 12 (fun w =>
      if w.extractLsb' 40 22 != 0 then t.trapWord cIllegal (.tlbinv a b)
      else if !t.me.drained then t.stall .drain
      else if t.ownBusy t.cur then (t.unservedOwn t.cur).stall .remote
      else
        let r := invRange va w
        let u := if t.dropped.contains t.cur then t else (t.drainOwn t.cur).dropRange r
        if u.contextPins (pkgOf u.cur) u.me.ctx (fun p => p.stale && u.invalidates (dieOf u.cur) u.me.ctx r p) then u.stall .pins
        else { u with dropped := sdel u.cur u.dropped }.advance))))

/-! ### `pgmig` (R288) -/

/-- A page of a context: its virtual and physical base, its size, and the entries that map it: their addresses in memory
with the offset of each in the page, and the first table entry of an aperture page. -/
structure Page where
  va : Nat
  pa : Nat
  size : Nat
  entries : List (Nat × Nat)
  table : Option (Nat × Nat)
  deriving DecidableEq, Repr

/-- The page of a leaf: the leaf itself or its run (R281). -/
def leafPage (va : Nat) (l : Leaf) : Page :=
  let unit := pageSize l.level
  let size := unit * l.run
  let i := va / unit % l.run
  { va := va / size * size, pa := l.entry / 4096 % 2 ^ 40 * 4096 / size * size, size := size,
    entries := (List.range l.run).map (fun j => (l.addr - 8 * i + 8 * j, unit * j)), table := none }

/-- The page of an aperture entry: 64 MiB, or the 1 GiB group (R284). -/
def aperturePage (r : Resident) (va : Nat) : Page :=
  let i := (va - r.apBase) / 2 ^ 26
  let e := tget (PVal.clean 0) r.vtt i
  let n := if e.val.getLsbD 5 then 16 else 1
  let first := i / n * n
  let size := 2 ^ 26 * n
  { va := r.apBase + first * 2 ^ 26, pa := e.val.toNat / 2 ^ 26 % 2 ^ 26 * 2 ^ 26 / size * size, size := size,
    entries := (List.range n).map (fun j => (r.img + 8 * (first + j), 2 ^ 26 * j)), table := some (first, n) }

/-- The page that holds an address of the executing hart's context, outside the windows. -/
def State.pageOf (s : State) (va : Nat) : State × Except XFault Page :=
  match s.residentOf (dieOf s.cur) s.me.ctx with
  | none => (s, .error cPageAbsent)
  | some r =>
    if r.inAperture va then (s, .ok (aperturePage r va))
    else match s.walk (pkgOf s.cur) s.me.ctx va 3 r.root with
      | (t, .ok l) => (t, .ok (leafPage va l))
      | (t, .error c) => (t, .error c)

/-- Whether a range lies wholly in HBM or the Attic, outside lent units and Escrows. (DEDUCED: log entry 45) -/
def State.deviceRange (s : State) (pkg a n : Nat) : Bool :=
  (s.homeOf pkg a).isSome && (s.homeOf pkg (a + n - 1)).isSome && !(s.pkg pkg).isLent a && !(s.pkg pkg).isEscrow a

/-- An entry that names a new base: its other bits stay. -/
def rebase (e : Nat) (pa : Nat) : Nat := e % 4096 + pa / 4096 * 4096

/-- Follow a frame to its new place in the versions of the chunks (R288: they drain through the redirect). -/
def Chunk.follow (c : Chunk) (lo n new : Nat) : Chunk :=
  let move := fun (l : Nat) => if lo ≤ l && l < lo + n then l - lo + new else l
  let word := fun (w : Nat) => move (8 * w) / 8
  { c with
    bytes := c.bytes.foldl (fun m e => tput m (move e.1) e.2) [], marks := c.marks.foldl (fun m w => sins (word w) m) [],
    clears := c.clears.foldl (fun m w => sins (word w) m) [], reads := c.reads.foldl (fun m w => sins (word w) m) [] }

/-- Move the sectors of a page with their markers (R288); the frames of a failed die read as zero with poison, and what goes
to one is lost (R315). -/
def State.moveFrames (s : State) (pkg old new n : Nat) : State :=
  let failed := fun (v : State) (pa : Nat) => (v.homeOf pkg pa).any (fun d => (v.die (dieKey pkg d.1)).failed)
  let bad := (s.pkg pkg).badSectors.filter (fun x => old / 32 ≤ x && x < (old + n) / 32)
  let s1 := bad.foldl (fun v x => v.demand (locDev pkg (32 * x))) s
  let s2 := s1.healSectors pkg (new / 32) (n / 32)
  let mem :=
    if failed s2 new then s2.mem
    else if failed s2 old then s2.mem.poisonRange (locDev pkg new) n
    else s2.mem.move (locDev pkg old) (locDev pkg new) n
  let s3 := ({ s2 with mem := mem }.dropLines (locDev pkg old) n).dropLines (locDev pkg new) n
  { s3 with rings := s3.rings.map (fun e => (e.1, { e.2 with fork := e.2.fork.map (fun f =>
      { f with chunks := f.chunks.map (fun c => c.follow (locDev pkg old) n (locDev pkg new)) }) })) }

/-- Write the entries of a page with its new base: the leaf or run, or the image and the resident tables (R288). -/
def State.writeEntries (s : State) (pkg ctx : Nat) (g : Page) (new : Nat) : State :=
  let s1 := g.entries.foldl (fun u e =>
    let v := u.pteDemand pkg ctx e.1
    match v.pte pkg ctx e.1, v.physical pkg ctx e.1 with
    | some p, some (.at l _) =>
      if p.poison then v else v.homeWrite (byteAddrs l 8) (natToBytes 8 (rebase p.val.toNat (new + e.2))) false
    | _, _ => v) s
  match g.table with
  | none => s1
  | some (first, n) => (diesOf pkg).foldl (fun v d => v.modResident d ctx (fun r =>
      { r with vtt := (List.range n).foldl (fun t j =>
          let e := tget (PVal.clean 0) t (first + j)
          if e.poison then t
          else tset (PVal.clean 0) t (first + j) (PVal.clean (BitVec.ofNat 64 (rebase e.val.toNat (new + 2 ^ 26 * j))))) r.vtt })) s1

/-- Whether another migration of a page is in progress: the page of a context, or its frames by another mapping. -/
def State.migrating (s : State) (pkg ctx : Nat) (g : Page) : Bool :=
  s.migrations.any (fun m => m.pkg = pkg && ((m.ctx = ctx && m.va = g.va) || overlaps m.old m.size g.pa g.size))

/-- Whether a pin or an acceptance names a frame of a migration's old range. -/
def State.migrationPinned (s : State) (m : Migration) : Bool :=
  (s.pkg m.pkg).accepted m.old m.size || s.pinsRange m.pkg m.old m.size

/-- The redirects of a migration end once nothing names the old frames (R288). -/
def State.endRedirects (s : State) : State := { s with migrations := s.migrations.filter s.migrationPinned }

/-- The move of a page: frames, entries, translations; requests to the old frames are forwarded from then on. -/
def State.migrate (s : State) (g : Page) (new : Nat) : State :=
  let pkg := pkgOf s.cur
  let ctx := s.me.ctx
  let s1 := (s.moveFrames pkg g.pa new g.size).writeEntries pkg ctx g new
  let s2 := (diesOf pkg).foldl (fun v d => v.modDie d (fun x => x.dropTrans ctx (.span g.va (g.va + g.size)))) s1
  let m : Migration := { pkg := pkg, ctx := ctx, va := g.va, old := g.pa, new := new, size := g.size }
  if s2.migrationPinned m then { s2 with migrations := s2.migrations ++ [m] }.stall .migration else s2.advance

/-- `pgmig` (R288): it moves the page and waits for the pins on the old frames; executed again, it finds the page at its new place and
waits until the redirects have ended. (DEDUCED: log entry 45) -/
def execPgmig (a b : Reg) (s : State) : Out :=
  .next (s.scalar (.pgmig a b) (fun t =>
    if t.me.priv = 0 then t.trapWord cPriv (.pgmig a b)
    else t.consume (t.getX a) 2 (fun x => t.consume (t.getX b) 2 (fun n =>
      let va := x.toNat
      let y := t.xlate (t.agentOf t.cur) [] false va kStore
      match y.ans with
      | .error c => y.st.trap c x (BitVec.ofNat 64 (faultVal c kStore))
      | .ok _ =>
        if va / 2 ^ 40 = 0xFF then y.st.trap cProtect n 1
        else match y.st.pageOf va with
          | (u, .error c) => u.trap c x (BitVec.ofNat 64 (faultVal c kStore))
          | (u, .ok g) =>
            let pkg := pkgOf u.cur
            let new := n.toNat
            if new % g.size != 0 then u.trap cMisalign n 1
            else if !u.deviceRange pkg g.pa g.size || !u.deviceRange pkg new g.size then u.trap cProtect n 1
            else if u.migrating pkg u.me.ctx g then u.stall .migration
            else if g.pa = new then u.advance
            else u.migrate g new))))

/-! ### `odrain` (R317) -/

/-- The 192-byte record of an orphan line at a physical address (R317): words that are poisoned or were not held are zero. (DEDUCED: log entry 46) -/
def orphanRecord (pa : Nat) (o : OrphanLine) : List Byte :=
  let good := fun (i : Nat) => o.sectors.testBit (i / 32) && !o.marks.testBit (i / 8)
  let poisoned := (List.range 16).foldl (fun a i => if o.sectors.testBit (i / 4) && o.marks.testBit i then a + 2 ^ i else a) 0
  natToBytes 8 (pa + 1) ++ natToBytes 8 (pa / 0x4000000000 * 2 ^ 24 + o.sectors % 16 * 2 ^ 16 + poisoned) ++ List.replicate 48 0 ++
    (List.range 128).map (fun i => if good i then lget 0 o.bytes i else 0)

/-- `odrain` (R317). Where the record lies in another package, its bytes are written over the fabric before the line leaves the list. -/
def execOdrain (d a : Reg) (s : State) : Out :=
  .next (s.scalar (.odrain d a) (fun t =>
    if t.me.priv = 0 then t.trapWord cPriv (.odrain d a)
    else t.consume (t.getX a) 2 (fun va =>
      if va.toNat % 64 != 0 then t.trap cMisalign va 1
      else if t.ownBusy t.cur then (t.unservedOwn t.cur).stall .remote
      else match (t.die (dieOf t.cur)).orphans with
        | [] =>
          let x := t.places (t.agentOf t.cur) [] kStore va.toNat 192
          match x.ans with
          | .error f => x.st.trap f.cause (BitVec.ofNat 64 f.addr) (BitVec.ofNat 64 (faultVal f.cause kStore))
          | .ok _ => x.st.result d (PVal.clean 0)
        | (line, o) :: rest =>
          let bytes := orphanRecord (128 * line) o
          t.withBlock 0 false va.toNat 192 kStore bytes (fun u ps =>
            (((u.drainOwn u.cur).modDie (dieOf u.cur) (fun x => { x with orphans := rest })).putBlock u.cur ps bytes false).result d
              (PVal.clean (BitVec.ofNat 64 (1 + rest.length)))))))

/-! ### `launch` (R294) -/

/-- `CTXID` of a launch record (R291). -/
abbrev recCtx (ws : List Word) : Nat := (dw ws 2).toNat / 2 ^ 48
/-- `RCOUNT`. -/
abbrev recCount (ws : List Word) : Nat := (dw ws 2).toNat / 2 ^ 34 % 128
/-- `PRIO`. -/
abbrev recPrio (ws : List Word) : Nat := (dw ws 2).toNat / 2 ^ 32 % 4

/-- The priority of a hart's launch (R294). -/
def State.launchPrio (s : State) (k : Nat) : Nat :=
  match (s.ring (ringOf k)).prog with
  | some p => if (s.hart k).route = 2 && p.ctx != (s.hart k).ctx then 0 else p.prio
  | none => 0

/-- Whether the Vestibule has room (R293). -/
def Pkg.vestibuleRoom (p : Pkg) : Bool := p.vestibule.length < 1024

/-- Append a record to the Vestibule: its arrival. -/
def State.arrive (s : State) (pkg : Nat) (ws : List Word) : State :=
  s.modPkg pkg (fun p => { p with
    vestibule := p.vestibule ++ [{ id := p.recordSeq, words := ws, placed := 0, map := none }], recordSeq := p.recordSeq + 1 })

/-- `launch` (R294). -/
def execLaunch (a : Reg) (s : State) : Out :=
  .next (s.scalar (.launch a) (fun t => t.consume (t.getX a) 2 (fun va =>
    if va.toNat % 64 != 0 then t.trap cMisalign va 0
    else if t.ownBusy t.cur then (t.unservedOwn t.cur).stall .remote
    else t.withBlock 0 false va.toNat 64 kLoad [] (fun u ps =>
      let ws := u.dwords (some u.cur) ps
      let rec_ := ws.map (·.val)
      if ws.any (·.poison) then u.trap cPoison va 11
      else if u.me.priv = 0 && (recCtx rec_ != u.me.ctx || u.launchPrio u.cur < recPrio rec_) then u.trapWord cPriv (.launch a)
      else if !(u.pkg (pkgOf u.cur)).vestibuleRoom then (u.drainOwn u.cur).stall .vestibule
      else ((u.drainOwn u.cur).arrive (pkgOf u.cur) rec_).advance))))

/-! ### Hints (R55, R90) -/

/-- Count a dropped hint (R290). -/
def State.hintDropped (s : State) : State := s.modCore (coreOf s.cur) (fun c => { c with hintdrop := count32 c.hintdrop })

/-- The 128-byte line of a prefetch enters the L1 of the core (R90), where its tokens allow it at once: its sectors are read as for a load
(R266, R272). -/
def State.prefetch (s : State) (p : Place) : State :=
  match p with
  | .at l _ =>
    if s.lineBusy (coreOf s.cur) kLoad l then s
    else s.tokensAll (coreOf s.cur) ((List.range 4).map (fun i => l / 128 * 128 + 32 * i)) false
  | _ => s

/-- A hint (R90): it waits for the delivery of its base register like every instruction (R94), and never traps. (DEDUCED: log entry 104) -/
def State.hint (s : State) (a : Reg) (imm : BitVec 13) (use : State → Place → State) : State :=
  if a != 0 && s.me.xPending a then s.stall (.delivery a)
  else if (s.getX a).poison then s.hintDropped.advance
  else
    let x := s.xlate (s.agentOf s.cur) [] false ((s.getX a).val + sext imm).toNat kLoad
    match x.ans with
    | .error _ => x.st.hintDropped.advance
    | .ok p => (use x.st p).advance

/-- `pref` (R90). (DEDUCED: log entry 104) -/
def execPref (a : Reg) (imm : BitVec 13) (s : State) : Out := .next (s.hint a imm State.prefetch)

/-- `resid` (R90): what an L2 slice retains changes no value. (DEDUCED: log entry 104) -/
def execResid (a : Reg) (imm : BitVec 13) (s : State) : Out := .next (s.hint a imm (fun t _ => t))

/-- Every other word of major 0x3E: a no-op (R55). (DEDUCED: log entry 104) -/
def execHintNoOp (_word : BitVec 26) (s : State) : Out := .next s.advance

/-! ### A word that names no instruction (R54) -/

/-- A reserved word traps `ILLEGAL` (R54); in a speculative chunk it waits until the chunk is oldest (R69). -/
def execUndefinedWord (word : IWord) (s : State) : Out := .next (s.trapWord cIllegal (.undefinedWord word))

end Sys2Proof.Machine
end

