-- ==== Sys2Proof/Machine/HartEvents.lean ====
section
/-! DEFINITION. What comes about at a hart beside its own instructions: a pending event is taken (R144), the receive watchdog
runs out (R147), a retirement completes (R24), a stalled `wfe` ends (R86), and firmware frees the slot of a stopped hart
(R138). -/

namespace Sys2Proof.Machine

/-! ### Events (R144) -/

/-- Whether a hart takes a pending event at its scalar instruction boundary: at user privilege, and not in a speculative
chunk. A hart with an access under way stands inside an instruction. (DEDUCED: log entry 15, DEDUCED: log entry 110) -/
def State.eventReady (s : State) (k : Nat) : Bool :=
  let h := s.hart k
  h.live && !h.stopped && h.priv = 0 && !h.spec && !h.events.isEmpty && !s.midAccess k && !s.idleInFork k

/-- A hart stops at its instruction boundary for a pending event: it enters the handler, once an element group that is under way has
ended (R137, R144). (DEDUCED: log entry 110) -/
def State.enterEvent (s : State) (k : Nat) : State :=
  if s.groupAbroad k then s.modHart k (fun h => { h with wait := .stopping }) else s.takeEvent k (s.hart k).pc

/-- `EVENT_ENTRY`: the pending event of lowest code is taken; a stalled instruction executes again after `tret` (R144). (DEDUCED: log entry 15) -/
def execEventEntry (hart : Nat) (s : State) : Out :=
  if !ringExists (ringOf hart) then .fault .noSuchUnit
  else if s.eventReady hart then .next (s.enterEvent hart)
  else s.noEvent

/-! ### The receive watchdog (R147) -/

/-- The entry of a hart that stalls on an empty receive queue. -/
def Hart.poppingEntry (h : Hart) : Option Entry := h.queue.find? (fun e => e.runs && popsQueue e.instr)

/-- Whether a vector entry of a hart stalls on an empty receive queue (R147). -/
def State.vectorBlocked (s : State) (k : Nat) : Bool :=
  (s.core (coreOf k)).recvQ.isEmpty && (s.core (coreOf k)).recvWait.contains (vectorPop k)

/-- Whether a hart is blocked in `recv` or at a `v49` source, as the watchdog counts it. -/
def State.recvBlocked (s : State) (k : Nat) : Bool :=
  (s.hart k).live && !(s.hart k).stopped && ((s.hart k).wait == .recv || s.vectorBlocked k)

/-- The position of an entry in a queue. -/
def Hart.posOfEntry (h : Hart) (id : Nat) : Nat := (h.queue.findIdx? (fun e => e.id = id)).getD 0

/-- Whether the watchdog of a hart has run out. -/
def State.watchdogDue (s : State) (k : Nat) : Bool :=
  (s.hart k).rxwdog != 0 && (s.hart k).rxwdog.toNat ≤ (s.hart k).rxCount && s.recvBlocked k && !(s.hart k).spec

/-- `WATCHDOG` (R147): a scalar trap at the `recv`, once the element groups under way have ended, or a vector trap at the entry that
pops. -/
def execWatchdog (hart : Nat) (s : State) : Out :=
  let h := s.hart hart
  if !ringExists (ringOf hart) then .fault .noSuchUnit
  else if !s.watchdogDue hart then s.noEvent
  else if h.wait == .recv then
    if s.groupAbroad hart then s.noEvent
    else .next (s.takeTrap hart { cause := BitVec.ofNat 64 cWatchdog, tpc := h.pc, tqpos := 0, telem := 0, addr := 0, val := h.rxwdog })
  else match h.poppingEntry with
    | some e => .next (s.vtrap hart (h.posOfEntry e.id) e.start cWatchdog 0 h.rxwdog)
    | none => s.noEvent

/-! ### Retirement (R24) -/

/-- A ring program has halted: its launch counts it as ended (R302). -/
def State.programEnds (s : State) (ring : Nat) : State :=
  match (s.ring ring).prog with
  | none => s
  | some p =>
    (s.modRing ring (fun r => { r with prog := none })).modPkg (pkgOfRing ring) (fun q => { q with
      launches := q.launches.map (fun l => if l.id = p.launch then { l with running := sdel p.ringidx l.running } else l) })

/-- Whether the retirement of a hart can complete: its entries have completed and its accesses have performed. (DEDUCED: log entry 20) -/
def State.retirementDue (s : State) (k : Nat) : Bool :=
  (s.hart k).live && (s.hart k).retiring && !(s.hart k).stopped && (s.hart k).drained && !s.midAccess k && !s.groupAbroad k

/-- Whether a hart is the ring program of its ring. -/
def State.isProgram (s : State) (k : Nat) : Bool := ((s.ring (ringOf k)).prog).any (fun p => p.hart = k)

/-- `RETIREMENT` (R24): the matrix unit is released and the slot is free; a ring program's launch counts its end. (DEDUCED: log entry 20) -/
def execRetirement (hart : Nat) (s : State) : Out :=
  if !ringExists (ringOf hart) then .fault .noSuchUnit
  else if !s.retirementDue hart then s.noEvent
  else
    let s1 := if s.isProgram hart then s.programEnds (ringOf hart) else s
    .next (s1.freeSlot hart)

/-! ### A stalled `wfe` (R86) -/

/-- `STALLED_WFE_END`: a stalled `wfe` ends with the latch still 0 (R86). (DESIGN CHOICE: log entry 14) -/
def execStalledWfeEnd (hart : Nat) (s : State) : Out :=
  let h := s.hart hart
  if !ringExists (ringOf hart) then .fault .noSuchUnit
  else if h.live && !h.stopped && h.wait == .wfe && !h.latch then
    .next (s.modHart hart (fun g => { g with pc := g.pc + 4, wait := .none }))
  else s.noEvent

/-! ### A stopped hart (R138) -/

/-- A ring forgets a hart that is gone: its program, and the hart of a chunk, which then never ends. -/
def Ring.forget (r : Ring) (k : Nat) : Ring :=
  { r with
    prog := r.prog.filter (fun p => p.hart != k),
    fork := r.fork.map (fun f => { f with
      hart := if f.hart = k then noHart else f.hart,
      chunks := f.chunks.map (fun c => if c.hart = k then { c with hart := noHart } else c) }) }

/-- `STOPPED_HART_SLOT_FREE`: firmware frees the slot of a hart that stopped for lack of a trap vector (R138). (DEDUCED: log entry 16) -/
def execStoppedHartSlotFree (hart : Nat) (s : State) : Out :=
  if !ringExists (ringOf hart) then .fault .noSuchUnit
  else if (s.hart hart).live && (s.hart hart).stopped then
    .next ((s.freeSlot hart).modRing (ringOf hart) (fun r => r.forget hart))
  else s.noEvent

end Sys2Proof.Machine
end

