-- ==== Sys2Proof/Machine/RingEvents.lean ====
section
/-! DEFINITION. The events of the message rings (R220 to R242): flits hop from stop to stop with the dateline and the escape
channel, packets leave at stop 0 and enter there, stops resolve messages, messages start harts or fill the receive queue, and
the ring sequencer detects a receive deadlock. -/

namespace Sys2Proof.Machine

/-! ### Packets and stops -/

/-- Flits of a packet: its head and its payload (R220). -/
def Packet.flits (p : Packet) : Nat := 1 + p.payload.length / 2

/-- An absent packet. -/
def Packet.none : Packet :=
  { id := 0, dest := 0, header := 0, payload := [], dir := 0, crossed := false, vc := 0, esc := Option.none, notice := false }

/-- A packet of a ring. -/
abbrev Ring.packet (r : Ring) (id : Nat) : Packet := tget Packet.none r.packets id

/-- The stop after a position in a direction. -/
def nextStop (dir pos : Nat) : Nat := if dir = 0 then (pos + 1) % 8 else (pos + 7) % 8

/-- Whether a hop from a position crosses the dateline between stops 7 and 0 (R223). -/
def crossesDateline (dir pos : Nat) : Bool := if dir = 0 then pos = 7 else pos = 0

/-- Whether a stop's input has a free shared slot (R222). -/
def Stop.sharedFree (st : Stop) : Bool := (st.input.filter (·.shared)).length < 8

/-- Whether the reserved slot of a channel is free. -/
def Stop.reservedFree (st : Stop) (ch : Nat) : Bool := !(st.input.any (fun f => f.chan = ch && !f.shared))

/-- Where a flit goes next. -/
inductive HopTo where
  | eject
  | next (chan : Nat) (shared : Bool)
  deriving DecidableEq, Repr

/-- A flit that can move: the input channel it comes from, or the injection. -/
structure Hop where
  src : Option Nat
  pkt : Nat
  seq : Nat
  dst : HopTo
  deriving DecidableEq, Repr

/-- The flit that moves first from a source at a stop: packet, number, channel. -/
def Ring.frontFlit (r : Ring) (st : Stop) (src : Option Nat) : Option (Nat × Nat × Nat) :=
  match src with
  | some ch => (st.input.find? (fun f => f.chan = ch)).map (fun f => (f.pkt, f.seq, f.chan))
  | none => (st.inj.head?).map (fun id => (id, st.injSent, (r.packet id).vc))

/-- The packets that are at a stop, whole or in part. -/
def Stop.packets (st : Stop) : List Nat := st.input.map (·.pkt) ++ st.inj ++ st.eject.toList

/-- Whether an older packet of the same sender to the same core is at a stop: a packet goes no further while it is, so that the two keep their
order (R225). (DEDUCED: log entry 64) -/
def Ring.olderAt (r : Ring) (st : Stop) (p : Packet) : Bool :=
  st.packets.any (fun i => i < p.id && (r.packet i).header.extractLsb' 0 26 == p.header.extractLsb' 0 26 && destCore (r.packet i).dest == destCore p.dest)

/-- Whether the head flit of a packet on the escape channel waits at a stop's input for the ejection buffer: it comes first (R261). (DEDUCED: log entry 64) -/
def Stop.escapeWaits (st : Stop) : Bool := (st.input.find? (fun f => f.chan = 2)).any (fun f => f.seq = 0)

/-- Where the front flit of a source can go now (R223, R224, R261): into the ejection buffer at its stop, or into the next input on
a shared slot, else on the reserved slot of its channel, else, a head flit, on the escape channel, which its packet then
follows for this hop. (DEDUCED: log entry 64) -/
def Ring.hop (r : Ring) (ring dir pos : Nat) (src : Option Nat) : Option Hop :=
  let st := r.stop dir pos
  match r.frontFlit st src with
  | none => none
  | some (id, seq, ch) =>
    let p := r.packet id
    if seq = 0 && r.olderAt st p then none
    else if ch = 2 || legEnd ring p.dest = pos then
      if (st.eject.isNone && seq = 0 && (src = some 2 || !st.escapeWaits)) || st.eject == some id then some { src := src, pkt := id, seq := seq, dst := .eject }
      else none
    else
      let nxt := nextStop dir pos
      let ns := r.stop dir nxt
      let ch1 := if ch = 1 || crossesDateline dir pos then 1 else 0
      let way := fun (c : Nat) => if ns.sharedFree then some (HopTo.next c true)
        else if ns.reservedFree c then some (HopTo.next c false) else none
      let free := fun (c : Nat) => (ns.entering.find? (fun e => e.1 = c)).isNone
      let dst :=
        if seq != 0 then way (if p.esc = some nxt then 2 else ch1)
        else match way ch1 with
          | some d => if free ch1 then some d else none
          | none => if ns.reservedFree 2 && free 2 && !r.olderAt ns p then some (.next 2 false) else none
      dst.map (fun d => { src := src, pkt := id, seq := seq, dst := d })

/-- The moves possible at a stop. (DEDUCED: log entry 64) -/
def Ring.hops (r : Ring) (ring dir pos : Nat) : List Hop := [some 0, some 1, some 2, none].filterMap (r.hop ring dir pos)

/-- Remove the first flit of a channel from an input. -/
def dropFirst (ch : Nat) : List Flit → List Flit
  | [] => []
  | f :: r => if f.chan = ch then r else f :: dropFirst ch r

/-- The stop after a flit has left it. -/
def Stop.leave (st : Stop) (h : Hop) (flits : Nat) : Stop :=
  match h.src with
  | some ch => { st with input := dropFirst ch st.input }
  | none => if h.seq + 1 = flits then { st with inj := st.inj.drop 1, injSent := 0 } else { st with injSent := st.injSent + 1 }

/-- The stop after a flit has entered its input. -/
def Stop.enter (st : Stop) (id seq ch : Nat) (shared : Bool) (flits : Nat) : Stop :=
  { st with
    input := st.input ++ [{ pkt := id, seq := seq, chan := ch, shared := shared }],
    entering := if seq + 1 = flits then tdel st.entering ch else tput st.entering ch id }

/-- The stop after a packet has left its ejection buffer. -/
def Stop.clearEject (st : Stop) : Stop := { st with eject := none, ejected := 0, arrived := 0, resolved := none }

/-! ### Drops (R229, R231, R345) -/

/-- A message is dropped at a stop: counted there and reported to the sender's context, a notice only in `NDROP`. -/
def State.messageDrop (s : State) (ring pos : Nat) (p : Packet) : State :=
  if p.notice then s.noticeDropped (pkgOfRing ring)
  else
    (s.modCore (coreKey ring pos) (fun c => { c with msgdrop := count32 c.msgdrop })).raise ring
      (p.header.extractLsb' 48 16).toNat cMachineCheck p.dest p.header

/-! ### Leaving the ring at stop 0 (R221, R229, R342) -/

/-- The kind of a transaction that is a message. -/
abbrev kMessage : Nat := 4

/-- The payload flits of a message packet of the fabric (R329). -/
def messageFlits (p : Packet) : List (Word × Word) :=
  (p.dest, p.header) :: (List.range (p.payload.length / 2)).map (fun i => (lget 0 p.payload (2 * i), lget 0 p.payload (2 * i + 1)))

/-- A message crosses the fabric (R342) and waits for the response, which tells whether it was delivered; where nothing can leave the
package or the target has no port it is dropped, cause 4 (R341). -/
def State.messageOut (s : State) (ring target : Nat) (p : Packet) : State :=
  let pkg := pkgOfRing ring
  if s.cutOff pkg || !s.hasPort target then (s.fabLog pkg 4 target 0).messageDrop ring 0 p
  else
    let id := (s.pkg pkg).txnSeq
    let num := 65536 * id + 1
    let t : Txn := { id := id, count := 1, who := .message ring, ctx := (p.header.extractLsb' 48 16).toNat, kind := kMessage, amo := 0, pins := [],
                     frames := [], answers := [], elems := [{ pos := 0, target := target, la := 0, size := 0, data := p.dest, cmp := p.header }],
                     resps := [], sent := [{ num := num, accept := false, idx := [0] }] }
    (s.modPkg pkg (fun q => { q with txnSeq := id + 1, txns := q.txns ++ [t] })).sendPacket pkg
      { dst := target, src := pkg, ch := 16 + 4 * (dieOfRing ring % 4) + destCore p.dest / 2048 % 4, type := 3, seq := 0,
        txn := num, payload := messageFlits p, errors := [] }

/-- A packet for another ring leaves at stop 0. (DEDUCED: log entry 67) -/
def State.leaveRing (s : State) (ring : Nat) (p : Packet) : State :=
  let r := destCore p.dest / 8
  let pkg := pkgOfRing ring
  if pkgOfRing r != pkg then
    if 128 ≤ pkgOfRing r then s.messageDrop ring 0 p else s.messageOut ring (pkgOfRing r) p
  else if !ringExists r || (s.die (dieOfRing r)).failed then s.messageDrop ring 0 p
  else s.modPkg pkg (fun q => { q with dieNet := q.dieNet ++ [p] })

/-! ### Hops -/

/-- Forget a packet that has left the ring. -/
def Ring.dropPacket (r : Ring) (id : Nat) : Ring := { r with packets := tdel r.packets id }

/-- What happens when a packet is whole in the ejection buffer of its last stop: it leaves at stop 0, is dropped at a fused-off
position, or waits to be resolved in order of arrival. -/
def State.arrivedAt (s : State) (ring dir pos id : Nat) : State :=
  let p := (s.ring ring).packet id
  let gone := s.modRing ring (fun r => (r.dropPacket id).modStop dir pos Stop.clearEject)
  if destCore p.dest / 8 != ring then gone.leaveRing ring p
  else if (s.core (coreKey ring pos)).fused then gone.messageDrop ring pos p
  else s.modRing ring (fun r => { r with arrivalSeq := r.arrivalSeq + 1 }.modStop dir pos (fun st =>
    { st with arrived := r.arrivalSeq + 1 }))

/-- Move one flit. -/
def State.moveFlit (s : State) (ring dir pos : Nat) (h : Hop) : State :=
  let p := (s.ring ring).packet h.pkt
  let n := p.flits
  let s1 := s.modRing ring (fun r => r.modStop dir pos (fun st => st.leave h n))
  match h.dst with
  | .eject =>
    let s2 := s1.modRing ring (fun r => r.modStop dir pos (fun st => { st with eject := some h.pkt, ejected := h.seq + 1 }))
    if h.seq + 1 = n then
      let s3 := s2.modRing ring (fun r => { r with packets := tput r.packets h.pkt { p with esc := none } })
      if legEnd ring p.dest = pos then s3.arrivedAt ring dir pos h.pkt else s3
    else s2
  | .next ch shared =>
    let nxt := nextStop dir pos
    let p1 := if h.seq = 0 then
        { p with crossed := p.crossed || crossesDateline dir pos, esc := if ch = 2 then some nxt else p.esc }
      else p
    s1.modRing ring (fun r => { r with packets := tput r.packets h.pkt p1 }.modStop dir nxt
      (fun st => st.enter h.pkt h.seq ch shared n))

/-- Whether a message ring and a position exist. -/
def stopExists (ring dir pos : Nat) : Bool := ringExists ring && dir < 2 && pos < 8

/-- `FLIT_HOP`: one of the flits that can move at a stop moves. (DEDUCED: log entry 64) -/
def execFlitHop (ring dir pos : Nat) (s : State) : Out :=
  if !stopExists ring dir pos then .fault .noSuchUnit
  else
    let hs := (s.ring ring).hops ring dir pos
    match hs[Config.pick s.free % hs.length]? with
    | none => s.noEvent
    | some h => .next (s.tick.moveFlit ring dir pos h)

/-- `PACKET_REINJECT` (R224): a packet that took the escape channel and has further to go is injected again, ahead of every
packet not yet injected. -/
def execPacketReinject (ring dir pos : Nat) (s : State) : Out :=
  if !stopExists ring dir pos then .fault .noSuchUnit
  else
    let r := s.ring ring
    let st := r.stop dir pos
    match st.eject with
    | none => s.noEvent
    | some id =>
      let p := r.packet id
      if st.ejected != p.flits || legEnd ring p.dest = pos then s.noEvent
      else .next (s.modRing ring (fun r => { r with
          packets := tput r.packets id { p with vc := if p.crossed then 1 else 0 } }.modStop dir pos (fun t =>
        { t.clearEject with inj := if t.injSent = 0 then id :: t.inj else t.inj.take 1 ++ id :: t.inj.drop 1 })))

/-- `DIE_NETWORK_TRANSFER` (R221): the oldest message for a ring enters it at stop 0. (DEDUCED: log entry 67) -/
def execDieNetworkTransfer (ring : Nat) (s : State) : Out :=
  if !ringExists ring then .fault .noSuchUnit
  else
    let pkg := pkgOfRing ring
    match (s.pkg pkg).dieNet.find? (fun p => destCore p.dest / 8 = ring) with
    | none => s.noEvent
    | some p =>
      let dir := ringDir 0 0 (destCore p.dest % 8)
      if !s.injects ring dir 0 then s.noEvent
      else
        let s1 := s.modPkg pkg (fun q => { q with dieNet := q.dieNet.erase p })
        .next (s1.modRing ring (fun r => { r with
            packetSeq := r.packetSeq + 1,
            packets := tput r.packets r.packetSeq
              { p with id := r.packetSeq, dir := dir, crossed := false, vc := 0, esc := none } }.modStop dir 0 (fun st =>
          { st with inj := st.inj ++ [r.packetSeq] })))

/-! ### Resolution (R231) -/

/-- The ejection buffers of a position whose packet is whole at its destination, in order of arrival: direction, packet. (DEDUCED: log entry 65) -/
def Ring.arrivals (r : Ring) (ring pos : Nat) : List (Nat × Packet × Stop) :=
  let at_ := fun (dir : Nat) => match (r.stop dir pos).eject with
    | some id =>
      let p := r.packet id
      if (r.stop dir pos).ejected = p.flits && legEnd ring p.dest = pos then some (dir, p, r.stop dir pos) else none
    | none => none
  match at_ 0, at_ 1 with
  | some a, some b => if a.2.2.arrived ≤ b.2.2.arrived then [a, b] else [b, a]
  | some a, none => [a]
  | none, some b => [b]
  | none, none => []

/-- Whether an entry accepts a message. -/
def Handler.accepts (h : Handler) (p : Packet) : Bool :=
  h.valid && (h.open? || h.ctx = (p.header.extractLsb' 48 16).toNat || p.notice)

/-- A handler as resolution reads it. -/
def Handler.resolve (h : Handler) (cause : Nat) : Resolution :=
  .handler (h.w0 &&& pcMask) h.sup h.ctx cause

/-- What a stop decides for a message (R231): none is a drop. -/
def Core.resolve (c : Core) (p : Packet) : Option Resolution :=
  let n := (p.header.extractLsb' 40 8).toNat
  let e := c.handler n
  if e.accepts p then (if n = 255 then some .queue else some (e.resolve 0))
  else if n != 0 && (c.handler 0).valid then some ((c.handler 0).resolve (if e.valid then 2 else 1))
  else none

/-- A message has been resolved; one for a handler sets the latch of every hart of the core (R86). (DEDUCED: log entry 127) -/
def State.resolved (s : State) (ring dir pos : Nat) (d : Resolution) : State :=
  let s1 := s.modRing ring (fun r => r.modStop dir pos (fun st => { st with resolved := some d }))
  match d with
  | .queue => s1
  | .handler _ _ _ _ => s1.latchCore (coreKey ring pos)

/-- `MESSAGE_RESOLUTION`: the destination stop reads the handler table for a message as one step. (DEDUCED: log entry 65, DEDUCED: log entry 127) -/
def execMessageResolution (ring pos : Nat) (s : State) : Out :=
  if !stopExists ring 0 pos then .fault .noSuchUnit
  else match ((s.ring ring).arrivals ring pos).find? (fun a => a.2.2.resolved.isNone) with
    | none => s.noEvent
    | some (dir, p, _) => match (s.core (coreKey ring pos)).resolve p with
      | some d => .next (s.resolved ring dir pos d)
      | none => .next ((s.modRing ring (fun r => (r.dropPacket p.id).modStop dir pos Stop.clearEject)).messageDrop ring pos p)

/-! ### Arrival (R232, R235) -/

/-- The x registers of a message hart: `x9` is the header with its cause, `x10` upward the payload (R23, R227). -/
def messageX (p : Packet) (cause : Nat) : Tab PVal :=
  (p.payload.zipIdx).foldl (fun x w => tset (PVal.clean 0) x (10 + w.2) (PVal.clean w.1))
    (tset (PVal.clean 0) [] 9 (PVal.clean ((p.header &&& 0xFFFFFFE7FFFFFFFF) ||| BitVec.ofNat 64 (cause * 2 ^ 35))))

/-- A message hart (R23, R232). (DEDUCED: log entry 50) -/
def messageHart (p : Packet) (pc : Word) (sup : Bool) (ctx cause : Nat) : Hart :=
  { Hart.empty with live := true, pc := pc, x := messageX p cause, priv := if sup then 1 else 0, route := 2, ctx := ctx }

/-- `MESSAGE_HART_START`: the oldest message of a core that waits for a handler hart claims the lowest free scalar slot. -/
def execMessageHartStart (core : Nat) (s : State) : Out :=
  let ring := ringOfCore core
  if !ringExists ring then .fault .noSuchUnit
  else
    let ready := ((s.ring ring).arrivals ring (posOf core)).filterMap (fun a => match a.2.2.resolved with
      | some (.handler pc sup ctx cause) => some (a.1, a.2.1, messageHart a.2.1 pc sup ctx cause)
      | _ => none)
    match ready, s.freeSlotOf core false with
    | (dir, p, h) :: _, some k =>
      .next ((s.modRing ring (fun r => (r.dropPacket p.id).modStop dir (posOf core) Stop.clearEject)).setHart k h)
    | _, _ => s.noEvent

/-- `RECEIVE_QUEUE_APPEND`: the oldest message of a core that waits for the receive queue is appended when its words fit, and
sets the latches (R86). (DEDUCED: log entry 66) -/
def execReceiveQueueAppend (core : Nat) (s : State) : Out :=
  let ring := ringOfCore core
  if !ringExists ring then .fault .noSuchUnit
  else
    let ready := ((s.ring ring).arrivals ring (posOf core)).filter (fun a => a.2.2.resolved == some .queue)
    match ready with
    | (dir, p, _) :: _ =>
      if 256 < (s.core core).recvQ.length + p.payload.length then s.noEvent
      else
        let scope := (p.header.extractLsb' 32 3).toNat
        let s1 := s.modRing ring (fun r => (r.dropPacket p.id).modStop dir (posOf core) Stop.clearEject)
        .next ((s1.modCore core (fun c => { c with recvQ := c.recvQ ++ p.payload.map (fun w => (w, scope)) })).latchCore core)
    | [] => s.noEvent

/-! ### Receive deadlock (R242) -/

/-- Whether an entry of a hart waits for another: a later convoy waits for the convoy of `e` to drain (R157), a later member of that convoy
for what it shares with `e` (R158). -/
def Hart.waitsFor (h : Hart) (e x : Entry) : Bool :=
  let later := (h.queue.dropWhile (fun y => y.id != e.id)).drop 1
  later.any (fun y => y.id = x.id) &&
    (mustFollow e.instr x.instr || !((e :: later.takeWhile (fun y => !y.first)).any (fun y => y.id = x.id)))

/-- Whether every entry of a hart that is not frozen waits only because of one of them (R242). (DEDUCED: log entry 68) -/
def Hart.onlyBy (h : Hart) (e : Entry) : Bool := h.queue.all (fun x => x.frozen || x.id = e.id || h.waitsFor e x)

/-- Whether the scalar front end of a hart waits, and only because of a vector entry that stalls on the receive queue (R242). (DEDUCED: log entry 68) -/
def Hart.frontWaits (h : Hart) (e : Entry) : Bool :=
  let later := h.queue.dropWhile (fun x => x.id != e.id)
  ((h.retiring || h.wait == .drain) && h.onlyBy e) || (match h.wait with
    | .delivery r => later.any (fun x => !x.frozen && vectorXDest x.instr == some r && (x.id = e.id || h.waitsFor e x))
    | _ => false) ||
  (match h.pendConvoy with
   | some p =>
     let held := (h.queue.filter (fun x => x.id = e.id || h.waitsFor e x)).length
     min h.depth Config.vqEntries < held + p.words.length
   | none => false)

/-- Whether a hart is blocked as a receive deadlock counts it. -/
def State.stallBlocked (s : State) (k : Nat) : Bool :=
  let h := s.hart k
  let empty := (s.core (coreOf k)).recvQ.isEmpty
  h.live && empty && ((h.wait == .recv && !h.stopped) ||
    (s.vectorBlocked k && (match h.poppingEntry with
      | some e => h.frontWaits e
      | none => false)))

/-- The live harts of a ring. -/
def State.ringHarts (s : State) (ring : Nat) : List Nat :=
  ((List.range 64).map (fun i => ring * 64 + i)).filter (fun k => (s.hart k).live)

/-- Whether no flit lies in any buffer of the message rings of a ring. -/
def Ring.quiet (r : Ring) : Bool := r.stops.all (fun e => e.2.input.isEmpty && e.2.inj.isEmpty && e.2.eject.isNone)

/-- Whether no message of a ring lies in the buffers at its stop 0, on the way out or in (R242). (DEDUCED: log entry 68) -/
def State.quietGate (s : State) (ring : Nat) : Bool :=
  (s.pkg (pkgOfRing ring)).dieNet.all (fun p => destCore p.dest / 8 != ring && (p.notice || p.header.toNat % 2 ^ 26 / 64 != ring))

/-- Whether every live hart of a ring is blocked. -/
def State.allBlocked (s : State) (ring : Nat) : Bool :=
  !(s.ringHarts ring).isEmpty && (s.ringHarts ring).all s.stallBlocked

/-- The sequencer may raise `RINGSTALL` again once some hart that was blocked has left that state. (DEDUCED: log entry 68) -/
def State.rearm (s : State) (ring : Nat) : State :=
  if (s.ring ring).stalled.all s.stallBlocked then s else s.modRing ring (fun r => { r with stalled := [] })

/-- `RINGSTALL`: every live hart of a ring is blocked in a receive and no flit can free it. (DEDUCED: log entry 68) -/
def execRingstall (ring : Nat) (s : State) : Out :=
  if !ringExists ring then .fault .noSuchUnit
  else match (s.ring ring).prog with
    | none => s.noEvent
    | some p =>
      if !(s.ring ring).stalled.isEmpty || !(s.ring ring).quiet || !s.quietGate ring || !s.allBlocked ring then s.noEvent
      else
        let mask := (s.ringHarts ring).foldl (fun a k => a ||| 2 ^ (k % 64)) 0
        .next ((s.modRing ring (fun r => { r with stalled := s.ringHarts ring })).postEvent p.hart
          { code := cRingstall, addr := 0, val := BitVec.ofNat 64 mask })

end Sys2Proof.Machine
end

