-- ==== Sys2Proof/Machine/Coherence.lean ====
section
/-! DEFINITION. The events of the caches and memories: tokens move between L1 caches (R268, R269), each frame has its home slice (R267), the scrubber reads a sector
(R272), and an error strikes the on-chip storage of a die (R274). -/

namespace Sys2Proof.Machine

/-! ### Tokens (R268, R269) -/

/-- Whether a die exists on the DN-4816 (R3). (DESIGN CHOICE: log entry 10) -/
def dieExists (d : Nat) : Bool := d / 16 < 128 && d % 16 < 4

/-- The tokens of a line on a die. -/
def State.line (s : State) (die line : Nat) : LineTokens := tget LineTokens.home (s.die die).lines line

/-- Put the tokens of a line. -/
def State.setLine (s : State) (die line : Nat) (t : LineTokens) : State := s.modDie die (fun d => { d with lines := tput d.lines line t })

/-- The die of a core. -/
abbrev dieOfCore (c : Nat) : Nat := dieOfRing (ringOfCore c)

/-- Whether two cores exist, differ and share a die that lives. -/
def State.peers (s : State) (a b : Nat) : Bool :=
  a != b && dieOfCore a = dieOfCore b && !(s.die (dieOfCore a)).failed

/-- `READ_REQUEST`: the L1 that holds the owner token and a second one sends a token with the data (R268, the DN-4816: in S it sends none);
while a persistent request is active, the tokens go on to its core. (DEDUCED: log entry 37, DEDUCED: log entry 38) -/
def execReadRequest (core line requester : Nat) (s : State) : Out :=
  if !ringExists (ringOfCore core) || !ringExists (ringOfCore requester) then .fault .noSuchUnit
  else if !s.peers core requester then s.noEvent
  else
    let t := s.line (dieOfCore core) line
    if t.owner != some core || t.of core < 2 then .next s else .next (s.setLine (dieOfCore core) line (t.give core requester).honour)

/-- Every token of a core goes to another, the owner token with them. -/
def LineTokens.send (t : LineTokens) (src dst : Nat) : LineTokens :=
  { t with
    held := tset 0 (tset 0 t.held src 0) dst (tget 0 (tset 0 t.held src 0) dst + t.of src),
    owner := if t.owner = some src then some dst else t.owner }

/-- `WRITE_REQUEST`: an L1 sends every token it holds, with its data when it holds the owner token (R268). (DEDUCED: log entry 38) -/
def execWriteRequest (core line requester : Nat) (s : State) : Out :=
  if !ringExists (ringOfCore core) || !ringExists (ringOfCore requester) then .fault .noSuchUnit
  else if !s.peers core requester then s.noEvent
  else .next (s.setLine (dieOfCore core) line ((s.line (dieOfCore core) line).send core requester).honour)

/-- `EVICTION`: the tokens go to the home or proxy slice; with the owner token, dirty sectors and markers are written back
(R268, R275). Memory holds the bytes of a line wherever they are cached. (DEDUCED: log entry 37) -/
def execEviction (core line : Nat) (s : State) : Out :=
  if !ringExists (ringOfCore core) then .fault .noSuchUnit
  else
    let t := s.line (dieOfCore core) line
    if t.of core = 0 || (s.die (dieOfCore core)).failed then s.noEvent
    else .next (s.setLine (dieOfCore core) line
      { t with held := tset 0 t.held core 0, owner := if t.owner = some core then none else t.owner })

/-- Whether an agent has a persistent request on its die: it has at most one (R269). (DEDUCED: log entry 38) -/
def Die.requests (d : Die) (a : Nat) : Bool := d.lines.any (fun e => e.2.persistent.contains a)

/-- The agent of a core that sends a persistent request for a line: the lowest that has asked for it twice in vain and has no request (R269). (DEDUCED: log entry 38) -/
def State.requester (s : State) (core line : Nat) : Option Nat :=
  ((s.line (dieOfCore core) line).unserved.find? (fun e =>
    agentCore e.1 = core && 2 ≤ e.2 && !(s.die (dieOfCore core)).requests e.1)).map (·.1)

/-- `PERSISTENT_REQUEST`: the request of an agent of a core joins those of the line; the first is active and draws every token to its core
(R268, R269). (DEDUCED: log entry 38) -/
def execPersistentRequest (die line core : Nat) (s : State) : Out :=
  if !ringExists (ringOfCore core) || !dieExists die then .fault .noSuchUnit
  else
    let t := s.line die line
    if dieOfCore core != die || (s.die die).failed then s.noEvent
    else match s.requester core line with
      | none => s.noEvent
      | some a => .next (s.setLine die line { t with persistent := t.persistent ++ [a] }.honour)

/-- The attempts of a line that agents still make, and their requests: a request is deactivated once its access has performed or its agent
can make it no more, and the next becomes active (R269). (DEDUCED: log entry 38) -/
def LineTokens.keep (t : LineTokens) (asks : Nat → Bool) : LineTokens :=
  let left := t.unserved.filter (fun e => asks e.1)
  { t with unserved := left, persistent := t.persistent.filter (fun a => left.any (fun e => e.1 = a)) }.honour

/-- The requests of a die that still stand. -/
def Die.deactivate (d : Die) (asks : Nat → Bool) : Die :=
  if d.lines.any (fun e => !e.2.unserved.isEmpty || !e.2.persistent.isEmpty) then
    { d with lines := d.lines.map (fun (e : Nat × LineTokens) =>
        if e.2.unserved.isEmpty && e.2.persistent.isEmpty then e else (e.1, e.2.keep asks)) }
  else d

/-- After an agent has acted, it asks only for the lines for which it has asked in vain again: its other accesses have performed, or are
no more (R269). (DEDUCED: log entry 38) -/
def State.afterAttempt (s t : State) (a : Nat) : State :=
  let d := dieOf (a / 2)
  if (t.die d).lines.any (fun e => e.2.unserved.any (fun u => u.1 = a)) then
    t.modDie d (fun x => { x with lines := x.lines.map (fun (e : Nat × LineTokens) =>
      if tget 0 e.2.unserved a = tget 0 (s.line d e.1).unserved a then (e.1, { e.2 with unserved := tdel e.2.unserved a }) else e) })
  else t

/-! ### Home slices (R267) -/

/-- The slice that the hash of a frame names: the XOR of the eight 5-bit fields of PA[51:12]. -/
def frameHash (pa : Nat) : Nat := (List.range 8).foldl (fun h i => h ^^^ (pa / 4096 / 32 ^ i % 32)) 0

/-- The slice of a die that serves a hash: the next one live in ascending order, wrapping. -/
def Die.sliceOf (d : Die) (h : Nat) : Option Nat := ((List.range 32).map (fun i => (h + i) % 32)).find? (fun i => !d.slicesFused.contains i)

/-- The home slice of a frame: a slice of the die that holds it. -/
def State.homeSlice (s : State) (pkg pa : Nat) : Option (Nat × Nat) :=
  (s.homeOf pkg pa).bind (fun h => ((s.die (dieKey pkg h.1)).sliceOf (frameHash pa)).map (fun i => (dieKey pkg h.1, i)))

/-- The slice of a requesting die that serves a frame: the home slice itself, or the proxy slice of the same number. (DEDUCED: log entry 37) -/
def State.servingSlice (s : State) (die pa : Nat) : Option (Nat × Nat) :=
  match s.homeSlice (pkgOfDie die) pa with
  | none => none
  | some (d, i) => if d = die then some (d, i) else ((s.die die).sliceOf i).map (fun j => (die, j))

/-! ### The scrubber (R272) -/

/-- The scrubber finds an error beneath a sector that a cache holds: the markers stand in memory alone, where a later read finds them
unless the cached sector is written back (R266, R272). (DESIGN CHOICE: log entry 39) -/
def State.scrubBeneath (s : State) (pkg sector die : Nat) : State :=
  (s.modPkg pkg (fun p => { p with scrubbed := sins sector p.scrubbed })).modDie die (fun d => { d with
    eccue := count32 d.eccue, ecclog := BitVec.ofNat 64 (2 ^ 63 + 2 ^ 62 + 32 * sector) })

/-- `PATROL_SCRUB`: the scrubber reads a sector and writes markers into it where it is uncorrectable. (DESIGN CHOICE: log entry 39) -/
def execPatrolScrub (pkg sector : Nat) (s : State) : Out :=
  match s.homeOf pkg (32 * sector) with
  | none => .fault .noSuchUnit
  | some (d, _) =>
    if 128 ≤ pkg then .fault .noSuchUnit
    else if (s.die (dieKey pkg d)).failed then s.noEvent
    else if s.badAt (locDev pkg (32 * sector)) then .next (s.poisonSector (locDev pkg (32 * sector)) true)
    else if (s.pkg pkg).badSectors.contains sector && !(s.pkg pkg).scrubbed.contains sector then
      .next (s.scrubBeneath pkg sector (dieKey pkg d))
    else .next s

/-! ### Harts and rings that are lost (R274) -/

/-- The status of a launch that a failure reaches. -/
def State.launchStatus (s : State) (pkg launch status : Nat) : State :=
  s.modPkg pkg (fun p => { p with launches := p.launches.map (fun l =>
    if l.id = launch && l.status = 0 then { l with status := status } else l) })

/-- The other ring programs of a launch take `MACHINE_CHECK`; one that is saved takes it once it is restored, and none of the launch is placed
any more. (DEDUCED: log entry 79) -/
def State.checkLaunch (s : State) (pkg launch : Nat) (val : Word) : State :=
  let e : Event := { code := cMachineCheck, addr := 0, val := val }
  let s1 := s.rings.foldl (fun t r => match r.2.prog with
    | some p => if pkgOfRing r.1 = pkg && p.launch = launch then t.postEvent p.hart e else t
    | none => t) s
  s1.modPkg pkg (fun p => { p with
    saved := p.saved.map (fun x => if x.launch = launch then { x with checks := x.checks ++ [e] } else x),
    vestibule := p.vestibule.filter (fun r => r.id != launch),
    launches := p.launches.map (fun l => if l.id = launch then { l with unplaced := 0 } else l) })

/-- The stores of a hart that have not performed are lost (R274): the versions of its chunk. -/
def State.dropVersions (s : State) (k : Nat) : State :=
  s.modFork (ringOf k) (fun f => { f with chunks := f.chunks.map (fun c =>
    if c.hart = k then { c with bytes := [], marks := [], clears := [] } else c) })

/-- A hart is gone: what it waits for, holds and has under way with it. -/
def State.dropHart (s : State) (k : Nat) : State := (s.freeSlot k).modRing (ringOf k) (fun r => r.forget k)

/-- What engines of a core have in flight ends without notices. -/
def Core.stopEngines (c : Core) : Core := { c with copies := [], copyWait := [] }

/-- Whether an engine of a ring makes an access. -/
def Who.engineOf (w : Who) (ring : Nat) : Bool := match w with
  | .copy c _ _ => ringOfCore c = ring
  | .merge r _ => r = ring
  | _ => false

/-- The engines of a ring give up what they have under way with other packages. -/
def State.releaseEngines (s : State) (ring : Nat) : State :=
  (((s.pkg (pkgOfRing ring)).txns.map (·.who)).filter (fun w => w.engineOf ring)).foldl State.release s

/-- The harts, the fork and the engines of a ring are gone. -/
def State.emptyRing (s : State) (ring : Nat) : State :=
  let s1 := (List.range 64).foldl (fun t i => if (t.hart (ring * 64 + i)).live then t.dropHart (ring * 64 + i) else t) s
  let s2 := (List.range 8).foldl (fun t p => t.modCore (coreKey ring p) Core.stopEngines) (s1.releaseEngines ring)
  s2.modRing ring (fun r => { r with prog := none, fork := none, sfu := [], mergeQ := [], mergeRun := none, mergeWait := [] })

/-- `RING_DISCARD` (R274): the launch of the ring's program will complete with `UNRECOV`, and its other ring programs take
`MACHINE_CHECK`. What the ring's cores hold is reset before the next dispatch (R297). (DESIGN CHOICE: log entry 40) -/
def State.discardRing (s : State) (ring : Nat) : State :=
  match (s.ring ring).prog with
  | none => s.emptyRing ring
  | some p =>
    let s1 := (s.programEnds ring).emptyRing ring
    (s1.launchStatus (pkgOfRing ring) p.launch 4).checkLaunch (pkgOfRing ring) p.launch 2

/-- `HART_DISCARD` (R274): the context's ring program takes `MACHINE_CHECK`; without the ring program the ring is lost. (DESIGN CHOICE: log entry 40) -/
def State.discardHart (s : State) (k : Nat) : State :=
  if s.isProgram k then s.discardRing (ringOf k)
  else ((s.dropVersions k).dropHart k).raise (ringOf k) (s.hart k).ctx cMachineCheck 0
    (BitVec.ofNat 64 (1 + 256 * posOf (coreOf k) + 2048 * slotOf k))

/-! ### Errors in on-chip storage (R274) -/

/-- Count an uncorrectable error of a die's storage. -/
def State.sramUe (s : State) (die : Nat) : State := s.modDie die (fun d => { d with sramue := count32 d.sramue })
/-- Count a corrected error of a die's storage. (DESIGN CHOICE: log entry 41) -/
def State.sramCe (s : State) (die : Nat) : State := s.modDie die (fun d => { d with sramce := count32 d.sramce })
/-- Count a corrected sector of a die's memory. (DESIGN CHOICE: log entry 41) -/
def State.eccCe (s : State) (die : Nat) : State := s.modDie die (fun d => { d with eccce := count32 d.eccce })

/-- The die that a site stands on. -/
def siteDie : SramSite → Nat
  | .cleanCopy d | .cachedTables d _ | .sector d _ | .lineTokens d _ => d
  | .version r _ _ | .ringShared r => dieOfRing r
  | .localWord l =>
    if isTcm l then dieOfCore (l % 2 ^ 60 / 2 ^ 17) else if isScratch l then dieOfRing (l % 2 ^ 61 / 2 ^ 22)
    else l % 2 ^ 62 / 2 ^ 25
  | .laneWord h _ | .xRegister h _ | .container h _ _ | .captured h _ | .pendingValue h _ _ | .hartState h => dieOf h
  | .accumulator c _ | .landing c _ | .outgoing c _ => dieOfCore c

/-- Whether the storage of a site holds anything. -/
def State.siteHolds (s : State) : SramSite → Bool
  | .cleanCopy _ => true
  | .cachedTables d ctx => (s.residentOf d ctx).isSome
  | .sector d x => (s.line d (locDev (pkgOfDie d) (32 * x) / 128)).valid &&& sectorBit (32 * x) != 0
  | .lineTokens d x => let t := s.line d (locDev (pkgOfDie d) (128 * x) / 128); t.valid != 0 || !t.held.isEmpty
  | .version r j w => match (s.ring r).fork with
    | some f => (f.chunk? j).any (fun c => c.bytes.any (fun e => e.1 / 8 = w))
    | none => false
  | .localWord l => isTcm l || isScratch l || isStore l
  | .laneWord h _ | .xRegister h _ | .container h _ _ | .hartState h => (s.hart h).live
  | .captured h i => (s.hart h).live && i < (s.hart h).queue.length
  | .pendingValue h i e => (s.hart h).live && ((s.hart h).queue[i]?).any (fun q => q.pend.any (fun v => v.1 = e))
  | .accumulator c _ => (s.core c).mxOwner.isSome
  | .landing c _ => (s.core c).landing.isSome
  | .outgoing c _ => (s.core c).outBuf.isSome
  | .ringShared r => ringExists r

/-- Poison a container of a fragment. -/
def Fragment.poison (f : Fragment) (e : Nat) : Fragment := { f with data := tset (PVal.clean 0) f.data e PVal.poisoned }

/-- Change the entry of a queue at a position. -/
def Hart.modEntry (h : Hart) (i : Nat) (f : Entry → Entry) : Hart := { h with queue := h.queue.modify i f }

/-- An error in a chunk's version: a speculative chunk runs again, the oldest one's word is marked. -/
def State.versionError (s : State) (ring j w : Nat) : State :=
  match (s.ring ring).fork with
  | none => s
  | some f =>
    if j = f.oldest then s.modFork ring (fun g => g.modChunk j (fun c =>
      c.putVersion ((List.range 8).map (fun i => (8 * w + i, (0 : Byte)))) true))
    else s.squashFrom ring j

/-- What an uncorrectable error does, by what the storage holds. (DESIGN CHOICE: log entry 40) -/
def State.strike (s : State) : SramSite → State
  | .cleanCopy _ => s
  | .cachedTables d ctx =>
    (match s.residentOf d ctx with
     | none => s
     | some r =>
       let t := (s.modDie d (fun x => x.dropTrans ctx .all)).demandImage (pkgOfDie d) ctx r.img 0 r.apLen
       t.modResident d ctx (fun y => { y with vtt := t.loadImage (pkgOfDie d) ctx r.img 0 r.apLen y.vtt }))
  | .sector d x => { s with mem := s.mem.poisonRange (locDev (pkgOfDie d) (32 * x)) 32 }.fill d (locDev (pkgOfDie d) (32 * x)) true
  | .lineTokens d x =>
    ((s.poisonBytes (locDev (pkgOfDie d) (128 * x)) 128).dropLines (locDev (pkgOfDie d) (128 * x)) 128).healSectors
      (pkgOfDie d) (4 * x) 4
  | .version r j w => s.versionError r j w
  | .localWord l => { s with mem := s.mem.poisonRange (l / 8 * 8) 8 }
  | .laneWord h w => s.modHart h (fun x => { x with lanes := x.lanes.poisonRange (8 * w) 8 })
  | .xRegister h r => s.modHart h (fun x => x.setX r PVal.poisoned)
  | .container h r e => s.modHart h (fun x => x.setV r.toNat e PVal.poisoned)
  | .captured h i => s.modHart h (fun x => x.modEntry i (fun q => { q with x := PVal.poisoned }))
  | .pendingValue h i e => s.modHart h (fun x => x.modEntry i (fun q => { q with pend := tput q.pend e PVal.poisoned }))
  | .accumulator c e => s.modCore c (fun x => { x with mxTiles := tset (PVal.clean 0) x.mxTiles e PVal.poisoned })
  | .landing c e => s.modCore c (fun x => { x with landing := x.landing.map (fun f => f.poison e) })
  | .outgoing c e => s.modCore c (fun x => { x with outBuf := x.outBuf.map (fun f => f.poison e) })
  | .hartState h => s.discardHart h
  | .ringShared r => s.discardRing r

/-- A copy that is fetched again counts as a corrected error, every other site as an uncorrectable one. -/
def siteCorrects : SramSite → Bool
  | .cleanCopy _ | .cachedTables _ _ => true
  | _ => false

/-- `SRAM_ERROR` (R274). (DESIGN CHOICE: log entry 40) -/
def execSramError (site : SramSite) (s : State) : Out :=
  let d := siteDie site
  if !dieExists d then .fault .noSuchUnit
  else if (s.die d).failed || !s.siteHolds site then s.noEvent
  else .next ((if siteCorrects site then s.sramCe d else s.sramUe d).strike site)

end Sys2Proof.Machine
end

