-- ==== Sys2Proof/Machine/VecPerm.lean ====
section
/-! DEFINITION. Slides and permutations (R124 to R128), reductions and scans (R36, R37, R129 to R132), and `setvlf` (R133). -/

namespace Sys2Proof.Machine

/-! ### Permutations -/

/-- The source of a permutation: `vl` containers, or `vl` words popped as one step (R93). -/
def State.permSource (s : State) (r : VReg) : Except State (State × List PVal) :=
  let n := s.me.vl
  if r.toNat < 48 then .ok (s, (List.range n).map (s.me.getV r.toNat))
  else
    let c := s.core (coreOf s.cur)
    if r.toNat = 48 then
      match c.landing with
      | some f => .ok (s, (List.range n).map f.at)
      | none => .error s
    else
      let who := vectorPop s.cur
      if n ≤ c.recvQ.length && c.popServed who then
        .ok (s.modCore (coreOf s.cur) (fun x => { x with recvQ := x.recvQ.drop n, recvWait := sdel who x.recvWait }),
             (c.recvQ.take n).map (fun e => PVal.clean e.1))
      else .error (s.modCore (coreOf s.cur) (fun x => { x with recvWait := joinLast who x.recvWait }))

/-- A permutation: `f` gives each written container from the source containers. -/
def State.permute (s : State) (o : VOp) (f : Hart → Entry → List PVal → Nat → PVal) : Out :=
  s.member (fun t ent =>
    if t.holdsSpec o then t
    else if t.me.vl = 0 then t.complete
    else match t.permSource o.vs1 with
      | .error u => u
      | .ok (u, src) =>
        let h := u.me
        ((List.range h.vl).foldl (fun (w : State) e =>
          if h.active o e then w.modMe (fun g => g.setV o.vd.toNat e (f h ent src e)) else w.inactive o e) u).complete)

/-- The element at a flat index of a list of containers, with the poison of its container. -/
def flatElem (t : Ty) (src : List PVal) (q : Nat) : Nat × Bool :=
  let c := lget (PVal.clean 0) src (q / t.elems)
  (elemOf t c.val (q % t.elems), c.poison)

/-- A container made of elements with poison. -/
def gatherElems (t : Ty) (es : List (Nat × Bool)) : PVal :=
  if es.any (·.2) then PVal.poisoned else PVal.clean (packElems t (es.map (·.1)))

/-- The elements of a container made from flat indexes, `none` for the filling value. -/
def permElems (t : Ty) (src : List PVal) (fill : Nat × Bool) (e : Nat) (at_ : Nat → Option Nat) : PVal :=
  gatherElems t ((List.range t.elems).map (fun i => match at_ (e * t.elems + i) with
    | some j => flatElem t src j
    | none => fill))

/-- The filling value of a slide (R125). -/
def slideFill (o : VOp) (ent : Entry) : Nat × Bool := (ent.x.val.toNat % 2 ^ o.ty.width, ent.x.poison)

/-- `vslup` (R125). -/
def execVslup (o : VOp) (s : State) : Out :=
  s.permute o (fun _ ent src e => permElems o.ty src (slideFill o ent) e (fun q =>
    if o.lowBits 10 0 ≤ q then some (q - o.lowBits 10 0) else none))

/-- `vsldn` (R125). -/
def execVsldn (o : VOp) (s : State) : Out :=
  s.permute o (fun h ent src e => permElems o.ty src (slideFill o ent) e (fun q =>
    if q + o.lowBits 10 0 < h.vl * o.ty.elems then some (q + o.lowBits 10 0) else none))

/-- `vgathr` (R126). -/
def execVgathr (o : VOp) (s : State) : Out :=
  s.permute o (fun h _ src e =>
    let ix := h.getV o.vs2.toNat e
    if ix.poison then PVal.poisoned
    else if o.lowBits 0 0 = 1 then
      (if ix.val.toNat < h.vl then lget (PVal.clean 0) src ix.val.toNat else PVal.clean 0)
    else permElems o.ty src (0, false) e (fun q =>
      let j := elemOf o.ty ix.val (q % o.ty.elems)
      if j < h.vl * o.ty.elems then some j else none))

/-- c(e), the active containers below one (R127). -/
def Hart.rank (h : Hart) (o : VOp) (e : Nat) : Nat := ((List.range e).filter (h.active o)).length

/-- `vcompr` (R127). -/
def execVcompr (o : VOp) (s : State) : Out :=
  s.member (fun t _ =>
    if t.holdsSpec o then t
    else if t.me.vl = 0 then t.complete
    else match t.permSource o.vs1 with
      | .error u => u
      | .ok (u, src) =>
        let h := u.me
        let act := (List.range h.vl).filter (h.active o)
        let w1 := act.foldl (fun (w : State) e =>
          w.modMe (fun g => g.setV o.vd.toNat (h.rank o e) (lget (PVal.clean 0) src e))) u
        let w2 := if o.z then (containers act.length h.vl).foldl (fun (w : State) e =>
          w.modMe (fun g => g.setV o.vd.toNat e (PVal.clean 0))) w1 else w1
        w2.complete)

/-- `vexpnd` (R127). -/
def execVexpnd (o : VOp) (s : State) : Out :=
  s.permute o (fun h _ src e => lget (PVal.clean 0) src (h.rank o e))

/-- `vrev` (R128). -/
def execVrev (o : VOp) (s : State) : Out :=
  s.permute o (fun h _ src e => permElems o.ty src (0, false) e (fun q => some (h.vl * o.ty.elems - 1 - q)))

/-! ### The operators of reductions and scans (R129) -/

/-- One operation: its bits, its flags and whether `.sat` clipped. -/
def foldElem (o : VOp) (ftz : Bool) (rm : Rm) (a b : Nat) : Nat × Flags × Bool :=
  let t := o.ty
  let opr := o.lowBits 2 0
  if t.isInt then
    let x := intOf t.signed t.width a
    let y := intOf t.signed t.width b
    match opr with
    | 0 => let r := intResult t (o.lowBits 12 12 == 1) (x + y); (r.1, 0, r.2)
    | 1 => (if x ≤ y then a else b, 0, false)
    | 2 => (if x ≤ y then b else a, 0, false)
    | 3 => (a &&& b, 0, false)
    | 4 => (a ||| b, 0, false)
    | _ => (a ^^^ b, 0, false)
  else
    match opr with
    | 0 => let r := fpAdd ftz t rm (readF ftz t a) (readF ftz t b); (r.1, r.2, false)
    | 1 => let r := fpMinMax false ftz t a b; (r.1, r.2, false)
    | _ => let r := fpMinMax true ftz t a b; (r.1, r.2, false)

/-- The identity of an operator (R129). -/
def foldIdentity (o : VOp) : Nat :=
  let t := o.ty
  if t.isInt then
    match o.lowBits 2 0 with
    | 1 => wrapInt t.width (intMax t)
    | 2 => wrapInt t.width (intMin t)
    | 3 => 2 ^ t.width - 1
    | _ => 0
  else
    match o.lowBits 2 0 with
    | 0 => 0
    | 1 => infBits t false
    | _ => infBits t true

/-- What combining so far has raised: the flags up to the first enabled one, that operation's enabled flags, and a clip. -/
structure Raised where
  flags : Flags
  enabled : Flags
  sat : Bool
  deriving DecidableEq, Repr

/-- Combine two nodes (R36): an empty one leaves the other; poison gives poison and raises nothing (R42); `quiet` tells that
the result will be poisoned. Of several operations that raise an enabled flag the first, in the order in which the tree is walked, is
the one that `TVAL` reports, and what later ones raise is not set (R35, R136). (DESIGN CHOICE: log entry 124) -/
def joinNodes (o : VOp) (h : Hart) (rm : Rm) (quiet : Bool) (r : Raised) (a b : Option PVal) : Raised × Option PVal :=
  match a, b with
  | none, y => (r, y)
  | x, none => (r, x)
  | some x, some y =>
    if x.poison || y.poison then (r, some PVal.poisoned)
    else
      let (v, f, c) := foldElem o h.ftz rm x.val.toNat y.val.toNat
      let r' := if quiet || r.enabled != 0 then r
        else { flags := r.flags ||| f, enabled := f &&& h.ten, sat := r.sat || c }
      (r', some (PVal.clean (BitVec.ofNat 64 v)))

/-- The pending value of a level (R161). -/
def pendAt (m : Tab PVal) (level : Nat) : Option PVal := (m.find? (fun e => e.1 = level)).map (·.2)

/-- Set or clear the pending value of a level. -/
def setPend (m : Tab PVal) (level : Nat) : Option PVal → Tab PVal
  | some p => tput m level p
  | none => tdel m level

/-- Enter a leaf at a position: it joins the left siblings that wait for it (R36). -/
def carryUp (o : VOp) (h : Hart) (rm : Rm) (quiet : Bool) (pos : Nat) : Nat → Nat → Raised → Tab PVal → Option PVal → Raised × Tab PVal
  | 0, level, r, m, node => (r, setPend m level node)
  | fuel + 1, level, r, m, node =>
    if pos / 2 ^ level % 2 = 1 then
      let (r1, n1) := joinNodes o h rm quiet r (pendAt m level) node
      carryUp o h rm quiet pos fuel (level + 1) r1 (tdel m level) n1
    else (r, setPend m level node)

/-- The root over the first `n` positions: the pending values from the right. (DEDUCED: log entry 23) -/
def rootOf (o : VOp) (h : Hart) (rm : Rm) (quiet : Bool) (m : Tab PVal) (n : Nat) (r : Raised) : Raised × Option PVal :=
  (List.range 12).foldl (fun acc level =>
    if n / 2 ^ level % 2 = 1 then joinNodes o h rm quiet acc.1 (pendAt m level) acc.2 else acc) (r, none)

/-- The seed (R129): none when the x field is 0. -/
def seedOf (o : VOp) (ent : Entry) : Option PVal :=
  if o.x = 0 then none else some { val := BitVec.ofNat 64 (ent.x.val.toNat % 2 ^ o.ty.width), poison := ent.x.poison }

/-- Whether a container starts a segment (R129). -/
def Hart.segStart (h : Hart) (o : VOp) (e : Nat) : Bool :=
  e = 0 || (o.lowBits 3 3 = 1 && (h.getM o.vs2.toNat).getLsbD e)

/-- The start of the segment of a container. -/
def Hart.segOf (h : Hart) (o : VOp) : Nat → Nat
  | 0 => 0
  | e + 1 => if h.segStart o (e + 1) then e + 1 else h.segOf o e

/-- Whether a container below `vl` ends its segment. -/
def Hart.segEnd (h : Hart) (o : VOp) (e : Nat) : Bool := h.vl ≤ e + 1 || h.segStart o (e + 1)

/-- The containers of the segment that starts at one. -/
def Hart.segment (h : Hart) (o : VOp) (start : Nat) : List Nat :=
  (containers start h.vl).filter (fun e => h.segOf o e = start)

/-- Whether a value or the seed of a segment is poisoned (R42). (DEDUCED: log entry 25) -/
def State.segPoison (s : State) (o : VOp) (ent : Entry) (start : Nat) : Bool :=
  ((seedOf o ent).map (·.poison)).getD false ||
  (s.me.segment o start).any (fun e => s.me.active o e &&
    (if o.vs1.toNat < 48 then (s.me.getV o.vs1.toNat e).poison
     else if o.vs1.toNat = 48 then (match (s.core (coreOf s.cur)).landing with
       | some f => (f.at e).poison
       | none => false)
     else false))

/-- Set what a reduction or scan raised. (DEDUCED: log entry 25) -/
def Hart.raised (h : Hart) (r : Raised) : Hart := (h.raiseFlags r.flags).raiseV (if r.sat then vSat else 0)

/-! ### Reductions (R36, R130, R132) -/

/-- The rounding mode of a reduction or scan. -/
def foldMode (o : VOp) (ent : Entry) : Rm := if o.ty.isInt then .rne else modeFor o ent

/-- What one container adds to a reduction: what it raised, the pending values, and at the end of its segment the value and whether
the root is empty. -/
structure Reduced where
  raised : Raised
  pend : Tab PVal
  val : Option PVal
  empty : Bool

/-- Enter a container of a segment into a reduction, and at the segment's end combine the root with the seed (R36, R130). -/
def Hart.reduced (h : Hart) (o : VOp) (ent : Entry) (quiet : Bool) (e : Nat) (p : PVal) : Reduced :=
  let start := h.segOf o e
  let rm := foldMode o ent
  let leaf := fun (i : Nat) =>
    if h.active o e then some { val := BitVec.ofNat 64 (elemOf o.ty p.val i), poison := p.poison : PVal } else none
  let (r, m) := (List.range o.ty.elems).foldl (fun (acc : Raised × Tab PVal) i =>
    carryUp o h rm quiet ((e - start) * o.ty.elems + i) 12 0 acc.1 acc.2 (leaf i)) ({ flags := 0, enabled := 0, sat := false }, ent.pend)
  if h.segEnd o e then
    let (r1, root) := rootOf o h rm quiet m ((e + 1 - start) * o.ty.elems) r
    let (r2, val) := joinNodes o h rm quiet r1 (seedOf o ent) root
    { raised := r2, pend := [], val := some (val.getD (PVal.clean (BitVec.ofNat 64 (foldIdentity o)))), empty := root.isNone }
  else { raised := r, pend := m, val := none, empty := false }

/-- A reduction stops for an enabled flag (R130, R132): before its segment, whose registers it reads again; or, where words of the
receive queue are in its pending values, before the container that raised it, whose word is not popped. (DESIGN CHOICE: log entry 30) -/
def State.reduceTrap (s : State) (o : VOp) (e : Nat) (en : Flags) : State :=
  if o.vs1 == 49 then s.trapAt e cFp 0 (en.zeroExtend 64)
  else (s.modEntry (fun x => { x with pend := [] })).trapAt (s.me.segOf o e) cFp 0 (en.zeroExtend 64)

/-- One container of a reduction. A poisoned seed alone makes an empty segment poisoned, and it sets no `VSTAT` flag (R42). (DESIGN CHOICE: log entry 30, DESIGN CHOICE: log entry 123, DESIGN CHOICE: log entry 124) -/
def State.reduceLane (s : State) (o : VOp) (e : Nat) : Lane :=
  match s.entry? with
  | none => .stop s
  | some ent =>
    let h := s.me
    match (if h.active o e then s.source o.vs1 e else .value s (PVal.clean 0)) with
    | .wait u => .stop (u.waitAt e)
    | .value u p =>
      let r := h.reduced o ent (s.segPoison o ent (h.segOf o e)) e p
      if r.raised.enabled != 0 then .stop ((s.modMe (fun g => g.raised r.raised)).reduceTrap o e r.raised.enabled)
      else
        let u1 := (u.modEntry (fun x => { x with pend := r.pend })).modMe (fun g => g.raised r.raised)
        match r.val with
        | none => .go u1
        | some v => .go (u1.modMe (fun g => (g.raiseV (if r.empty && !v.poison then vEmpty else 0)).setV o.vd.toNat (h.segOf o e)
            (if v.poison then PVal.poisoned else PVal.clean (packElems o.ty [v.val.toNat]))))

/-- A reduction (R130). -/
def State.vecReduce (s : State) (o : VOp) : Out :=
  s.member (fun t ent => if t.holdsSpec o then t else t.sweep ent (fun u e => u.reduceLane o e))

/-- `vred` (R130). -/
def execVred (o : VOp) (s : State) : Out := s.vecReduce o

/-- `vfred` (R130). -/
def execVfred (o : VOp) (s : State) : Out := s.vecReduce o

/-! ### Scans (R37, R131, R132) -/

/-- The running value before a container: the last element of the highest active container of vd below it in its segment,
else the seed. -/
def Hart.running (h : Hart) (o : VOp) (ent : Entry) (start e : Nat) : Option PVal :=
  match (((containers start e).filter (h.active o)).getLast?) with
  | some c =>
    let v := h.getV o.vd.toNat c
    some { val := BitVec.ofNat 64 (elemOf o.ty v.val (o.ty.elems - 1)), poison := v.poison }
  | none => seedOf o ent

/-- The elements of a scanned container: the running values after each. -/
def scanElems (o : VOp) (h : Hart) (rm : Rm) (c : PVal) : List Nat → Raised → Option PVal → Raised × List PVal
  | [], r, _ => (r, [])
  | i :: is, r, run =>
    let x : PVal := { val := BitVec.ofNat 64 (elemOf o.ty c.val i), poison := c.poison }
    let (r1, n) := joinNodes o h rm false r run (some x)
    let (r2, vs) := scanElems o h rm c is r1 n
    (r2, n.getD x :: vs)

/-- A scan (R131). -/
def State.vecScan (s : State) (o : VOp) : Out :=
  s.member (fun t0 ent =>
    if t0.holdsSpec o then t0
    else t0.sweep ent (fun t e =>
      let h := t.me
      let start := h.segOf o e
      let note := fun (g : Hart) =>
        if h.segEnd o e && !(containers start (e + 1)).any (h.active o) then g.raiseV vEmpty else g
      if h.active o e then
        match t.source o.vs1 e with
        | .wait u => .stop (u.waitAt e)
        | .value u p =>
          let (r, vs) := scanElems o h (foldMode o ent) p (List.range o.ty.elems) { flags := 0, enabled := 0, sat := false }
            (h.running o ent start e)
          if r.enabled != 0 then .stop ((t.modMe (fun g => g.raised r)).trapAt e cFp 0 (r.enabled.zeroExtend 64))
          else .go (u.modMe (fun g => (g.raised r).setV o.vd.toNat e
            (if vs.any (·.poison) then PVal.poisoned else PVal.clean (packElems o.ty (vs.map (·.val.toNat))))))
      else .go ((t.inactive o e).modMe note)))

/-- `vscan` (R131). -/
def execVscan (o : VOp) (s : State) : Out := s.vecScan o

/-- `vfscan` (R131). -/
def execVfscan (o : VOp) (s : State) : Out := s.vecScan o

/-! ### Fibres (R133) -/

/-- The next strip's length and whether it ends inside a row. -/
def stripLength (n : Nat) (ends : BitVec 128) : Nat × Nat :=
  if n ≤ 128 then (n, 0)
  else match ((List.range 128).filter ends.getLsbD).getLast? with
    | some e => (e + 1, 0)
    | none => (128, 1)

/-- The segment starts made of row ends. -/
def segStarts (v : Nat) (ends : BitVec 128) : BitVec 128 :=
  (List.range 128).foldl (fun m e =>
    setMaskBit m e (if e = 0 then decide (0 < v) else decide (e < v) && ends.getLsbD (e - 1))) 0

/-- `setvlf` (R133). -/
def execSetvlf (o : VOp) (s : State) : Out :=
  s.member (fun t ent =>
    if ent.x.poison then t.trapAt 0 cPoison 0 5
    else
      let ends := t.me.getM o.vs1.toNat
      let (v, opn) := stripLength ent.x.val.toNat ends
      (t.modMe (fun h => { h with vl := v }.setM o.vs1.toNat (segStarts v ends))).completeX o.vd
        (PVal.clean (BitVec.ofNat 64 (opn * 256 + v))))

end Sys2Proof.Machine
end

