-- ==== Sys2Proof/Machine/Queue.lean ====
section
/-! DEFINITION. Queue images (R160 to R162) and `vqsave` and `vqload` (R89). -/

namespace Sys2Proof.Machine

/-! ### The layout -/

/-- Bytes of an image of `n` entries (R160). -/
def imageBytes (n : Nat) : Nat := 128 + 128 * n

/-- A word with bits set for the pending values that satisfy a test. -/
def pendBits (pend : Tab PVal) (f : PVal → Bool) : Nat :=
  (List.range 11).foldl (fun a l => match pendAt pend l with
    | some p => if f p then a + 2 ^ l else a
    | none => a) 0

/-- The control dword of a record (R161). -/
def entryControl (e : Entry) : Word :=
  BitVec.ofNat 64 (pendBits e.pend (fun _ => true) * 2 ^ 31 + pendBits e.pend (·.poison) * 2 ^ 20 + e.crm.toNat * 2 ^ 17 +
    (if e.x.poison then 2 ^ 16 else 0) + (if e.db then 2 ^ 15 else 0) + (if e.first then 2 ^ 14 else 0) +
    e.ccount % 8 * 2 ^ 11 + e.slot % 8 * 2 ^ 8 + e.start % 128)

/-- A record of an entry: sixteen dwords (R161). -/
def entryRecord (e : Entry) : List Word :=
  [e.insn, entryControl e, e.x.val] ++
    (List.range 11).map (fun l => ((pendAt e.pend l).map (·.val)).getD 0) ++ [0, 0]

/-- The header of an image (R160). -/
def imageHeader (vl n : Nat) : List Word := BitVec.ofNat 64 (vl % 256 * 2 ^ 16 + 256 + n % 32) :: List.replicate 15 0

/-- The image of a queue. -/
def queueImage (vl : Nat) (q : List Entry) : List Word := imageHeader vl q.length ++ q.flatMap entryRecord

/-! ### Reading an image (R162) -/

/-- The bits of a word. -/
abbrev wbits (w : Word) (hi lo : Nat) : Nat := w.toNat / 2 ^ lo % 2 ^ (hi + 1 - lo)

/-- Whether an instruction is a reduction. -/
def isReduction : Instr → Bool
  | .vred _ | .vfred _ => true
  | _ => false

/-- m of R161: the flat positions of the current segment below the start index, 0 for an instruction that keeps no pending
values. -/
def pendingCount (h : Hart) (i : Instr) (start : Nat) : Nat :=
  match isReduction i, fieldsOf i with
  | true, some o => (start - h.segOf o start) * o.ty.elems
  | _, _ => 0

/-- The entry that a record describes. (DESIGN CHOICE: log entry 137) -/
def recordEntry (id : Nat) (ws : List PVal) : Entry :=
  let d := fun (i : Nat) => lget (PVal.clean 0) ws i
  let c := (d 1).val
  { id := id, insn := (d 0).val,
    x := if (d 2).poison || c.getLsbD 16 then PVal.poisoned else (d 2),
    crm := c.extractLsb' 17 3, db := c.getLsbD 15, first := c.getLsbD 14, ccount := wbits c 13 11, slot := wbits c 10 8,
    start := wbits c 6 0,
    pend := (List.range 11).filterMap (fun l =>
      if c.getLsbD (31 + l) then some (l, { val := (d (3 + l)).val, poison := c.getLsbD (20 + l) }) else none),
    pins := [], frozen := true, started := false, parked := false }

/-- The first bad dword of a record, given the members and the slot before it in its convoy (none for the first record of
the image). (DESIGN CHOICE: log entry 136) -/
def badRecord (h : Hart) (ws : List PVal) (before : Option (List Instr × Nat)) : Option Nat :=
  let d := fun (i : Nat) => (lget (PVal.clean 0) ws i).val
  let e := recordEntry 0 ws
  let (earlier, last) := if e.first then ([], 0) else before.getD ([], 0)
  match decodeMember e.insn with
  | .error _ => some 0
  | .ok i =>
    let m := pendingCount h i e.start
    if earlier.any (fun j => unitOf j == unitOf i) || earlier.any (fun j => (memberDests j).any (memberDests i).contains) ||
        (popsQueue i && earlier.any popsQueue) then some 0
    else if wbits (d 1) 63 42 != 0 || (d 1).getLsbD 7 || (before.isNone && !e.first) || e.slot ≤ last || e.ccount < e.slot ||
        6 < e.ccount || wbits (d 1) 41 31 &&& (2047 - m % 2048) != 0 || wbits (d 1) 30 20 &&& (2047 - m % 2048) != 0 then some 1
    else match (List.range 11).find? (fun l => d (3 + l) != 0 && m / 2 ^ l % 2 = 0) with
      | some l => some (3 + l)
      | none => (List.range 2).find? (fun j => d (14 + j) != 0) |>.map (· + 14)

/-- The first bad word of the records of an image, as a byte offset. -/
def badRecords (h : Hart) : List (List PVal) → Nat → Option (List Instr × Nat) → Option Nat
  | [], _, _ => none
  | ws :: r, off, before =>
    match badRecord h ws before with
    | some j => some (off + 8 * j)
    | none =>
      let e := recordEntry 0 ws
      let i := e.instr
      let earlier := if e.first then [] else (before.getD ([], 0)).1
      badRecords h r (off + 128) (some (earlier ++ [i], e.slot))

/-- The first bad word of the header, as a byte offset (R160, R162, R89). -/
def badImageHeader (depth : Nat) (ws : List PVal) : Option Nat :=
  let w := (lget (PVal.clean 0) ws 0).val
  if wbits w 63 24 != 0 || wbits w 7 5 != 0 || wbits w 15 8 != 1 || 128 < wbits w 23 16 || depth < wbits w 4 0 then some 0
  else ((List.range 15).find? (fun j => (lget (PVal.clean 0) ws (1 + j)).val != 0)).map (fun j => 8 * (1 + j))

/-- The dwords of an image in records of sixteen. -/
def recordsOf (n : Nat) (ws : List PVal) : List (List PVal) := (List.range n).map (fun i => (ws.drop (16 * i)).take 16)

/-- The first poisoned word outside the captured operands, as a byte offset. -/
def poisonedWord (ws : List PVal) : Option Nat :=
  ((ws.zipIdx).find? (fun e => e.1.poison && !(16 ≤ e.2 && e.2 % 16 = 2))).map (fun e => 8 * e.2)

/-! ### The instructions (R89) -/

/-- The checks that both make first: a vector hart, the privilege, what `own` says of the hart's own state, the address and its
alignment (R67). (DEDUCED: log entry 103) -/
def State.imageAccess (s : State) (i : Instr) (a : Reg) (kind : Nat) (own : Bool) (k : State → Nat → State) : State :=
  if !isVector s.cur then s.trapWord cIllegal i
  else if s.me.priv = 0 then s.trapWord cPriv i
  else if own then s.trap cIllegal 0 0
  else s.consume (s.getX a) 2 (fun va =>
    if va.toNat % 128 != 0 then s.trap cMisalign va (BitVec.ofNat 64 kind) else k s va.toNat)

/-- The byte offsets of the poisoned captured operands in the image of a queue. (DEDUCED: log entry 103) -/
def poisonedOperands (q : List Entry) : List Nat :=
  (q.zipIdx).filterMap (fun e => if e.1.x.poison then some (128 + 128 * e.2 + 16) else none)

/-- Store an image as the scalar agent: a poisoned captured operand is a poisoned store to its word (R77, R89). (DEDUCED: log entry 103) -/
def State.putImage (s : State) (k : Nat) (ps : List Place) (vl : Nat) (q : List Entry) : State :=
  (poisonedOperands q).foldl (fun t off => t.writePlaces k ((ps.drop off).take 8) (natToBytes 8 0) true)
    (s.writePlaces k ps (dwordBytes (queueImage vl q)) false)

/-- The entries of a hart's queue stop between element groups and stay where they are (R159): they leave every wait of theirs (R155, R189)
and give up the pages that they hold (R286, R338). -/
def State.stopQueue (s : State) (k : Nat) : State :=
  ((((s.leaveWaits k).cancelSfu k).releaseUnits k).release (.vector k)).modHart k (fun h => { h with queue := freezeQueue h.queue })

/-- The places of the word at an offset of an image area, where it translates. -/
def imageWord (x : Places) (va off : Nat) : List Place :=
  okPlaces (x.bytes.filter (fun b => va + off ≤ b.1 && b.1 < va + off + 8))

/-- Write the image of the executing hart's queue (R89): the image area is translated and accepted first, then the element groups under
way end and the entries stop, then the image is stored and the entries leave the queue. A poisoned operand may not leave the package
(R340). (DEDUCED: log entry 103) -/
def State.saveImage (s : State) (va : Nat) : State :=
  let k := s.cur
  let w := Who.scalar k 0
  let q := s.me.queue
  let x := s.places (s.agentOf k) (s.heldPins w) kStore va (imageBytes q.length)
  let leaving := (poisonedOperands q).find? (fun off => egress (imageWord x va off))
  match x.ans, leaving with
  | .error f, none => s.deliver (x.st.missed w k va kStore 0 false x f) (fun u _ _ => u)
  | .error f, some off => if f.cause = cPoison then x.st.trap cPoison (BitVec.ofNat 64 f.addr) 2
    else x.st.trap cPoison (BitVec.ofNat 64 (va + off)) 8
  | .ok _, some off => x.st.trap cPoison (BitVec.ofNat 64 (va + off)) 8
  | .ok ps, none => match x.st.asked w s.me.ctx kStore 0 x.pins ps with
    | .wait u => u.stall .remote
    | .refused u i c t la => u.deliver (u.refusedFault k va i c t la kStore) (fun v _ _ => v)
    | .ok u _ _ =>
      if u.anyBusy k kStore ps then (u.unservedAt (2 * k) kStore (locsOf ps)).stall .remote
      else if u.groupAbroad k then u.stall .stopping
      else match (u.stopQueue k).reach w u.me.ctx kStore 0 x.pins false ps (dwordBytes (queueImage u.me.vl u.me.queue)) 0 with
        | .wait v => v.stall .remote
        | .refused v _ _ _ _ => v.stall .remote
        | .ok v qs _ => ((v.putImage k qs v.me.vl v.me.queue).modMe (fun h => { h with queue := [] })).advance

/-- `vqsave` (R89). -/
def execVqsave (a : Reg) (s : State) : Out :=
  .next (s.scalar (.vqsave a) (fun t => t.imageAccess (.vqsave a) a kStore false State.saveImage))

/-- The entries of an image enter the executing hart's queue, frozen, once the core has room for them and no older hart waits for
room (R155, R162). -/
def State.enterImage (s : State) (vl : Nat) (recs : List (List PVal)) : State :=
  let core := coreOf s.cur
  if Config.vqEntries < s.queueUse core + recs.length || s.olderWaits s.cur then
    (((s.modCore core (fun c => { c with queueWait := joinLast s.cur c.queueWait })).release (.scalar s.cur 0)).release
      (.scalar s.cur 1)).stall .queueRoom
  else
    let seq := (s.core core).commitSeq
    let es := (recs.zipIdx).map (fun r => recordEntry (seq + r.2) r.1)
    ((((s.modCore core (fun c => { c with commitSeq := seq + recs.length, queueWait := sdel s.cur c.queueWait })).release
      (.scalar s.cur 0)).release (.scalar s.cur 1)).modMe (fun g => { g with vl := vl, queue := es })).advance

/-- `vqload` (R89, R142, R162): the header is read first, then the whole image. -/
def execVqload (a : Reg) (s : State) : Out :=
  .next (s.scalar (.vqload a) (fun t => t.imageAccess (.vqload a) a kLoad (t.me.queue.any (·.frozen)) (fun u va =>
    let h := u.me
    let poison := fun (w : State) (off : Nat) => w.trap cPoison (BitVec.ofNat 64 (va + off)) 10
    if !h.queue.isEmpty then u.stall .queueEmpty
    else u.withBlock 0 true va 128 kLoad [] (fun w ps =>
      let hd := w.dwords (some w.cur) ps
      let n := wbits (lget (PVal.clean 0) hd 0).val 4 0
      match poisonedWord hd with
      | some off => poison w off
      | none => match badImageHeader h.depth hd with
        | some off => w.trap cIllegal 0 (BitVec.ofNat 64 off)
        | none => w.withBlock 1 true va (imageBytes n) kLoad [] (fun x qs =>
          let ws := x.dwords (some x.cur) qs
          let recs := recordsOf n (ws.drop 16)
          match poisonedWord ws with
          | some off => poison x off
          | none => match badRecords x.me recs 128 none with
            | some off => x.trap cIllegal 0 (BitVec.ofNat 64 off)
            | none => x.enterImage (wbits (lget (PVal.clean 0) hd 0).val 23 16) recs)))))

end Sys2Proof.Machine
end

