-- ==== Sys2Proof/Machine/SaveSlot.lean ====
section
/-! DEFINITION. The save slot of a pre-empted ring program (R300): its layout as tables of pieces, each read and written by one
definition, and the saving and restoring of a ring by them. -/

namespace Sys2Proof.Machine

/-! ### Pieces -/

/-- A field of a record: its offset, its bytes, and how it is taken from and put into what the record holds. -/
structure Piece (α : Type) where
  off : Nat
  width : Nat
  get : α → Nat
  put : Nat → α → α

/-- Write the fields of a record at an address. -/
def writePieces {α : Type} (ps : List (Piece α)) (a : α) (base : Nat) (m : Mem) : Mem :=
  ps.foldl (fun r p => r.setNum (base + p.off) p.width (p.get a)) m

/-- Read the fields of a record at an address into a value. -/
def readPieces {α : Type} (ps : List (Piece α)) (m : Mem) (base : Nat) (a : α) : α :=
  ps.foldl (fun b p => p.put (m.num (base + p.off) p.width) b) a

/-- A bitmap of `n` bits. -/
def bitmap (n : Nat) (f : Nat → Bool) : Nat := (List.range n).foldl (fun a i => if f i then a + 2 ^ i else a) 0

/-- `n` values with poison: value `i` of `width` bytes at `off + step·i`, their poison bitmap at `bits`. -/
def valPieces {α : Type} (off step width n bits : Nat) (get : α → Nat → PVal) (put : Nat → PVal → α → α) : List (Piece α) :=
  (List.range n).map (fun i =>
    { off := off + step * i, width := width, get := fun a => (get a i).val.toNat,
      put := fun v a => put i (PVal.clean (BitVec.ofNat 64 v)) a }) ++
  [{ off := bits, width := (n + 7) / 8, get := fun a => bitmap n (fun i => (get a i).poison),
     put := fun v a => (List.range n).foldl (fun b i =>
       if v.testBit i then put i { val := (get b i).val, poison := true } b else b) a }]

/-- A dword. -/
def dwordPiece {α : Type} (off : Nat) (get : α → Nat) (put : Nat → α → α) : Piece α :=
  { off := off, width := 8, get := get, put := put }

/-! ### Declaration sets (R64) -/

/-- The place of an item in the order of R64. -/
def declRank : DeclItem → Nat
  | .carry r => r.toNat
  | .indImm r _ | .indReg r _ => 64 + r.toNat
  | .red r _ => 128 + r.toNat
  | .vlive v => 192 + v.toNat

/-- Enter an item in order. -/
def declInsert (d : DeclItem) : List DeclItem → List DeclItem
  | [] => [d]
  | e :: r => if declRank d ≤ declRank e then d :: e :: r else e :: declInsert d r

/-- The `fdecl` instruction of an item. -/
def declInstr : DeclItem → Instr
  | .carry r => .fdeclCarry r
  | .indImm r imm => .fdeclIndImm r imm
  | .indReg r t => .fdeclIndReg r t
  | .red r op => .fdeclRed r op
  | .vlive v => .fdeclVlive v

/-- The item of an `fdecl` instruction. -/
def instrDecl : Instr → Option DeclItem
  | .fdeclCarry r => some (.carry r)
  | .fdeclIndImm r imm => some (.indImm r imm)
  | .fdeclIndReg r t => some (.indReg r t)
  | .fdeclRed r op => some (.red r op)
  | .fdeclVlive v => some (.vlive v)
  | _ => none

/-- A declaration set as its count and its words. -/
def declNum (ds : List DeclItem) : Nat :=
  let sorted := ds.foldr declInsert []
  ((sorted.zipIdx).foldl (fun a e => a + ((encodeWord (declInstr e.1)).getD 0).toNat * 2 ^ (32 * (e.2 + 1))) sorted.length)

/-- The declaration set of a count and its words. -/
def numDecl (v : Nat) : List DeclItem :=
  (List.range (v % 2 ^ 32)).filterMap (fun i => instrDecl (wordInstr (BitVec.ofNat 32 (v / 2 ^ (32 * (i + 1))))))

/-! ### Hart records -/

/-- What a hart record holds: the hart, and the matrix unit when the hart owns it. -/
structure HartImage where
  h : Hart
  owner : Bool
  mvl : Nat
  type : BitVec 4
  tiles : Tab PVal
  deriving DecidableEq, Repr

/-- A word register of a hart. -/
def wordPiece (off : Nat) (get : Hart → Word) (put : Word → Hart → Hart) : Piece HartImage :=
  dwordPiece off (fun a => (get a.h).toNat) (fun v a => { a with h := put (BitVec.ofNat 64 v) a.h })

/-- A privilege that a save slot gives a hart: no hart but an engine hart holds firmware privilege (R21), and the encoding 2 is none. -/
def slotPriv (v : Nat) : BitVec 2 := if v % 4 = 0 then 0 else 1

/-- Dword 0 of a hart record. A restored hart has its latch at 1 (R86). -/
def headPiece (vector : Bool) : Piece HartImage :=
  dwordPiece 0
    (fun a =>
      let h := a.h
      2 ^ 63 + (if vector then 2 ^ 62 else 0) + h.route.toNat * 2 ^ 60 + h.priv.toNat * 2 ^ 58 + h.ppriv.toNat * 2 ^ 56 +
        (if h.latch then 2 ^ 55 else 0) + (if h.queue.any (·.frozen) then 2 ^ 54 else 0) + (if a.owner then 2 ^ 53 else 0) +
        h.ctx % 2 ^ 16 * 2 ^ 32 + h.chunkno % 2 ^ 16)
    (fun v a => { a with
      owner := v.testBit 53,
      h := { a.h with
        live := v.testBit 63, route := BitVec.ofNat 2 (v / 2 ^ 60), priv := slotPriv (v / 2 ^ 58),
        ppriv := slotPriv (v / 2 ^ 56), latch := true, ctx := v / 2 ^ 32 % 2 ^ 16, chunkno := v % 2 ^ 16,
        queue := a.h.queue.map (fun e => { e with frozen := v.testBit 54 }) } })

/-- The fields that every hart record has. Bits that a register does not have are not restored (R10). -/
def hartPieces : List (Piece HartImage) :=
  [wordPiece 0x008 (·.pc) (fun w h => { h with pc := w &&& pcMask })] ++
  valPieces 0x010 8 8 32 0x110 (fun a i => a.h.getX (BitVec.ofNat 5 i))
    (fun i p a => { a with h := a.h.setX (BitVec.ofNat 5 i) p }) ++
  [wordPiece 0x118 (·.fstat) (fun w h => { h with fstat := fstatWrite 0 w }),
   wordPiece 0x120 (·.vstat) (fun w h => { h with vstat := w &&& 0x3F1F }),
   wordPiece 0x128 (fun h => BitVec.ofNat 64 h.vl) (fun w h => { h with vl := min w.toNat Config.vregElems }),
   wordPiece 0x130 (·.hctl) (fun w h => { h with hctl := hctlWrite h.hctl w }), wordPiece 0x138 (·.rxwdog) (fun w h => { h with rxwdog := w }),
   wordPiece 0x140 (·.tcause) (fun w h => { h with tcause := w &&& tcauseMask }),
   wordPiece 0x148 (·.tpc) (fun w h => { h with tpc := w &&& pcMask }),
   wordPiece 0x150 (·.tqpos) (fun w h => { h with tqpos := w &&& 0xF }), wordPiece 0x158 (·.telem) (fun w h => { h with telem := w &&& 0x7F }),
   wordPiece 0x160 (·.taddr) (fun w h => { h with taddr := w }), wordPiece 0x168 (·.tval) (fun w h => { h with tval := w }),
   wordPiece 0x170 (·.tvec) (fun w h => { h with tvec := w &&& pcMask }),
   { off := 0x180, width := 160, get := fun a => declNum a.h.decls, put := fun v a => { a with h := { a.h with decls := numDecl v } } },
   dwordPiece 0x220 (fun a => a.h.rxCount) (fun v a => { a with h := { a.h with rxCount := v } })]

/-- The queue image of a hart as a number (R160). -/
def queueNum (h : Hart) : Nat := (queueImage h.vl h.queue).foldr (fun w a => w.toNat + 2 ^ 64 * a) 0

/-- The entries of a queue image. -/
def numQueue (v : Nat) : List Entry :=
  let dword := fun (i : Nat) => PVal.clean (BitVec.ofNat 64 (v / 2 ^ (64 * i)))
  (List.range (v % 32)).map (fun j => recordEntry j ((List.range 16).map (fun i => dword (16 * (j + 1) + i))))

/-- The lane tables of a hart: bytes, then the poison bitmap of their words. -/
def lanePieces : List (Piece HartImage) :=
  [{ off := 0xE000, width := 0x4000, get := fun a => a.h.lanes.num 0 0x4000,
     put := fun v a => { a with h := { a.h with lanes := Mem.setNum { cells := [], marks := [] } 0 0x4000 v } } },
   { off := 0x12000, width := 0x100, get := fun a => bitmap 2048 (fun i => a.h.lanes.marks.contains i),
     put := fun v a => { a with h := { a.h with lanes := { a.h.lanes with marks := (List.range 2048).filter v.testBit } } } }]

/-- The fields of a vector hart record beyond those; MVL stands in bits 14:8 and the type in bits 3:0 of their dword. (DESIGN CHOICE: log entry 76) -/
def vectorPieces : List (Piece HartImage) :=
  (List.range 48).flatMap (fun n => valPieces (0x1000 + 1024 * n) 8 8 128 (0xD000 + 16 * n) (fun a e => a.h.getV n e)
    (fun e p a => { a with h := a.h.setV n e p })) ++
  (List.range 12).map (fun n =>
    { off := 0xD300 + 16 * n, width := 16, get := fun a => (a.h.getM n).toNat,
      put := fun v a => { a with h := a.h.setM n (BitVec.ofNat 128 v) } }) ++
  [{ off := 0xD400, width := 2176, get := fun a => queueNum a.h,
     put := fun v a => { a with h := { a.h with queue := numQueue v } } }] ++
  lanePieces ++
  [dwordPiece 0x12100 (fun a => a.mvl * 256 + a.type.toNat) (fun v a => { a with mvl := v / 256 % 128, type := BitVec.ofNat 4 v })] ++
  (List.range 4).flatMap (fun t => valPieces (0x13000 + 16384 * t) 4 4 4096 (0x12200 + 512 * t)
    (fun a i => tget (PVal.clean 0) a.tiles (4096 * t + i))
    (fun i p a => { a with tiles := tset (PVal.clean 0) a.tiles (4096 * t + i) p }))

/-- A hart record. -/
def recordPieces (vector : Bool) : List (Piece HartImage) :=
  hartPieces ++ (if vector then vectorPieces else []) ++ [headPiece vector]

/-- What a hart record holds before it is read. -/
def HartImage.blank : HartImage := { h := Hart.empty, owner := false, mvl := 1, type := 0, tiles := [] }

/-- The image of a hart. -/
def State.hartImage (s : State) (k : Nat) : HartImage :=
  let c := s.core (coreOf k)
  let own := c.mxOwner = some k
  { h := s.hart k, owner := own, mvl := if own then c.mxMvl else 0, type := if own then c.mxType else 0,
    tiles := if own then c.mxTiles else [] }

/-! ### Core records -/

/-- A fragment of the landing or the outgoing buffer: a state dword (bit 63 full, length below), containers and poison. (DESIGN CHOICE: log entry 76) -/
def fragmentPieces (state data : Nat) (get : Core → Option Fragment) (put : Option Fragment → Core → Core) : List (Piece Core) :=
  dwordPiece state (fun c => match get c with
      | some f => 2 ^ 63 + f.len % 256
      | none => 0)
    (fun v c => put (if v.testBit 63 then some { len := v % 256, data := [] } else none) c) ::
  valPieces data 8 8 128 (state + 8) (fun c e => match get c with
      | some f => tget (PVal.clean 0) f.data e
      | none => PVal.clean 0)
    (fun e p c => put ((get c).map (fun f => { f with data := tset (PVal.clean 0) f.data e p })) c)

/-- The six registers of a solve slot as one number, `SVBUF` first. -/
def slotNum (v : SolveSlot) : Nat :=
  v.len % 2 ^ 16 * 2 ^ 48 + v.base % 2 ^ 48 + 2 ^ 64 * (v.cur.toNat + 2 ^ 64 * (v.hash.toNat + 2 ^ 64 * (v.dl + 2 ^ 64 *
    (v.iter + 2 ^ 64 * ((if v.svalid then 2 ^ 63 else 0) + (if v.active then 2 ^ 62 else 0) + v.owner % 2 ^ 16)))))

/-- The solve slot of such a number. -/
def numSlot (w : Nat) : SolveSlot :=
  let d := fun (i : Nat) => w / 2 ^ (64 * i) % 2 ^ 64
  { len := d 0 / 2 ^ 48, base := d 0 % 2 ^ 48, cur := BitVec.ofNat 64 (d 1), hash := BitVec.ofNat 64 (d 2), dl := d 3, iter := d 4,
    svalid := (d 5).testBit 63, active := (d 5).testBit 62, owner := d 5 % 2 ^ 16 }

/-- The registers of a solve slot that a context owns; a slot it does not own is written as zero and not written back (R197). (DESIGN CHOICE: log entry 76) -/
def solvePiece (ctx : Nat) (owned : List Nat) (n : Nat) : Piece Core :=
  { off := 0x20C40 + 48 * n, width := 48, get := fun c => if (c.slot n).owner = ctx then slotNum (c.slot n) else 0,
    put := fun v c => if owned.contains n then c.modSlot n (fun _ => numSlot v) else c }

/-- The fields of a core record beside its memory and its harts. Strict issue begins again at opportunity 0 (R152). (DESIGN CHOICE: log entry 76) -/
def corePieces (ctx : Nat) (owned : List Nat) : List (Piece Core) :=
  [dwordPiece 0x20C00 (fun c => if c.strict then 1 else 0) (fun v c => { c with strict := v.testBit 0, opp := 0 })] ++
  fragmentPieces 0x20C08 0x22800 (·.landing) (fun f c => { c with landing := f }) ++
  fragmentPieces 0x20C20 0x22C00 (·.outBuf) (fun f c => { c with outBuf := f }) ++
  [dwordPiece 0x20C38 (fun c => c.recvQ.length) (fun v c => { c with recvQ := List.replicate (min v 256) (0, 0) })] ++
  (List.range 4).map (solvePiece ctx owned) ++
  (List.range 256).flatMap (fun n =>
    [dwordPiece (0x21000 + 16 * n) (fun c => (c.handler n).w0.toNat)
       (fun v c => { c with handlers := tset Handler.empty c.handlers n { c.handler n with w0 := BitVec.ofNat 64 v } }),
     dwordPiece (0x21008 + 16 * n) (fun c => (c.handler n).w1.toNat)
       (fun v c => { c with handlers := tset Handler.empty c.handlers n { c.handler n with w1 := BitVec.ofNat 64 v } })]) ++
  (List.range 256).map (fun i => dwordPiece (0x22000 + 8 * i) (fun c => (lget (0, 0) c.recvQ i).1.toNat)
    (fun v c => { c with recvQ := c.recvQ.modify i (fun e => (BitVec.ofNat 64 v, e.2)) }))

/-! ### Local memories -/

/-- Copy bytes without their markers. -/
def Mem.copyPlain (m : Mem) (src dst n : Nat) : Mem :=
  { m with cells := (tslice m.cells src (src + n)).foldl (fun c e => tset 0 c (e.1 - src + dst) e.2) m.cells }

/-- Set one bit of a bitmap in memory. -/
def Mem.setBit (m : Mem) (base i : Nat) : Mem := m.setByte (base + i / 8) (m.byte (base + i / 8) ||| BitVec.ofNat 8 (2 ^ (i % 8)))

/-- The bits that are set in a bitmap of `n` bytes. -/
def Mem.bits (m : Mem) (base n : Nat) : List Nat :=
  (tslice m.cells base (base + n)).flatMap (fun e =>
    ((List.range 8).filter (fun i => e.2.getLsbD i)).map (fun i => 8 * (e.1 - base) + i))

/-- Save a local memory: its bytes at `dst`, its markers as a bitmap at `bits`. -/
def Mem.saveLocal (m : Mem) (src dst bits n : Nat) : Mem :=
  (m.marks.filter (fun w => src / 8 ≤ w && w < (src + n) / 8)).foldl (fun r w => r.setBit bits (w - src / 8)) (m.copyPlain src dst n)

/-- Load a local memory that was saved. -/
def Mem.loadLocal (m image : Mem) (loc src bits n : Nat) : Mem :=
  let cells := (tslice image.cells src (src + n)).foldl (fun c e => tset 0 c (e.1 - src + loc) e.2) (m.clear loc n).cells
  (image.bits bits (n / 64)).foldl (fun r i => r.mark (loc + 8 * i)) { cells := cells, marks := (m.clear loc n).marks }

/-! ### The fork frame -/

/-- A parallel fork as the slot holds it: the frame, and the carried start values of the oldest chunk. -/
structure ForkImage where
  f : Fork
  starts : Tab PVal
  deriving DecidableEq, Repr

/-- A sum as a two's complement number of 320 bytes, and back. -/
def sumNum (z : Int) : Nat := (z % 2 ^ 2560).toNat
/-- The sum of a number of 320 bytes. -/
def numSum (v : Nat) : Int := if v < 2 ^ 2559 then (v : Int) else (v : Int) - 2 ^ 2560

/-- Whether a reduction operator is a floating-point addition. -/
def isFpAdd : RedOp → Bool
  | .addF64 | .addF32 => true
  | _ => false

/-- The operator of a reduction register. -/
def Fork.redOf (f : Fork) (k : Nat) : Option RedOp := (foldsOf f.decls).findSome? (fun d => if d.1.toNat = k then some d.2 else none)

/-- The fold of register `xk`. -/
def foldPieces (k : Nat) : List (Piece ForkImage) :=
  let get := fun (a : ForkImage) => match a.f.redOf k with
    | some op => tget (Partial.start op) a.f.folds k
    | none => { sum := 0, val := 0, negInf := false, posInf := false, nan := false, poison := false }
  let put := fun (g : Partial → Partial) (a : ForkImage) => match a.f.redOf k with
    | some op => { a with f := { a.f with folds := tput a.f.folds k (g (tget (Partial.start op) a.f.folds k)) } }
    | none => a
  [dwordPiece (0x1000 + 0x180 * (k - 1))
     (fun a => (if (get a).negInf then 8 else 0) + (if (get a).posInf then 4 else 0) + (if (get a).nan then 2 else 0) +
       if (get a).poison then 1 else 0)
     (fun v => put (fun p => { p with negInf := v.testBit 3, posInf := v.testBit 2, nan := v.testBit 1, poison := v.testBit 0 })),
   { off := 0x1040 + 0x180 * (k - 1), width := 320,
     get := fun a => if (a.f.redOf k).any isFpAdd then sumNum (get a).sum else (get a).val.toNat,
     put := fun v a => if (a.f.redOf k).any isFpAdd then put (fun p => { p with sum := numSum v }) a
       else put (fun p => { p with val := BitVec.ofNat 64 v }) a }]

/-- The fork frame, its declarations, X0, the carried start values and the folds. A join target keeps bits 47:2 (R10). (DESIGN CHOICE: log entry 76) -/
def forkPieces : List (Piece ForkImage) :=
  [dwordPiece 0x100 (·.f.n) (fun v a => { a with f := { a.f with n := v } }),
   dwordPiece 0x108 (·.f.c) (fun v a => { a with f := { a.f with c := v } }),
   dwordPiece 0x110 (·.f.oldest) (fun v a => { a with f := { a.f with oldest := v, created := v } }),
   dwordPiece 0x118 (·.f.target) (fun v a => { a with f := { a.f with target := (BitVec.ofNat 64 v &&& pcMask).toNat } }),
   dwordPiece 0x120 (fun a => if a.f.strip then 1 else 0) (fun v a => { a with f := { a.f with strip := v.testBit 0 } }),
   { off := 0x140, width := 160, get := fun a => declNum a.f.decls, put := fun v a => { a with f := { a.f with decls := numDecl v } } }] ++
  valPieces 0x200 8 8 32 0x300 (fun a i => tget (PVal.clean 0) a.f.x0 i)
    (fun i p a => { a with f := { a.f with x0 := tset (PVal.clean 0) a.f.x0 i p } }) ++
  valPieces 0x308 8 8 32 0x408 (fun a i => tget (PVal.clean 0) a.starts i)
    (fun i p a => if a.f.decls.any (· == .carry (BitVec.ofNat 5 i)) then { a with starts := tput a.starts i p } else a) ++
  ((List.range 31).map (· + 1)).flatMap foldPieces

/-- F as a hart: the forking hart's state at the fork (R300), with the flags that committed chunks have added (R203). -/
def Fork.asHart (f : Fork) : Hart :=
  let sing := f.singcol.getD (f.saved.vstat.extractLsb' 8 6)
  { f.forker with
    live := true, pc := BitVec.ofNat 64 f.body, queue := [], x := f.x0, v := f.saved.v, m := f.saved.m, vl := f.saved.vl, lanes := f.saved.lanes,
    fstat := f.saved.fstat ||| f.fflags.zeroExtend 64,
    vstat := (f.saved.vstat.extractLsb' 0 5 ||| f.vflags).zeroExtend 64 ||| (sing.zeroExtend 64 <<< 8),
    hctl := f.saved.hctl, priv := f.saved.priv, chunkno := f.chunkno, decls := [] }

/-! ### A whole slot -/

/-- Z: the bytes of a save slot on the DN-4816. -/
abbrev slotBytes : Nat := 0xA10000

/-- Where the core record of a position begins in a slot. (DESIGN CHOICE: log entry 76) -/
def coreRecord (p : Nat) : Nat := 0x40000 + 0xB8000 * p

/-- Where the record of a hart slot begins in a core record. (DESIGN CHOICE: log entry 76) -/
def hartRecord (slot : Nat) : Nat := if slot < 4 then 0x24000 + 0x24000 * slot else 0xB4000 + 0x1000 * (slot - 4)

/-- The record of a core: its memory with the full/empty bits, its registers and tables, its harts. -/
def State.saveCore (s : State) (core ctx base : Nat) (m : Mem) : Mem :=
  let tcm := locTcm core 0
  let m1 := m.saveLocal tcm base (base + 0x20000) 0x20000
  let m2 := (s.full.filter (fun g => tcm / 16 ≤ g && g < (tcm + 0x20000) / 16)).foldl
    (fun r g => r.setBit (base + 0x20800) (g - tcm / 16)) m1
  let m3 := writePieces (corePieces ctx []) (s.core core) base m2
  (List.range 8).foldl (fun r i =>
    if (s.hart (hartKey core i)).live then
      writePieces (recordPieces (i < 4)) (s.hartImage (hartKey core i)) (base + hartRecord i) r
    else r) m3

/-- Dword 0 of a slot. -/
def slotHead (ctx : Nat) (live : List Nat) (fork : Bool) (ringidx : Nat) : Nat :=
  2 ^ 56 + ctx % 2 ^ 16 * 2 ^ 32 + (live.foldl (fun a p => a + 2 ^ p) 0) * 2 ^ 24 + (if fork then 2 ^ 16 else 0) + ringidx % 2 ^ 16

/-- The contents of the save slot of a ring's program, written at a device location. -/
def State.slotImage (s : State) (ring base : Nat) (p : Program) : Mem :=
  let live := s.livePositions ring
  let fork := (s.ring ring).fork
  let m0 := s.mem.clear base slotBytes
  let m1 := (m0.setNum base 8 (slotHead p.ctx live fork.isSome p.ringidx)).setNum (base + 8) 8 p.seq
  let m2 := (p.record.zipIdx).foldl (fun m w => m.setNum (base + 0x40 + 8 * w.2) 8 w.1.toNat) m1
  let m3 := match fork with
    | none => m2
    | some f =>
      let starts := ((f.chunk? f.oldest).map (·.starts)).getD []
      writePieces (recordPieces true) { HartImage.blank with h := f.asHart, mvl := 0 } (base + 0x4000)
        (writePieces forkPieces { f := f, starts := starts } base m2)
  let m4 := live.foldl (fun m q => s.saveCore (coreKey ring q) p.ctx (base + coreRecord q) m) m3
  m4.saveLocal (locScratch ring 0) (base + 0x600000) (base + 0xA00000) 0x400000

/-! ### Reading a slot -/

/-- The entry of the head convoy of a queue that pops the receive queue. -/
def Hart.headPops (h : Hart) : Bool := h.headConvoy.any (fun e => popsQueue e.instr)

/-- A hart whose watchdog had counted stands again where it was blocked, so that the count goes on (R147): at its vector entry that pops the
receive queue, else at its `recv`. (DEDUCED: log entry 78) -/
def State.blockAgain (s : State) (k : Nat) : State :=
  if (s.hart k).rxCount = 0 then s
  else if (s.hart k).headPops then s.modCore (coreOf k) (fun c => { c with recvWait := joinLast (vectorPop k) c.recvWait })
  else s.modHart k (fun h => { h with wait := .recv })

/-- The harts of a core from its record. (DEDUCED: log entry 78) -/
def State.loadHarts (s : State) (core base : Nat) (image : Mem) : State :=
  (List.range 8).foldl (fun t i =>
    let at_ := base + hartRecord i
    if image.num at_ 8 / 2 ^ 63 = 1 then
      let a := readPieces (recordPieces (i < 4)) image at_ HartImage.blank
      let k := hartKey core i
      let seq := (t.core core).commitSeq
      let h := { a.h with queue := a.h.queue.map (fun e => { e with id := seq + e.id }) }
      let t1 := ((t.setHart k h).modCore core (fun c => { c with commitSeq := seq + h.queue.length })).blockAgain k
      if a.owner then t1.modCore core (fun c => { c with mxOwner := some k, mxMvl := a.mvl, mxType := a.type, mxTiles := a.tiles })
      else t1
    else t) s

/-- The record of a core written back. (DEDUCED: log entry 78) -/
def State.loadCore (s : State) (core ctx : Nat) (owned : List Nat) (base : Nat) (image : Mem) : State :=
  let tcm := locTcm core 0
  let granules := (image.bits (base + 0x20800) 0x400).map (· + tcm / 16)
  let full := s.full.filter (fun g => g < tcm / 16 || (tcm + 0x20000) / 16 ≤ g)
  let s1 := { s with mem := s.mem.loadLocal image tcm base (base + 0x20000) 0x20000, full := granules.foldl (fun l g => sins g l) full }
  (s1.modCore core (readPieces (corePieces ctx owned) image base)).loadHarts core base image

/-- A fork before its frame is read. -/
def Fork.blank (hart : Nat) : Fork :=
  { hart := hart, strip := false, n := 1, c := 1, body := 0, target := 0, decls := [], x0 := [], saved := Hart.empty.save,
    chunks := [], oldest := 0, created := 0, last := none, folds := [], fflags := 0, vflags := 0, singcol := none, chunkno := 0,
    prev := [], forker := Hart.empty, parked := false }

/-- The fork of a slot: the oldest chunk resumes on a hart, at its next iteration (R218); where it is the forking hart's and not chunk 0, that
hart's own state is F. (DEDUCED: log entry 78) -/
def loadFork (image : Mem) (base hart oldestHart iter : Nat) (queued : Bool) : Fork :=
  let a := readPieces forkPieces image base { f := Fork.blank hart, starts := [] }
  let h := (readPieces (recordPieces true) image (base + 0x4000) HartImage.blank).h
  { a.f with
    body := h.pc.toNat, saved := h.save, chunkno := h.chunkno, forker := h, parked := 1 ≤ a.f.oldest && oldestHart = hart,
    chunks := [{ newChunk a.f.decls a.f.oldest oldestHart iter .oldest a.starts true with num := a.f.oldest, vvOpen := queued }] }

end Sys2Proof.Machine
end

