-- ==== Sys2Proof/Machine/Launch.lean ====
section
/-! DEFINITION. Launches (R291 to R302): records reach the Vestibule, the dispatchers place ring programs, pre-empt and restore
them, and a launch completes. -/

namespace Sys2Proof.Machine

/-! ### The Vestibule (R293) -/

/-- `PKGSTAT.STATE` READY. -/
abbrev Pkg.ready (p : Pkg) : Bool := p.state = 1

/-- A dword of bytes, little-endian. -/
def bytesWord (bs : List Byte) : Word := BitVec.ofNat 64 (bs.foldr (fun b a => b.toNat + 256 * a) 0)

/-- The eight dwords of 64 bytes. -/
def dwordsOf (bs : List Byte) : List Word := (List.range 8).map (fun i => bytesWord ((bs.drop (8 * i)).take 8))

/-- `VESTIBULE_WRITE`: one 64-byte aligned write places a record; any other write to the window is discarded and counted. Flow
control holds a record's write while the Vestibule is full. -/
def execVestibuleWrite (pkg port offset : Nat) (bytes : List Byte) (s : State) : Out :=
  if 128 ≤ pkg || 2 ≤ port then .fault .noSuchUnit
  else
    let p := s.pkg pkg
    if !p.ready || !(tget false p.links port) then s.noEvent
    else if bytes.length != 64 || offset % 64 != 0 then .next (s.modPkg pkg (fun q => { q with vestdrop := count32 q.vestdrop }))
    else if p.vestibuleRoom then .next (s.arrive pkg (dwordsOf bytes))
    else s.noEvent

/-! ### Context descriptors (R279, R285) -/

/-- Where a context's descriptor lies. -/
def Pkg.descriptorAt (p : Pkg) (ctx : Nat) : Nat := p.ctxtab.toNat / 2 ^ 16 % 2 ^ 36 * 2 ^ 16 + 64 * ctx

/-- Find the errors of the sectors of a device range that the dispatcher reads (R272). -/
def State.demandRange (s : State) (pkg pa n : Nat) : State :=
  ((s.pkg pkg).badSectors.filter (fun x => pa / 32 ≤ x && x < (pa + n + 31) / 32)).foldl (fun t x =>
    match t.physical pkg 0 (32 * x) with
    | some (.at l _) => t.demand l
    | _ => t) s

/-- The eight dwords of a descriptor; a dword no agent may read is absent. (DEDUCED: log entry 48) -/
def State.descriptor (s : State) (pkg ctx : Nat) : List (Option PVal) :=
  (List.range 8).map (fun i => s.pte pkg ctx ((s.pkg pkg).descriptorAt ctx + 8 * i))

/-- Whether a descriptor names a context that exists. (DEDUCED: log entry 48, DESIGN CHOICE: log entry 142) -/
def descriptorValid (ctx : Nat) (ws : List Word) : Bool :=
  let d := fun (i : Nat) => dw ws i
  (d 0).getLsbD 0 && (d 0).toNat / 2 ^ 48 == ctx && (d 0).extractLsb' 2 46 == 0 &&
  (d 1).extractLsb' 0 12 == 0 && (d 1).extractLsb' 52 12 == 0 && (d 2).extractLsb' 0 26 == 0 && (d 2).extractLsb' 48 16 == 0 &&
  (d 3).extractLsb' 15 49 == 0 && (d 3).toNat ≤ 16384 && (d 4).extractLsb' 0 12 == 0 && (d 4).extractLsb' 52 12 == 0 &&
  (d 5).extractLsb' 0 2 == 0 && (d 5).extractLsb' 48 16 == 0 && d 6 == 0 && d 7 == 0 &&
  (d 2).toNat + (d 3).toNat * 2 ^ 26 ≤ 0xFF0000000000

/-- The dwords of a valid context's descriptor, read whole and unpoisoned. -/
def State.contextWords (s : State) (pkg ctx : Nat) : Option (List Word) :=
  let ds := s.descriptor pkg ctx
  if ds.any (fun p => (p.map (·.poison)).getD true) then none
  else
    let ws := ds.map (fun p => ((p.map (·.val)).getD 0))
    if descriptorValid ctx ws then some ws else none

/-- The descriptor of a context as the dispatcher reads it on demand (R272). -/
def State.readContext (s : State) (pkg ctx : Nat) : State × Option (List Word) :=
  let t := s.demandRange pkg ((s.pkg pkg).descriptorAt ctx) 64
  (t, t.contextWords pkg ctx)

/-- The resident record of a descriptor, its table loaded between two indices. -/
def State.residentFrom (s : State) (pkg ctx : Nat) (ws : List Word) (lo hi : Nat) : Resident :=
  { ctx := ctx, root := (dw ws 1).toNat, apBase := (dw ws 2).toNat, apLen := (dw ws 3).toNat, img := (dw ws 4).toNat,
    tvec := dw ws 5, vtt := s.loadImage pkg ctx (dw ws 4).toNat lo hi [] }

/-- Whether a die's context has a live hart, a copy or a merge command there. (DEDUCED: log entry 70) -/
def State.contextBusy (s : State) (die ctx : Nat) : Bool :=
  s.harts.any (fun (e : Nat × Hart) => e.2.live && !e.2.engine && dieOf e.1 = die && e.2.ctx = ctx) ||
  s.cores.any (fun (e : Nat × Core) => dieOfCore e.1 = die && e.2.copies.any (fun c => c.ctx = ctx)) ||
  s.rings.any (fun (e : Nat × Ring) => dieOfRing e.1 = die &&
    (e.2.mergeQ.any (fun c => c.ctx = ctx) || e.2.mergeRun.any (fun r => r.cmd.ctx = ctx)))

/-- The place a context takes on a die: its own, an empty one, or that of the lowest context that can be evicted. (DEDUCED: log entry 70) -/
def State.residentPlace (s : State) (die ctx : Nat) : Option Nat :=
  let rs := (s.die die).resident
  let at_ := fun (i : Nat) => lget none rs i
  let places := List.range Config.residentContexts
  match places.find? (fun i => (at_ i).any (fun r => r.ctx = ctx)) with
  | some i => some i
  | none => match places.find? (fun i => (at_ i).isNone) with
    | some i => some i
    | none => places.find? (fun i => (at_ i).any (fun r => !s.contextBusy die r.ctx))

/-- Make a context resident on a die. (DEDUCED: log entry 70) -/
def State.makeResident (s : State) (die ctx : Nat) (ws : List Word) : State :=
  if (s.residentOf die ctx).isSome then s
  else match s.residentPlace die ctx with
    | none => s
    | some i =>
      let pkg := pkgOfDie die
      let s1 := s.demandRange pkg (dw ws 4).toNat (8 * (dw ws 3).toNat)
      let r := s1.residentFrom pkg ctx ws 0 (dw ws 3).toNat
      let old := match lget none (s1.die die).resident i with
        | some x => x.ctx
        | none => ctx
      s1.modDie die (fun d =>
        let rs := (List.range Config.residentContexts).map (fun j => if j = i then some r else lget none d.resident j)
        { d with resident := rs, tlb := d.tlb.filter (fun t => t.ctx != old && t.ctx != ctx) })

/-! ### Addresses of a record's context (R292) -/

/-- The number of a die that no package has: the dispatcher translates there. (DEDUCED: log entry 71) -/
abbrev dispatcherDie (pkg : Nat) : Nat := dieKey pkg 15

/-- A state in which the dispatcher translates for a context that is resident nowhere: the descriptor and the table entries
about an address. (DEDUCED: log entry 71) -/
def State.dispatcherView (s : State) (pkg ctx : Nat) (ws : List Word) (va : Nat) : State :=
  let i := (va - (dw ws 2).toNat) / 2 ^ 26 / 16 * 16
  s.modDie (dispatcherDie pkg) (fun d => { d with
    resident := [some (s.residentFrom pkg ctx ws i (min (i + 32) (dw ws 3).toNat))], tlb := [] })

/-- Where `n` bytes of a context lie for the dispatcher at supervisor privilege, none where it cannot reach them: by the tables of a live
die where the context is resident, else by its own reading of descriptor and image. (DEDUCED: log entry 71) -/
def State.dispatcherPlaces (s : State) (pins : List Pin) (pkg ctx va n kind : Nat) : State × List Pin × Option (List Place) :=
  let agent := fun (die : Nat) => engineAgent (coreKey (ringKey die 0) 0) ctx 1
  let ans := fun (a : Except AccFault (List Place)) => match a with
    | .ok ps => some ps
    | .error _ => none
  if (va + n - 1) / 2 ^ 40 = 0xFF || va / 2 ^ 40 = 0xFF then (s, pins, none)
  else match ((diesOf pkg).filter (fun d => !(s.die d).failed)).find? (fun d => (s.residentOf d ctx).isSome) with
    | some d =>
      let x := s.places (agent d) pins kind va n
      (x.st, x.pins, ans x.ans)
    | none => match s.readContext pkg ctx with
      | (t, none) => (t, pins, none)
      | (t, some ws) =>
        let x := (t.dispatcherView pkg ctx ws va).places (agent (dispatcherDie pkg)) pins kind va n
        ({ x.st with dies := tdel x.st.dies (dispatcherDie pkg) }, x.pins, ans x.ans)

/-- What an access of the dispatcher has come to: it waits for the fabric, it cannot be made, or its places. -/
inductive DispatchAcc where
  | wait (s : State)
  | none (s : State)
  | ok (s : State) (ps : List Place)

/-- An access of the dispatcher to `n` bytes of a context (R292); `part` tells apart those under way. A part that fails in transit or is
refused makes the access impossible. (DEDUCED: log entry 71) -/
def State.dispatcherAccess (s : State) (pkg part ctx va n kind : Nat) (data : List Byte) : DispatchAcc :=
  let w := Who.agent pkg part
  match s.dispatcherPlaces (s.heldPins w) pkg ctx va n kind with
  | (t, _, none) => .none (t.release w)
  | (t, pins, some ps) => match t.reach w ctx kind 0 pins false ps data 0 with
    | .wait u => .wait u
    | .refused u _ c tg la => .none (u.fabLog pkg c tg la)
    | .ok u qs lost => if lost != 0 then .none u else .ok (if kind = kLoad then u.demandAll qs else u) qs

/-! ### Checking a record (R295) -/

/-- `SAVE` (R291): a physical base. -/
abbrev recSave (ws : List Word) : Nat := (dw ws 6).toNat / 2 ^ 16 % 2 ^ 36 * 2 ^ 16

/-- Whether a reserved field of a record is nonzero. -/
def recReserved (ws : List Word) : Bool :=
  (dw ws 0).extractLsb' 0 2 != 0 || (dw ws 0).extractLsb' 48 16 != 0 || (dw ws 2).extractLsb' 41 7 != 0 ||
  (dw ws 2).extractLsb' 18 14 != 0 || (dw ws 2).extractLsb' 14 2 != 0 || (dw ws 2).extractLsb' 1 7 != 0 ||
  (dw ws 6).extractLsb' 0 16 != 0 || (dw ws 6).extractLsb' 52 12 != 0 || dw ws 7 != 0

/-- The rings of a package with a live core. -/
def State.liveRings (s : State) (pkg : Nat) : List Nat :=
  ((diesOf pkg).filter (fun d => !(s.die d).failed)).flatMap (fun d =>
    ((List.range Config.ringsPerDie).map (ringKey d)).filter (fun r => !(s.livePositions r).isEmpty))

/-- Whether a range of device memory below a unit's size is wholly populated, within one region; a unit that is lent or an
Escrow counts as unpopulated (R348, R349). (DEDUCED: log entry 111) -/
def State.rangePopulated (s : State) (pkg a n : Nat) : Bool :=
  a / 0x4000000000 = (a + n - 1) / 0x4000000000 && [a, a + n - 1].all (fun x =>
    (s.homeOf pkg x).isSome && !(s.pkg pkg).isLent x && !(s.pkg pkg).isEscrow x)

/-- What the check of a record has come to: it waits for a map in another package, it rejects, or the map's bytes. -/
inductive Checked where
  | wait (s : State)
  | bad (s : State)
  | ok (s : State) (map : List Nat)

/-- Read the bytes of a placement map. (DEDUCED: log entry 72) -/
def State.placementMap (s : State) (pkg : Nat) (ws : List Word) : Checked :=
  if !(dw ws 2).getLsbD 0 then .ok s []
  else match s.dispatcherAccess pkg 16 (recCtx ws) (dw ws 4).toNat (recCount ws) kLoad [] with
    | .wait t => .wait t
    | .none t => .bad t
    | .ok t ps => if t.anyPoison none ps then .bad t else .ok t (ps.map (fun p => (t.readPlace none p).1.toNat))

/-- Check a record (R295): the state after the reads, and the map. (DEDUCED: log entry 72, DEDUCED: log entry 111) -/
def State.checkRecord (s : State) (pkg : Nat) (ws : List Word) : Checked :=
  if recReserved ws || recCount ws = 0 || (s.liveRings pkg).length < recCount ws || (dw ws 3).toNat % 16 != 0 ||
      (recSave ws != 0 && !s.rangePopulated pkg (recSave ws) (recCount ws * slotBytes)) then .bad s
  else match s.readContext pkg (recCtx ws) with
    | (t, none) => .bad t
    | (t, some _) => t.placementMap pkg ws

/-! ### Placing (R296, R297) -/

/-- What the dispatchers place next. -/
inductive Head where
  | saved (p : SavedProgram)
  | record (r : Record)
  deriving DecidableEq, Repr

/-- Its priority. -/
def Head.prio : Head → Nat
  | .saved p => p.prio
  | .record r => recPrio r.words

/-- The first element of the highest rank. -/
def firstBest {α : Type} (rank : α → Nat) : List α → Option α
  | [] => none
  | a :: r => match firstBest rank r with
    | none => some a
    | some b => if rank b ≤ rank a then some a else some b

/-- The head of a package's dispatchers. -/
def Pkg.head (p : Pkg) : Option Head :=
  match firstBest (·.prio) p.saved, firstBest (fun r => recPrio r.words) p.vestibule with
  | some a, some b => if recPrio b.words ≤ a.prio then some (.saved a) else some (.record b)
  | some a, none => some (.saved a)
  | none, some b => some (.record b)
  | none, none => none

/-- Whether a copy of a core has a destination in the ring's TCMs or scratchpad; before its descriptor is read it may have. -/
def Copy.intoRing (c : Copy) : Bool :=
  c.phase == .kicked || (c.dsp = 0 && (List.range (c.cnt1 * c.cnt2)).any (fun r => c.rowAddr 2 r / 2 ^ 32 ∈ [0xFF00, 0xFF01, 0xFF02]))

/-- Whether the merge network of a ring is idle. -/
def Ring.mergeIdle (r : Ring) : Bool := r.mergeQ.isEmpty && r.mergeRun.isNone

/-- Whether a copy of a ring's cores writes into the ring. -/
def State.copiesInto (s : State) (ring : Nat) : Bool :=
  (List.range 8).any (fun p => (s.core (coreKey ring p)).copies.any Copy.intoRing)

/-- Whether a ring is free (R297). -/
def State.ringFree (s : State) (ring : Nat) : Bool :=
  (s.ringHarts ring).isEmpty && (s.ring ring).mergeIdle && !s.copiesInto ring && !(s.livePositions ring).isEmpty

/-- The page count of a die in a record (R291). -/
def recPages (ws : List Word) (die : Nat) : Nat :=
  if (dw ws 2).getLsbD 0 then 0 else (dw ws 4).toNat / 2 ^ (16 * die) % 2 ^ 16

/-- Enter a die in descending count, then ascending number. -/
def dieInsert (ws : List Word) (d : Nat) : List Nat → List Nat
  | [] => [d]
  | e :: r => if recPages ws e < recPages ws d || (recPages ws e = recPages ws d && d < e) then d :: e :: r else e :: dieInsert ws d r

/-- The live dies in the order in which a ring program tries them (R296 steps 1 and 2). (DEDUCED: log entry 73) -/
def State.dieOrder (s : State) (pkg : Nat) (ws : List Word) (want : Nat) : List Nat :=
  let ranked := (s.liveDies pkg).foldr (dieInsert ws) []
  let preferred : Option Nat := if (dw ws 2).getLsbD 0 then
      (if (s.liveDies pkg).contains want then some want else (s.liveDies pkg).head?) else ranked.head?
  match preferred with
  | some d => d :: ranked.filter (· != d)
  | none => []

/-- Whether a head fits on a ring: a context place on the die, and the saved positions. (DEDUCED: log entry 74) -/
def State.fits (s : State) (ring ctx : Nat) (live : Option (List Nat)) : Bool :=
  (s.residentPlace (dieOfRing ring) ctx).isSome && live.all (fun l => s.livePositions ring == l)

/-- The ring that a ring program takes (R296 step 2). (DEDUCED: log entry 73) -/
def State.placeRing (s : State) (pkg : Nat) (ws : List Word) (want ctx : Nat) (live : Option (List Nat)) : Option Nat :=
  ((s.dieOrder pkg ws want).flatMap (fun d => (List.range Config.ringsPerDie).map (ringKey (dieKey pkg d)))).find? (fun r =>
    s.ringFree r && s.fits r ctx live)

/-- The words, the wanted die, the context and the live positions of a head. -/
def Head.wants : Head → List Word × Nat × Nat × Option (List Nat)
  | .saved p => (p.words, p.want, p.ctx, some p.live)
  | .record r => (r.words, lget 255 (r.map.getD []) r.placed, recCtx r.words, none)

/-- The ring that a head takes now. -/
def State.headRing (s : State) (pkg : Nat) (h : Head) : Option Nat :=
  let (ws, want, ctx, live) := h.wants
  s.placeRing pkg ws want ctx live

/-- Whether a program can be pre-empted for a head (R296 step 3). -/
def Program.below (p : Program) (h : Head) : Bool := p.prio < h.prio && recSave p.record != 0

/-- The ring whose program is pre-empted for a head: the lowest priority, latest first dispatched first; a restore needs a ring with its live
positions. (DEDUCED: log entry 74) -/
def State.victim (s : State) (pkg : Nat) (h : Head) : Option Nat :=
  let (_, _, _, live) := h.wants
  let all := s.rings.filterMap (fun (e : Nat × Ring) => match e.2.prog with
    | some p => if pkgOfRing e.1 = pkg && p.below h && live.all (fun l => s.livePositions e.1 == l) then some (e.1, p) else none
    | none => none)
  (firstBest (fun e => (3 - e.2.prio) * 2 ^ 64 + e.2.seq) all).map (·.1)

/-- Whether a head is ready to be placed: a record once it has been checked. (DEDUCED: log entry 74) -/
def Head.checked : Head → Bool
  | .saved _ => true
  | .record r => r.map.isSome

/-! ### The start of a ring program (R297, R298) -/

/-- A core as a fresh ring program finds it. (DEDUCED: log entry 105) -/
def Core.prepare (c : Core) : Core :=
  { c with strict := false, landing := none, outBuf := none, handlers := [], recvQ := [] }

/-- Prepare a ring (R297): registers, tables and queues reset, TCMs and scratchpad zero; the full/empty bits stay. (DEDUCED: log entry 105) -/
def State.prepareRing (s : State) (ring : Nat) : State :=
  let s1 := (List.range 8).foldl (fun t p => t.modCore (coreKey ring p) Core.prepare) s
  let mem := (List.range 8).foldl (fun (m : Mem) p => m.clear (locTcm (coreKey ring p) 0) Config.tcmBytes) s1.mem
  { s1 with mem := mem.clear (locScratch ring 0) Config.scratchBytes }.modRing ring (fun r =>
    { r with fork := none, sfu := [], stalled := [] })

/-- The home core of a ring: the live core of lowest `RINGPOS`. -/
def State.homeCore (s : State) (ring : Nat) : Nat := coreKey ring ((s.livePositions ring).headD 0)

/-- The hart of a fresh ring program (R23). -/
def programHart (ws : List Word) (ringidx : Nat) : Hart :=
  { (({ Hart.empty with live := true, pc := dw ws 0 &&& pcMask, ctx := recCtx ws, ringidx := ringidx } : Hart).setX 10
      (PVal.clean (dw ws 1))).setX 11 (PVal.clean (BitVec.ofNat 64 (recCount ws))) with route := 0 }

/-- `CTXCTL.EXPERT` from the descriptor when no hart of the context is live. -/
def State.startExpert (s : State) (pkg ctx : Nat) (ws : List Word) : State :=
  if s.harts.any (fun (e : Nat × Hart) => e.2.live && !e.2.engine && pkgOf e.1 = pkg && e.2.ctx = ctx) then s
  else s.modPkg pkg (fun p => { p with expert := if (dw ws 0).getLsbD 1 then sins ctx p.expert else sdel ctx p.expert })

/-- Count a placed ring program in its launch. -/
def Pkg.launched (p : Pkg) (r : Record) : Pkg :=
  if p.launches.any (fun l => l.id = r.id) then
    { p with launches := p.launches.map (fun l =>
        if l.id = r.id then { l with unplaced := l.unplaced - 1, running := l.running ++ [r.placed] } else l) }
  else { p with launches := p.launches ++
    [{ id := r.id, words := r.words, unplaced := recCount r.words - 1, running := [r.placed], status := 0 }] }

/-- A record after its next ring program has been placed: it leaves the Vestibule with the last. -/
def Pkg.recordPlaced (p : Pkg) (r : Record) : Pkg :=
  { p with vestibule :=
      if r.placed + 1 = recCount r.words then p.vestibule.filter (fun x => x.id != r.id)
      else p.vestibule.map (fun x => if x.id = r.id then { x with placed := x.placed + 1 } else x) }

/-- Start the next ring program of a record on a free ring. -/
def State.startProgram (s : State) (pkg : Nat) (r : Record) (ring : Nat) : State :=
  let ctx := recCtx r.words
  let (s0, d) := s.readContext pkg ctx
  let desc := d.getD []
  let s1 := ((s0.prepareRing ring).makeResident (dieOfRing ring) ctx desc).startExpert pkg ctx desc
  let k := hartKey (s1.homeCore ring) 0
  let seq := (s1.pkg pkg).dispatchSeq
  let prog : Program := { hart := k, launch := r.id, ctx := ctx, prio := recPrio r.words, ringidx := r.placed, seq := seq,
                          record := r.words, want := lget 255 (r.map.getD []) r.placed }
  ((s1.setHart k (programHart r.words r.placed)).modRing ring (fun x => { x with prog := some prog })).modPkg pkg (fun p =>
    (({ p with dispatchSeq := seq + 1 } : Pkg).launched r).recordPlaced r)

/-- Reject a record (R295): its launch ends with `BADREC`. -/
def State.rejectRecord (s : State) (pkg : Nat) (r : Record) : State :=
  s.modPkg pkg (fun p => { p with
    vestibule := p.vestibule.filter (fun x => x.id != r.id),
    launches := p.launches ++ [{ id := r.id, words := r.words, unplaced := 0, running := [], status := 2 }] })

/-- `DISPATCH`: the head record is checked once, and its next ring program starts on a free ring. -/
def execDispatch (pkg : Nat) (s : State) : Out :=
  if 128 ≤ pkg then .fault .noSuchUnit
  else match (s.pkg pkg).ready, (s.pkg pkg).head with
    | true, some (.record r) =>
      (match r.map with
       | some _ => match s.headRing pkg (.record r) with
         | some ring => .next (s.startProgram pkg r ring)
         | none => s.noEvent
       | none => match s.checkRecord pkg r.words with
         | .wait t => .next t
         | .bad t => .next (t.rejectRecord pkg r)
         | .ok t m => .next (t.modPkg pkg (fun p => { p with vestibule := p.vestibule.map (fun x =>
             if x.id = r.id then { x with map := some m } else x) })))
    | _, _ => s.noEvent

/-! ### Pre-emption (R299, R218) -/

/-- The oldest chunk's commit completes on the forking hart once the younger chunks are discarded (R218). (DEDUCED: log entry 75) -/
def State.finishCommit (s : State) (ring : Nat) : State :=
  match (s.ring ring).fork with
  | none => s
  | some f => match f.chunk? f.oldest with
    | none => s
    | some c =>
      if c.state != .commit then s
      else
        let e := (s.hart c.hart).loopEnd
        let f1 := f.absorb c e
        let s1 := (s.drainChunk ring c.num).retireChunk f c
        if f.isLast c.num then s1.joinFork ring f1 e.x
        else
          let d := waitingChunk f1 (c.num + 1)
          (s1.modFork ring (fun g =>
            let h := g.absorb c e
            { h with chunks := h.chunks ++ [d], created := c.num + 1 })).startOnFork ring f1 d (c.ends.getD [])

/-- The exact fold so far with the oldest chunk's partials: the chunk goes on from empty ones (R39). (DEDUCED: log entry 75) -/
def State.foldOldest (s : State) (ring : Nat) : State :=
  s.modFork ring (fun f => match f.chunk? f.oldest with
    | none => f
    | some c => { f with folds := addParts f.decls (ftzOf f.saved.fstat) f.folds c.parts }.modChunk c.num (fun d =>
        { d with parts := startParts f.decls }))

/-- A ring whose program is stopped: no speculative chunk, no commit in progress, the oldest chunk's versions drained. (DEDUCED: log entry 75) -/
def State.quiesce (s : State) (ring : Nat) : State :=
  match (s.ring ring).fork with
  | none => s
  | some f =>
    let s1 := ((s.discardYounger ring f.oldest).finishCommit ring).foldOldest ring
    match (s1.ring ring).fork with
    | none => s1
    | some g => s1.drainChunk ring g.oldest

/-- Whether the drains of a quiescing fork must wait for a persistent request of another core (R269). (DEDUCED: log entry 75) -/
def State.quiesceBusy (s : State) (ring : Nat) : Bool :=
  match (s.ring ring).fork with
  | none => false
  | some f => s.drainBusy ring f.oldest

/-- Whether a hart of a ring stands inside an access, or an element group of it is under way, at another package (R339). (DEDUCED: log entry 75) -/
def State.ringAbroad (s : State) (ring : Nat) : Bool := (s.ringHarts ring).any (fun k => s.midAccess k || s.groupAbroad k)

/-- Whether a delivery on the operand ring can still be made. -/
def State.deliveryDue (s : State) (ring : Nat) : Bool :=
  (s.livePositions ring).any (fun p =>
    (s.core (coreKey ring p)).outBuf.isSome && (s.core (coreKey ring (s.nextLive ring p))).landing.isNone)

/-- What the model keeps of a saved hart beside its record. (DESIGN CHOICE: log entry 77) -/
def keptHart (ring k : Nat) (h : Hart) : SavedHart := { slot := k - ring * 64, forks := h.forks, events := h.events, stopped := h.stopped }

/-- The saved ring program of a ring that is stopped. (DESIGN CHOICE: log entry 77) -/
def State.savedProgram (s : State) (ring : Nat) (p : Program) : SavedProgram :=
  { launch := p.launch, ctx := p.ctx, ringidx := p.ringidx, prio := p.prio, seq := p.seq,
    addr := recSave p.record + p.ringidx * slotBytes, words := p.record, live := s.livePositions ring, want := p.want,
    harts := (s.ringHarts ring).map (fun k => keptHart ring k (s.hart k)),
    iter := match (s.ring ring).fork with
      | some f => ((f.chunk? f.oldest).map (·.i)).getD 0
      | none => 0,
    scopes := (List.range 8).map (fun q => (q, (s.core (coreKey ring q)).recvQ.map (·.2))),
    owned := (List.range 8).map (fun q => (q, (List.range 4).filter (fun n => ((s.core (coreKey ring q)).slot n).owner = p.ctx))),
    checks := [] }

/-- Write the save slot; what goes to a failed die or to memory that refuses the dispatcher is lost. (DEDUCED: log entry 111) -/
def State.writeSlot (s : State) (ring : Nat) (p : Program) (addr : Nat) : State :=
  let pkg := pkgOfRing ring
  match s.physical pkg p.ctx addr with
  | some (.at l _) => { (s.wipe l slotBytes).dropLines l slotBytes with mem := s.slotImage ring l p }
  | _ => s

/-- Free every slot of a ring. -/
def State.clearRing (s : State) (ring : Nat) : State :=
  ((s.ringHarts ring).foldl (fun t k => t.freeSlot k) s).modRing ring (fun r => { r with prog := none, fork := none })

/-- `PREEMPTION`: the ring program that R296 names is stopped and saved, and the ring is free. It waits until no access of its
harts is with another package, no copy writes into the ring, and the deliveries are complete. (DESIGN CHOICE: log entry 13, DEDUCED: log entry 74, DEDUCED: log entry 75) -/
def execPreemption (ring : Nat) (s : State) : Out :=
  if !ringExists ring then .fault .noSuchUnit
  else
    let pkg := pkgOfRing ring
    match (s.pkg pkg).ready, (s.pkg pkg).head, (s.ring ring).prog with
    | true, some h, some p =>
      if !h.checked || (s.headRing pkg h).isSome || s.victim pkg h != some ring || s.ringAbroad ring || s.copiesInto ring ||
          s.deliveryDue ring || s.quiesceBusy ring then s.noEvent
      else
        let s1 := s.quiesce ring
        let saved := s1.savedProgram ring p
        .next (((s1.writeSlot ring p saved.addr).clearRing ring).modPkg pkg (fun q => { q with saved := q.saved ++ [saved] }))
    | _, _, _ => s.noEvent

/-! ### Restore (R301) -/

/-- What a saved hart kept comes back. -/
def State.giveBack (s : State) (ring : Nat) (x : SavedHart) : State :=
  s.modHart (ring * 64 + x.slot) (fun h => if h.live then { h with forks := x.forks, events := x.events, stopped := x.stopped } else h)

/-- The scopes of the words of a receive queue come back. -/
def Core.withScopes (c : Core) (sc : List Nat) : Core :=
  { c with recvQ := (c.recvQ.zipIdx).map (fun e => (e.1.1, lget 0 sc e.2)) }

/-- The hart of a launch route on a ring. -/
def State.programSlot (s : State) (ring : Nat) : Nat :=
  ((s.ringHarts ring).find? (fun k => (s.hart k).route = 0)).getD (hartKey (s.homeCore ring) 0)

/-- `CHUNKNO` of a hart outside the sequential forks open on it: the number of its chunk (R18, R203). -/
def Hart.chunkNumber (h : Hart) : Nat := (h.forks.getLast?.map (·.chunkno)).getD h.chunkno

/-- The hart that runs a chunk of a number: a chunk hart, else the forking hart. -/
def State.chunkSlot (s : State) (ring j : Nat) : Nat :=
  ((s.ringHarts ring).find? (fun k => (s.hart k).route = 1 && (s.hart k).chunkNumber = j)).getD (s.programSlot ring)

/-- Write a saved ring program back onto a ring. (DEDUCED: log entry 79) -/
def State.restoreOn (s : State) (ring : Nat) (p : SavedProgram) : State :=
  let pkg := pkgOfRing ring
  let (s0, d) := (s.demandRange pkg p.addr slotBytes).readContext pkg p.ctx
  let desc := d.getD []
  let s1 := (s0.prepareRing ring).makeResident (dieOfRing ring) p.ctx desc
  let (image, base) := match s0.physical pkg p.ctx p.addr with
    | some (.at l _) => (s0.mem, l)
    | _ => (({ cells := [], marks := [] } : Mem), 0)
  let s2 := p.live.foldl (fun t q => (t.loadCore (coreKey ring q) p.ctx (tget [] p.owned q) (base + coreRecord q) image).modCore (coreKey ring q)
    (fun c => c.withScopes (tget [] p.scopes q))) s1
  let s3 := { s2 with mem := s2.mem.loadLocal image (locScratch ring 0) (base + 0x600000) (base + 0xA00000) 0x400000 }
  let s4 := p.harts.foldl (fun t x => t.giveBack ring x) s3
  let k := s4.programSlot ring
  let s5 := (s4.ringHarts ring).foldl (fun t j => t.modHart j (fun h => if h.route = 2 then h else { h with ringidx := p.ringidx })) s4
  let fork := if (image.num base 8).testBit 16 then
      let oldest := s5.chunkSlot ring (image.num (base + 0x110) 8)
      let f := loadFork image base k oldest p.iter (!(s5.hart oldest).queue.isEmpty)
      some { f with forker := { f.forker with ringidx := p.ringidx } }
    else none
  let prog : Program := { hart := k, launch := p.launch, ctx := p.ctx, prio := p.prio, ringidx := p.ringidx, seq := p.seq,
                          record := p.words, want := p.want }
  let s6 := (s5.modRing ring (fun r => { r with prog := some prog, fork := fork })).modPkg pkg (fun q => { q with saved := q.saved.erase p })
  p.checks.foldl (fun t e => t.postEvent k e) s6

/-- `RESTORE`: the saved ring program at the head returns onto a free ring with the same live positions. (DESIGN CHOICE: log entry 77, DEDUCED: log entry 78) -/
def execRestore (pkg : Nat) (s : State) : Out :=
  if 128 ≤ pkg then .fault .noSuchUnit
  else match (s.pkg pkg).ready, (s.pkg pkg).head with
    | true, some (.saved p) => match s.headRing pkg (.saved p) with
      | some ring => .next (s.restoreOn ring p)
      | none => s.noEvent
    | _, _ => s.noEvent

/-! ### Completion (R302) -/

/-- `STATUS` of a launch: `DONE` unless something else ended it. -/
def Launch.code (l : Launch) : Nat := if l.status = 0 then 1 else l.status

/-- The bytes of a completion record. -/
def Launch.record (l : Launch) : List Byte := dwordBytes [BitVec.ofNat 64 (l.code * 2 ^ 56 + recCount l.words), dw l.words 5]

/-- Write the completion record, or count it in `RECDROP`; and whether that is done, or the record is on its way to another package. (DEDUCED: log entry 62) -/
def State.launchRecord (s : State) (pkg : Nat) (l : Launch) : State × Bool :=
  let mbox := (dw l.words 3).toNat
  let dropped := fun (t : State) => t.modPkg pkg (fun p => { p with recdrop := count32 p.recdrop })
  if mbox = 0 then (s, true)
  else if mbox % 16 != 0 then (dropped s, true)
  else match s.dispatcherAccess pkg (17 + l.id) (recCtx l.words) mbox 16 kStore l.record with
    | .wait t => (t, false)
    | .none t => (dropped t, true)
    | .ok t ps => (t.enginePut ps l.record false, true)

/-- A launch has completed: its MSI-X follows its record. -/
def State.endLaunch (s : State) (pkg : Nat) (l : Launch) : State :=
  let s1 := s.modPkg pkg (fun p => { p with launches := p.launches.filter (fun x => x.id != l.id) })
  if (dw l.words 2).getLsbD 17 then
    s1.sendMsix pkg ((dw l.words 2).extractLsb' 16 1).toNat ((dw l.words 2).extractLsb' 8 6).toNat
  else s1

/-- A launch completes: its record, then, once that is written, its MSI-X (R302). (DEDUCED: log entry 79) -/
def State.completeLaunch (s : State) (pkg : Nat) (l : Launch) : State :=
  match s.launchRecord pkg l with
  | (t, true) => t.endLaunch pkg l
  | (t, false) => t

/-- `LAUNCH_COMPLETION`: every ring program of a launch has halted, or its record was rejected. -/
def execLaunchCompletion (pkg launch : Nat) (s : State) : Out :=
  if 128 ≤ pkg then .fault .noSuchUnit
  else match (s.pkg pkg).launches.find? (fun l => l.id = launch) with
    | none => s.noEvent
    | some l => if l.unplaced = 0 && l.running.isEmpty && (s.pkg pkg).ready then .next (s.completeLaunch pkg l) else s.noEvent

end Sys2Proof.Machine
end

