-- ==== Sys2Proof/Machine/Sha3.lean ====
section
/-! DEFINITION. SHA3-256 (FIPS 202), which R319 and R320 name, and SHAKE, which ML-DSA uses: the permutation of 25 lanes of 64 bits,
the sponge with its rate in bytes, and its padding. A lane (x, y) stands at 5·y + x. -/

namespace Sys2Proof.Machine

/-- A state of the permutation: 25 lanes. -/
abbrev Lanes := List Word

/-- A lane. -/
abbrev Lanes.at (a : Lanes) (x y : Nat) : Word := a.getD (5 * (y % 5) + x % 5) 0

/-- Every lane by its place. -/
def Lanes.make (f : Nat → Nat → Word) : Lanes := (List.range 25).map (fun i => f (i % 5) (i / 5))

/-- Step theta: the parities of two columns. -/
def Lanes.theta (a : Lanes) : Lanes :=
  let c := (List.range 5).map (fun x => a.at x 0 ^^^ a.at x 1 ^^^ a.at x 2 ^^^ a.at x 3 ^^^ a.at x 4)
  let d := (List.range 5).map (fun x => c.getD ((x + 4) % 5) 0 ^^^ (c.getD ((x + 1) % 5) 0).rotateLeft 1)
  Lanes.make (fun x y => a.at x y ^^^ d.getD x 0)

/-- The place that step pi moves the lane at a place to. -/
abbrev piPlace (p : Nat × Nat) : Nat × Nat := (p.2, (2 * p.1 + 3 * p.2) % 5)

/-- The rotations of step rho by place: lane (0, 0) stays, and from (1, 0) on, each place that step pi leads to turns by the next
triangular number. -/
def rhoWalk : Nat → Nat → Nat × Nat → Tab Nat
  | 0, _, _ => []
  | n + 1, t, p => (5 * p.2 + p.1, t * (t + 1) / 2 % 64) :: rhoWalk n (t + 1) (piPlace p)

/-- The rotation of the lane at a place. -/
def rhoOf (x y : Nat) : Nat := tget 0 (rhoWalk 24 1 (1, 0)) (5 * y + x)

/-- Steps rho and pi: each lane is rotated and moved. -/
def Lanes.rhoPi (a : Lanes) : Lanes :=
  Lanes.make (fun x y => (a.at (x + 3 * y) x).rotateLeft (rhoOf ((x + 3 * y) % 5) x))

/-- Step chi. -/
def Lanes.chi (a : Lanes) : Lanes := Lanes.make (fun x y => a.at x y ^^^ (~~~ (a.at (x + 1) y) &&& a.at (x + 2) y))

/-- One step of the register behind the constants of step iota: eight bits over x^8 + x^6 + x^5 + x^4 + 1. -/
abbrev iotaNext (r : Nat) : Nat := if r < 128 then 2 * r else (2 * r) ^^^ 0x171

/-- The register after some steps. -/
def iotaAfter : Nat → Nat → Nat
  | 0, r => r
  | n + 1, r => iotaAfter n (iotaNext r)

/-- The constant of a round: the low bits of seven successive registers, at the bits 2^j − 1. -/
def iotaOf (round : Nat) : Word :=
  (List.range 7).foldl (fun w j => if iotaAfter (7 * round + j) 1 % 2 = 1 then w ||| (1 <<< (2 ^ j - 1)) else w) 0

/-- One round. -/
def Lanes.round (a : Lanes) (rc : Word) : Lanes :=
  match a.theta.rhoPi.chi with
  | z :: r => (z ^^^ rc) :: r
  | [] => []

/-- The permutation: 24 rounds. -/
def Lanes.permute (a : Lanes) : Lanes := (List.range 24).foldl (fun l i => l.round (iotaOf i)) a

/-- A block joins the state, which is then permuted. -/
def Lanes.absorb (a : Lanes) (block : List Byte) : Lanes :=
  Lanes.permute (Lanes.make (fun x y =>
    let i := 5 * y + x
    a.at x y ^^^ BitVec.ofNat 64 (bytesToNat ((block.drop (8 * i)).take 8))))

/-- Absorb some blocks of `rate` bytes, one after the other. -/
def Lanes.absorbAll (rate : Nat) (a : Lanes) : Nat → List Byte → Lanes
  | 0, _ => a
  | n + 1, bs => (a.absorb (bs.take rate)).absorbAll rate n (bs.drop rate)

/-- A message with its padding to whole blocks: a first byte that also holds the suffix bits, zeros, and a last bit. -/
def spongePad (rate : Nat) (suffix : Byte) (bs : List Byte) : List Byte :=
  let n := rate - bs.length % rate
  if n = 1 then bs ++ [suffix ||| 0x80] else bs ++ suffix :: List.replicate (n - 2) 0 ++ [0x80]

/-- The state after a message has been absorbed. -/
def sponge (rate : Nat) (suffix : Byte) (bs : List Byte) : Lanes :=
  Lanes.absorbAll rate (List.replicate 25 (0 : Word)) (bs.length / rate + 1) (spongePad rate suffix bs)

/-- The first bytes of a state. -/
def Lanes.bytes (a : Lanes) (n : Nat) : List Byte := (a.flatMap (fun (w : Word) => natToBytes 8 w.toNat)).take n

/-- SHA3-256 of a byte string: 32 bytes. -/
def sha3 (bs : List Byte) : List Byte := (sponge 136 0x06 bs).bytes 32

/-- SHAKE256 of a byte string, at most the 136 bytes of one block. -/
def shake256 (bs : List Byte) (n : Nat) : List Byte := (sponge 136 0x1F bs).bytes n

end Sys2Proof.Machine
end

