-- ==== Sys2Proof/Machine/MlDsa.lean ====
section
/-! DEFINITION. The check of an ML-DSA-44 signature (FIPS 204), which R319 asks of every image: polynomials modulo x^256 + 1 with
coefficients modulo q as lists of 256 numbers, given by their coefficients or by their values at the odd powers of ζ. -/

namespace Sys2Proof.Machine

/-- The modulus 2^23 − 2^13 + 1. -/
abbrev dsaQ : Nat := 8380417

/-- The range γ2 of the low part of a coefficient. -/
abbrev dsaGamma : Nat := 95232

/-- A polynomial: its coefficients from x^0 on, or its values. -/
abbrev Poly := List Nat

/-- The value of a polynomial at a point. -/
def Poly.valueAt (w : Poly) (x : Nat) : Nat := w.foldr (fun a v => (a + x * v) % dsaQ) 0

/-- A power of 1753, the 512th root of unity ζ. -/
def zetaPower (n : Nat) : Nat :=
  ((List.range 9).foldl (fun (a : Nat × Nat) i => (if n.testBit i then a.1 * a.2 % dsaQ else a.1, a.2 * a.2 % dsaQ)) (1, 1753)).1

/-- The eight bits of an index, reversed. -/
def mirror8 (n : Nat) : Nat := (List.range 8).foldl (fun a i => 2 * a + n / 2 ^ i % 2) 0

/-- The values of a polynomial in the order in which FIPS 204 lists them: the i-th stands at the power 2·brv(i) + 1 of ζ. -/
def Poly.values (w : Poly) : Poly := (List.range 256).map (fun i => w.valueAt (zetaPower (2 * mirror8 i + 1)))

/-- The polynomial with given values: the coefficient of x^j is the mean of the values, each times the root to the power −j. -/
def Poly.ofValues (v : Poly) : Poly :=
  let u : Poly := (List.range 256).map (fun k => v.getD (mirror8 k) 0)
  (List.range 256).map (fun j => 8347681 * zetaPower ((512 - j) % 512) % dsaQ * u.valueAt (zetaPower ((512 - 2 * j) % 512)) % dsaQ)

/-- Value by value, the product. -/
def Poly.times (a b : Poly) : Poly := (a.zip b).map (fun e => e.1 * e.2 % dsaQ)
/-- The sum. -/
def Poly.plus (a b : Poly) : Poly := (a.zip b).map (fun e => (e.1 + e.2) % dsaQ)
/-- The difference. -/
def Poly.minus (a b : Poly) : Poly := (a.zip b).map (fun e => (e.1 + (dsaQ - e.2)) % dsaQ)

/-! ### Sampling -/

/-- The numbers below q among the three-byte groups of a block, the top bit of each group left out. -/
def coefficients : List Byte → List Nat
  | a :: b :: c :: r =>
    let z := a.toNat + 256 * b.toNat + 65536 * (c.toNat % 128)
    if z < dsaQ then z :: coefficients r else coefficients r
  | _ => []

/-- 256 numbers below q from the blocks of SHAKE128 that a state gives. (PRESUMED: log entry 81) -/
def Lanes.sample : Nat → Lanes → List Nat → Poly
  | 0, _, got => got
  | n + 1, a, got => if 256 ≤ got.length then got.take 256 else Lanes.sample n a.permute (got ++ coefficients (a.bytes 168))

/-- An entry of the public matrix, as values, from the seed of a key. -/
def matrixEntry (seed : List Byte) (row col : Nat) : Poly :=
  Lanes.sample 1000 (sponge 168 0x1F (seed ++ [BitVec.ofNat 8 col, BitVec.ofNat 8 row])) []

/-- Shuffle the 39 signs of a challenge into place, one accepted byte at a time: `i` is the place that comes next. -/
def placeSigns (signs : Nat) : List Byte → Nat → Poly → Nat × Poly
  | [], i, c => (i, c)
  | b :: r, i, c =>
    if 256 ≤ i then (i, c)
    else if i < b.toNat then placeSigns signs r i c
    else placeSigns signs r (i + 1)
      ((c.set i (c.getD b.toNat 0)).set b.toNat (if signs.testBit (i - 217) then dsaQ - 1 else 1))

/-- Go on with further blocks of SHAKE256 until every sign is placed. (PRESUMED: log entry 81) -/
def Lanes.challenge (signs : Nat) : Nat → Lanes → Nat × Poly → Poly
  | 0, _, p => p.2
  | n + 1, a, p => if 256 ≤ p.1 then p.2 else Lanes.challenge signs n a.permute (placeSigns signs (a.bytes 136) p.1 p.2)

/-- The challenge polynomial of a commitment hash: 39 coefficients are 1 or −1. -/
def challengeOf (hash : List Byte) : Poly :=
  let a := sponge 136 0x1F hash
  let block := a.bytes 136
  let signs := bytesToNat (block.take 8)
  Lanes.challenge signs 1000 a.permute (placeSigns signs (block.drop 8) 217 (List.replicate 256 0))

/-! ### Encodings -/

/-- 256 fields of `w` bits. -/
def fields256 (w : Nat) (bs : List Byte) : List Nat :=
  let n := bytesToNat bs
  (List.range 256).map (fun i => n / 2 ^ (w * i) % 2 ^ w)

/-- A piece of a byte string. -/
abbrev piece (bs : List Byte) (start n : Nat) : List Byte := (bs.drop start).take n

/-- The places of the hints of each of the four polynomials, of 84 bytes; none where the encoding is not allowed. -/
def hintsOf (bs : List Byte) : Option (List (List Nat)) :=
  let l := bs.map (·.toNat)
  let ends := l.drop 80
  let starts := 0 :: ends
  let groups := (starts.zip ends).map (fun e => (l.take e.2).drop e.1)
  if (starts.zip ends).all (fun e => decide (e.1 ≤ e.2 ∧ e.2 ≤ 80)) && groups.all rising &&
      ((l.take 80).drop (ends.getLastD 0)).all (· = 0) then some groups
  else none

/-! ### Verification -/

/-- The high part of a coefficient, with its low part between −γ2 and γ2. -/
def highLow (r : Nat) : Nat × Int :=
  let m := 2 * dsaGamma
  let low : Int := if r % m ≤ dsaGamma then (r % m : Nat) else (r % m : Nat) - (m : Int)
  if (r : Int) - low = dsaQ - 1 then (0, low - 1) else (((r : Int) - low).toNat / m, low)

/-- The high part that a hint corrects. -/
def hinted (r : Nat) (hint : Bool) : Nat :=
  let (h, low) := highLow r
  if !hint then h else if 0 < low then (h + 1) % 44 else (h + 43) % 44

/-- The bytes of 256 high parts, six bits each. -/
def highBytes (w : Poly) : List Byte := natToBytes 192 (w.foldr (fun x a => x + 64 * a) 0)

/-- Whether a signature of a byte string verifies under a key by ML-DSA-44, with an empty context string (R319). (PRESUMED: log entry 81) -/
def mldsaVerifies (key sig msg : List Byte) : Bool :=
  if key.length != 1312 || sig.length != 2420 then false
  else match hintsOf (sig.drop 2336) with
    | none => false
    | some hints =>
      let four := List.range 4
      let z := four.map (fun i => (fields256 18 (piece sig (32 + 576 * i) 576)).map (fun (x : Nat) => (131072 : Int) - x))
      let zv := z.map (fun (w : List Int) => Poly.values (w.map (fun x => (x % (dsaQ : Int)).toNat)))
      let cv := (challengeOf (sig.take 32)).values
      let commit := four.map (fun row =>
        let az := four.foldl (fun (a : Poly) col => a.plus ((matrixEntry (key.take 32) row col).times (zv.getD col []))) (List.replicate 256 0)
        let t := Poly.values ((fields256 10 (piece key (32 + 320 * row) 320)).map (fun x => x * 8192 % dsaQ))
        ((Poly.ofValues (az.minus (cv.times t))).zipIdx).map (fun e => hinted e.1 ((hints.getD row []).contains e.2)))
      let mu := shake256 (shake256 key 64 ++ [0, 0] ++ msg) 64
      z.all (fun w => w.all (fun x => decide (x.natAbs < 130994))) &&
        shake256 (mu ++ commit.flatMap highBytes) 32 == sig.take 32

end Sys2Proof.Machine
end

