-- ==== Sys2Proof/Machine/Package.lean ====
section
/-! DEFINITION. The package (R303 to R324): a die fails, the package is reset, hosts read and write its registers and memory,
the DOE mailbox answers, and the package throttles, stops and reports its health. -/

namespace Sys2Proof.Config

/-- Free value: the state in which an engine hart starts, which its signed microcode fixes (R23). Argument: its key. (DESIGN CHOICE: log entry 128) -/
opaque engineStart : Nat → Machine.Hart

/-- Free value: what the boot finds after a host has written `PKGRESET` (R314, R318). Argument: the free counter. (DEDUCED: log entry 82) -/
opaque bootFindings : Nat → BootFindings

end Sys2Proof.Config

namespace Sys2Proof.Machine

/-- Whether a package has at most 128 peers (R3). -/
abbrev pkgExists (p : Nat) : Bool := p < 128

/-! ### A die fails (R315, R316) -/

/-- The live ring programs of a package: ring, program. -/
def State.programs (s : State) (pkg : Nat) : List (Nat × Program) :=
  s.rings.filterMap (fun e => match e.2.prog with
    | some p => if pkgOfRing e.1 = pkg && (s.hart p.hart).live then some (e.1, p) else none
    | none => none)

/-- A core of which only what is fused into it is left. -/
def Core.lost (c : Core) : Core := { Core.initial with fused := c.fused, halfLanes := c.halfLanes }

/-- Whether an access belongs to a hart or an engine of a die; the lease agent and the other agents of the package go on. -/
def Who.onDie (w : Who) (die : Nat) : Bool := match w with
  | .agent _ _ | .message _ => false
  | _ => w.die = die

/-- Whether an access is a message of a ring of a die. -/
def Who.messageOf (w : Who) (die : Nat) : Bool := match w with
  | .message r => dieOfRing r = die
  | _ => false

/-- What the harts and engines of a die have under way at other packages ends, and nobody waits for its messages. (DEDUCED: log entry 80) -/
def State.dropAccesses (s : State) (die : Nat) : State :=
  let pkg := pkgOfDie die
  let s1 := (((s.pkg pkg).txns.map (·.who)).filter (fun w => w.onDie die)).foldl State.release s
  s1.modPkg pkg (fun p => { p with txns := p.txns.filter (fun t => !t.who.messageOf die) })

/-- The lease notices that stand in the message rings of a die. -/
def State.noticesIn (s : State) (die : Nat) : Nat :=
  ((s.rings.filter (fun e => dieOfRing e.1 = die)).flatMap (fun e => e.2.packets.filter (fun p => p.2.notice))).length

/-- Whether a key is that of the lease agent of a package, which no die holds. (DESIGN CHOICE: log entry 128) -/
def isLeaseAgent (k : Nat) : Bool := k / 67108864 % 8 = 5

/-- Step 1: the die's harts, rings, engines and queued work are lost; what they held in other packages is released, and the notices in its
rings are counted (R345). (DEDUCED: log entry 80) -/
def State.loseDie (s : State) (die : Nat) : State :=
  let s1 := (List.range (s.noticesIn die)).foldl (fun t _ => t.noticeDropped (pkgOfDie die)) (s.dropAccesses die)
  { s1 with
    harts := s1.harts.filter (fun e => dieOf e.1 != die || isLeaseAgent e.1), rings := s1.rings.filter (fun e => dieOfRing e.1 != die),
    cores := s1.cores.map (fun (e : Nat × Core) => if dieOfCore e.1 = die then (e.1, e.2.lost) else e),
    feWait := s1.feWait.filter (fun w => dieOf w.hart != die), dropped := s1.dropped.filter (fun k => dieOf k != die) }

/-- The messages on their way to a die that has failed name a die that does not exist (R229): each is dropped at the stop 0 of
a ring of its sender's die. (DEDUCED: log entry 80) -/
def State.dropMessages (s : State) (die : Nat) : State :=
  let pkg := pkgOfDie die
  let (gone, kept) := (s.pkg pkg).dieNet.partition (fun p => destCore p.dest / 2048 = die)
  gone.foldl (fun t p => t.messageDrop ((p.header.toNat % 2 ^ 26) / 64) 0 p) (s.modPkg pkg (fun q => { q with dieNet := kept }))

/-- Whether a line lies in the HBM of a die. -/
def lineInHbm (die line : Nat) : Bool :=
  line * 128 / 2 ^ 52 = pkgOfDie die && line * 128 % 2 ^ 52 < 0x10000000000 && line * 128 % 2 ^ 52 / 0x4000000000 = die % 16

/-- The sectors of a line that are lost with a die: all that it held where it held the owner token, else those that it had written. (DEDUCED: log entry 80) -/
def LineTokens.lost (t : LineTokens) : Nat := if t.owner.isSome then t.valid else t.dirty

/-- Step 2: the sectors of lines whose owner token the failed die held are poisoned at a home that survives. (DEDUCED: log entry 80) -/
def State.recreateTokens (s : State) (die : Nat) (lines : Tab LineTokens) : State :=
  (lines.filter (fun e => !lineInHbm die e.1)).foldl (fun t e =>
    ((List.range 4).filter (fun i => e.2.lost.testBit i)).foldl (fun u i => u.poisonBytes (128 * e.1 + 32 * i) 32) t) s

/-- A line as an L2 holds it, with a mask of its sectors (R316). (DEDUCED: log entry 46) -/
def orphanLine (mem : Mem) (line sectors : Nat) : OrphanLine :=
  { sectors := sectors, bytes := (List.range 128).map (fun i => mem.byte (128 * line + i)),
    marks := (List.range 16).foldl (fun a i => if mem.marked (128 * line + 8 * i) then a + 2 ^ i else a) 0 }

/-- Step 3: the modified lines of the failed die's HBM in the caches of a surviving die become its orphan lines, in ascending
address, with the sectors that it holds. -/
def Die.orphan (d : Die) (mem : Mem) (failed : Nat) : Die :=
  let mine := d.lines.filter (fun e => e.2.dirty != 0 && lineInHbm failed e.1)
  { d with
    orphans := mine.foldl (fun l e => tput l (e.1 % 2 ^ 45) (orphanLine mem e.1 e.2.valid)) d.orphans,
    lines := d.lines.filter (fun e => !lineInHbm failed e.1) }

/-- Step 5: the launches with a ring program on the die complete with `DIEFAIL`; what they have not placed is not placed. (DEDUCED: log entry 79) -/
def State.failLaunches (s : State) (pkg : Nat) (ids : List Nat) : State :=
  let fail := fun (l : Launch) => if ids.contains l.id then { l with status := 3, unplaced := 0, running := [] } else l
  let s1 := s.modPkg pkg (fun p => { p with
    vestibule := p.vestibule.filter (fun r => !ids.contains r.id), launches := p.launches.map fail })
  ((s1.pkg pkg).launches.filter (fun l => ids.contains l.id)).foldl (fun t l => t.completeLaunch pkg l) s1

/-- `ORPHAN` (R316): every live ring program on a die that holds orphan lines. -/
def State.raiseOrphans (s : State) (failed : Nat) : State :=
  (s.programs (pkgOfDie failed)).foldl (fun t e =>
    let n := (t.die (dieOfRing e.1)).orphans.length
    if n = 0 then t
    else t.postEvent e.2.hart { code := cOrphan, addr := BitVec.ofNat 64 (failed % 16), val := BitVec.ofNat 64 n }) s

/-- The alert at the first orphan line of a package (R311). -/
def State.firstOrphan (s : State) (pkg : Nat) : State :=
  if !(s.pkg pkg).orphanSeen && (diesOf pkg).any (fun d => !(s.die d).orphans.isEmpty) then
    (s.modPkg pkg (fun p => { p with orphanSeen := true })).alert pkg
  else s

/-- `DIE_FAILURE` (R315). (DEDUCED: log entry 80) -/
def execDieFailure (die : Nat) (s : State) : Out :=
  if !dieExists die then .fault .noSuchUnit
  else
    let pkg := pkgOfDie die
    if (s.die die).failed || !(s.pkg pkg).ready then s.noEvent
    else
      let ids := ((s.rings.filter (fun e => dieOfRing e.1 = die)).filterMap (fun e => e.2.prog)).map (·.launch)
      let lines := (s.die die).lines
      let s1 := ((s.loseDie die).modDie die (fun _ => { Die.initial with failed := true })).recreateTokens die lines
      let s2 := (diesOf pkg).foldl (fun t d => t.modDie d (fun x => x.orphan t.mem die)) (s1.dropMessages die)
      let s3 := s2.failLaunches pkg ids
      let s4 := (s3.programs pkg).foldl (fun t e =>
        t.postEvent e.2.hart { code := cMachineCheck, addr := 0, val := BitVec.ofNat 64 (die % 16) }) s3
      .next (((s4.alert pkg).firstOrphan pkg).raiseOrphans die)

/-! ### Package reset (R318, R319) -/

/-- Whether an image is accepted with a fused rollback counter (R319): it carries the digest of its body, its key is the fused one, its
signature of the digest verifies, and its rollback number is at least the counter. (PRESUMED: log entry 81) -/
def imageAccepted (image : List Byte) (counter : Nat) : Bool :=
  Config.imageDigest image == sha3 (Config.imageBody image) && sha3 (Config.imageKey image) == Config.keyDigest &&
  mldsaVerifies (Config.imageKey image) (Config.imageSignature image) (Config.imageDigest image) &&
  decide (counter ≤ Config.imageRollback image)

/-- Whether every engine microcode image is accepted (R318 step 4). -/
def microcodeAccepted (counter : Nat) : Bool := (List.range 5).all (fun i => imageAccepted (Config.microcode i) counter)

/-- The live edge dies. -/
def edgeBits (f : BootFindings) : BitVec 2 :=
  BitVec.ofNat 2 ((if f.fusedEdges.contains 0 then 0 else 1) + if f.fusedEdges.contains 1 then 0 else 2)

/-- A package after its boot: what firmware, fuses and findings leave, and every register at its reset value. The links are trained once the
firmware has been verified, and the host links are brought up only at the end (R318 steps 3 and 6). (DEDUCED: log entry 82) -/
def Pkg.booted (p : Pkg) (f : BootFindings) : Pkg :=
  let image := p.nextFirmware.getD p.firmware
  let runs := imageAccepted image p.rollback
  let ok := runs && microcodeAccepted p.rollback
  { Pkg.initial with
    state := if ok then 1 else 2, edge := edgeBits f, firmware := image, leaseSeq := p.leaseSeq, txnSeq := p.txnSeq,
    rollback := if ok then max p.rollback (Config.rollbackAsked image) else p.rollback,
    fusedSites := (List.range 12).filter (fun k => f.fusedSites.contains k || f.fusedEdges.contains (k / 6)),
    sliceLive := if runs then (List.range 36).filter (fun i => f.liveSlices.contains i && !f.fusedEdges.contains (i / 18)) else [],
    links := if ok then (List.range 2).map (fun i => (i, !f.fusedEdges.contains i)) else [] }

/-! ### Engine harts (R22, R23, R318 step 4) -/

/-- An engine hart as it starts: it holds firmware privilege, and its route is 3 (R18, R21). Bits that a register does not have are zero
(R10, R18). (DESIGN CHOICE: log entry 128) -/
def engineHart (k : Nat) : Hart :=
  let h := Config.engineStart k
  { h with
    live := true, engine := true, stopped := false, retiring := false, priv := 3, route := 3, spec := false, queue := [],
    pendConvoy := none, wait := .none, yielded := [], events := [], decls := [], forks := [],
    pc := h.pc &&& pcMask, vl := min h.vl Config.vregElems, ppriv := if h.ppriv = 2 then 0 else h.ppriv, hctl := hctlWrite 0x10 h.hctl,
    fstat := fstatWrite 0 h.fstat, vstat := h.vstat &&& 0x3F1F, tcause := h.tcause &&& tcauseMask, tpc := h.tpc &&& pcMask,
    tqpos := h.tqpos &&& 0xF, telem := h.telem &&& 0x7F, tvec := h.tvec &&& pcMask, ctx := h.ctx % 2 ^ 16, ringidx := h.ringidx % 2 ^ 16,
    chunkno := h.chunkno % 2 ^ 16 }

/-- The keys of the engine harts of a package, ascending: of each live core, of each ring with one, of the quads and the dispatcher
of each live die, and of the package. (DESIGN CHOICE: log entry 128) -/
def State.engineKeys (s : State) (pkg : Nat) : List Nat :=
  let dies := (diesOf pkg).filter (fun d => !(s.die d).failed)
  let rings := dies.flatMap (fun d => (List.range Config.ringsPerDie).map (ringKey d))
  let alive := rings.filter (fun r => !(s.livePositions r).isEmpty)
  alive.flatMap (fun r => (s.livePositions r).map (fun p => engineKey pkg 1 (hartKey (coreKey r p) 7))) ++
  alive.map (fun r => engineKey pkg 2 (hartKey (coreKey r 0) 7)) ++
  dies.flatMap (fun d => (List.range 8).map (fun q => engineKey pkg 3 (hartKey (coreKey (ringKey d q) 0) 7))) ++
  dies.map (fun d => engineKey pkg 4 (hartKey (coreKey (ringKey d 0) 0) 7)) ++
  [engineKey pkg 5 (hartKey (coreKey (ringKey (dieKey pkg 0) 0) 0) 7)]

/-- Firmware starts the engine harts of a package, each in the engine slot of its own engine (R22). (DESIGN CHOICE: log entry 128) -/
def State.startEngines (s : State) (pkg : Nat) : State :=
  let lo := engineKey pkg 1 0
  { s with harts := s.harts.filter (fun e => e.1 < lo) ++ (s.engineKeys pkg).map (fun k => (k, engineHart k)) ++
      s.harts.filter (fun e => lo ≤ e.1) }

/-- Whether a location lies in a package. -/
def locInPkg (pkg l : Nat) : Bool :=
  if isDev l then l / 2 ^ 52 = pkg
  else if isTcm l then pkgOfRing (ringOfCore (l % 2 ^ 60 / 2 ^ 17)) = pkg
  else if isScratch l then pkgOfRing (l % 2 ^ 61 / 2 ^ 22) = pkg
  else pkgOfDie (l % 2 ^ 62 / 2 ^ 25) = pkg

/-- The compute dies and cores of a package as training leaves them. (DEDUCED: log entry 82) -/
def State.train (s : State) (pkg : Nat) (f : BootFindings) : State :=
  let s1 := { s with
    harts := s.harts.filter (fun e => pkgOf e.1 != pkg), rings := s.rings.filter (fun e => pkgOfRing e.1 != pkg),
    cores := s.cores.filter (fun e => pkgOfRing (ringOfCore e.1) != pkg), dies := s.dies.filter (fun e => pkgOfDie e.1 != pkg),
    feWait := s.feWait.filter (fun w => pkgOf w.hart != pkg), full := s.full.filter (fun g => !locInPkg pkg (16 * g)),
    dropped := s.dropped.filter (fun k => pkgOf k != pkg), migrations := s.migrations.filter (fun m => m.pkg != pkg) }
  let slices := fun (d : Nat) => (f.fusedSlices.filter (fun n => n / 32 = d)).map (· % 32)
  let s2 := (List.range 4).foldl (fun t d =>
    if f.fusedDies.contains d || !(slices d).isEmpty then
      t.modDie (dieKey pkg d) (fun x => { x with failed := f.fusedDies.contains d, slicesFused := slices d }) else t) s1
  let s3 := f.halfLaneCores.foldl (fun t c => t.modCore (pkg * 32768 + c % 32768) (fun x => { x with halfLanes := true })) s2
  let s4 := f.fusedSfus.foldl (fun t n => t.modRing (pkg * 4096 + n / 2 % 4096) (fun r => { r with sfuFused := sins (n % 2) r.sfuFused })) s3
  f.fusedCores.foldl (fun t c => t.modCore (pkg * 32768 + c % 32768) (fun x => { x with fused := true })) s4

/-- What a package held at other packages before its reset is released there. -/
def State.forgetRequester (s : State) (pkg : Nat) : State :=
  { s with pkgs := s.pkgs.map (fun (e : Nat × Pkg) => (e.1, { e.2 with accepts := e.2.accepts.filter (fun a => a.requester != pkg) })) }

/-- The packets of a package are lost with its reset: the room that waits for their responses elsewhere is free again. (DEDUCED: log entry 89) -/
def State.losePackets (s : State) (p : Pkg) : State :=
  (p.outbox ++ p.fabIn ++ p.rx).foldl (fun u q => u.modPkg (if q.type = 6 then q.dst else q.src) (fun r => { r with
    rooms := r.rooms.filter (fun e => e.1 != q.txn), unpins := r.unpins.filter (fun n => n.num != q.txn) })) s

/-- A package reset (R318): with every image accepted the engine harts start, device memory is zero and unpoisoned, every full/empty bit
is empty and the package is READY; else it is in RECOVERY. (DEDUCED: log entry 82) -/
def State.resetPackage (s : State) (pkg : Nat) (f : BootFindings) : State :=
  let s1 := (((s.losePackets (s.pkg pkg)).train pkg f).modPkg pkg (fun p => p.booted f)).forgetRequester pkg
  if (s1.pkg pkg).ready then { s1 with mem := s1.mem.clear (locDev pkg 0) (2 ^ 52) }.startEngines pkg else s1

/-- `PACKAGE_RESET` at power-on. (DEDUCED: log entry 82) -/
def execPackageReset (pkg : Nat) (found : BootFindings) (s : State) : Out :=
  if !pkgExists pkg then .fault .noSuchUnit
  else if edgeBits found = 0 then s.noEvent
  else .next (s.resetPackage pkg found)

/-- The value that resets a package. -/
abbrev resetMagic : Nat := 0x0FEF0001

/-- `PKGRESET`: any other value is ignored, and so is every write while a die is still hot after a thermal stop (R311, R323). (DEDUCED: log entry 82, DEDUCED: log entry 83) -/
def execPkgreset (pkg value : Nat) (found : BootFindings) (s : State) : Out :=
  if !pkgExists pkg then .fault .noSuchUnit
  else if value % 2 ^ 64 != resetMagic || (s.pkg pkg).hot then .next s
  else if edgeBits found = 0 then s.noEvent
  else .next (s.resetPackage pkg found)

/-! ### Registers of BAR 0 (R311) -/

/-- `PKGSTAT`. -/
def State.pkgstat (s : State) (pkg : Nat) : Word :=
  let p := s.pkg pkg
  let dies := if p.state = 0 then 0 else (s.liveDies pkg).foldl (fun a d => a + 2 ^ d) 0
  BitVec.ofNat 64 (p.state % 16 * 2 ^ 60 + p.edge.toNat * 2 ^ 6 + dies)

/-- A write of `CTXTAB`: it takes effect while no hart of any context is live. -/
def State.writeCtxtab (s : State) (pkg : Nat) (w : Word) : State :=
  if s.harts.any (fun (e : Nat × Hart) => e.2.live && !e.2.engine && pkgOf e.1 = pkg) then s
  else s.modPkg pkg (fun p => { p with ctxtab := w &&& 0x000FFFFFFFFF0000 })

/-- `CTXTAB` (R279, R311). -/
def execCtxtab (pkg value : Nat) (s : State) : Out :=
  if !pkgExists pkg then .fault .noSuchUnit else .next (s.writeCtxtab pkg (BitVec.ofNat 64 value))

/-- `PWRLIM` after a write: clamped (R322). -/
def clampPower (n : Nat) : Nat := if n < 1200 then 1200 else if 2800 < n then 2800 else n

/-- `CTXEVT` after a write. -/
def ctxevtWrite (old w : Word) : Word :=
  ((if w.getLsbD 63 then old &&& 0x7FFFFFFFFFFFFFFF else old) &&& 0xFFFFFFFF00000000) ||| (w &&& 0xFFFFFFFF)

/-- Whether an offset below 0x1000 names a register. -/
def listedOffset (o : Nat) : Bool := o % 8 = 0 && o ≤ 0x58

/-- Whether an access of 4 or 8 aligned bytes lies in the MSI-X table: 64 vectors of 16 bytes (R309). (PRESUMED: log entry 84) -/
def inMsixTable (o width : Nat) : Bool := (width = 8 || width = 4) && o % width = 0 && 0x1000 ≤ o && o < 0x1400

/-- Whether an access of 4 or 8 aligned bytes lies in the pending bits of a port (R309). (PRESUMED: log entry 84) -/
def inPendingBits (o width : Nat) : Bool := (width = 8 || width = 4) && o % width = 0 && 0x2000 ≤ o && o < 0x2008

/-- The half or the whole of a dword that an access of a width reads at an offset. -/
def partOf (w : Word) (o width : Nat) : Word :=
  if width = 8 then w else if o % 8 = 4 then w >>> 32 else w &&& 0xFFFFFFFF

/-- A dword after a write of a width at an offset. -/
def withPart (old value : Word) (o width : Nat) : Word :=
  if width = 8 then value
  else if o % 8 = 4 then (old &&& 0xFFFFFFFF) ||| (value <<< 32) else (old &&& 0xFFFFFFFF00000000) ||| (value &&& 0xFFFFFFFF)

/-- A write of the MSI-X table of a port: a vector that is pending and no longer masked is sent (R309). (PRESUMED: log entry 84) -/
def State.writeMsix (s : State) (pkg port offset width : Nat) (w : Word) : State :=
  let i := 128 * port + (offset - 0x1000) / 8
  let vec := (offset - 0x1000) / 16
  let s1 := s.modPkg pkg (fun p => { p with msix := tput p.msix i (withPart (p.msixDword i) w offset width) })
  if (s1.pkg pkg).msixPending.contains (64 * port + vec) then
    (s1.modPkg pkg (fun p => { p with msixPending := sdel (64 * port + vec) p.msixPending })).sendMsix pkg port vec
  else s1

/-- The pending bits of a port (R309). (PRESUMED: log entry 84) -/
def Pkg.pendingBits (p : Pkg) (port : Nat) : Word :=
  BitVec.ofNat 64 ((p.msixPending.filter (fun i => i / 64 = port)).foldl (fun a i => a + 2 ^ (i % 64)) 0)

/-- A write of a listed register. -/
def State.writeRegister (s : State) (pkg offset : Nat) (w : Word) : State :=
  match offset with
  | 0x10 => s.writeCtxtab pkg w
  | 0x18 => s.modPkg pkg (fun p => { p with memwin := w &&& 0x000FFFF000000000 })
  | 0x20 => s.modPkg pkg (fun p => { p with vestdrop := low32 w })
  | 0x28 => s.modPkg pkg (fun p => { p with recdrop := low32 w })
  | 0x30 => s.modPkg pkg (fun p => { p with hosterr := low32 w })
  | 0x40 => s.modPkg pkg (fun p => { p with pwrlim := clampPower (w.toNat % 2 ^ 16) })
  | 0x48 => s.modPkg pkg (fun p => { p with alertctl := w &&& 0x800000000000013F })
  | 0x58 => s.modPkg pkg (fun p => { p with ctxevt := ctxevtWrite p.ctxevt w })
  | _ => s

/-- `HOST_REGISTER_WRITE`: an access of another width or to an offset that is not listed is discarded and counted. A write that
resets the package boots it with what its boot finds. (DEDUCED: log entry 82, PRESUMED: log entry 84) -/
def execHostRegisterWrite (host : HostPort) (offset width value : Nat) (s : State) : Out :=
  if !pkgExists host.pkg || 2 ≤ host.port || 0x100000 ≤ offset then .fault .noSuchUnit
  else if inMsixTable offset width then .next (s.writeMsix host.pkg host.port offset width (BitVec.ofNat 64 value))
  else if inPendingBits offset width then .next s
  else if width != 8 || !listedOffset offset then .next (s.hostErr host.pkg)
  else if offset = 0x50 && value % 2 ^ 64 = resetMagic && !(s.pkg host.pkg).hot then
    execPkgreset host.pkg value (Config.bootFindings s.free) s
  else .next (s.writeRegister host.pkg offset (BitVec.ofNat 64 value))

/-- The value of a listed register. -/
def State.readRegister (s : State) (pkg offset : Nat) : Word :=
  let p := s.pkg pkg
  match offset with
  | 0x00 => s.config (pkg * 262144) 0
  | 0x08 => s.pkgstat pkg
  | 0x10 => p.ctxtab
  | 0x18 => p.memwin
  | 0x20 => BitVec.ofNat 64 p.vestdrop
  | 0x28 => BitVec.ofNat 64 p.recdrop
  | 0x30 => BitVec.ofNat 64 p.hosterr
  | 0x38 => p.health
  | 0x40 => BitVec.ofNat 64 p.pwrlim
  | 0x48 => p.alertctl
  | 0x58 => p.ctxevt
  | _ => 0

/-- `HOST_REGISTER_READ`: an access of another width or to an offset that is not listed reads all ones and is counted. (PRESUMED: log entry 84) -/
def execHostRegisterRead (host : HostPort) (offset width : Nat) (s : State) : Out :=
  if !pkgExists host.pkg || 2 ≤ host.port || 0x100000 ≤ offset then .fault .noSuchUnit
  else
    let p := s.pkg host.pkg
    let answer := fun (t : State) (w : Word) => Host.Outcome.next (t.toHost host.pkg (.registerValue w))
    if inMsixTable offset width then answer s (partOf (p.msixDword (128 * host.port + (offset - 0x1000) / 8)) offset width)
    else if inPendingBits offset width then answer s (partOf (p.pendingBits host.port) offset width)
    else if width != 8 || !listedOffset offset then answer (s.hostErr host.pkg) (BitVec.allOnes 64)
    else answer s (s.readRegister host.pkg offset)

/-- `HOST_LINK_RESET`: the port's link is trained again, and nothing else changes (R311). -/
def execHostLinkReset (pkg port : Nat) (s : State) : Out :=
  if !pkgExists pkg || 2 ≤ port then .fault .noSuchUnit
  else if (s.pkg pkg).edge.getLsbD port then .next (s.modPkg pkg (fun p => { p with links := tput p.links port p.ready }))
  else s.noEvent

/-! ### BAR 4 (R312) -/

/-- The device places of a host access, none where a byte is unpopulated, refused, remote or of a failed die. (DEDUCED: log entry 85) -/
def State.hostPlaces (s : State) (pkg addr n : Nat) : Option (List Place) :=
  let base := (s.pkg pkg).memwin.toNat / 2 ^ 36 % 2 ^ 16 * 2 ^ 36
  let ps := (List.range n).map (fun i =>
    if 2 ^ 51 ≤ base then none
    else match s.physical pkg 0 (base + addr + i) with
      | some (.at l f) => some (Place.at l f)
      | _ => none)
  if ps.all (·.isSome) then some (ps.filterMap id) else none

/-- Whether a port serves memory accesses: its link is up and the package is READY (R318). -/
def Pkg.portUp (p : Pkg) (port : Nat) : Bool := p.ready && tget false p.links port

/-- A port logs that a poisoned completion was kept back: Poisoned TLP Egress Blocked (R312). (PRESUMED: log entry 84) -/
def Pkg.logEgressBlocked (p : Pkg) (port : Nat) : Pkg := { p with aer := tput p.aer port (tget 0 p.aer port ||| 2 ^ 26) }

/-- `HOST_MEMORY_READ`: poison-marked data never leaves. (DEDUCED: log entry 85) -/
def execHostMemoryRead (host : HostPort) (addr len : Nat) (s : State) : Out :=
  if !pkgExists host.pkg || 2 ≤ host.port || 2 ^ 36 < addr + len then .fault .noSuchUnit
  else if !(s.pkg host.pkg).portUp host.port then s.noEvent
  else match s.hostPlaces host.pkg addr len with
    | none => .next ((s.hostErr host.pkg).toHost host.pkg .readUnsupported)
    | some ps =>
      let t := s.demandAll ps
      if t.anyPoison none ps then .next (((t.toHost host.pkg .readAbort).modPkg host.pkg (fun p => p.logEgressBlocked host.port)).hostErr host.pkg)
      else .next (t.toHost host.pkg (.readData (ps.map (fun p => (t.readPlace none p).1))))

/-- `HOST_MEMORY_WRITE`: a posted write at the home slices. (DEDUCED: log entry 85) -/
def execHostMemoryWrite (host : HostPort) (addr : Nat) (bytes : List Byte) (s : State) : Out :=
  if !pkgExists host.pkg || 2 ≤ host.port || 2 ^ 36 < addr + bytes.length then .fault .noSuchUnit
  else if !(s.pkg host.pkg).portUp host.port then s.noEvent
  else match s.hostPlaces host.pkg addr bytes.length with
    | none => .next (s.hostErr host.pkg)
    | some ps => .next (s.enginePut ps bytes false)

/-! ### The DOE mailbox (R320, R321) -/

/-- Exactly `n` bytes of a list, zero beyond its end. -/
def fit (n : Nat) (bs : List Byte) : List Byte := (List.range n).map (fun i => lget 0 bs i)

/-- The part of an attestation report that is signed: bytes 0 to 1,823. -/
def State.reportBody (s : State) (pkg : Nat) (nonce : List Byte) : List Byte :=
  let p := s.pkg pkg
  natToBytes 8 (s.config (pkg * 262144) 0).toNat ++ natToBytes 8 p.timebase ++ natToBytes 8 p.health.toNat ++
  natToBytes 8 (s.pkgstat pkg).toNat ++ nonce ++ sha3 (Config.imageBody p.firmware) ++
  (List.range 5).flatMap (fun i => sha3 (Config.imageBody (Config.microcode i))) ++ natToBytes 8 p.rollback ++
  List.replicate 248 0 ++ fit 1312 (Config.publicKey pkg)

/-- The attestation report: 4,468 bytes. -/
def State.report (s : State) (pkg : Nat) (nonce : List Byte) : List Byte :=
  let body := s.reportBody pkg nonce
  body ++ List.replicate 224 0 ++ fit 2420 (Config.signature pkg (sha3 body))

/-- `DOE_NONCE`: object type 1. -/
def execDoeNonce (pkg : Nat) (nonce : List Byte) (s : State) : Out :=
  if !pkgExists pkg then .fault .noSuchUnit
  else if nonce.length = 32 then .next (s.toHost pkg (.doeResponse (s.report pkg nonce)))
  else .next (s.toHost pkg .doeError)

/-- `DOE_CERTIFICATE_CHAIN`: object type 2. -/
def execDoeCertificateChain (pkg : Nat) (s : State) : Out :=
  if !pkgExists pkg then .fault .noSuchUnit else .next (s.toHost pkg (.doeResponse (Config.certificateChain pkg)))

/-- `DOE_FIRMWARE_IMAGE`: object type 3, in RECOVERY only; an accepted image takes effect at the next package reset. (DEDUCED: log entry 86) -/
def execDoeFirmwareImage (pkg : Nat) (image : List Byte) (s : State) : Out :=
  if !pkgExists pkg then .fault .noSuchUnit
  else if (s.pkg pkg).state != 2 then .next (s.toHost pkg .doeError)
  else if imageAccepted image (s.pkg pkg).rollback then
    .next ((s.modPkg pkg (fun p => { p with nextFirmware := some image })).toHost pkg (.doeResponse [0]))
  else .next (s.toHost pkg (.doeResponse [1]))

/-- `DOE_OTHER_OBJECT`: every other type is answered with the error response. -/
def execDoeOtherObject (pkg type : Nat) (s : State) : Out :=
  if !pkgExists pkg then .fault .noSuchUnit
  else if 1 ≤ type ∧ type ≤ 3 then s.noEvent
  else .next (s.toHost pkg .doeError)

/-! ### Power, heat and health (R322 to R324) -/

/-- `THERMAL_THROTTLE`: the clock is lowered; no result changes. (DESIGN CHOICE: log entry 108) -/
def execThermalThrottle (pkg : Nat) (s : State) : Out :=
  if !pkgExists pkg then .fault .noSuchUnit
  else if (s.pkg pkg).ready then .next (s.modPkg pkg (fun p => { p with throttled := true }))
  else s.noEvent

/-- `THERMAL_STOP`, in READY or RECOVERY: everything stops where it stands, device memory is lost, and the alert is sent. (DEDUCED: log entry 83) -/
def execThermalStop (pkg : Nat) (s : State) : Out :=
  if !pkgExists pkg then .fault .noSuchUnit
  else if (s.pkg pkg).state = 1 || (s.pkg pkg).state = 2 then
    let s1 := s.modPkg pkg (fun p => { p with state := 3, hot := true })
    .next ({ s1 with mem := s1.mem.clear (locDev pkg 0) (2 ^ 52) }.alert pkg)
  else s.noEvent

/-- `HEALTH_UPDATE`: a new estimate of bits 15:0 with its worst contributor. (DESIGN CHOICE: log entry 87) -/
def execHealthUpdate (pkg value : Nat) (s : State) : Out :=
  if !pkgExists pkg then .fault .noSuchUnit
  else if value / 2 ^ 16 < 4 then .next (s.modPkg pkg (fun p => { p with health := BitVec.ofNat 64 value }))
  else s.noEvent

end Sys2Proof.Machine
end

