-- ==== Sys2Proof/Machine/LeaseAgent.lean ====
section
/-! DEFINITION. What the lease agents do with the messages that reach them (R351 to R361): a request, a grant, a refusal, a
cancellation, a reclaim and the migration of its frames, its end or its deadline, a revocation and a return. Messages wait
in `leaseIn` and are applied in order of arrival (R360). -/

namespace Sys2Proof.Machine

/-- The next message of a package's agent: it is taken from the queue. The agent runs in a READY package. (DEDUCED: log entry 98) -/
def State.agentTakes (s : State) (pkg : Nat) (k : State → LeaseMsg → Option State) : Out :=
  if !pkgExists pkg then .fault .noSuchUnit
  else if !(s.pkg pkg).ready then s.noEvent
  else match (s.pkg pkg).leaseIn with
    | [] => s.noEvent
    | m :: r => match k (s.modPkg pkg (fun p => { p with leaseIn := r })) m with
      | some t => .next t
      | none => s.noEvent

/-! ### Requests and their answers (R351, R352, R360) -/

/-- `REQUEST` at the lender (R351). -/
def State.requested (s : State) (pkg borrower name units wmin : Nat) : State :=
  let p := s.pkg pkg
  if !p.noticesOn || (lowestFree (p.lends.map (·.id))).isNone then s.leaseSend borrower (.refuse pkg name)
  else (s.modPkg pkg (fun q => { q with
      requests := q.requests ++ [{ borrower := borrower, reqno := name, units := units, wmin := wmin }] })).notice pkg 0
    (noticeWord 1 borrower name units) (BitVec.ofNat 64 wmin)

/-- `REQUEST`. -/
def execLeaseRequest (pkg : Nat) (s : State) : Out :=
  s.agentTakes pkg (fun t m => match m with
    | .request b name units wmin => some (t.requested pkg b name units wmin)
    | _ => none)

/-- `GRANT` at the borrower (R352, R360): for a request that was cancelled the units go back at once. -/
def State.grantedBy (s : State) (pkg lender name lease base wfin : Nat) : State :=
  match (s.pkg pkg).named? name with
  | some b =>
    if b.state == .requested && b.lender = lender then
      let b1 := { b with state := .granted, lease := lease, base := base, wfin := wfin }
      (s.modBorrow pkg b.handle (fun _ => b1)).borrowRecord pkg b1 1 (BitVec.ofNat 64 b1.lodgingBase)
    else s
  | none => s.leaseSend lender (.giveBack pkg name)

/-- `GRANT`. -/
def execLeaseGrant (pkg : Nat) (s : State) : Out :=
  s.agentTakes pkg (fun t m => match m with
    | .grant l name lease base wfin => some (t.grantedBy pkg l name lease base wfin)
    | _ => none)

/-- `REFUSE` at the borrower (R360). -/
def State.refusedBy (s : State) (pkg lender name : Nat) : State :=
  match (s.pkg pkg).named? name with
  | some b => if b.state == .requested && b.lender = lender then (s.freeBorrow pkg b.handle).borrowRecord pkg b 2 0 else s
  | none => s

/-- `REFUSE`. -/
def execLeaseRefuse (pkg : Nat) (s : State) : Out :=
  s.agentTakes pkg (fun t m => match m with
    | .refuse l name => some (t.refusedBy pkg l name)
    | _ => none)

/-- A cancellation at the lender drops a request that is pending; units already marked LENT stay so until the grant has been
returned (R359, R360). (DEDUCED: log entry 99) -/
def State.cancelled (s : State) (pkg borrower name : Nat) : State :=
  if (s.pkg pkg).lends.any (fun l => l.marked && l.borrower = borrower && l.reqno = name) then s
  else s.modPkg pkg (fun q => { q with requests := q.requests.filter (fun r => !(r.borrower = borrower && r.reqno = name)) })

/-- The cancellation of a request. -/
def execLeaseCancellation (pkg : Nat) (s : State) : Out :=
  s.agentTakes pkg (fun t m => match m with
    | .cancel b name => some (t.cancelled pkg b name)
    | _ => none)

/-! ### Reclaim at the borrower (R356) -/

/-- `RECLAIM` at the borrower: the record and the notice; the frames then migrate one by one. -/
def State.reclaimed (s : State) (pkg lender name : Nat) : State :=
  match (s.pkg pkg).named? name with
  | some b =>
    if b.state == .granted && b.lender = lender then
      let due : Word := BitVec.ofNat 64 ((s.pkg pkg).timebase + b.wfin)
      let s1 := s.modBorrow pkg b.handle (fun x => { x with state := .reclaiming, deadline := due.toNat })
      (s1.borrowRecord pkg b 3 due).notice pkg b.ctx (noticeWord 2 b.lender b.handle b.units) due
    else s
  | none => s

/-- `RECLAIM`. -/
def execLeaseReclaim (pkg : Nat) (s : State) : Out :=
  s.agentTakes pkg (fun t m => match m with
    | .reclaim l name => some (t.reclaimed pkg l name)
    | _ => none)

/-- Rename the lines of a frame that a die caches: the lodging line stays valid, its backing has changed. -/
def Die.renameLines (d : Die) (old new n : Nat) : Die :=
  let mine := d.lines.filter (fun e => old / 128 ≤ e.1 && e.1 < (old + n) / 128)
  let rest := d.lines.filter (fun e => e.1 < old / 128 || (old + n) / 128 ≤ e.1)
  { d with lines := mine.foldl (fun t e => tput t (e.1 - old / 128 + new / 128) e.2) rest }

/-- Whether the home die of a byte of a package has failed. -/
def State.homeFailed (s : State) (pkg pa : Nat) : Bool := (s.homeOf pkg pa).any (fun d => (s.die (dieKey pkg d.1)).failed)

/-- Move one frame of a lease from the lender to the Escrow, with its markers; the poison of a failed lender die is copied
(R361), and an Escrow frame on a failed die loses what is written to it (R315). (DEDUCED: log entry 97) -/
def State.moveLodging (s : State) (pkg : Nat) (b : Borrow) : State :=
  let off := b.migrated * 4096
  let old := locDev b.lender (b.base + off)
  let new := locDev pkg (b.escrow + off)
  let s1 := ((List.range 128).foldl (fun t i => t.demand (old + 32 * i)) s).healSectors pkg ((b.escrow + off) / 32) 128
  let mem :=
    if s1.homeFailed pkg (b.escrow + off) then s1.mem
    else if s1.homeFailed b.lender (b.base + off) then s1.mem.poisonRange new 4096
    else s1.mem.move old new 4096
  (diesOf pkg).foldl (fun t d => t.modDie d (fun x => x.renameLines old new 4096)) { s1 with mem := mem }

/-- `LODGING_FRAME_MIGRATE`: the next frame migrates while the lender serves it; after the last, `DONE` is sent and the lease is
DEMOTED (R356). (DEDUCED: log entry 97) -/
def execLodgingFrameMigrate (pkg lease frame : Nat) (s : State) : Out :=
  if !pkgExists pkg then .fault .noSuchUnit
  else match (s.pkg pkg).borrow? lease with
    | none => s.noEvent
    | some b =>
      if !(s.pkg pkg).ready || b.state != .reclaiming || frame != b.migrated || !s.served pkg b then s.noEvent
      else
        let b1 := { b with migrated := frame + 1 }
        let s1 := (s.moveLodging pkg b).modBorrow pkg b.handle (fun _ => b1)
        .next (if b1.migrated = b1.frames then s1.demoted pkg b1 0 else s1)

/-! ### The end of a reclaim (R355, R357) -/

/-- `DONE` at the lender: below the deadline the lease ends, after a revocation it is ignored (R355, R360). -/
def State.doneBy (s : State) (pkg borrower name : Nat) : State :=
  match (s.pkg pkg).lends.find? (fun l => l.borrower = borrower && l.reqno = name) with
  | some l => match l.deadline with
    | some d => if (s.pkg pkg).timebase < d then s.endLend pkg l 0x12 else s
    | none => s
  | none => s

/-- `DONE`. -/
def execLeaseDone (pkg : Nat) (s : State) : Out :=
  s.agentTakes pkg (fun t m => match m with
    | .done b name => some (t.doneBy pkg b name)
    | _ => none)

/-- `RECLAIM_DEADLINE`: at D the lender stops serving the units and revokes the lease. -/
def execReclaimDeadline (pkg lease : Nat) (s : State) : Out :=
  if !pkgExists pkg then .fault .noSuchUnit
  else match (s.pkg pkg).lend? lease with
    | none => s.noEvent
    | some l => match l.deadline with
      | none => s.noEvent
      | some d =>
        if !(s.pkg pkg).ready || (s.pkg pkg).timebase < d then s.noEvent
        else .next ((s.leaseSend l.borrower (.revoke pkg l.reqno)).endLend pkg l 0x13)

/-- `LEASE_LOST`, then `MACHINE_CHECK`, to every live ring program of the borrowing context (R357). (DEDUCED: log entry 97) -/
def State.leaseLost (s : State) (pkg : Nat) (b : Borrow) : State :=
  let addr : Word := BitVec.ofNat 64 b.lodgingBase
  let val : Word := BitVec.ofNat 64 b.handle
  ((s.programs pkg).filter (fun e => e.2.ctx = b.ctx)).foldl (fun t e =>
    (t.postEvent e.2.hart { code := cLeaseLost, addr := addr, val := val }).postEvent e.2.hart
      { code := cMachineCheck, addr := addr, val := val }) s

/-- Poison the Escrow of the frames that have not migrated; the lodging map then names the Escrow (R357). (DEDUCED: log entry 97) -/
def State.poisonEscrow (s : State) (pkg : Nat) (b : Borrow) : State :=
  let off := b.migrated * 4096
  let n := unitBytes b.units - off
  let s1 := (s.poisonBytes (locDev pkg (b.escrow + off)) n).healSectors pkg ((b.escrow + off) / 32) (n / 32)
  s1.dropLines (locDev b.lender (b.base + off)) n

/-- A revocation of a lease that is GRANTED or RECLAIMING (R357, R361). -/
def State.revoked (s : State) (pkg : Nat) (b : Borrow) : State :=
  if b.migrated = b.frames then s.demoted pkg b 0
  else
    let lost := b.frames - b.migrated
    let s1 := (s.poisonEscrow pkg b).modBorrow pkg b.handle (fun x => { x with state := .lost, migrated := b.frames })
    (s1.borrowRecord pkg b 5 (BitVec.ofNat 64 lost)).leaseLost pkg b

/-- `REVOKE` at the borrower. -/
def State.revokedBy (s : State) (pkg lender name : Nat) : State :=
  match (s.pkg pkg).named? name with
  | some b => if b.state == .reclaiming && b.lender = lender then s.revoked pkg b else s
  | none => s

/-- `REVOKE`. -/
def execLeaseRevoke (pkg : Nat) (s : State) : Out :=
  s.agentTakes pkg (fun t m => match m with
    | .revoke l name => some (t.revokedBy pkg l name)
    | _ => none)

/-- `RETURN` at the lender: the units are zeroed and accessible again (R360). -/
def State.returnedBy (s : State) (pkg borrower name : Nat) : State :=
  match (s.pkg pkg).lends.find? (fun l => l.borrower = borrower && l.reqno = name && !l.marked) with
  | some l => s.endLend pkg l 0x14
  | none => s

/-- `RETURN`. -/
def execLeaseReturn (pkg : Nat) (s : State) : Out :=
  s.agentTakes pkg (fun t m => match m with
    | .giveBack b name => some (t.returnedBy pkg b name)
    | _ => none)

end Sys2Proof.Machine
end

