-- ==== Sys2Proof/Machine/Fabric.lean ====
section
/-! DEFINITION. The fabric (R326 to R342): the check code of a flit, a switch that forwards a packet, a package that receives
it, the target that performs requests, the requester that takes the response, and failures in transit. -/

namespace Sys2Proof.Machine

/-! ### The check code (R327) -/

/-- Multiply by the root of x^4 + x + 1. -/
def gfDouble (a : Nat) : Nat := if a / 8 % 2 = 1 then (2 * a % 16) ^^^ 3 else 2 * a % 16

/-- Multiplication in GF(16). -/
def gfMul (a b : Nat) : Nat :=
  (if b % 2 = 1 then a else 0) ^^^ (if b / 2 % 2 = 1 then gfDouble a else 0) ^^^
  (if b / 4 % 2 = 1 then gfDouble (gfDouble a) else 0) ^^^ (if b / 8 % 2 = 1 then gfDouble (gfDouble (gfDouble a)) else 0)

/-- Four symbols: a column, a syndrome. -/
structure Quad where
  a : Nat
  b : Nat
  c : Nat
  d : Nat
  deriving DecidableEq, Repr

/-- Zero. -/
def Quad.zero : Quad := { a := 0, b := 0, c := 0, d := 0 }
/-- Sum. -/
def Quad.add (p q : Quad) : Quad := { a := p.a ^^^ q.a, b := p.b ^^^ q.b, c := p.c ^^^ q.c, d := p.d ^^^ q.d }
/-- A multiple. -/
def Quad.scale (e : Nat) (p : Quad) : Quad := { a := gfMul e p.a, b := gfMul e p.b, c := gfMul e p.c, d := gfMul e p.d }

/-- The column of a slice. -/
def column (i : Nat) : Quad :=
  if i < 32 then
    let t := i % 16
    let u := 2 + i / 16
    { a := 1, b := t, c := u, d := gfMul t t ^^^ gfMul t u ^^^ gfMul 8 (gfMul u u) }
  else if i = 32 then { a := 0, b := 0, c := 0, d := 1 }
  else if i = 33 then { a := 1, b := 0, c := 0, d := 0 }
  else if i = 34 then { a := 1, b := 1, c := 0, d := 1 }
  else { a := 1, b := 0, c := 1, d := 8 }

/-- The sum of the columns of a list of slices with their symbols. -/
def syndrome (l : List (Nat × Nat)) : Quad := l.foldl (fun z e => z.add ((column e.1).scale e.2)) Quad.zero

/-- The symbol that data slice `i` carries of a flit. -/
def dataSymbol (f : Word × Word) (i : Nat) : Nat := f.1.toNat / 4 ^ i % 4 + 4 * (f.2.toNat / 4 ^ i % 4)

/-- The 36 symbols of a flit as its sender sets them. -/
def flitSymbols (f : Word × Word) : List Nat :=
  let ds := (List.range 32).map (dataSymbol f)
  let s := syndrome ((List.range 32).zip ds)
  ds ++ [s.d ^^^ s.b ^^^ gfMul 8 s.c, s.a ^^^ s.b ^^^ s.c, s.b, s.c]

/-- The two words that 32 data symbols make. -/
def symbolWords (l : List Nat) : Word × Word :=
  (BitVec.ofNat 64 ((l.take 32).foldr (fun x a => x % 4 + 4 * a) 0), BitVec.ofNat 64 ((l.take 32).foldr (fun x a => x / 4 % 4 + 4 * a) 0))

/-! ### Decoding (R328) -/

/-- The slices and errors that explain a syndrome: an error of one of the given slices. -/
def oneError (slices : List Nat) (z : Quad) : Option (Nat × Nat) :=
  slices.findSome? (fun i => (List.range 15).findSome? (fun e => if (column i).scale (e + 1) = z then some (i, e + 1) else none))

/-- Decode a flit: the symbols as received, the live slices; none is uncorrectable. An erased symbol counts as zero in the
syndrome and is then solved. The second component tells whether the correction is counted. -/
def decodeFlit (received : List Nat) (live : List Nat) : Option ((Word × Word) × Bool) :=
  let all := List.range 36
  let erased := all.filter (fun i => !live.contains i)
  let base := all.map (fun i => if live.contains i then lget 0 received i else 0)
  let z := syndrome (all.zip base)
  let fix := fun (l : List (Nat × Nat)) => symbolWords (all.map (fun i => l.foldl (fun x e => if e.1 = i then x ^^^ e.2 else x) (lget 0 base i)))
  match erased with
  | [] => if z = Quad.zero then some (fix [], false) else (oneError all z).map (fun e => (fix [e], true))
  | [p] => (List.range 16).findSome? (fun v =>
      let y := z.add ((column p).scale v)
      if y = Quad.zero then some (fix [(p, v)], false) else (oneError live y).map (fun e => (fix [(p, v), e], false)))
  | [p, q] => (List.range 16).findSome? (fun v => (List.range 16).findSome? (fun w =>
      if (z.add ((column p).scale v)).add ((column q).scale w) = Quad.zero then some (fix [(p, v), (q, w)], false) else none))
  | _ => none

/-! ### Headers (R329) -/

/-- The control field of a packet. -/
def FabPacket.control (p : FabPacket) : Nat :=
  p.dst % 128 * 2 ^ 25 + p.src % 128 * 2 ^ 18 + p.ch % 64 * 2 ^ 12 + p.type % 8 * 2 ^ 9 + p.payload.length % 32 * 2 ^ 4 + p.seq % 16

/-- The copy of the control field that a slice carries. -/
def FabPacket.copyOf (p : FabPacket) (i : Nat) : Nat := p.control ^^^ (tget 0 p.errors i % 2 ^ 32)

/-- The value that more than half of a list of bit pairs has. -/
def majority (l : List Nat) : Option Nat := (List.range 4).find? (fun v => l.length < 2 * (l.filter (· = v)).length)

/-- The control field by majority of the live slices, bit pair by bit pair. (DEDUCED: log entry 91) -/
def FabPacket.voted (p : FabPacket) (live : List Nat) : Option Nat :=
  (List.range 16).foldr (fun w acc => match acc, majority (live.map (fun i => p.copyOf i / 4 ^ w % 4)) with
    | some a, some v => some (v + 4 * a)
    | _, _ => none) (some 0)

/-- The live slices of a package's receiver: trained and not isolated (R331). (DEDUCED: log entry 91) -/
def Pkg.liveSlices (p : Pkg) : List Nat := p.sliceLive.filter (fun i => i < 36 && !p.isolated.contains i)

/-! ### Switching and receiving (R330) -/

/-- Add bit errors to those that a packet has picked up already. (DESIGN CHOICE: log entry 109) -/
def mergeErrors (a b : SliceErrors) : SliceErrors := b.foldl (fun m e => tput m e.1 (tget 0 m e.1 ^^^ e.2)) a

/-- Packets that wait for room or credit are injected as far as they now may. (DEDUCED: log entry 89) -/
def State.reinject (s : State) (pkg : Nat) : State := s.inject pkg (s.pkg pkg).outbox []

/-- The heads of the channels of the switch inputs: each packet before which none of its source and channel waits. -/
def heads : List FabPacket → List FabPacket → List FabPacket
  | _, [] => []
  | before, p :: r =>
    if before.any (fun b => b.src = p.src && b.ch = p.ch) then heads (p :: before) r else p :: heads (p :: before) r

/-- Whether the receive port of a package has credits for a packet: room for a response is reserved (R332, R334). (DEDUCED: log entry 89) -/
def Pkg.credits (p : Pkg) (q : FabPacket) : Bool := q.type = 6 || sharedUse ((q.ch, q.flits) :: p.portUse) ≤ sharedSlots

/-- `SWITCH_FORWARD`: the oldest waiting head for an output port that has credits leaves, its slices in lock step; `errors` are the bit
errors that it picks up on the way. (DEDUCED: log entry 89, DESIGN CHOICE: log entry 109) -/
def execSwitchForward (port : Nat) (errors : SliceErrors) (s : State) : Out :=
  if !pkgExists port then .fault .noSuchUnit
  else match (heads [] s.wires).find? (fun p => p.dst = port && (s.pkg port).credits p) with
    | none => s.noEvent
    | some p => .next (({ s with wires := s.wires.erase p }.modPkg port (fun q => { q with
        fabIn := q.fabIn ++ [{ p with errors := mergeErrors p.errors errors }] })).reinject p.src)

/-- Isolate the slices whose copy of the header disagrees; each isolation sends the alert, and the third sets `DOWN`. -/
def State.isolate (s : State) (pkg : Nat) (slices : List Nat) : State :=
  let s1 := slices.foldl (fun t i => (t.modPkg pkg (fun p => { p with isolated := sins i p.isolated })).alert pkg) s
  if 3 ≤ (s1.pkg pkg).isolated.length then s1.modPkg pkg (fun p => { p with down := true }) else s1

/-- The payload of a packet as a receiver decodes it, the flits that are uncorrectable, and the number of those that it corrected and
counts (R328). (DESIGN CHOICE: log entry 41, DEDUCED: log entry 91) -/
def FabPacket.decoded (p : FabPacket) (live : List Nat) (len : Nat) : List (Word × Word) × List Nat × Nat :=
  let fs := (List.range len).map (fun k => match p.payload[k]? with
    | none => none
    | some f => decodeFlit ((flitSymbols f).zipIdx.map (fun e => e.1 ^^^ (tget 0 p.errors (64 * (k + 1) + e.2) % 16))) live)
  (fs.map (fun f => (f.map (·.1)).getD (0, 0)), (List.range len).filter (fun k => (lget none fs k).isNone),
    (fs.filter (fun f => (f.map (·.2)).getD false)).length)

/-- Take the packet at the head of a package's receive port. -/
def State.receive (s : State) (pkg : Nat) (p : FabPacket) : State :=
  match p.voted (s.pkg pkg).liveSlices with
  | none => s.modPkg pkg (fun q => { q with down := true })
  | some c =>
    let odd := (s.pkg pkg).liveSlices.filter (fun i => p.copyOf i != c)
    let s1 := s.isolate pkg odd
    if c / 2 ^ 9 % 8 = 7 then s1.modPkg pkg (fun q => { q with down := true })
    else
      let (payload, bad, fixed) := p.decoded (s1.pkg pkg).liveSlices (c / 2 ^ 4 % 32)
      let r : FabPacket :=
        { dst := c / 2 ^ 25 % 128, src := c / 2 ^ 18 % 128, ch := c / 2 ^ 12 % 64, type := c / 2 ^ 9 % 8, seq := c % 16,
          txn := p.txn, payload := payload, errors := bad.map (fun k => (k, 1)) }
      s1.modPkg pkg (fun q => { q with rx := q.rx ++ [r], fabCorrected := q.fabCorrected + fixed })

/-- `FABRIC_PACKET_RECEIVE`: the header is decoded by majority and the payload by the check code. Only a READY package takes part in the
fabric (R318, R323). (DEDUCED: log entry 89, DESIGN CHOICE: log entry 109) -/
def execFabricPacketReceive (pkg : Nat) (errors : SliceErrors) (s : State) : Out :=
  if !pkgExists pkg then .fault .noSuchUnit
  else if !(s.pkg pkg).ready then s.noEvent
  else match (s.pkg pkg).fabIn with
    | [] => s.noEvent
    | p :: r => .next ((s.modPkg pkg (fun q => { q with fabIn := r })).receive pkg { p with errors := mergeErrors p.errors errors })

/-! ### What waits at a target (R335) -/

/-- The frames that a request names. (DEDUCED: log entry 92) -/
def FabPacket.frames (p : FabPacket) : List Nat := p.payload.map (fun f => f.1.toNat % 2 ^ 43 / 4096)

/-- Whether one packet must be served before another that arrived later: one source and channel, and, of requests, one
frame. (DEDUCED: log entry 92) -/
def FabPacket.precedes (p q : FabPacket) : Bool :=
  p.src = q.src && p.ch = q.ch && (p.type = 3 || p.type = 6 || q.type = 3 || q.type = 6 || p.frames.any q.frames.contains)

/-- The first packet of a type that no earlier one holds up. -/
def nextOf (type : Nat) : List FabPacket → List FabPacket → Option FabPacket
  | _, [] => none
  | before, p :: r => if p.type = type && !(before.any (fun b => b.precedes p)) then some p else nextOf type (before ++ [p]) r

/-- Serve the next packet of a type at a READY package, whose receive port then has more room. (DEDUCED: log entry 92) -/
def State.serve (s : State) (pkg type : Nat) (k : State → FabPacket → State) : Out :=
  if !pkgExists pkg then .fault .noSuchUnit
  else if !(s.pkg pkg).ready then s.noEvent
  else match nextOf type [] (s.pkg pkg).rx with
    | none => s.noEvent
    | some p => .next ((k (s.modPkg pkg (fun q => { q with rx := q.rx.erase p })) p).reinject pkg)

/-- Whether a payload flit of a received packet is uncorrectable. -/
def FabPacket.badFlit (p : FabPacket) (k : Nat) : Bool := tget 0 p.errors k != 0

/-- The second word of a flit of a response: `POISON` and the status (R329). -/
def respWord (poison : Bool) (status : Nat) : Word := BitVec.ofNat 64 ((if poison then 1 else 0) + status * 2 ^ 8)

/-- Answer a request: one RESPONSE with a flit for each element (R329, R333). -/
def State.respond (s : State) (pkg : Nat) (p : FabPacket) (flits : List (Word × Word)) : State :=
  s.sendPacket pkg { dst := p.src, src := pkg, ch := 32 + p.ch % 32, type := 6, seq := 0, txn := p.txn, payload := flits, errors := [] }

/-! ### Performing requests (R339, R340) -/

/-- The access of its source that a packet belongs to (its name there). (DESIGN CHOICE: log entry 90) -/
def FabPacket.access (p : FabPacket) : Nat := p.txn / 65536

/-- Whether a target holds the acceptance under which a request reaches a local byte (R338). (DEDUCED: log entry 94) -/
def Pkg.holds (p : Pkg) (q : FabPacket) (la : Nat) : Bool :=
  p.accepts.contains { requester := q.src, txn := q.access, unit := la / Config.leaseUnit }

/-- Where a local byte of a target lies for a requester: of its lodging, in the backing frame (R347); else at its home, a frame that is
migrating at its new place (R288). (DEDUCED: log entry 94) -/
def State.targetPlace (s : State) (pkg requester la : Nat) : Place :=
  match (s.pkg requester).lodging pkg la with
  | some b => s.backing requester b la
  | none => match s.homeOf pkg (s.forward pkg la) with
    | some (d, _) => if (s.die (dieKey pkg d)).failed then .dead else .at (locDev pkg (s.forward pkg la)) .home
    | none => .dead

/-- The local address of an element. -/
def elemAddr (w : Word) : Nat := w.toNat % 2 ^ 43

/-- The places of `n` bytes of an element for a request: none is reached without its acceptance. (DEDUCED: log entry 94) -/
def State.elemPlaces (s : State) (pkg : Nat) (p : FabPacket) (w : Word) (n : Nat) : List Place :=
  (List.range n).map (fun i =>
    if (s.pkg pkg).holds p (elemAddr w + i) then s.targetPlace pkg p.src (elemAddr w + i) else .dead)

/-- The bytes of an element. -/
def elemSize (w : Word) : Nat := 2 ^ (w.toNat / 2 ^ 48 % 8)

/-- Perform the elements of a request one by one, in order; a flit that is uncorrectable answers with cause 5 (R341). -/
def State.perform (s : State) (p : FabPacket) (one : State → Word × Word → State × Word × Bool) :
    List ((Word × Word) × Nat) → State × List (Word × Word)
  | [] => (s, [])
  | (f, k) :: r =>
    let (s1, w) :=
      if p.badFlit k then (s, ((0 : Word), respWord false 5))
      else
        let (t, v, pois) := one s f
        (t, (if pois then 0 else v, respWord pois 0))
    let (s2, ws) := s1.perform p one r
    (s2, w :: ws)

/-- Perform the elements of a request and answer it. -/
def State.performAll (s : State) (pkg : Nat) (p : FabPacket) (one : State → Word × Word → State × Word × Bool) : State :=
  let (t, fs) := s.perform p one p.payload.zipIdx
  t.respond pkg p fs

/-- An element of a READ: its data and poison (R340). -/
def State.targetRead (s : State) (pkg : Nat) (p : FabPacket) (f : Word × Word) : State × Word × Bool :=
  let ps := s.elemPlaces pkg p f.1 (elemSize f.1)
  let t := s.demandAll ps
  (t, BitVec.ofNat 64 (t.readPlaces none ps), t.anyPoison none ps)

/-- `READ`: data, or zero with `POISON` where a word is marked (R340). -/
def execFabRead (pkg : Nat) (s : State) : Out :=
  s.serve pkg 0 (fun t p => t.performAll pkg p (fun v f => v.targetRead pkg p f))

/-- The bytes that an element of a WRITE stores: of a sub-byte element, its byte with the bits that the target keeps. -/
def State.writeBytes (s : State) (ps : List Place) (f : Word × Word) : List Byte :=
  if ps.length = 1 then
    let keep := f.2.extractLsb' 8 8
    [(BitVec.ofNat 8 (s.readPlaces none ps) &&& keep) ||| (f.2.extractLsb' 0 8 &&& ~~~keep)]
  else natToBytes ps.length f.2.toNat

/-- An element of a WRITE: it performs at the home slice (R339). -/
def State.targetWrite (s : State) (pkg : Nat) (p : FabPacket) (f : Word × Word) : State × Word × Bool :=
  let ps := s.elemPlaces pkg p f.1 (elemSize f.1)
  (s.enginePut ps (s.writeBytes ps f) false, 0, false)

/-- `WRITE`. (DESIGN CHOICE: log entry 120) -/
def execFabWrite (pkg : Nat) (s : State) : Out :=
  s.serve pkg 1 (fun t p => t.performAll pkg p (fun v f => v.targetWrite pkg p f))

/-- The indivisible step of a remote atomic: old value and poison (R78, R339). -/
def State.targetAtomic (s : State) (pkg : Nat) (p : FabPacket) (f : Word × Word) (cmp : Word) : State × Word × Bool :=
  let n := elemSize f.1
  let ps := s.elemPlaces pkg p f.1 n
  let s1 := s.demandAll ps
  let old := s1.readPlaces none ps
  if s1.anyPoison none ps then (s1, 0, true)
  else match amoNew (f.1.toNat / 2 ^ 51 % 32) n old (f.2.toNat % 2 ^ (8 * n)) (cmp.toNat % 2 ^ (8 * n)) with
    | none => (s1, BitVec.ofNat 64 old, false)
    | some v => (s1.enginePut ps (natToBytes n v) false, BitVec.ofNat 64 old, false)

/-- The indivisible step of an operation on a barrier word (R177). (DESIGN CHOICE: log entry 63) -/
def State.targetBarrier (s : State) (pkg : Nat) (p : FabPacket) (f : Word × Word) : State × Word × Bool :=
  let ps := s.elemPlaces pkg p f.1 16
  let s1 := s.demandAll ps
  let r := barrierStep (f.1.toNat / 2 ^ 51 % 32) f.2 (s1.dwordAt none ps 0) (s1.dwordAt none ps 1)
  (match r.1 with
    | some ws => s1.enginePut ps (dwordBytes [ws.1, ws.2]) false
    | none => s1, r.2.1, r.2.2)

/-- `ATOMIC`: one element, in two flits for `cas`. -/
def execFabAtomic (pkg : Nat) (s : State) : Out :=
  s.serve pkg 2 (fun t p =>
    let f := lget (0, 0) p.payload 0
    let op := f.1.toNat / 2 ^ 51 % 32
    if p.badFlit 0 || (op = 9 && p.badFlit 1) then t.respond pkg p [(0, respWord false 5)]
    else
      let (u, old, pois) := if 16 ≤ op then t.targetBarrier pkg p f else t.targetAtomic pkg p f (lget (0, 0) p.payload 1).1
      u.respond pkg p [(if pois then 0 else old, respWord pois 0)])

/-! ### Acceptance (R338) -/

/-- An element of an ACCEPT: the cause it gets; an acceptance is held from then on. The kind is that of the access, which ends no sooner
than it is answered. (DEDUCED: log entry 93) -/
def State.acceptElem (s : State) (pkg : Nat) (p : FabPacket) (f : Word × Word) : State × Nat :=
  match (s.pkg p.src).txns.find? (fun t => t.id = p.access) with
  | none => (s, 0)
  | some t =>
    let a : Accepted := { requester := p.src, txn := p.access, unit := elemAddr f.1 / Config.leaseUnit }
    let c := s.acceptance pkg p.src (f.1.toNat % 2 ^ 44) t.kind
    if c = 0 && !(s.pkg pkg).accepts.contains a then (s.modPkg pkg (fun q => { q with accepts := q.accepts ++ [a] }), 0) else (s, c)

/-- `ACCEPT`: the target checks each element and answers with its cause. (DEDUCED: log entry 93) -/
def execFabAccept (pkg : Nat) (s : State) : Out :=
  s.serve pkg 4 (fun t p =>
    let (u, ws) := p.payload.zipIdx.foldl (fun (a : State × List (Word × Word)) e =>
      if p.badFlit e.2 then (a.1, a.2 ++ [(0, respWord false 5)])
      else
        let (v, c) := a.1.acceptElem pkg p e.1
        (v, a.2 ++ [(0, respWord false c)])) (t, [])
    u.respond pkg p ws)

/-- `UNPIN`: the acceptance is released. Of an uncorrectable flit nothing is known, and the answer has cause 5 (R341). -/
def execFabUnpin (pkg : Nat) (s : State) : Out :=
  s.serve pkg 5 (fun t p =>
    if p.badFlit 0 then t.respond pkg p [(0, respWord false 5)]
    else
    let gone := fun (a : Accepted) => a.requester = p.src && a.txn = p.access &&
      p.payload.any (fun f => elemAddr f.1 / Config.leaseUnit = a.unit)
    (t.modPkg pkg (fun q => { q with accepts := q.accepts.filter (fun a => !gone a) })).respond pkg p [(0, 0)])

/-! ### Messages (R342) -/

/-- The payload words of a message packet. -/
def FabPacket.messageWords (p : FabPacket) : List Word := (p.payload.drop 1).flatMap (fun f => [f.1, f.2])

/-- `MESSAGE`: the message enters the destination ring by stop 0; one with a bad flit or a name that does not exist is answered
`DROPPED`. -/
def execFabMessage (pkg : Nat) (s : State) : Out :=
  s.serve pkg 3 (fun t p =>
    let f := lget (0, 0) p.payload 0
    let ring := destCore f.1 / 8
    if !p.errors.isEmpty || pkgOfRing ring != pkg || !ringExists ring || (t.die (dieOfRing ring)).failed then
      t.respond pkg p [(0, respWord false 7)]
    else
      (t.modPkg pkg (fun q => { q with dieNet := q.dieNet ++
        [{ id := 0, dest := f.1, header := f.2, payload := p.messageWords, dir := 0, crossed := false, vc := 0, esc := none,
           notice := false }] })).respond pkg p [(0, respWord false 0)])

/-! ### Responses and failures (R339, R341) -/

/-- The message of an access, as far as a drop reports it. -/
def Txn.message (t : Txn) : Packet :=
  let e := t.elems.head?
  { id := 0, dest := (e.map (·.data)).getD 0, header := (e.map (·.cmp)).getD 0, payload := [], dir := 0, crossed := false, vc := 0, esc := none,
    notice := false }

/-- Forget an access that has ended. -/
def State.dropTxn (s : State) (t : Txn) : State := s.modPkg t.who.pkg (fun p => { p with txns := p.txns.filter (fun x => x.id != t.id) })

/-- The target and the first local address of a packet of an access. -/
def Txn.goal (t : Txn) (x : Sent) : Nat × Nat :=
  let i := x.idx.headD 0
  if x.accept then lget (0, 0) t.frames i else ((t.elems[i]?).map (fun e => (e.target, e.la))).getD (0, 0)

/-- Take the answers of a packet: causes of its frames, or data, poison and status of its elements, a failed element as zero with poison
(R341). -/
def Txn.answer (t : Txn) (x : Sent) (rs : List (Word × Bool × Nat)) : Txn :=
  let t1 := { t with sent := t.sent.filter (fun y => y.num != x.num) }
  if x.accept then { t1 with answers := (x.idx.zip rs).foldl (fun m e => tput m e.1 e.2.2.2) t.answers }
  else { t1 with resps := (x.idx.zip rs).foldl (fun m e => tput m e.1 (if e.2.2.2 = 0 then e.2 else (0, true, e.2.2.2))) t.resps }

/-- A message that is not delivered: the sending ring counts the drop and raises it (R342). -/
def State.messageLost (s : State) (t : Txn) : State := (s.dropTxn t).messageDrop t.who.ring 0 t.message

/-- A message is answered: delivered, dropped at the destination, or failed in transit, which is logged. (DEDUCED: log entry 95) -/
def State.messageAnswered (s : State) (t : Txn) (x : Sent) (cause : Nat) : State :=
  if cause = 0 then s.dropTxn t
  else if cause = 7 then s.messageLost t
  else (s.fabLog t.who.pkg cause (t.goal x).1 0).messageLost t

/-- The parts of a packet that fail in transit, in order: target, local address, cause (R341). A refusal is no such failure (R338). -/
def Txn.failures (t : Txn) (x : Sent) (rs : List (Word × Bool × Nat)) : List (Nat × Nat × Nat) :=
  ((x.idx.zip rs).filter (fun e => e.2.2.2 != 0 && !(x.accept && e.2.2.2 ≤ 3))).map (fun e =>
    let g := t.goal { x with idx := [e.1] }
    (g.1, g.2, e.2.2.2))

/-- A packet of an access is answered. Each part that fails in transit is logged and raised; refusals are reported by the access
(R338, R341). (DEDUCED: log entry 95) -/
def State.answered (s : State) (t : Txn) (x : Sent) (rs : List (Word × Bool × Nat)) : State :=
  if t.kind = kMessage then s.messageAnswered t x ((rs.head?.map (·.2.2)).getD 0)
  else (t.failures x rs).foldl (fun u e => u.transitFail t.who t.ctx e.2.2 e.1 e.2.1)
    (s.modTxn t.who.pkg t.id (fun y => y.answer x rs))

/-- An UNPIN is answered. One that fails in transit is logged and raised, and is sent again while the fabric can be used: the acceptance is
to be released (R338, R341). (DEDUCED: log entry 95) -/
def State.unpinAnswered (s : State) (pkg : Nat) (n : Unpin) (cause : Nat) : State :=
  let s1 := s.modPkg pkg (fun p => { p with unpins := p.unpins.filter (fun x => x.num != n.num) })
  if cause = 0 then s1
  else
    let s2 := s1.transitFail n.who n.ctx cause n.target n.la
    if s.cutOff pkg then s2 else s2.sendUnpin pkg n

/-- The flits of a response: data, poison and status; an uncorrectable flit is a failure of cause 5. -/
def FabPacket.answers (p : FabPacket) : List (Word × Bool × Nat) :=
  p.payload.zipIdx.map (fun e => if p.badFlit e.2 then ((0 : Word), true, 5) else (e.1.1, e.1.2.getLsbD 0, e.1.2.toNat / 2 ^ 8 % 16))

/-- What a requester takes of the flits of a response: where it is `DOWN`, every part has failed with cause 4, but a message keeps its
answer, as it was delivered or dropped at its destination (R330, R341, R342). (DEDUCED: log entry 95) -/
def FabPacket.taken (p : FabPacket) (down message : Bool) : List (Word × Bool × Nat) :=
  if down && !message then p.answers.map (fun _ => (0, true, 4)) else p.answers

/-- `RESPONSE`: its reserved room is free again. A response to no access and to no UNPIN is taken and forgotten. (DESIGN CHOICE: log entry 90) -/
def execFabResponse (pkg : Nat) (s : State) : Out :=
  s.serve pkg 6 (fun t p =>
    let u := t.modPkg pkg (fun q => { q with rooms := q.rooms.filter (fun r => r.1 != p.txn) })
    let down := (s.pkg pkg).down
    match (u.pkg pkg).unpins.find? (fun n => n.num = p.txn) with
    | some n => u.unpinAnswered pkg n (((p.taken down false).head?.map (·.2.2)).getD 0)
    | none => match (u.pkg pkg).txns.find? (fun x => x.id = p.access) with
      | none => u
      | some x => match x.sent.find? (fun y => y.num = p.txn && (x.goal y).1 = p.src) with
        | none => u
        | some y => u.answered x y (p.taken down (x.kind = kMessage)))

/-- Whether a package cannot reach another (R341 cause 4): one of them is down, has no port, or does not respond (R318). -/
def State.unreachable (s : State) (pkg target : Nat) : Bool :=
  s.cutOff pkg || s.cutOff target || !(s.pkg target).ready

/-- Whether a packet or its response is still on its way: a package reset may have lost it. (DEDUCED: log entry 89) -/
def State.carried (s : State) (pkg target num : Nat) : Bool :=
  let request := fun (q : FabPacket) => q.txn = num && q.src = pkg && q.type != 6
  let response := fun (q : FabPacket) => q.txn = num && q.dst = pkg && q.type = 6
  let a := s.pkg pkg
  let b := s.pkg target
  a.outbox.any request || b.fabIn.any request || b.rx.any request || b.outbox.any response || a.fabIn.any response || a.rx.any response ||
  s.wires.any (fun q => request q || response q)

/-- Whether a packet of a message has not reached its destination. -/
def State.undelivered (s : State) (pkg target num : Nat) : Bool :=
  let request := fun (q : FabPacket) => q.txn = num && q.src = pkg && q.type != 6
  (s.pkg pkg).outbox.any request || s.wires.any request || (s.pkg target).fabIn.any request || (s.pkg target).rx.any request

/-- Take a packet out of the fabric. -/
def State.removePacket (s : State) (pkg target num : Nat) : State :=
  let kept := fun (q : FabPacket) => !(q.txn = num && q.src = pkg && q.type != 6)
  ({ s with wires := s.wires.filter kept }.modPkg pkg (fun p => { p with
    outbox := p.outbox.filter kept, rooms := p.rooms.filter (fun r => r.1 != num) })).modPkg target (fun p => { p with
      fabIn := p.fabIn.filter kept, rx := p.rx.filter kept })

/-- A packet of an access fails with cause 4 (R341): a message that has reached its destination is delivered all the same, another is not
delivered any more (R342). (DEDUCED: log entry 95) -/
def State.partFails (s : State) (t : Txn) (x : Sent) : State :=
  let pkg := t.who.pkg
  let tg := (t.goal x).1
  if t.kind = kMessage then
    if s.undelivered pkg tg x.num then ((s.removePacket pkg tg x.num).fabLog pkg 4 tg 0).messageLost t
    else if s.carried pkg tg x.num then s.dropTxn t
    else (s.fabLog pkg 4 tg 0).messageLost t
  else (if s.carried pkg tg x.num then s
    else s.modPkg pkg (fun p => { p with rooms := p.rooms.filter (fun r => r.1 != x.num) })).answered t x (x.idx.map (fun _ => (0, true, 4)))

/-- The leases of a lender that has become unreachable are treated as revoked, after the failure's own event (R361). (DEDUCED: log entry 97) -/
def State.loseLender (s : State) (pkg lender : Nat) : State :=
  ((s.pkg pkg).borrows.filter (fun b => b.lender = lender && (b.state == .granted || b.state == .reclaiming))).foldl
    (fun t b => t.revoked pkg b) s

/-- The event of a failed access of the lease agent, to the supervisor of the lease's context (R173, R361). (DESIGN CHOICE: log entry 69) -/
def State.agentFails (s : State) (pkg : Nat) (b : Borrow) : State :=
  let s1 := s.fabLog pkg 4 b.lender b.base
  match lowestRing (s1.takers pkg b.ctx) with
  | some p => s1.postEvent p.hart { code := cMachineCheck, addr := BitVec.ofNat 64 b.lodgingBase, val := 4 }
  | none => s1.ctxEvent pkg b.ctx cMachineCheck

/-- The number above which `TRANSIT_FAILURE` names the handle of a lease instead of a transaction. -/
abbrev leaseTxn : Nat := 2 ^ 32

/-- `TRANSIT_FAILURE` (R341): of an access of a package, the packets whose target cannot be reached, or that are lost, fail; a lease whose
lender cannot be reached is revoked (R361). (DEDUCED: log entry 89, DEDUCED: log entry 97) -/
def execTransitFailure (pkg txn : Nat) (s : State) : Out :=
  if !pkgExists pkg then .fault .noSuchUnit
  else if leaseTxn ≤ txn then
    match (s.pkg pkg).borrow? (txn - leaseTxn) with
    | some b =>
      if s.unreachable pkg b.lender && (b.state == .granted || b.state == .reclaiming) then
        .next ((s.agentFails pkg b).loseLender pkg b.lender)
      else s.noEvent
    | none => s.noEvent
  else match (s.pkg pkg).txns.find? (fun t => t.id = txn) with
    | none => s.noEvent
    | some t =>
      let cut := fun (x : Sent) => s.unreachable pkg (t.goal x).1
      match t.sent.filter (fun x => cut x || !s.carried pkg (t.goal x).1 x.num) with
      | [] => s.noEvent
      | xs =>
        let s1 := xs.foldl (fun u x => u.partFails t x) s
        .next (((xs.filter cut).map (fun x => (t.goal x).1)).eraseDups.foldl (fun u l => u.loseLender pkg l) s1)

end Sys2Proof.Machine
end

