-- ==== Sys2Proof/Machine/Matrix.lean ====
section
/-! DEFINITION. The matrix unit and the operand ring (R38, R184 to R196). -/

namespace Sys2Proof.Machine

/-! ### Ownership and checks (R186) -/

/-- Whether the claimed type makes FP32 tiles (R184). -/
def Core.fpTiles (c : Core) : Bool := 9 ≤ c.mxType.toNat

/-- The low half of an entry's instruction, as `TVAL` holds it (R186). -/
def Entry.low (e : Entry) : Word := (e.insn.extractLsb' 0 32).zeroExtend 64

/-- A unit-5 instruction other than `msetml`: it waits in a speculative chunk, traps `ILLEGAL` on a hart that does not hold
the unit or on a type that does not match, and else has its effect. -/
def State.matrix (s : State) (typeOk : Core → Bool) (k : State → Entry → State) : Out :=
  s.member (fun t ent =>
    let c := t.core (coreOf t.cur)
    if t.me.spec then t
    else if c.mxOwner != some t.cur || !typeOk c then t.vtrap t.cur t.entryPos 0 cIllegal 0 ent.low
    else k t ent)

/-- Change the core of the executing hart. -/
abbrev State.modOwn (s : State) (f : Core → Core) : State := s.modCore (coreOf s.cur) f
/-- The core of the executing hart. -/
abbrev State.own (s : State) : Core := s.core (coreOf s.cur)

/-! ### Claim and release (R189) -/

/-- `msetml` (R189). -/
def execMsetml (o : VOp) (s : State) : Out :=
  s.member (fun t ent =>
    let n := min (max ent.x.val.toNat 1) 64
    let set := fun (c : Core) => { c with mxMvl := n, mxType := o.ty.code }
    if t.me.spec then t
    else if ent.x.poison then t.trapAt 0 cPoison 0 5
    else if t.own.mxOwner == some t.cur then (t.modOwn set).complete
    else if t.own.mxOwner.isNone && (t.own.mxWait.head?).getD t.cur == t.cur then
      (t.modOwn (fun c => set { c with mxOwner := some t.cur, mxTiles := [], mxWait := sdel t.cur c.mxWait })).complete
    else t.modOwn (fun c => { c with mxWait := joinLast t.cur c.mxWait }))

/-- `mend` (R189). -/
def execMend (_o : VOp) (s : State) : Out :=
  s.matrix (fun _ => true) (fun t _ => (t.modOwn (fun c => c.freeMatrix t.cur)).complete)

/-! ### Tiles (R184, R190) -/

/-- The key of tile element (i, j). -/
abbrev tileKey (acc i j : Nat) : Nat := 4096 * acc + 64 * i + j
/-- A tile element. -/
def tileAt (m : Tab PVal) (acc i j : Nat) : PVal := tget (PVal.clean 0) m (tileKey acc i j)
/-- Write a tile element; a poisoned one holds zero. -/
def setTile (m : Tab PVal) (acc i j : Nat) (p : PVal) : Tab PVal :=
  tset (PVal.clean 0) m (tileKey acc i j) (if p.poison then PVal.poisoned else p)

/-- `mzero` (R190). -/
def execMzero (o : VOp) (s : State) : Out :=
  s.matrix (fun _ => true) (fun t _ =>
    (t.modOwn (fun c => { c with mxTiles := c.mxTiles.filter (fun e => e.1 / 4096 != o.vd.toNat) })).complete)

/-- The position of line element `q` (R190). -/
def linePos (o : VOp) (q : Nat) : Nat × Nat :=
  if o.lowBits 6 6 = 1 then (q, o.lowBits 5 0) else (o.lowBits 5 0, q)

/-- The type of `mxin` and `mxout` matches the tile class (R187). -/
def lineTypeOk (o : VOp) (c : Core) : Bool := if c.fpTiles then o.ty == .f32 else o.ty == .s32

/-- Read containers 0 to n − 1 of a source that is a register or the landing; `none` where the landing is empty. -/
def State.fragmentOf (s : State) (r : VReg) (n : Nat) : Option (List PVal) :=
  if r.toNat < 48 then some ((List.range n).map (s.me.getV r.toNat))
  else s.own.landing.map (fun f => (List.range n).map f.at)

/-- `mxin` (R190). -/
def execMxin (o : VOp) (s : State) : Out :=
  s.matrix (lineTypeOk o) (fun t _ => match t.fragmentOf o.vs1 32 with
    | none => t
    | some cs => (t.modOwn (fun c => { c with mxTiles := (List.range 64).foldl (fun m q =>
        let p := lget (PVal.clean 0) cs (q / 2)
        setTile m o.vd.toNat (linePos o q).1 (linePos o q).2
          { val := BitVec.ofNat 64 (elemOf .n32 p.val (q % 2)), poison := p.poison }) c.mxTiles })).complete)

/-- Two 32-bit elements as a container (R190). -/
def joinPair (a b : PVal) : PVal :=
  if a.poison || b.poison then PVal.poisoned else PVal.clean (packElems .n32 [a.val.toNat, b.val.toNat])

/-- `mxout` (R190). -/
def execMxout (o : VOp) (s : State) : Out :=
  s.matrix (lineTypeOk o) (fun t _ =>
    let m := t.own.mxTiles
    let el := fun (q : Nat) => tileAt m o.vs3.toNat (linePos o q).1 (linePos o q).2
    ((List.range 32).foldl (fun (u : State) e =>
      u.modMe (fun h => h.setV o.vd.toNat e (joinPair (el (2 * e)) (el (2 * e + 1))))) t).complete)

/-! ### Outer products (R38, R188, R191) -/

/-- The addends of an exact sum as they come: the sum in units of 2^-600, and what was seen. -/
structure Exact where
  sum : Int
  nan : Bool
  negInf : Bool
  posInf : Bool
  allNeg : Bool
  deriving DecidableEq, Repr

/-- No addend yet. -/
def Exact.zero : Exact := { sum := 0, nan := false, negInf := false, posInf := false, allNeg := true }

/-- Add one value. -/
def Exact.add (a : Exact) : FVal → Exact
  | .nan _ => { a with nan := true }
  | .inf true => { a with negInf := true }
  | .inf false => { a with posInf := true, allNeg := false }
  | .fin n m e => { a with sum := a.sum + scaled n m e (-600), allNeg := a.allNeg && n }

/-- The sum rounded once, RNE, to FP32 (R38). (DEDUCED: log entry 23) -/
def Exact.round (a : Exact) (ftz : Bool) : Nat × Flags :=
  if a.nan || (a.negInf && a.posInf) then (canonNaN .f32, fNV)
  else if a.negInf then (infBits .f32 true, 0)
  else if a.posInf then (infBits .f32 false, 0)
  else roundFin ftz .f32 .rne (if a.sum = 0 then a.allNeg else decide (a.sum < 0)) a.sum.natAbs (-600)

/-- An exact product of two values. -/
def mulExact (x y : FVal) : FVal :=
  match x, y with
  | .nan s, _ => .nan s
  | _, .nan s => .nan s
  | .inf a, .inf b => .inf (a != b)
  | .inf a, .fin b m _ => if m = 0 then .nan true else .inf (a != b)
  | .fin a m _, .inf b => if m = 0 then .nan true else .inf (a != b)
  | .fin a m e, .fin b n f => .fin (a != b) (m * n) (e + f)

/-- An E8M0 scale as a value (R31). -/
def scaleVal (s : Nat) : FVal := if s = 255 then .nan false else .fin false 1 ((s : Int) - 127)

/-- The byte of the scale containers that scales a fragment position, and its poison: A positions from container 0, B positions
from container 8 (R188). -/
def scaleByte (sc : List PVal) (first pos : Nat) : Nat × Bool :=
  let c := lget (PVal.clean 0) sc (first + pos / 16)
  (elemOf .n8 c.val (pos / 2 % 8), c.poison)

/-- One step on one tile element (R38): the new element and its flags. (DESIGN CHOICE: log entry 135) -/
def outerElem (h : Hart) (o : VOp) (dec : Bool) (old : PVal) (a b : PVal) (sa sb : Nat × Bool) : PVal × Flags :=
  if old.poison || a.poison || b.poison || sa.2 || sb.2 then (PVal.poisoned, 0)
  else
    let prs := pairs o.ty a.val b.val
    if o.ty.isInt then
      let sum := prs.foldl (fun acc p => acc + intOf o.ty.signed o.ty.width p.1 * intOf o.ty.signed o.ty.width p.2) (0 : Int)
      (PVal.clean (BitVec.ofNat 64 (wrapInt 32 ((old.val.toNat : Int) + (if dec then -sum else sum)))), 0)
    else
      let sc := if o.ty == .e2m1 then mulExact (scaleVal sa.1) (scaleVal sb.1) else .fin false 1 0
      let start := Exact.zero.add (readF h.ftz .f32 (old.val.toNat % 2 ^ 32))
      let r := (prs.foldl (fun acc p =>
        let v := mulExact (mulExact (readF h.ftz o.ty p.1) (readF h.ftz o.ty p.2)) sc
        acc.add (if dec then v.negate else v)) start).round h.ftz
      (PVal.clean (BitVec.ofNat 64 r.1), r.2)

/-- One step `st` of an outer product: the new tiles and the flags it raises (R191). -/
def outerStep (h : Hart) (o : VOp) (dec : Bool) (mvl : Nat) (as bs sc : List PVal) (tiles : Tab PVal) (st : Nat) : Tab PVal × Flags :=
  let idx := List.range mvl
  let scales := o.ty == .e2m1
  idx.foldl (fun acc i =>
    let a := st * mvl + i
    if a < h.vl && h.active o a then
      idx.foldl (fun acc2 j =>
        let b := st * mvl + j
        if b < h.vl then
          let r := outerElem h o dec (tileAt acc2.1 o.vd.toNat i j) (lget (PVal.clean 0) as a) (lget (PVal.clean 0) bs b)
            (if scales then scaleByte sc 0 a else (0, false)) (if scales then scaleByte sc 8 b else (0, false))
          (setTile acc2.1 o.vd.toNat i j r.1, acc2.2 ||| r.2)
        else acc2) acc
    else acc) (tiles, 0)

/-- The steps of an outer product from a step on: each is applied whole, or traps (R191). -/
def State.outerSteps (s : State) (o : VOp) (dec : Bool) (as bs sc : List PVal) : List Nat → State
  | [] => s.complete
  | st :: r =>
    let mvl := s.own.mxMvl
    let (tiles, fl) := outerStep s.me o dec mvl as bs sc s.own.mxTiles st
    let en := fl &&& s.me.ten
    let s1 := s.modMe (fun h => h.raiseFlags fl)
    if en != 0 then s1.trapAt (st * mvl) cFp 0 (en.zeroExtend 64)
    else (s1.modOwn (fun c => { c with mxTiles := tiles })).outerSteps o dec as bs sc r

/-- An outer product (R191). -/
def State.outer (s : State) (o : VOp) (dec : Bool) : Out :=
  s.matrix (fun c => c.mxType == o.ty.code) (fun t ent =>
    if t.me.vl = 0 then t.complete
    else match t.fragmentOf o.vs1 t.me.vl, t.fragmentOf o.vs2 t.me.vl, t.fragmentOf o.vs3 16 with
      | some as, some bs, some sc =>
        let m := t.own.mxMvl
        t.outerSteps o dec as bs sc (containers (ent.start / m) ((t.me.vl + m - 1) / m))
      | _, _, _ => t)

/-- `mxacc` (R191). -/
def execMxacc (o : VOp) (s : State) : Out := s.outer o false

/-- `mxdec` (R191). -/
def execMxdec (o : VOp) (s : State) : Out := s.outer o true

/-! ### Tile solvers (R195, R196) -/

/-- An FP32 element as a value. -/
def f32Of (h : Hart) (p : PVal) : FVal := readF h.ftz .f32 (p.val.toNat % 2 ^ 32)

/-- An FP32 operation on elements with poison: a poisoned operand gives poison and no flag (R42). -/
def f32Op (ps : List PVal) (f : Nat × Flags) : PVal × Flags :=
  if ps.any (·.poison) then (PVal.poisoned, 0) else (PVal.clean (BitVec.ofNat 64 f.1), f.2)

/-- a / b. -/
def f32Div (h : Hart) (a b : PVal) : PVal × Flags := f32Op [a, b] (fpDiv h.ftz .f32 .rne (f32Of h a) (f32Of h b))
/-- a − b × c with one rounding. -/
def f32Nms (h : Hart) (a b c : PVal) : PVal × Flags :=
  f32Op [a, b, c] (fpFma h.ftz .f32 .rne (f32Of h b).negate (f32Of h c) (f32Of h a))

/-- Whether the magnitude of a value is above that of another; a NaN counts as largest (R195). -/
def magAbove (x y : FVal) : Bool :=
  match x, y with
  | .nan _, .nan _ => false
  | .nan _, _ => true
  | _, .nan _ => false
  | .inf _, .inf _ => false
  | .inf _, .fin _ _ _ => true
  | .fin _ _ _, .inf _ => false
  | .fin _ m e, .fin _ n f => decide (scaled false n f (-600) < scaled false m e (-600))

/-- The pivot row of a column: the lowest whose magnitude is largest. -/
def pivotRow (h : Hart) (w : Tab PVal) (acc n k : Nat) : Nat :=
  (containers (k + 1) n).foldl (fun p i =>
    if magAbove (f32Of h (tileAt w acc i k)) (f32Of h (tileAt w acc p k)) then i else p) k

/-- Exchange two rows over columns 0 to n − 1. -/
def swapRows (w : Tab PVal) (acc n i j : Nat) : Tab PVal :=
  (List.range n).foldl (fun m q => setTile (setTile m acc i q (tileAt w acc j q)) acc j q (tileAt w acc i q)) w

/-- Whether a value is zero. -/
def FVal.isZero : FVal → Bool
  | .fin _ m _ => m = 0
  | _ => false

/-- The update of column `k` below its pivot (R195): multipliers and trailing elements, with the flags. -/
def eliminate (h : Hart) (w : Tab PVal) (acc n k : Nat) (bad : Bool) : Tab PVal × Flags :=
  (containers (k + 1) n).foldl (fun r i =>
    let l := if bad then (PVal.poisoned, 0) else f32Div h (tileAt r.1 acc i k) (tileAt r.1 acc k k)
    let r1 := (setTile r.1 acc i k l.1, r.2 ||| l.2)
    (containers (k + 1) n).foldl (fun q j =>
      let v := f32Nms h (tileAt q.1 acc i j) (tileAt q.1 acc i k) (tileAt q.1 acc k j)
      (setTile q.1 acc i j v.1, q.2 ||| v.2)) r1) (w, 0)

/-- Whether an earlier column of this factorisation met an exactly zero pivot: its diagonal element is zero under a pivot
that is not poisoned. (DEDUCED: log entry 32) -/
def earlierZero (h : Hart) (w : Tab PVal) (acc k : Nat) (vd : Nat) : Bool :=
  (List.range k).any (fun j => (f32Of h (tileAt w acc j j)).isZero && !(tileAt w acc j j).poison && !(h.getV vd (64 + j)).poison)

/-- The columns of a factorisation from one on: each commits whole or traps (R195). (DEDUCED: log entry 32) -/
def State.factor (s : State) (o : VOp) (strict : Bool) : List Nat → State
  | [] => s.complete
  | k :: r =>
    let h := s.me
    let acc := o.vs3.toNat
    let n := s.own.mxMvl
    let w0 := s.own.mxTiles
    let bad := (containers k n).any (fun i => (tileAt w0 acc i k).poison)
    let p := if bad then k else pivotRow h w0 acc n k
    let w := swapRows w0 acc n k p
    let zero := !bad && (f32Of h (tileAt w acc k k)).isZero
    let s1 := if zero then s.modMe (fun g =>
        if earlierZero h w0 acc k o.vd.toNat then g.raiseV vSing else g.setSing (BitVec.ofNat 6 k)) else s
    if zero && strict then s1.trapAt k cFp 0 0x20
    else
      let (w1, fl) := if zero then
          ((containers (k + 1) n).foldl (fun m i => setTile m acc i k (PVal.clean 0)) w, 0) else eliminate h w acc n k bad
      let en := fl &&& h.ten
      let s2 := s1.modMe (fun g => g.raiseFlags fl)
      if en != 0 then s2.trapAt k cFp 0 (en.zeroExtend 64)
      else ((s2.modOwn (fun c => { c with mxTiles := w1 })).modMe (fun g => g.setV o.vd.toNat (64 + k)
        (if bad then PVal.poisoned else PVal.clean (BitVec.ofNat 64 p)))).factor o strict r

/-- `mlu` and `mlu.st` (R195). -/
def execMlu (o : VOp) (s : State) : Out :=
  s.matrix Core.fpTiles (fun t ent => t.factor o (o.lowBits 0 0 = 1) (containers ent.start t.own.mxMvl))

/-- Exchange two values of a list. -/
def swapAt (l : List PVal) (i j : Nat) : List PVal :=
  (l.set i (lget (PVal.clean 0) l j)).set j (lget (PVal.clean 0) l i)

/-- The right-hand side after its row exchanges (R196). -/
def permuted (cs : List PVal) (n : Nat) : List PVal :=
  let c := fun (i : Nat) => lget (PVal.clean 0) cs i
  let y0 := (List.range n).map (fun i =>
    ({ val := BitVec.ofNat 64 (elemOf .n32 (c (i / 2)).val (i % 2)), poison := (c (i / 2)).poison } : PVal))
  if (List.range n).any (fun k => (c (64 + k)).poison) then List.replicate n PVal.poisoned
  else (List.range n).foldl (fun y k =>
    let p := (c (64 + k)).val.toInt
    swapAt y k (if p < k || (n : Int) ≤ p then k else p.toNat)) y0

/-- Subtract from y(i) the products of a row of the tile with the y of some columns (R196). -/
def subRow (h : Hart) (w : Tab PVal) (acc i : Nat) (cols : List Nat) (y : List PVal) (fl : Flags) : List PVal × Flags :=
  cols.foldl (fun r j =>
    let v := f32Nms h (lget (PVal.clean 0) r.1 i) (tileAt w acc i j) (lget (PVal.clean 0) r.1 j)
    (r.1.set i v.1, r.2 ||| v.2)) (y, fl)

/-- The two triangular solves (R196). -/
def solveTile (h : Hart) (w : Tab PVal) (acc n : Nat) (y0 : List PVal) : List PVal × Flags :=
  let fwd := (containers 1 n).foldl (fun r i => subRow h w acc i (List.range i) r.1 r.2) (y0, 0)
  ((List.range n).reverse).foldl (fun r i =>
    let q := subRow h w acc i (containers (i + 1) n) r.1 r.2
    let v := f32Div h (lget (PVal.clean 0) q.1 i) (tileAt w acc i i)
    (q.1.set i v.1, q.2 ||| v.2)) fwd

/-- `mtrs` (R196). -/
def execMtrs (o : VOp) (s : State) : Out :=
  s.matrix Core.fpTiles (fun t _ => match t.fragmentOf o.vs1 128 with
    | none => t
    | some cs =>
      let h := t.me
      let n := t.own.mxMvl
      let (y, fl) := solveTile h t.own.mxTiles o.vs3.toNat n (permuted cs n)
      let en := fl &&& h.ten
      let t1 := t.modMe (fun g => g.raiseFlags fl)
      if en != 0 then t1.trapAt 0 cFp 0 (en.zeroExtend 64)
      else
        let el := fun (q : Nat) => if q < n then lget (PVal.clean 0) y q
          else { val := BitVec.ofNat 64 (elemOf .n32 (lget (PVal.clean 0) cs (q / 2)).val (q % 2)),
                 poison := (lget (PVal.clean 0) cs (q / 2)).poison }
        ((List.range ((n + 1) / 2)).foldl (fun (u : State) e =>
          u.modMe (fun g => g.setV o.vd.toNat e (joinPair (el (2 * e)) (el (2 * e + 1))))) t1).complete)

/-! ### The operand ring (R193, R194) -/

/-- The fragment that `rpass` reads: containers 0 to vl − 1. -/
def makeFragment (ps : List PVal) : Fragment :=
  { len := ps.length, data := (ps.zipIdx).foldl (fun m e => tset (PVal.clean 0) m e.2 e.1) [] }

/-- Whether a fragment is about to enter a core's landing: the landing is empty, and the buffer of the counter-clockwise neighbour holds one
(R193). (DEDUCED: log entry 132) -/
def State.fragmentDue (s : State) (core : Nat) : Bool :=
  let ring := ringOfCore core
  (s.core core).landing.isNone && (List.range 8).any (fun p =>
    !(s.core (coreKey ring p)).fused && s.nextLive ring p = posOf core && (s.core (coreKey ring p)).outBuf.isSome)

/-- `rpass` and `rpass.fr` (R194). An `rpass.fr` discards the fragment that is about to enter the landing that it frees, so it waits for its
delivery: only so does the program of R264 end as every implementation ends it. (DEDUCED: log entry 132) -/
def execRpass (o : VOp) (s : State) : Out :=
  s.matrix (fun _ => true) (fun t _ =>
    if t.own.outBuf.isSome || (o.lowBits 0 0 = 1 && t.fragmentDue (coreOf t.cur)) then t
    else match t.fragmentOf o.vs1 t.me.vl with
      | none => t
      | some ps => (t.modOwn (fun c =>
          { c with outBuf := some (makeFragment ps), landing := if o.lowBits 0 0 = 1 then none else c.landing })).complete)

/-- `FRAGMENT_DELIVERY`: the buffer of a core goes to the landing of its clockwise neighbour as one step (R193). -/
def execFragmentDelivery (core : Nat) (s : State) : Out :=
  if !ringExists (ringOfCore core) then .fault .noSuchUnit
  else
    let next := coreKey (ringOfCore core) (s.nextLive (ringOfCore core) (posOf core))
    match (s.core core).outBuf with
    | some f =>
      if (s.core core).fused || (s.core next).landing.isSome then s.noEvent
      else .next ((s.modCore core (fun c => { c with outBuf := none })).modCore next (fun c => { c with landing := some f }))
    | none => s.noEvent

end Sys2Proof.Machine
end

