-- ==== Sys2Proof/Machine/Merge.lean ====
section
/-! DEFINITION. The merge network of a ring (R243 to R258): a command starts with its checks, merges and folds its streams line
by line, stops with a spill record, and ends with its mailbox. -/

namespace Sys2Proof.Machine

/-! ### Fields of a command (R243, R245, R246) -/

/-- A dword of the command block. -/
def MergeCmd.dword (c : MergeCmd) (i : Nat) : Nat := blockDword c.block i
/-- The poison of a dword of the command block. -/
def MergeCmd.poisoned (c : MergeCmd) (i : Nat) : Bool := blockPoison c.block i
/-- `VIN`. -/
def MergeCmd.vin (c : MergeCmd) : Nat := c.dword 0 / 16 % 4
/-- `DROPZ`. -/
def MergeCmd.dropz (c : MergeCmd) : Bool := c.dword 0 / 8 % 2 = 1
/-- `RESUME`. -/
def MergeCmd.resume (c : MergeCmd) : Bool := c.dword 0 / 4 % 2 = 1
/-- `NS`. -/
def MergeCmd.ns (c : MergeCmd) : Nat := mergeStreams c.block
/-- `SCOPE`. -/
def MergeCmd.scope (c : MergeCmd) : Nat := c.dword 0 / 2 ^ 13 % 8
/-- Where stream `n` begins. -/
def MergeCmd.streamAt (c : MergeCmd) (n : Nat) : Nat := blockDword c.table (2 * n)
/-- How many tuples stream `n` has. -/
def MergeCmd.streamLen (c : MergeCmd) (n : Nat) : Nat := blockDword c.table (2 * n + 1) % 2 ^ 40
/-- The output type. -/
def MergeCmd.ty (c : MergeCmd) : Ty := if c.vin = 0 then .f64 else .f32
/-- The agent of a command. -/
def MergeCmd.agent (c : MergeCmd) : Agent := engineAgent c.core c.ctx c.priv

/-- A dword of the header. -/
def MergeRun.h (m : MergeRun) (i : Nat) : Nat := blockDword m.hdr i
/-- `NMAJ`. -/
def MergeRun.nmaj (m : MergeRun) : Nat := m.h 0 / 2 ^ 32
/-- `NMIN`. -/
def MergeRun.nmin (m : MergeRun) : Nat := m.h 1 / 2 ^ 32
/-- `IW`. -/
def MergeRun.wideIndex (m : MergeRun) : Bool := m.h 0 / 4 % 2 = 1
/-- `PW`. -/
def MergeRun.widePtr (m : MergeRun) : Bool := m.h 0 / 2 % 2 = 1

/-! ### Accesses -/

/-- The accesses of a running command of a ring, told apart by numbers above those of the kicks: the header, the spill record that it
resumes from, the tuple at a position of a stream, the key before a cursor, and the writes of a step. (DESIGN CHOICE: log entry 90) -/
abbrev runPart (ring i : Nat) : Who := .merge ring (2 ^ 40 + i)
/-- A tuple of a stream. -/
abbrev tuplePart (ring n pos : Nat) : Who := runPart ring (2 ^ 42 * (n + 1) + pos)
/-- The key before the cursor of a stream. -/
abbrev keyPart (ring n : Nat) : Who := runPart ring (16 + n)
/-- A write of a step. -/
abbrev writePart (ring i : Nat) : Who := runPart ring (2 ^ 52 + i)

/-- Whether an agent is the running command of a ring. -/
def Who.runOf (w : Who) (ring : Nat) : Bool := match w with
  | .merge r i => r = ring && 2 ^ 40 ≤ i
  | _ => false

/-- A step of a command is done: what it had under way ends. -/
def State.endRun (s : State) (ring : Nat) : State :=
  (((s.pkg (pkgOfRing ring)).txns.map (·.who)).filter (fun w => w.runOf ring)).foldl State.release s

/-! ### The checks of a command (R248) -/

/-- One group of conditions of R248: which hold, with the address each reports. -/
abbrev Conds := List (Bool × Nat)

/-- The first group of which a condition holds, by the lowest address it reports. (DEDUCED: log entry 61) -/
def firstBad : List Conds → Option Nat
  | [] => none
  | g :: r => match (g.filter (·.1)).map (·.2) with
    | [] => firstBad r
    | a :: as => some (as.foldl min a)

/-- Whether bits of a number outside a mask are set. -/
def outside (n mask : Nat) : Bool := n &&& mask != n

/-- The conditions on poisoned dwords of a block at an address. -/
def poisonConds (block : List PVal) (addr : Nat) : Conds := (block.zipIdx).map (fun p => (p.1.poison, addr + 8 * p.2))

/-- The groups of R248, in order. `hdr` is the header as read, `hfault` the lowest faulting byte of it. A poisoned dword holds
no value to check and offends only under the last condition. (DEDUCED: log entry 61) -/
def mergeConds (c : MergeCmd) (hdr : List PVal) (hfault : Option Nat) : List Conds :=
  let at_ := fun (i : Nat) => c.addr + 8 * i
  let ok := fun (i : Nat) => !c.block.isEmpty && !c.poisoned i
  let hdrAt := fun (i : Nat) => c.dword 2 + 8 * i
  let hok := fun (i : Nat) => !hdr.isEmpty && !blockPoison hdr i
  let hd := blockDword hdr
  let streams := if c.table.isEmpty then [] else List.range c.ns
  let tAt := fun (i : Nat) => c.dword 1 + 8 * i
  let tok := fun (i : Nat) => !blockPoison c.table i
  [ [(ok 0 && outside (c.dword 0) 0xFFFF00000000FF3C, at_ 0), (ok 3 && 2 ^ 40 ≤ c.dword 3, at_ 3),
     (ok 4 && 2 ^ 32 ≤ c.dword 4, at_ 4), (ok 5 && 2 ^ 40 ≤ c.dword 5, at_ 5)] ++
      streams.map (fun n => (tok (2 * n + 1) && 2 ^ 40 ≤ blockDword c.table (2 * n + 1), tAt (2 * n + 1))) ++
      [(hok 0 && outside (hd 0) 0xFFFFFFFF0000F007, hdrAt 0), (hok 1 && hd 1 % 2 ^ 32 != 0, hdrAt 1),
       (hok 6 && hd 6 != 0, hdrAt 6), (hok 7 && hd 7 != 0, hdrAt 7)],
    [(ok 0 && (c.ns = 0 || 16 < c.ns), at_ 0)],
    [(ok 0 && c.vin = 3, at_ 0)],
    [(ok 0 && 6 ≤ c.scope, at_ 0)],
    [(ok 6 && c.dword 6 = 0, at_ 6)],
    [(ok 1 && c.dword 1 % 16 != 0, at_ 1), (ok 2 && c.dword 2 % 64 != 0, at_ 2), (ok 6 && c.dword 6 % 64 != 0, at_ 6),
     (ok 7 && c.dword 7 % 16 != 0, at_ 7)] ++
      streams.map (fun n => (tok (2 * n) && c.streamAt n % 16 != 0, tAt (2 * n))) ++
      [(hok 0 && hok 3 && hd 3 % (if hd 0 / 2 % 2 = 1 then 8 else 4) != 0, hdrAt 3),
       (hok 0 && hok 4 && hd 4 % (if hd 0 / 4 % 2 = 1 then 4 else 2) != 0, hdrAt 4),
       (hok 0 && hok 5 && hd 5 % (if hd 0 / 2 ^ 12 % 16 = 8 then 8 else 4) != 0, hdrAt 5)],
    [(hok 0 && hd 0 / 2 ^ 32 = 0, hdrAt 0), (hok 1 && hd 1 / 2 ^ 32 = 0, hdrAt 1)],
    [(ok 0 && hok 0 && hd 0 / 2 ^ 12 % 16 != (if c.vin = 0 then 8 else 9), hdrAt 0)],
    [(ok 0 && !c.resume && ok 4 && c.dword 4 != 0, at_ 4), (ok 0 && !c.resume && ok 5 && c.dword 5 != 0, at_ 5)],
    poisonConds c.block c.addr ++ poisonConds c.table (c.dword 1) ++ poisonConds hdr (c.dword 2) ++
      [(c.fault.isSome, c.fault.getD 0), (hfault.isSome, hfault.getD 0)] ]

/-- What the network knows of a block that it reads: it waits, or its dwords and the lowest faulting byte. -/
inductive BlockRead where
  | wait (s : State)
  | ok (s : State) (ws : List PVal) (bad : Option Nat)

/-- Read a block of a command. -/
def State.mergeBlock (s : State) (w : Who) (c : MergeCmd) (va n : Nat) : BlockRead :=
  match s.engineRead w c.agent [] true va n with
  | .wait t => .wait t
  | .fault t _ a _ => .ok t [] (some a)
  | .ok t ws => .ok t ws none

/-- The header of a command; a misaligned or poisoned `OUTHDR` names none. -/
def State.mergeHeader (s : State) (ring : Nat) (c : MergeCmd) : BlockRead :=
  if c.block.isEmpty || c.poisoned 2 || c.dword 2 % 64 != 0 then .ok s [] none else s.mergeBlock (runPart ring 0) c (c.dword 2) 64

/-- Whether a spill record is no record of this command (R253). (DESIGN CHOICE: log entry 140) -/
def badSpill (c : MergeCmd) (nmaj : Nat) (r : List PVal) : Bool :=
  let d := blockDword r
  r.any (·.poison) || d 0 / 2 ^ 48 % 256 != 1 || outside (d 0) 0xFFFF1F0000000000 || 2 ^ 32 ≤ d 3 || 8 ≤ d 5 || d 6 != 0 ||
  d 7 != 0 || (List.range 16).any (fun i => 2 ^ 40 ≤ d (8 + i)) || d 0 / 2 ^ 56 < 2 || 8 < d 0 / 2 ^ 56 || d 1 != c.dword 1 ||
  d 0 / 2 ^ 40 % 32 != c.ns || nmaj < d 3 ||
  (List.range 16).any (fun i => (if i < c.ns then c.streamLen i else 0) < d (8 + i)) || d 3 < c.dword 4 || d 4 < c.dword 5

/-- A command with its header as read: a check that fails rejects it, a command that resumes reads its spill record. (DEDUCED: log entry 61) -/
def State.startCommand (s : State) (ring : Nat) (c : MergeCmd) (rest : List MergeCmd) (hdr : List PVal) (bad : Option Nat) : State :=
  let start : MergeRun :=
    { cmd := c, hdr := hdr, line := 0, entries := 0, cursors := List.replicate 16 0, flags := 0, begun := false, done := none }
  let enter := fun (t : State) (m : MergeRun) => (t.modRing ring (fun r => { r with mergeQ := rest, mergeRun := some m })).endRun ring
  let reject := fun (t : State) (st : Nat) (detail : Nat) =>
    enter t { start with done := some { status := st, flags := 0, rows := 0, detail := BitVec.ofNat 64 detail } }
  match firstBad (mergeConds c hdr bad) with
  | some a => reject s 9 a
  | none =>
    if !c.resume then enter s start
    else match s.mergeBlock (runPart ring 1) c (c.dword 6) 192 with
      | .wait t => t
      | .ok t _ (some _) => reject t 10 (c.dword 6)
      | .ok t r none =>
        if badSpill c start.nmaj r then reject t 10 (c.dword 6)
        else enter t { start with
          line := blockDword r 3, entries := blockDword r 4, cursors := (List.range 16).map (fun i => blockDword r (8 + i)),
          flags := BitVec.ofNat 3 (blockDword r 5) }

/-- `MERGE_COMMAND_START`: the next command starts once its header has been read. (DEDUCED: log entry 61) -/
def execMergeCommandStart (ring : Nat) (s : State) : Out :=
  if !ringExists ring then .fault .noSuchUnit
  else match (s.ring ring).mergeRun, (s.ring ring).mergeQ with
    | none, c :: rest => match s.mergeHeader ring c with
      | .wait t => .next t
      | .ok t hdr bad => .next (t.startCommand ring c rest hdr bad)
    | _, _ => s.noEvent

/-! ### Reading a line (R245, R250) -/

/-- A tuple of a stream: its minor coordinate, value with poison, stream and position. -/
structure Tuple where
  minor : Nat
  value : PVal
  stream : Nat
  pos : Nat
  deriving DecidableEq, Repr

/-- A stop condition at the current line: its place in the table of R250, its status, and the detail it reports. -/
structure StopCond where
  order : Nat
  status : Nat
  detail : Nat
  deriving DecidableEq, Repr

/-- What a stream gives at a line: its tuples there, the cursor past them, and the stop conditions it meets; or it waits. -/
structure Scan where
  state : State
  tuples : List Tuple
  cursor : Nat
  stops : List StopCond
  wait : Bool

/-- The detail that names a tuple. -/
def tupleDetail (stream pos : Nat) : Nat := stream * 2 ^ 60 + pos

/-- The conditions of a tuple that count at the current line (R250), with the key before it. -/
def MergeRun.tupleStops (m : MergeRun) (n pos k : Nat) (prev : Option Nat) : List StopCond :=
  (if prev.any (fun p => k < p && p / 2 ^ 32 ≤ m.line) then [⟨2, 5, tupleDetail n pos⟩] else []) ++
  (if min (k / 2 ^ 32) m.nmaj ≤ m.line && (m.nmaj ≤ k / 2 ^ 32 || m.nmin ≤ k % 2 ^ 32) then [⟨3, 6, tupleDetail n pos⟩] else [])

/-- Scan stream `n` from a position, at most `fuel` tuples, for those of the current line; `prev` is the key before. Each condition of
the line counts, and the scan ends past the line, at a key out of order below it, and at a tuple that cannot be read. (DEDUCED: log entry 60) -/
def MergeRun.scan (m : MergeRun) (ring n : Nat) : Nat → State → Nat → Option Nat → List Tuple → List StopCond → Scan
  | 0, s, pos, _, acc, sc => { state := s, tuples := acc, cursor := pos, stops := sc, wait := false }
  | fuel + 1, s, pos, prev, acc, sc =>
    let ends := fun (t : State) (x : List StopCond) (w : Bool) =>
      ({ state := t, tuples := acc, cursor := pos, stops := sc ++ x, wait := w } : Scan)
    match s.engineRead (tuplePart ring n pos) m.cmd.agent [] true (m.cmd.streamAt n + 16 * pos) 16 with
    | .wait t => ends t [] true
    | .fault t _ f _ => ends t [⟨0, 8, f⟩] false
    | .ok t ws =>
      let k := blockDword ws 0
      let maj := k / 2 ^ 32
      if blockPoison ws 0 then ends t [⟨1, 7, tupleDetail n pos⟩] false
      else
        let x := m.tupleStops n pos k prev
        if m.line < maj || (maj < m.line && prev.any (fun p => k < p)) then ends t x false
        else
          let acc1 := if maj = m.line then acc ++ [{ minor := k % 2 ^ 32, value := lget (PVal.clean 0) ws 1, stream := n, pos := pos }] else acc
          m.scan ring n fuel t (pos + 1) (some k) acc1 (sc ++ x)

/-- The key before a cursor, where it can be read; and the state, which waits. -/
def State.keyBefore (s : State) (ring : Nat) (m : MergeRun) (n pos : Nat) : State × Option Nat × Bool :=
  if pos = 0 then (s, none, false)
  else match s.engineRead (keyPart ring n) m.cmd.agent [] true (m.cmd.streamAt n + 16 * (pos - 1)) 8 with
    | .ok t ws => (t, if blockPoison ws 0 then none else some (blockDword ws 0), false)
    | .fault t _ _ _ => (t, none, false)
    | .wait t => (t, none, true)

/-- Scan the streams of a list, up to one that waits. -/
def MergeRun.scanAll (m : MergeRun) (ring : Nat) : List Nat → State → State × List Scan
  | [], s => (s, [])
  | n :: r, s =>
    let cur := lget 0 m.cursors n
    let (s1, prev, wait) := s.keyBefore ring m n cur
    let sc := if wait then { state := s1, tuples := [], cursor := cur, stops := [], wait := true }
      else m.scan ring n (m.cmd.streamLen n - cur) s1 cur prev [] []
    if sc.wait then (sc.state, [sc])
    else
      let (t, rest) := m.scanAll ring r sc.state
      (t, sc :: rest)

/-- The stop condition that decides: the earliest of the table, by stream. -/
def firstStop : List StopCond → Option StopCond
  | [] => none
  | a :: r => match firstStop r with
    | none => some a
    | some b => if b.order < a.order || (a.order = 0 && b.order = 0 && b.detail < a.detail) then some b else some a

/-! ### Folding (R249) -/

/-- An entry of a line: its minor index, value bits with poison, flags, and the tuple it begins with. -/
structure OutEntry where
  minor : Nat
  bits : Nat
  poison : Bool
  flags : BitVec 3
  first : Tuple
  deriving DecidableEq, Repr

/-- `Widen`: a value in the output type. -/
def widen (vin : Nat) (w : Word) : Nat :=
  if vin = 0 then w.toNat else if vin = 1 then w.toNat % 2 ^ 32 else w.toNat % 2 ^ 16 * 2 ^ 16

/-- Fold the values after the first into an accumulator, each sum rounded RNE (R40), with the overflows. -/
def foldValues (t : Ty) (acc : Nat) (exceeds : Bool) : List Nat → Nat × Bool
  | [] => (acc, exceeds)
  | v :: r =>
    let q := fpAdd false t .rne (unpack t acc) (unpack t v)
    foldValues t q.1 (exceeds || q.2 &&& fOF != 0) r

/-- The entry of the tuples of one minor index, in order of stream and position. The sums before the first poisoned value are made all
the same. -/
def MergeCmd.entry (c : MergeCmd) (first : Tuple) (rest : List Tuple) : OutEntry :=
  let values := (first :: rest).map (·.value)
  let fold := fun (l : List PVal) => match l with
    | [] => ((0 : Nat), false)
    | a :: r => foldValues c.ty (widen c.vin a.val) false (r.map (fun (x : PVal) => widen c.vin x.val))
  let (v, exceeds) := fold (values.takeWhile (fun x => !x.poison))
  if values.any (·.poison) then
    { minor := first.minor, bits := 0, poison := true, flags := 4 ||| (if exceeds then 1 else 0), first := first }
  else
    let nan := (unpack c.ty v).isNan
    { minor := first.minor, bits := if nan then canonNaN c.ty else v, poison := false,
      flags := (if nan then 2 else 0) ||| (if exceeds then 1 else 0), first := first }

/-- Whether a sum of an entry is a zero that `DROPZ` drops. -/
def MergeCmd.drops (c : MergeCmd) (e : OutEntry) : Bool := c.dropz && !e.poison && e.bits % 2 ^ (c.ty.width - 1) = 0

/-- The minor indices of a list of tuples, ascending. -/
def minors (ts : List Tuple) : List Nat := ts.foldl (fun l t => sins t.minor l) []

/-- The entries of a line. -/
def MergeCmd.entriesOf (c : MergeCmd) (ts : List Tuple) : List OutEntry :=
  ((minors ts).filterMap (fun k => match ts.filter (fun t => t.minor = k) with
    | a :: r => some (c.entry a r)
    | [] => none)).filter (fun e => !c.drops e)

/-! ### Writing -/

/-- A write of the network: address, bytes, value, poison. -/
structure MergeWrite where
  va : Nat
  n : Nat
  val : Nat
  poison : Bool
  deriving DecidableEq, Repr

/-- The bytes of a write. -/
def MergeWrite.bytes (w : MergeWrite) : List Byte := natToBytes w.n w.val

/-- The writes of a stop are numbered from here, apart from those of a line. -/
abbrev stopWrites : Nat := 2 ^ 45

/-- What a list of writes has come to: it waits; or each write with its places or its lowest faulting byte. -/
inductive Tried where
  | wait (s : State)
  | ok (s : State) (l : List (MergeWrite × Except Nat (List Place)))

/-- What one write has come to. -/
inductive TriedOne where
  | wait (s : State)
  | ok (s : State) (r : Except Nat (List Place))

/-- Translate a write and hold its acceptances before anything performs (R338). Poison does not leave the package (R148). (DESIGN CHOICE: log entry 139) -/
def State.tryWrite (s : State) (who : Who) (ag : Agent) (w : MergeWrite) : TriedOne :=
  let x := s.places ag (s.heldPins who) kStore w.va w.n
  let asked := fun (r : Reached) (fin : State → List Place → TriedOne) => match r with
    | .wait u => TriedOne.wait u
    | .refused u i c t la => .ok (u.fabLog who.pkg c t la) (.error ((w.va + i) % 2 ^ 64))
    | .ok u ps _ => fin u ps
  match x.ans with
  | .error f => asked (x.st.askedBelow who ag.ctx kStore 0 x f) (fun u _ => .ok u (.error f.addr))
  | .ok ps =>
    if w.poison && egress ps then .ok x.st (.error w.va)
    else asked (x.st.asked who ag.ctx kStore 0 x.pins ps) (fun u _ => .ok u (.ok ps))

/-- Try the writes of a step, numbered from `i`. -/
def State.tryWrites (s : State) (ring : Nat) (ag : Agent) : Nat → List MergeWrite → Tried
  | _, [] => .ok s []
  | i, w :: r => match s.tryWrite (writePart ring i) ag w with
    | .wait t => .wait t
    | .ok t x => match t.tryWrites ring ag (i + 1) r with
      | .wait u => .wait u
      | .ok u l => .ok u ((w, x) :: l)

/-- The lowest faulting byte of the writes tried. -/
def lowestWriteFault (l : List (MergeWrite × Except Nat (List Place))) : Option Nat :=
  match l.filterMap (fun e => match e.2 with
    | .error a => some a
    | .ok _ => none) with
  | [] => none
  | a :: r => some (r.foldl min a)

/-- Send the bytes of the writes that lie in other packages: `none` once all of them have performed. -/
def State.sendWrites (s : State) (ring : Nat) (ag : Agent) : Nat → List (MergeWrite × Except Nat (List Place)) → State × Bool
  | _, [] => (s, true)
  | i, (w, x) :: r => match x with
    | .error _ => s.sendWrites ring ag (i + 1) r
    | .ok ps => match s.reach (writePart ring i) ag.ctx kStore 0 (s.heldPins (writePart ring i)) true ps w.bytes 0 with
      | .wait u => (u, false)
      | .refused u _ _ _ _ => u.sendWrites ring ag (i + 1) r
      | .ok u _ _ => u.sendWrites ring ag (i + 1) r

/-- Write the local bytes of the writes that can be made. -/
def State.putWrites (s : State) (l : List (MergeWrite × Except Nat (List Place))) : State :=
  l.foldl (fun t e => match e.2 with
    | .ok ps => t.enginePut ps e.1.bytes e.1.poison
    | .error _ => t) s

/-- Perform the writes that can be made, and go on once they have performed; what the step had under way ends. -/
def State.performWrites (s : State) (ring base : Nat) (ag : Agent) (l : List (MergeWrite × Except Nat (List Place))) (k : State → State) : State :=
  match s.sendWrites ring ag base l with
  | (u, false) => u
  | (u, true) => k ((u.putWrites l).endRun ring)

/-- The write of a pointer (R246). -/
def MergeRun.ptrWrite (m : MergeRun) (r z : Nat) : MergeWrite :=
  let n := if m.widePtr then 8 else 4
  { va := m.h 3 + (r - m.cmd.dword 4) * n, n := n, val := z, poison := false }

/-- The writes of an entry: its index, unpoisoned, and its value. -/
def MergeRun.entryWrites (m : MergeRun) (z : Nat) (e : OutEntry) : List MergeWrite :=
  let slot := z - m.cmd.dword 5
  let ib := if m.wideIndex then 4 else 2
  let vb := if m.cmd.vin = 0 then 8 else 4
  [{ va := m.h 4 + slot * ib, n := ib, val := e.minor, poison := false },
   { va := m.h 5 + slot * vb, n := vb, val := e.bits, poison := e.poison }]

/-- The write of `NNZ`. -/
def MergeRun.nnzWrite (m : MergeRun) : MergeWrite := { va := m.cmd.dword 2 + 16, n := 8, val := m.entries, poison := false }

/-- The writes of the spill record (R252). -/
def MergeRun.spill (m : MergeRun) (status : Nat) : List MergeWrite :=
  let ws := [status * 2 ^ 56 + 2 ^ 48 + m.cmd.ns * 2 ^ 40, m.cmd.dword 1, m.line * 2 ^ 32, m.line, m.entries, m.flags.toNat, 0, 0] ++
    (List.range 16).map (fun i => if i < m.cmd.ns then lget 0 m.cursors i else 0)
  (ws.zipIdx).map (fun w => { va := m.cmd.dword 6 + 8 * w.2, n := 8, val := w.1, poison := false })

/-- End a command. -/
def State.mergeDone (s : State) (ring : Nat) (m : MergeRun) (status rows detail : Nat) : State :=
  s.modRing ring (fun r => { r with mergeRun := some { m with
    done := some { status := status, flags := m.flags, rows := rows, detail := BitVec.ofNat 64 detail } } })

/-- A command stops at its line (R251): `NNZ`, the spill record, and the status; a write of the stop that faults is left
undone and makes the status `FAULT`. -/
def State.mergeStop (s : State) (ring : Nat) (m : MergeRun) (status detail : Nat) : State :=
  let ag := m.cmd.agent
  match s.tryWrites ring ag stopWrites (m.nnzWrite :: m.spill status) with
  | .wait t => t
  | .ok t l =>
    let (st, d) := match lowestWriteFault l with
      | none => (status, detail)
      | some f => (8, if status = 8 then min f detail else f)
    let l1 := (l.zip (m.nnzWrite :: m.spill st)).map (fun e => (e.2, e.1.2))
    t.performWrites ring stopWrites ag l1 (fun u => u.mergeDone ring m st m.line d)

/-! ### Running (R249) -/

/-- The stop conditions of the entries and pointers of a line, after those of its tuples. (DESIGN CHOICE: log entry 141) -/
def MergeRun.entryStops (m : MergeRun) (es : List OutEntry) : List StopCond :=
  let z := m.entries + es.length
  (match es.find? (fun e => !m.wideIndex && 2 ^ 16 ≤ e.minor) with
   | some e => [⟨4, 4, tupleDetail e.first.stream e.first.pos⟩]
   | none => []) ++
  (if !m.widePtr && 2 ^ 32 ≤ z then [⟨5, 3, m.entries⟩] else []) ++
  (if !es.isEmpty && m.cmd.dword 3 < z - m.cmd.dword 5 then [⟨6, 2, m.entries⟩] else [])

/-- The writes of a line: its entries and the pointer after it. -/
def MergeRun.lineWrites (m : MergeRun) (es : List OutEntry) : List MergeWrite :=
  ((es.zipIdx).flatMap (fun e => m.entryWrites (m.entries + e.2) e.1)) ++ [m.ptrWrite (m.line + 1) (m.entries + es.length)]

/-- The entries of a line that are written before a stop condition of one of them: neither their index nor their slot is too large. -/
def MergeRun.writable (m : MergeRun) (es : List OutEntry) : List OutEntry :=
  (es.zipIdx.takeWhile (fun e => (m.wideIndex || e.1.minor < 2 ^ 16) && m.entries + e.2 < m.cmd.dword 5 + m.cmd.dword 3)).map (·.1)

/-- The writes that a line needs: of its entries as far as they can be written, and of the pointer after them where nothing stops it. -/
def MergeRun.needed (m : MergeRun) (es : List OutEntry) (stops : List StopCond) : List MergeWrite :=
  if stops.isEmpty then m.lineWrites es else ((m.writable es).zipIdx).flatMap (fun e => m.entryWrites (m.entries + e.2) e.1)

/-- The line that follows. -/
def MergeRun.after (m : MergeRun) (es : List OutEntry) (scans : List Scan) : MergeRun :=
  { m with
    line := m.line + 1, entries := m.entries + es.length,
    cursors := scans.map (·.cursor) ++ List.replicate (16 - scans.length) 0,
    flags := es.foldl (fun a e => a ||| e.flags) m.flags }

/-- One line of a command, the first pointer written; `extra` are conditions of that pointer, which count at the line too. (DEDUCED: log entry 60) -/
def State.mergeLine (s : State) (ring : Nat) (m : MergeRun) (extra : List StopCond) : State :=
  let (s1, scans) := m.scanAll ring (List.range m.cmd.ns) s
  if scans.any (·.wait) then s1
  else
    let ag := m.cmd.agent
    let stops := scans.flatMap (·.stops)
    let es := if m.nmaj ≤ m.line then [] else m.cmd.entriesOf (scans.flatMap (·.tuples))
    let own := if m.nmaj ≤ m.line then extra else m.entryStops es ++ extra
    let last := m.nmaj ≤ m.line
    match firstStop stops with
    | some c => s1.mergeStop ring m c.status c.detail
    | none =>
      match s1.tryWrites ring ag 0 (if !extra.isEmpty then [] else if last then [m.nnzWrite] else m.needed es own) with
      | .wait t => t
      | .ok t l =>
        match firstStop (((lowestWriteFault l).map (fun f => (⟨0, 8, f⟩ : StopCond))).toList ++ own) with
        | some c => t.mergeStop ring m c.status c.detail
        | none => t.performWrites ring 0 ag l (fun u =>
            if last then u.mergeDone ring m 1 m.nmaj m.entries
            else u.modRing ring (fun r => { r with mergeRun := some (m.after es scans) }))

/-- The first pointer of a command. (DEDUCED: log entry 60) -/
def State.mergeFirst (s : State) (ring : Nat) (m : MergeRun) : State :=
  if !m.widePtr && 2 ^ 32 ≤ m.entries then s.mergeLine ring m [⟨5, 3, m.entries⟩]
  else match s.tryWrites ring m.cmd.agent 0 [m.ptrWrite m.line m.entries] with
    | .wait t => t
    | .ok t l => match lowestWriteFault l with
      | some f => t.mergeStop ring m 8 f
      | none => t.performWrites ring 0 m.cmd.agent l (fun u => u.modRing ring (fun r => { r with mergeRun := some { m with begun := true } }))

/-- `MERGE_RUN`: the first pointer of a command, then a line at a time. (DEDUCED: log entry 60) -/
def execMergeRun (ring : Nat) (s : State) : Out :=
  if !ringExists ring then .fault .noSuchUnit
  else match (s.ring ring).mergeRun with
    | none => s.noEvent
    | some m =>
      if m.done.isSome then s.noEvent
      else .next (if m.begun then s.mergeLine ring m [] else s.mergeFirst ring m)

/-! ### The mailbox (R254) -/

/-- The bytes of a mailbox record. -/
def MergeEnd.record (e : MergeEnd) (tag : Nat) : Nat :=
  e.status * 2 ^ 56 + e.flags.toNat * 2 ^ 48 + tag * 2 ^ 32 + e.rows % 2 ^ 32 + e.detail.toNat * 2 ^ 64

/-- `MERGE_MAILBOX`: an ended command writes its mailbox as one store-release, or `MACHINE_CHECK` is raised for it. (DEDUCED: log entry 62) -/
def execMergeMailbox (ring : Nat) (s : State) : Out :=
  if !ringExists ring then .fault .noSuchUnit
  else match (s.ring ring).mergeRun.bind (fun m => m.done.map (fun e => (m, e))) with
    | none => s.noEvent
    | some (m, e) =>
      let c := m.cmd
      let s0 := s.modRing ring (fun r => { r with mergeRun := none })
      let unread := c.block.isEmpty || c.poisoned 7
      let check := fun (bit : Nat) => s0.raise ring c.ctx cMachineCheck (BitVec.ofNat 64 c.addr) (BitVec.ofNat 64 (e.status + bit))
      if !unread && c.dword 7 = 0 then .next (if e.status = 1 then s0 else check 0)
      else if unread || c.dword 7 % 16 != 0 then .next (check 256)
      else
        let w : MergeWrite := { va := c.dword 7, n := 16, val := e.record (c.dword 0 / 2 ^ 48), poison := false }
        match s.tryWrites ring c.agent 0 [w] with
        | .wait t => .next t
        | .ok t l =>
          let gone := fun (u : State) => (u.modRing ring (fun r => { r with mergeRun := none })).endRun ring
          match lowestWriteFault l with
          | some _ => .next ((gone t).raise ring c.ctx cMachineCheck (BitVec.ofNat 64 c.addr) (BitVec.ofNat 64 (e.status + 256)))
          | none => .next (t.performWrites ring 0 c.agent l (fun u => (gone u).latchCore c.core))

end Sys2Proof.Machine
end

