-- ==== Sys2Proof/Machine/ScalarFp.lean ====
section
/-! DEFINITION. Scalar floating point (R79 to R82). -/

namespace Sys2Proof.Machine

/-- A scalar value of a type in the low bits of a register (R79). -/
abbrev fpBits (t : Ty) (w : Word) : Nat := w.toNat % 2 ^ t.width

/-- An operand as the operation reads it, under `FTZ` (R30). -/
abbrev fpArg (h : Hart) (t : Ty) (p : PVal) : FVal := readF h.ftz t (fpBits t p.val)

/-- A floating-point instruction: poison travels and raises nothing (R68), the update of a reduction register combines
(R206), else the result is computed and its flags raised. -/
def State.fpOp (s : State) (i : Instr) (d : Reg) (srcs : List PVal) (other : PVal) (r : Nat × Flags) : State :=
  s.scalar i (fun t => match t.updateOf t.cur i with
    | some (x, op) => (t.combine x op other).advance
    | none => if srcs.any (·.poison) then t.result d PVal.poisoned else t.fpResult d (BitVec.ofNat 64 r.1) r.2)

/-- `fadd` (R80). -/
def execFadd (d a b : Reg) (rm : Rm) (ty : Ty) (s : State) : Out :=
  let h := s.me
  let x := s.getX a
  let y := s.getX b
  .next (s.fpOp (.fadd d a b rm ty) d [x, y] y (fpAdd h.ftz ty (h.rounding rm) (fpArg h ty x) (fpArg h ty y)))

/-- `fsub` (R80). -/
def execFsub (d a b : Reg) (rm : Rm) (ty : Ty) (s : State) : Out :=
  let h := s.me
  let x := s.getX a
  let y := s.getX b
  .next (s.fpOp (.fsub d a b rm ty) d [x, y] y (fpAdd h.ftz ty (h.rounding rm) (fpArg h ty x) (fpArg h ty y).negate))

/-- `fmul` (R80). -/
def execFmul (d a b : Reg) (rm : Rm) (ty : Ty) (s : State) : Out :=
  let h := s.me
  let x := s.getX a
  let y := s.getX b
  .next (s.fpOp (.fmul d a b rm ty) d [x, y] y (fpMul h.ftz ty (h.rounding rm) (fpArg h ty x) (fpArg h ty y)))

/-- `fdiv` (R80). -/
def execFdiv (d a b : Reg) (rm : Rm) (ty : Ty) (s : State) : Out :=
  let h := s.me
  let x := s.getX a
  let y := s.getX b
  .next (s.fpOp (.fdiv d a b rm ty) d [x, y] y (fpDiv h.ftz ty (h.rounding rm) (fpArg h ty x) (fpArg h ty y)))

/-- `ffma`: a × b + xd with one rounding (R80). -/
def execFfma (d a b : Reg) (rm : Rm) (ty : Ty) (s : State) : Out :=
  let h := s.me
  let x := s.getX a
  let y := s.getX b
  let z := s.getX d
  .next (s.fpOp (.ffma d a b rm ty) d [x, y, z] y
    (fpFma h.ftz ty (h.rounding rm) (fpArg h ty x) (fpArg h ty y) (fpArg h ty z)))

/-- `fsqrt` (R80). -/
def execFsqrt (d a : Reg) (rm : Rm) (ty : Ty) (s : State) : Out :=
  let h := s.me
  let x := s.getX a
  .next (s.fpOp (.fsqrt d a rm ty) d [x] x (fpSqrt h.ftz ty (h.rounding rm) (fpArg h ty x)))

/-- `fcmp` (R81): 1 or 0. -/
def execFcmp (d a b : Reg) (pred : FPred) (ty : Ty) (s : State) : Out :=
  let h := s.me
  let x := s.getX a
  let y := s.getX b
  let r := fpCompare pred.code.toNat (fpArg h ty x) (fpArg h ty y)
  .next (s.fpOp (.fcmp d a b pred ty) d [x, y] y (if r.1 then 1 else 0, r.2))

/-- The register value of a converted element: `.s32` is sign-extended, every other type zero-extended (R79). -/
def fcvtWord (ty : Ty) (bits : Nat) : Word :=
  if ty == .s32 then BitVec.ofInt 64 (intOf true 32 bits) else BitVec.ofNat 64 bits

/-- `fcvt` (R82). -/
def execFcvt (d a : Reg) (src : Ty) (rm : Rm) (ty : Ty) (s : State) : Out :=
  let h := s.me
  let x := s.getX a
  let r := convert h.ftz ty src (.mode (h.rounding rm)) false (fpBits src x.val)
  .next (s.fpOp (.fcvt d a src rm ty) d [x] x ((fcvtWord ty r.bits).toNat, r.flags))

end Sys2Proof.Machine
end

