-- ==== Sys2Proof/Machine/ScalarInt.lean ====
section
/-! DEFINITION. The integer instructions: register-register (R70, R71), bit counts, immediates (R72), branches and jumps
(R73, R74). One definition for each instruction, over the shared forms of Operands. -/

namespace Sys2Proof.Machine

/-! ### The functions (R70, R71) -/

/-- Shift amounts are the low six bits (R70). -/
abbrev shamt (b : Word) : Nat := b.toNat % 64
/-- `div`: toward zero; -1 by zero; -2^63 by -1 is -2^63 (R71). -/
def divS (a b : Word) : Word :=
  if b = 0 then BitVec.allOnes 64 else BitVec.ofInt 64 (a.toInt.tdiv b.toInt)
/-- `divu` (R71). -/
def divU (a b : Word) : Word := if b = 0 then BitVec.allOnes 64 else BitVec.ofNat 64 (a.toNat / b.toNat)
/-- `rem`: the sign of the dividend; the dividend by zero (R71). -/
def remS (a b : Word) : Word := if b = 0 then a else BitVec.ofInt 64 (a.toInt.tmod b.toInt)
/-- `remu` (R71). -/
def remU (a b : Word) : Word := if b = 0 then a else BitVec.ofNat 64 (a.toNat % b.toNat)
/-- Leading zero bits; 64 for zero. -/
def clzOf (a : Word) : Nat := 64 - bitLen a.toNat
/-- Trailing zero bits from a position up, `fuel` positions. -/
def ctzFrom (a : Word) : Nat → Nat → Nat
  | 0, i => i
  | f + 1, i => if a.getLsbD i then i else ctzFrom a f (i + 1)
/-- Trailing zero bits; 64 for zero. -/
def ctzOf (a : Word) : Nat := ctzFrom a 64 0
/-- The number of one bits. -/
def popOf (a : Word) : Nat := ((List.range 64).filter a.getLsbD).length

/-! ### Register-register (R70) -/

/-- `add`: a + b (R70). -/
def execAdd (d a b : Reg) (s : State) : Out := .next (s.aluRR (.add d a b) d a b (fun x y => x + y))

/-- `sub`: a - b (R70). -/
def execSub (d a b : Reg) (s : State) : Out := .next (s.aluRR (.sub d a b) d a b (fun x y => x - y))

/-- `and`: bitwise and (R70). -/
def execAnd (d a b : Reg) (s : State) : Out := .next (s.aluRR (.and d a b) d a b (fun x y => x &&& y))

/-- `or`: bitwise or (R70). -/
def execOr (d a b : Reg) (s : State) : Out := .next (s.aluRR (.or d a b) d a b (fun x y => x ||| y))

/-- `xor`: bitwise exclusive or (R70). -/
def execXor (d a b : Reg) (s : State) : Out := .next (s.aluRR (.xor d a b) d a b (fun x y => x ^^^ y))

/-- `sll`: a shifted left by b[5:0] (R70). -/
def execSll (d a b : Reg) (s : State) : Out := .next (s.aluRR (.sll d a b) d a b (fun x y => x <<< shamt y))

/-- `srl`: a shifted right logically by b[5:0] (R70). -/
def execSrl (d a b : Reg) (s : State) : Out := .next (s.aluRR (.srl d a b) d a b (fun x y => x >>> shamt y))

/-- `sra`: a shifted right arithmetically by b[5:0] (R70). -/
def execSra (d a b : Reg) (s : State) : Out := .next (s.aluRR (.sra d a b) d a b (fun x y => x.sshiftRight (shamt y)))

/-- `slt`: 1 if a < b signed (R70). -/
def execSlt (d a b : Reg) (s : State) : Out := .next (s.aluRR (.slt d a b) d a b (fun x y => boolWord (x.slt y)))

/-- `sltu`: 1 if a < b unsigned (R70). -/
def execSltu (d a b : Reg) (s : State) : Out := .next (s.aluRR (.sltu d a b) d a b (fun x y => boolWord (x.ult y)))

/-- `mul`: bits 63:0 of the product (R70). -/
def execMul (d a b : Reg) (s : State) : Out := .next (s.aluRR (.mul d a b) d a b (fun x y => x * y))

/-- `mulh`: bits 127:64 of the signed product (R70). -/
def execMulh (d a b : Reg) (s : State) : Out := .next (s.aluRR (.mulh d a b) d a b (fun x y => BitVec.ofInt 64 (x.toInt * y.toInt / 2 ^ 64)))

/-- `mulhu`: bits 127:64 of the unsigned product (R70). -/
def execMulhu (d a b : Reg) (s : State) : Out := .next (s.aluRR (.mulhu d a b) d a b (fun x y => BitVec.ofNat 64 (x.toNat * y.toNat / 2 ^ 64)))

/-- `div`: signed quotient (R71) (R70). -/
def execDiv (d a b : Reg) (s : State) : Out := .next (s.aluRR (.div d a b) d a b (fun x y => divS x y))

/-- `divu`: unsigned quotient (R71) (R70). -/
def execDivu (d a b : Reg) (s : State) : Out := .next (s.aluRR (.divu d a b) d a b (fun x y => divU x y))

/-- `rem`: signed remainder (R71) (R70). -/
def execRem (d a b : Reg) (s : State) : Out := .next (s.aluRR (.rem d a b) d a b (fun x y => remS x y))

/-- `remu`: unsigned remainder (R71) (R70). -/
def execRemu (d a b : Reg) (s : State) : Out := .next (s.aluRR (.remu d a b) d a b (fun x y => remU x y))

/-- `min`: signed minimum (R70). -/
def execMin (d a b : Reg) (s : State) : Out := .next (s.aluRR (.min d a b) d a b (fun x y => if x.toInt ≤ y.toInt then x else y))

/-- `max`: signed maximum (R70). -/
def execMax (d a b : Reg) (s : State) : Out := .next (s.aluRR (.max d a b) d a b (fun x y => if x.toInt ≤ y.toInt then y else x))

/-- `minu`: unsigned minimum (R70). -/
def execMinu (d a b : Reg) (s : State) : Out := .next (s.aluRR (.minu d a b) d a b (fun x y => if x.toNat ≤ y.toNat then x else y))

/-- `maxu`: unsigned maximum (R70). -/
def execMaxu (d a b : Reg) (s : State) : Out := .next (s.aluRR (.maxu d a b) d a b (fun x y => if x.toNat ≤ y.toNat then y else x))

/-- `clz`: leading zero bits (R70). -/
def execClz (d a : Reg) (s : State) : Out :=
  .next (s.alu (.clz d a) d [s.getX a] (s.getX a) (BitVec.ofNat 64 (clzOf (s.getX a).val)))

/-- `ctz`: trailing zero bits (R70). -/
def execCtz (d a : Reg) (s : State) : Out :=
  .next (s.alu (.ctz d a) d [s.getX a] (s.getX a) (BitVec.ofNat 64 (ctzOf (s.getX a).val)))

/-- `popc`: one bits (R70). -/
def execPopc (d a : Reg) (s : State) : Out :=
  .next (s.alu (.popc d a) d [s.getX a] (s.getX a) (BitVec.ofNat 64 (popOf (s.getX a).val)))

/-! ### Immediates (R72) -/

/-- `addi`: sum with the sign-extended immediate (R72). -/
def execAddi (d a : Reg) (imm : BitVec 16) (s : State) : Out :=
  .next (s.aluRI (.addi d a imm) d a (sext imm) (fun x y => x + y))

/-- `andi`: and with the zero-extended immediate (R72). -/
def execAndi (d a : Reg) (imm : BitVec 16) (s : State) : Out :=
  .next (s.aluRI (.andi d a imm) d a (zext imm) (fun x y => x &&& y))

/-- `ori`: or with the zero-extended immediate (R72). -/
def execOri (d a : Reg) (imm : BitVec 16) (s : State) : Out :=
  .next (s.aluRI (.ori d a imm) d a (zext imm) (fun x y => x ||| y))

/-- `xori`: exclusive or with the zero-extended immediate (R72). -/
def execXori (d a : Reg) (imm : BitVec 16) (s : State) : Out :=
  .next (s.aluRI (.xori d a imm) d a (zext imm) (fun x y => x ^^^ y))

/-- `slti`: 1 if below the sign-extended immediate, signed (R72). -/
def execSlti (d a : Reg) (imm : BitVec 16) (s : State) : Out :=
  .next (s.aluRI (.slti d a imm) d a (sext imm) (fun x y => boolWord (x.slt y)))

/-- `slli` (R72). -/
def execSlli (d a : Reg) (sh : BitVec 6) (s : State) : Out :=
  .next (s.aluRI (.slli d a sh) d a (zext sh) (fun x y => x <<< shamt y))

/-- `srli` (R72). -/
def execSrli (d a : Reg) (sh : BitVec 6) (s : State) : Out :=
  .next (s.aluRI (.srli d a sh) d a (zext sh) (fun x y => x >>> shamt y))

/-- `srai` (R72). -/
def execSrai (d a : Reg) (sh : BitVec 6) (s : State) : Out :=
  .next (s.aluRI (.srai d a sh) d a (zext sh) (fun x y => x.sshiftRight (shamt y)))

/-- `lui`: the immediate times 2^16 (R72). -/
def execLui (d : Reg) (imm : BitVec 21) (s : State) : Out :=
  .next (s.alu (.lui d imm) d [] (PVal.clean 0) (sext imm <<< 16))

/-- `auipc`: the instruction's own address plus the immediate times 2^16 (R72). -/
def execAuipc (d : Reg) (imm : BitVec 21) (s : State) : Out :=
  .next (s.alu (.auipc d imm) d [] (PVal.clean 0) (s.me.pc + sext imm <<< 16))

/-! ### Branches and jumps (R73, R74) -/

/-- `beq` (R73). -/
def execBeq (a b : Reg) (imm : BitVec 13) (s : State) : Out :=
  .next (s.branch (.beq a b imm) a b imm (fun x y => x == y))

/-- `bne` (R73). -/
def execBne (a b : Reg) (imm : BitVec 13) (s : State) : Out :=
  .next (s.branch (.bne a b imm) a b imm (fun x y => x != y))

/-- `blt` (R73). -/
def execBlt (a b : Reg) (imm : BitVec 13) (s : State) : Out :=
  .next (s.branch (.blt a b imm) a b imm (fun x y => x.slt y))

/-- `bge` (R73). -/
def execBge (a b : Reg) (imm : BitVec 13) (s : State) : Out :=
  .next (s.branch (.bge a b imm) a b imm (fun x y => !(x.slt y)))

/-- `bltu` (R73). -/
def execBltu (a b : Reg) (imm : BitVec 13) (s : State) : Out :=
  .next (s.branch (.bltu a b imm) a b imm (fun x y => x.ult y))

/-- `bgeu` (R73). -/
def execBgeu (a b : Reg) (imm : BitVec 13) (s : State) : Out :=
  .next (s.branch (.bgeu a b imm) a b imm (fun x y => !(x.ult y)))

/-- `jal`: the target is pc + imm21 × 4 (R74). -/
def execJal (d : Reg) (imm : BitVec 21) (s : State) : Out :=
  .next (s.scalar (.jal d imm) (fun t =>
    let pc := t.me.pc
    t.goto (pc + sext imm * 4) (fun u =>
      (u.setX d (PVal.clean (pc + 4))).modMe (fun h => { h with pc := pc + sext imm * 4 }))))

/-- `jalr`: the target comes from the old value of `xa` (R74). -/
def execJalr (d a : Reg) (imm : BitVec 16) (s : State) : Out :=
  .next (s.scalar (.jalr d a imm) (fun t => t.consume (t.getX a) 2 (fun base =>
    t.goto (base + sext imm) (fun u =>
      (u.setX d (PVal.clean (t.me.pc + 4))).modMe (fun h => { h with pc := base + sext imm })))))

end Sys2Proof.Machine
end

