-- ==== Sys2Proof/Machine/ScalarMem.lean ====
section
/-! DEFINITION. Scalar loads and stores (R75 to R77) and atomics (R78). -/

namespace Sys2Proof.Machine

/-- `lb`: 1 byte, sign-extended (R75). -/
def execLb (d a : Reg) (imm : BitVec 13) (s : State) : Out :=
  .next (s.loadInstr (.lb d a imm) d a imm 1 true)

/-- `lh`: 2 bytes, sign-extended (R75). -/
def execLh (d a : Reg) (imm : BitVec 13) (s : State) : Out :=
  .next (s.loadInstr (.lh d a imm) d a imm 2 true)

/-- `lw`: 4 bytes, sign-extended (R75). -/
def execLw (d a : Reg) (imm : BitVec 13) (s : State) : Out :=
  .next (s.loadInstr (.lw d a imm) d a imm 4 true)

/-- `ld`: 8 bytes (R75). -/
def execLd (d a : Reg) (imm : BitVec 13) (s : State) : Out :=
  .next (s.loadInstr (.ld d a imm) d a imm 8 false)

/-- `lbu`: 1 byte, zero-extended (R75). -/
def execLbu (d a : Reg) (imm : BitVec 13) (s : State) : Out :=
  .next (s.loadInstr (.lbu d a imm) d a imm 1 false)

/-- `lhu`: 2 bytes, zero-extended (R75). -/
def execLhu (d a : Reg) (imm : BitVec 13) (s : State) : Out :=
  .next (s.loadInstr (.lhu d a imm) d a imm 2 false)

/-- `lwu`: 4 bytes, zero-extended (R75). -/
def execLwu (d a : Reg) (imm : BitVec 13) (s : State) : Out :=
  .next (s.loadInstr (.lwu d a imm) d a imm 4 false)

/-- `sb`: the low 1 byte of `xs` (R75). -/
def execSb (x a : Reg) (imm : BitVec 13) (s : State) : Out :=
  .next (s.storeInstr (.sb x a imm) x a imm 1)

/-- `sh`: the low 2 bytes of `xs` (R75). -/
def execSh (x a : Reg) (imm : BitVec 13) (s : State) : Out :=
  .next (s.storeInstr (.sh x a imm) x a imm 2)

/-- `sw`: the low 4 bytes of `xs` (R75). -/
def execSw (x a : Reg) (imm : BitVec 13) (s : State) : Out :=
  .next (s.storeInstr (.sw x a imm) x a imm 4)

/-- `sd`: the low 8 bytes of `xs` (R75). -/
def execSd (x a : Reg) (imm : BitVec 13) (s : State) : Out :=
  .next (s.storeInstr (.sd x a imm) x a imm 8)

/-- `ldaq`: a load-acquire (R78). -/
def execLdaq (d a : Reg) (scope : Scope) (width : AmoWidth) (s : State) : Out :=
  .next (s.atomic (.ldaq d a scope width) 0 d a (PVal.clean 0) none width)

/-- `strl`: a store-release (R78). -/
def execStrl (a b : Reg) (scope : Scope) (width : AmoWidth) (s : State) : Out :=
  .next (s.atomic (.strl a b scope width) 1 0 a (s.getX b) none width)

/-- `amoswap`: the location receives the data (R78). -/
def execAmoswap (d a b : Reg) (order : AmoOrder) (scope : Scope) (width : AmoWidth) (s : State) : Out :=
  .next (s.atomic (.amoswap d a b order scope width) 2 d a (s.getX b) none width)

/-- `amoadd`: the location receives the sum (R78). -/
def execAmoadd (d a b : Reg) (order : AmoOrder) (scope : Scope) (width : AmoWidth) (s : State) : Out :=
  .next (s.atomic (.amoadd d a b order scope width) 3 d a (s.getX b) none width)

/-- `amoand`: the location receives and (R78). -/
def execAmoand (d a b : Reg) (order : AmoOrder) (scope : Scope) (width : AmoWidth) (s : State) : Out :=
  .next (s.atomic (.amoand d a b order scope width) 4 d a (s.getX b) none width)

/-- `amoor`: the location receives or (R78). -/
def execAmoor (d a b : Reg) (order : AmoOrder) (scope : Scope) (width : AmoWidth) (s : State) : Out :=
  .next (s.atomic (.amoor d a b order scope width) 5 d a (s.getX b) none width)

/-- `amoxor`: the location receives exclusive or (R78). -/
def execAmoxor (d a b : Reg) (order : AmoOrder) (scope : Scope) (width : AmoWidth) (s : State) : Out :=
  .next (s.atomic (.amoxor d a b order scope width) 6 d a (s.getX b) none width)

/-- `amomin`: the location receives the signed minimum (R78). -/
def execAmomin (d a b : Reg) (order : AmoOrder) (scope : Scope) (width : AmoWidth) (s : State) : Out :=
  .next (s.atomic (.amomin d a b order scope width) 7 d a (s.getX b) none width)

/-- `amomax`: the location receives the signed maximum (R78). -/
def execAmomax (d a b : Reg) (order : AmoOrder) (scope : Scope) (width : AmoWidth) (s : State) : Out :=
  .next (s.atomic (.amomax d a b order scope width) 8 d a (s.getX b) none width)

/-- `cas`: the location receives the data when it holds the value of `xd` (R78). -/
def execCas (d a b : Reg) (order : AmoOrder) (scope : Scope) (width : AmoWidth) (s : State) : Out :=
  .next (s.atomic (.cas d a b order scope width) 9 d a (s.getX b) (some (s.getX d)) width)

end Sys2Proof.Machine
end

