-- ==== Sys2Proof/Machine/Special.lean ====
section
/-! DEFINITION. The special functions (R41), correctly rounded: an interval in fixed point encloses the exact value, and the
result is the one to which both ends round; wider intervals are tried until one decides. Every value computed this way is
irrational, so each end stands for a value strictly inside. -/

namespace Sys2Proof.Machine

/-! ### Intervals of non-negative fixed-point numbers in units of 2^-p -/

/-- An interval that holds a non-negative number. -/
structure Iv where
  lo : Nat
  hi : Nat
  deriving DecidableEq, Repr

/-- An exact number of units. -/
def Iv.exact (n : Nat) : Iv := { lo := n, hi := n }
/-- The sum. -/
def Iv.add (a b : Iv) : Iv := { lo := a.lo + b.lo, hi := a.hi + b.hi }
/-- The difference, not below zero. -/
def Iv.sub (a b : Iv) : Iv := { lo := a.lo - b.hi, hi := a.hi - b.lo }
/-- A quotient rounded up. -/
def ceilDiv (n d : Nat) : Nat := (n + d - 1) / d
/-- The product. -/
def Iv.mul (p : Nat) (a b : Iv) : Iv := { lo := a.lo * b.lo / 2 ^ p, hi := ceilDiv (a.hi * b.hi) (2 ^ p) }
/-- The quotient by a number above zero. -/
def Iv.div (p : Nat) (a b : Iv) : Iv := { lo := a.lo * 2 ^ p / b.hi, hi := ceilDiv (a.hi * 2 ^ p) (max 1 b.lo) }
/-- The quotient by a whole number. -/
def Iv.divNat (a : Iv) (n : Nat) : Iv := { lo := a.lo / n, hi := ceilDiv a.hi n }
/-- The ratio of two whole numbers. -/
def Iv.ratio (p n d : Nat) : Iv := { lo := n * 2 ^ p / d, hi := ceilDiv (n * 2 ^ p) d }

/-- The even and odd terms of a power series: term k + 1 is term k times `y` over `d k`, and term k counts over `w k`. It ends
once a term is below one unit and the terms at least halve from there, with two units for the rest. -/
def series (p : Nat) (y : Iv) (d w : Nat → Nat) : Nat → Nat → Iv → Iv × Iv
  | 0, _, _ => ({ lo := 0, hi := 2 }, { lo := 0, hi := 2 })
  | fuel + 1, k, t =>
    if t.hi ≤ 1 && 2 * y.hi ≤ 2 ^ p * d k then ({ lo := 0, hi := 2 }, { lo := 0, hi := 2 })
    else
      let r := series p y d w fuel (k + 1) ((t.mul p y).divNat (d k))
      if k % 2 = 0 then (r.1.add (t.divNat (w k)), r.2) else (r.1, r.2.add (t.divNat (w k)))

/-- A series from its first term 1. -/
def seriesOf (p : Nat) (y : Iv) (d w : Nat → Nat) : Iv × Iv := series p y d w (4 * p) 0 (Iv.exact (2 ^ p))

/-- The sum of the terms. -/
def sumOf (r : Iv × Iv) : Iv := r.1.add r.2
/-- The even terms less the odd ones. -/
def altOf (r : Iv × Iv) : Iv := r.1.sub r.2

/-- The arc tangent of 1/n. -/
def atanInv (p n : Nat) : Iv := (altOf (seriesOf p (Iv.ratio p 1 (n * n)) (fun _ => 1) (fun k => 2 * k + 1))).divNat n

/-- π = 16 atan(1/5) − 4 atan(1/239). -/
def piIv (p : Nat) : Iv :=
  let a := atanInv p 5
  let b := atanInv p 239
  { lo := 16 * a.lo - 4 * b.hi, hi := 16 * a.hi - 4 * b.lo }

/-- ln of a number in [1, 2) from z = (m − 1) / (m + 1): 2 z Σ z^2k / (2k + 1). -/
def lnIv (p : Nat) (z : Iv) : Iv :=
  let s := (sumOf (seriesOf p (z.mul p z) (fun _ => 1) (fun k => 2 * k + 1))).mul p z
  s.add s

/-- ln 2. -/
def ln2Iv (p : Nat) : Iv := lnIv p (Iv.ratio p 1 3)

/-! ### The functions, as an interval times a power of two -/

/-- An interval of magnitudes: `iv` times 2^e. -/
structure Scaled where
  iv : Iv
  e : Int
  deriving DecidableEq, Repr

/-- (π·n/2^k)² for n/2^k at most 1/4. -/
def piSquare (p n k : Nat) : Iv :=
  let v := Iv.ratio p (n * n) (2 ^ (2 * k))
  let q := piIv p
  (q.mul p q).mul p v

/-- sin(π·n/2^k). -/
def sinPi (p n k : Nat) : Scaled :=
  let s := (altOf (seriesOf p (piSquare p n k) (fun i => (2 * i + 2) * (2 * i + 3)) (fun _ => 1))).mul p (piIv p)
  { iv := { lo := n * s.lo, hi := n * s.hi }, e := -(k : Int) - p }

/-- cos(π·n/2^k). -/
def cosPi (p n k : Nat) : Scaled :=
  { iv := altOf (seriesOf p (piSquare p n k) (fun i => (2 * i + 1) * (2 * i + 2)) (fun _ => 1)), e := -(p : Int) }

/-- x² in fixed point for x = m·2^e. -/
def squareIv (p m : Nat) (e : Int) : Iv :=
  if 0 ≤ e then Iv.exact (m * m * 2 ^ (2 * e.toNat) * 2 ^ p) else Iv.ratio p (m * m) (2 ^ (2 * (-e).toNat))

/-- tanh x for 0 < x = m·2^e < 64: x times (sinh x / x) / cosh x. -/
def tanhScaled (p m : Nat) (e : Int) : Scaled :=
  let y := squareIv p m e
  let s := sumOf (seriesOf p y (fun i => (2 * i + 2) * (2 * i + 3)) (fun _ => 1))
  let c := sumOf (seriesOf p y (fun i => (2 * i + 1) * (2 * i + 2)) (fun _ => 1))
  let r := s.div p c
  { iv := { lo := m * r.lo, hi := m * r.hi }, e := e - p }

/-- erf x for 0 < x = m·2^e < 8: x times 2/√π Σ (−x²)^n / (n! (2n + 1)). -/
def erfScaled (p m : Nat) (e : Int) : Scaled :=
  let g := altOf (seriesOf p (squareIv p m e) (fun i => i + 1) (fun i => 2 * i + 1))
  let q := piIv p
  let root : Iv := { lo := isqrt (q.lo * 2 ^ p), hi := isqrt (q.hi * 2 ^ p) + 1 }
  let r := (g.add g).div p root
  { iv := { lo := m * r.lo, hi := m * r.hi }, e := e - p }

/-- 2^(n + f/2^k) for 0 < f < 2^k. -/
def exp2Scaled (p : Nat) (n : Int) (f k : Nat) : Scaled :=
  let g := (ln2Iv p).mul p (Iv.ratio p f (2 ^ k))
  { iv := sumOf (seriesOf p g (fun i => i + 1) (fun _ => 1)), e := n - p }

/-- log2 of m·2^e, not a power of two: sign and magnitude. -/
def log2Scaled (p m : Nat) (e : Int) : Bool × Scaled :=
  let k := bitLen m - 1
  let one := 2 ^ k
  let l := (lnIv p (Iv.ratio p (m - one) (m + one))).div p (ln2Iv p)
  let n := (k : Int) + e
  if 0 ≤ n then (false, { iv := (Iv.exact (n.toNat * 2 ^ p)).add l, e := -(p : Int) })
  else (true, { iv := (Iv.exact ((-n).toNat * 2 ^ p)).sub l, e := -(p : Int) })

/-! ### Rounding -/

/-- What the ends of an interval round to: the exact value lies strictly between them. -/
def ends (ftz : Bool) (t : Ty) (neg : Bool) (s : Scaled) : (Nat × Flags) × (Nat × Flags) :=
  (roundMag ftz t .rne neg { m := s.iv.lo, e := s.e, sticky := true },
   roundMag ftz t .rne neg { m := s.iv.hi - 1, e := s.e, sticky := true })

/-- The result to which both ends of an interval round, if they agree. -/
def settle (ftz : Bool) (t : Ty) (neg : Bool) (s : Scaled) : Option (Nat × Flags) :=
  if s.iv.lo = 0 || s.iv.hi ≤ s.iv.lo then none
  else
    let r := ends ftz t neg s
    if r.1 = r.2 then some r.1 else none

/-- The result that the first of the precisions `p`, 2·p, 4·p, … decides. R41's value is irrational, so that it is neither a value of the
type nor midway between two of them, and close enough an interval decides. (PRESUMED: log entry 22) -/
def settleFrom (ftz : Bool) (t : Ty) (neg : Bool) (f : Nat → Scaled) : Nat → Nat → Nat × Flags
  | 0, p => (ends ftz t neg (f p)).1
  | doublings + 1, p => match settle ftz t neg (f p) with
    | some r => r
    | none => settleFrom ftz t neg f doublings (2 * p)

/-- The correctly rounded result, from 160 bits on. (PRESUMED: log entry 22) -/
def settleFirst (ftz : Bool) (t : Ty) (neg : Bool) (f : Nat → Scaled) : Nat × Flags := settleFrom ftz t neg f 64 160

/-- A result just below 1 in magnitude (R41: tanh and erf of large arguments). -/
def nearOne (ftz : Bool) (t : Ty) (neg : Bool) : Nat × Flags :=
  roundMag ftz t .rne neg { m := 2 ^ 80 - 1, e := -80, sticky := true }

/-! ### Each function on a finite nonzero value or a special one (R41) -/

/-- exp2. -/
def sfuExp2 (ftz : Bool) (t : Ty) (neg : Bool) (m : Nat) (e : Int) : Nat × Flags :=
  if 0 ≤ e then
    let n := m * 2 ^ (min e.toNat 40)
    (roundMag ftz t .rne false { m := 1, e := if neg then -(min n 20000 : Nat) else (min n 20000 : Nat), sticky := false })
  else
    let k := (-e).toNat
    let whole := m / 2 ^ k
    let frac := m % 2 ^ k
    if frac = 0 then
      (roundMag ftz t .rne false { m := 1, e := if neg then -(min whole 20000 : Nat) else (min whole 20000 : Nat), sticky := false })
    else if 20000 ≤ whole then
      (roundMag ftz t .rne false { m := 1, e := if neg then -20001 else 20000, sticky := true })
    else if neg then settleFirst ftz t false (fun p => exp2Scaled p (-(whole : Int) - 1) (2 ^ k - frac) k)
    else settleFirst ftz t false (fun p => exp2Scaled p whole frac k)

/-- log2 of a positive value. -/
def sfuLog2 (ftz : Bool) (t : Ty) (m : Nat) (e : Int) : Nat × Flags :=
  let k := bitLen m - 1
  if m = 2 ^ k then
    let n := (k : Int) + e
    (roundFin ftz t .rne (decide (n < 0)) n.natAbs 0)
  else settleFirst ftz t (log2Scaled 8 m e).1 (fun p => (log2Scaled p m e).2)

/-- Reciprocal square root of a positive value, exact up to a sticky bit. -/
def sfuRsqrt (ftz : Bool) (t : Ty) (m : Nat) (e : Int) : Nat × Flags :=
  let m1 := if e % 2 = 0 then m else 2 * m
  let e1 := if e % 2 = 0 then e else e - 1
  let k := fracBits t + 4 + bitLen m1
  let q := 2 ^ (2 * k) / m1
  let r := isqrt q
  roundMag ftz t .rne false { m := r, e := -(k : Int) - e1 / 2, sticky := r * r * m1 != 2 ^ (2 * k) }

/-- sinpi of a value that is not zero. -/
def sfuSinpi (ftz : Bool) (t : Ty) (neg : Bool) (m : Nat) (e : Int) : Nat × Flags :=
  if 0 ≤ e then (signBit t neg, 0)
  else
    let k := (-e).toNat
    let d := 2 ^ k
    let a := m % (2 * d)
    let sign := neg != decide (d ≤ a)
    let b := min (a % d) (d - a % d)
    if b = 0 then (signBit t neg, 0)
    else if 2 * b = d then (roundMag ftz t .rne sign { m := 1, e := 0, sticky := false })
    else if 4 * b ≤ d then settleFirst ftz t sign (fun p => sinPi p b k)
    else settleFirst ftz t sign (fun p => cosPi p (d - 2 * b) (k + 1))

/-- cospi. -/
def sfuCospi (ftz : Bool) (t : Ty) (m : Nat) (e : Int) : Nat × Flags :=
  let one := fun (n : Bool) => (roundMag ftz t .rne n { m := 1, e := 0, sticky := false })
  if 1 ≤ e || m = 0 then one false
  else if e = 0 then one (m % 2 = 1)
  else
    let k := (-e).toNat
    let d := 2 ^ k
    let a0 := m % (2 * d)
    let a := if d < a0 then 2 * d - a0 else a0
    if a = 0 then one false
    else if a = d then one true
    else if 2 * a = d then (0, 0)
    else
      let neg := decide (d < 2 * a)
      let c := if neg then d - a else a
      if 4 * c ≤ d then settleFirst ftz t neg (fun p => cosPi p c k)
      else settleFirst ftz t neg (fun p => sinPi p (d - 2 * c) (k + 1))

/-- Whether m·2^e is at least a power of two 2^n. -/
def atLeast (m : Nat) (e : Int) (n : Nat) : Bool := (n : Int) < e + bitLen m

/-- tanh of a value that is not zero. -/
def sfuTanh (ftz : Bool) (t : Ty) (neg : Bool) (m : Nat) (e : Int) : Nat × Flags :=
  if atLeast m e 6 then nearOne ftz t neg else settleFirst ftz t neg (fun p => tanhScaled p m e)

/-- erf of a value that is not zero. -/
def sfuErf (ftz : Bool) (t : Ty) (neg : Bool) (m : Nat) (e : Int) : Nat × Flags :=
  if atLeast m e 3 then nearOne ftz t neg else settleFirst ftz t neg (fun p => erfScaled p m e)

/-- Function `fn` on one element: bits and flags (R41). -/
def sfuElem (ftz : Bool) (t : Ty) (fn bits : Nat) : Nat × Flags :=
  let nan : Nat × Flags := (canonNaN t, fNV)
  let one (neg : Bool) : Nat × Flags := roundMag ftz t .rne neg { m := 1, e := 0, sticky := false }
  match readF ftz t bits with
  | .nan s => (canonNaN t, if s then fNV else 0)
  | .inf neg =>
    match fn with
    | 0 => if neg then (0, 0) else (infBits t false, 0)
    | 1 => if neg then nan else (infBits t false, 0)
    | 2 => (signBit t neg, 0)
    | 3 => if neg then nan else (0, 0)
    | 4 | 5 => nan
    | _ => one neg
  | .fin neg m e =>
    if m = 0 then
      match fn with
      | 0 => one false
      | 1 => (infBits t true, fDZ)
      | 2 | 3 => (infBits t neg, fDZ)
      | 5 => one false
      | _ => (signBit t neg, 0)
    else
      match fn with
      | 0 => sfuExp2 ftz t neg m e
      | 1 => if neg then nan else sfuLog2 ftz t m e
      | 2 => fpDiv ftz t .rne (.fin false 1 0) (.fin neg m e)
      | 3 => if neg then nan else sfuRsqrt ftz t m e
      | 4 => sfuSinpi ftz t neg m e
      | 5 => sfuCospi ftz t m e
      | 6 => sfuTanh ftz t neg m e
      | _ => sfuErf ftz t neg m e

end Sys2Proof.Machine
end

