-- ==== Sys2Proof/Machine/Sfu.lean ====
section
/-! DEFINITION. `vsfu` and the special-function units of a ring (R113, R239): the entry sends one request with its active
work and parks; the unit's return writes the results and completes it. -/

namespace Sys2Proof.Machine

/-- The unit of a position: where the unit of its half-ring is fused off, the other one (R239). -/
def State.sfuUnit (s : State) (core : Nat) : Nat :=
  let u := posOf core / 4
  if (s.ring (ringOfCore core)).sfuFused.contains u then 1 - u else u

/-- The active containers from the start index on. -/
def Hart.activeFrom (h : Hart) (o : VOp) (start : Nat) : List Nat := (containers start h.vl).filter (h.active o)

/-- The key under which an entry keeps a container of the landing until the unit returns. -/
abbrev landKey (e : Nat) : Nat := 1024 + e

/-- One container of `vsfu` with the value of its source (R35, R41). `old` is the state in which no word has been popped for it. -/
def State.sfuLane (s old : State) (o : VOp) (e : Nat) (p : PVal) : Lane :=
  if p.poison then .go (s.modMe (fun h => h.setV o.vd.toNat e PVal.poisoned))
  else s.writeLane old o e { elems := (elemsOf o.ty p.val).map (sfuElem s.me.ftz o.ty (o.lowBits 2 0)), sat := false }

/-- The request of an entry goes to the unit, and the entry parks. -/
def State.sfuRequest (s : State) (ent : Entry) : State :=
  (s.modEntry (fun x => { x with parked := true })).modRing (ringOf s.cur) (fun r =>
    { r with sfu := tmod [] r.sfu (s.sfuUnit (coreOf s.cur)) (fun q => q ++ [(s.cur, ent.id)]) })

/-- `vsfu` (R113, R239): one request carries the active containers of the entry, with those of the landing; registers are read at the
return. Of a source 49 the request goes out once a word can be popped, the pop waiting in its turn (R236); the words are popped as the
unit serves the request, so that a request that is cancelled loses none (R93, R113). (DEDUCED: log entry 31) -/
def execVsfu (o : VOp) (s : State) : Out :=
  s.member (fun t ent =>
    if t.holdsSpec o then t
    else if o.vs1 == 49 then
      let who := vectorPop t.cur
      let u := t.modCore (coreOf t.cur) (fun c => { c with recvWait := joinLast who c.recvWait })
      if (t.me.activeFrom o ent.start).isEmpty then t.sfuRequest ent
      else if (t.core (coreOf t.cur)).popServed who then u.sfuRequest ent
      else u
    else if o.vs1 == 48 then match (t.core (coreOf t.cur)).landing with
      | none => t
      | some f => (t.modEntry (fun x => { x with
          pend := (t.me.activeFrom o ent.start).foldl (fun m e => tput m (landKey e) (f.at e)) x.pend })).sfuRequest ent
    else t.sfuRequest ent)

/-- What a request works on at a container: a register, what it carries of the landing, or the next word of the receive queue. -/
def State.sfuSource (s : State) (o : VOp) (ent : Entry) (e : Nat) : Source :=
  if o.vs1 == 48 then .value s (tget (PVal.clean 0) ent.pend (landKey e)) else s.source o.vs1 e

/-- The containers of a request, written in order; an enabled flag traps at the lowest container that raises one (R35). Where the receive
queue runs out, the entry waits at the container for which it holds no word (R93). -/
def State.sfuWrite (s : State) (o : VOp) (ent : Entry) : State :=
  (s.modEntry (fun x => { x with pend := [] })).lanes (fun t e =>
    if t.me.active o e then match t.sfuSource o ent e with
      | .wait u => .stop (u.waitAt e)
      | .value u p => u.sfuLane t o e p
    else .go (t.inactive o e)) State.complete (containers ent.start s.me.vl)

/-- `SFU_RETURN`: a unit serves its oldest request, and the return token writes the results (R239). (DEDUCED: log entry 31) -/
def execSfuReturn (ring unit : Nat) (s : State) : Out :=
  if !ringExists ring || 2 ≤ unit then .fault .noSuchUnit
  else match tget [] (s.ring ring).sfu unit with
    | [] => s.noEvent
    | (hart, id) :: rest =>
      let s1 := { s.modRing ring (fun r => { r with sfu := tput r.sfu unit rest }) with cur := hart, entry := id }
      match s1.entry? with
      | none => .next s1
      | some ent => match fieldsOf ent.instr with
        | none => .next s1
        | some o => .next ((s1.modEntry (fun x => { x with parked := false })).sfuWrite o ent)

end Sys2Proof.Machine
end

