-- ==== Sys2Proof/Machine/Solver.lean ====
section
/-! DEFINITION. The solver instructions (R197 to R199). -/

namespace Sys2Proof.Machine

/-- The solve slot of the executing hart's core. -/
abbrev State.solveSlot (s : State) (n : BitVec 2) : SolveSlot := (s.core (coreOf s.cur)).slot n.toNat

/-- Change the solve slot of the executing hart's core. -/
abbrev State.modSolve (s : State) (n : BitVec 2) (f : SolveSlot → SolveSlot) : State :=
  s.modCore (coreOf s.cur) (fun c => c.modSlot n.toNat f)

/-- The checks of every solver instruction (R198, R199): a vector hart, and for all but `svbegin` a slot that the context
owns and that is active. -/
def State.solver (s : State) (i : Instr) (n : BitVec 2) (begins : Bool) (k : State → State) : State :=
  s.scalar i (fun t =>
    let v := t.solveSlot n
    if !isVector t.cur then t.trapWord cIllegal i
    else if !begins && (v.owner != t.me.ctx || !v.active) then t.trapWord cIllegal i
    else k t)

/-- `svbegin` (R199). -/
def execSvbegin (a b : Reg) (slot : BitVec 2) (s : State) : Out :=
  .next (s.solver (.svbegin a b slot) slot true (fun t =>
    t.consume (t.getX a) 4 (fun hash => t.consume (t.getX b) 4 (fun ticks =>
      (t.modSolve slot (fun v =>
        { v with
          owner := t.me.ctx, svalid := v.svalid && v.owner == t.me.ctx, cur := hash, iter := 0, active := true,
          dl := if ticks = 0 then 0 else min ((t.pkg (pkgOf t.cur)).timebase + ticks.toNat) (2 ^ 64 - 1) })).advance))))

/-- The own-TCM window (R278). -/
def ownWindow (va : Nat) : Bool := va / 2 ^ 32 = 0xFF00 && va % 2 ^ 32 < Config.tcmBytes

/-- The lowest byte that offends in the two regions of a solver copy (R199). Where `LEN` is 0 the destination address itself offends,
beside the other checks. (DESIGN CHOICE: log entry 125) -/
def solverOffence (len d base : Nat) : Option Nat :=
  let outside := fun (r : Nat) => ((List.range (len / 16)).map (fun g => r + 16 * g)).filter (fun x => !ownWindow x)
  let bad := (if len = 0 then [d] else []) ++ (if d % 16 = 0 then [] else [d]) ++ (if base % 16 = 0 then [] else [base]) ++
    outside d ++ outside base
  bad.foldl (fun m x => match m with
    | none => some x
    | some y => some (min x y)) none

/-- Copy a word of the core's own TCM with its poison, as an access of the scalar agent. -/
def State.copyWord (s : State) (k src dst : Nat) : State :=
  let ps := fun (off : Nat) => (List.range 8).map (fun i => Place.at (locTcm (coreOf k) (off % 2 ^ 32 + i)) .home)
  let s1 := s.exposeReads (some k) (ps src)
  s1.writePlaces k (ps dst) (natToBytes 8 (s1.readPlaces (some k) (ps src))) (s1.anyPoison (some k) (ps src))

/-- Copy `n` bytes between two regions that do not overlap. -/
def State.copyRegion (s : State) (k src dst n : Nat) : State :=
  (List.range (n / 8)).foldl (fun t i => t.copyWord k (src + 8 * i) (dst + 8 * i)) s

/-- Write `n` zero bytes. -/
def State.zeroRegion (s : State) (k dst n : Nat) : State :=
  (List.range (n / 8)).foldl (fun t i =>
    t.writePlaces k ((List.range 8).map (fun j => Place.at (locTcm (coreOf k) ((dst + 8 * i) % 2 ^ 32 + j)) .home))
      (natToBytes 8 0) false) s

/-- The regions of `svwarm` and `svend`: checked, then handed on (R199). -/
def State.solverRegions (s : State) (i : Instr) (a : Reg) (n : BitVec 2) (k : State → Nat → Nat → Nat → State) : State :=
  s.consume (s.getX a) 2 (fun dw =>
    let d := dw.toNat
    let v := s.solveSlot n
    let len := 16 * v.len
    match solverOffence len d v.base with
    | some x => s.trap cProtect (BitVec.ofNat 64 x) 1
    | none => if d < v.base + len && v.base < d + len then s.trapWord cIllegal i else k s d v.base len)

/-- `svwarm` (R199). -/
def execSvwarm (a : Reg) (slot : BitVec 2) (s : State) : Out :=
  .next (s.solver (.svwarm a slot) slot false (fun t => t.solverRegions (.svwarm a slot) a slot (fun u d base len =>
    let v := u.solveSlot slot
    if !u.me.drained then u.stall .drain
    else if v.svalid && v.hash == v.cur then (u.copyRegion u.cur base d len).advance
    else ((u.zeroRegion u.cur d len).modMe (fun h => h.raiseV vWsmiss)).advance)))

/-- `svend` (R199). -/
def execSvend (a : Reg) (slot : BitVec 2) (s : State) : Out :=
  .next (s.solver (.svend a slot) slot false (fun t => t.solverRegions (.svend a slot) a slot (fun u d base len =>
    ((u.copyRegion u.cur d base len).modSolve slot (fun v => { v with hash := v.cur, svalid := true, active := false })).advance)))

/-- `svchk` (R199). -/
def execSvchk (d a b : Reg) (slot : BitVec 2) (s : State) : Out :=
  .next (s.solver (.svchk d a b slot) slot false (fun t =>
    t.consume (t.getX a) 1 (fun x => t.consume (t.getX b) 1 (fun y =>
      let v := t.solveSlot slot
      let conv := (fpCompare 2 (readF t.me.ftz .f64 x.toNat) (readF t.me.ftz .f64 y.toNat)).1
      if !conv && v.dl != 0 && v.dl ≤ (t.pkg (pkgOf t.cur)).timebase then t.trap cDeadline 0 (BitVec.ofNat 64 slot.toNat)
      else
        let n := count32 v.iter
        (t.modSolve slot (fun w => { w with iter := n })).result d
          (PVal.clean (bitAt conv 63 ||| BitVec.ofNat 64 n))))))

end Sys2Proof.Machine
end

