-- ==== Sys2Proof/Machine/Dispatch.lean ====
section
/-! DEFINITION. What an instruction does: one arm for every constructor of `Instr`, each a call of its meaning. -/

namespace Sys2Proof.Machine

/-- The meaning of an instruction or event. -/
def exec (i : Instr) (s : State) : Host.Outcome State Fault Refusal :=
  match i with
  | .add d a b => Sys2Proof.Machine.execAdd d a b s
  | .sub d a b => Sys2Proof.Machine.execSub d a b s
  | .and d a b => Sys2Proof.Machine.execAnd d a b s
  | .or d a b => Sys2Proof.Machine.execOr d a b s
  | .xor d a b => Sys2Proof.Machine.execXor d a b s
  | .sll d a b => Sys2Proof.Machine.execSll d a b s
  | .srl d a b => Sys2Proof.Machine.execSrl d a b s
  | .sra d a b => Sys2Proof.Machine.execSra d a b s
  | .slt d a b => Sys2Proof.Machine.execSlt d a b s
  | .sltu d a b => Sys2Proof.Machine.execSltu d a b s
  | .mul d a b => Sys2Proof.Machine.execMul d a b s
  | .mulh d a b => Sys2Proof.Machine.execMulh d a b s
  | .mulhu d a b => Sys2Proof.Machine.execMulhu d a b s
  | .div d a b => Sys2Proof.Machine.execDiv d a b s
  | .divu d a b => Sys2Proof.Machine.execDivu d a b s
  | .rem d a b => Sys2Proof.Machine.execRem d a b s
  | .remu d a b => Sys2Proof.Machine.execRemu d a b s
  | .min d a b => Sys2Proof.Machine.execMin d a b s
  | .max d a b => Sys2Proof.Machine.execMax d a b s
  | .minu d a b => Sys2Proof.Machine.execMinu d a b s
  | .maxu d a b => Sys2Proof.Machine.execMaxu d a b s
  | .clz d a => Sys2Proof.Machine.execClz d a s
  | .ctz d a => Sys2Proof.Machine.execCtz d a s
  | .popc d a => Sys2Proof.Machine.execPopc d a s
  | .addi d a imm => Sys2Proof.Machine.execAddi d a imm s
  | .andi d a imm => Sys2Proof.Machine.execAndi d a imm s
  | .ori d a imm => Sys2Proof.Machine.execOri d a imm s
  | .xori d a imm => Sys2Proof.Machine.execXori d a imm s
  | .slti d a imm => Sys2Proof.Machine.execSlti d a imm s
  | .slli d a sh => Sys2Proof.Machine.execSlli d a sh s
  | .srli d a sh => Sys2Proof.Machine.execSrli d a sh s
  | .srai d a sh => Sys2Proof.Machine.execSrai d a sh s
  | .lui d imm => Sys2Proof.Machine.execLui d imm s
  | .auipc d imm => Sys2Proof.Machine.execAuipc d imm s
  | .lb d a imm => Sys2Proof.Machine.execLb d a imm s
  | .lh d a imm => Sys2Proof.Machine.execLh d a imm s
  | .lw d a imm => Sys2Proof.Machine.execLw d a imm s
  | .ld d a imm => Sys2Proof.Machine.execLd d a imm s
  | .lbu d a imm => Sys2Proof.Machine.execLbu d a imm s
  | .lhu d a imm => Sys2Proof.Machine.execLhu d a imm s
  | .lwu d a imm => Sys2Proof.Machine.execLwu d a imm s
  | .sb t a imm => Sys2Proof.Machine.execSb t a imm s
  | .sh t a imm => Sys2Proof.Machine.execSh t a imm s
  | .sw t a imm => Sys2Proof.Machine.execSw t a imm s
  | .sd t a imm => Sys2Proof.Machine.execSd t a imm s
  | .ldaq d a scope width => Sys2Proof.Machine.execLdaq d a scope width s
  | .strl a b scope width => Sys2Proof.Machine.execStrl a b scope width s
  | .amoswap d a b order scope width => Sys2Proof.Machine.execAmoswap d a b order scope width s
  | .amoadd d a b order scope width => Sys2Proof.Machine.execAmoadd d a b order scope width s
  | .amoand d a b order scope width => Sys2Proof.Machine.execAmoand d a b order scope width s
  | .amoor d a b order scope width => Sys2Proof.Machine.execAmoor d a b order scope width s
  | .amoxor d a b order scope width => Sys2Proof.Machine.execAmoxor d a b order scope width s
  | .amomin d a b order scope width => Sys2Proof.Machine.execAmomin d a b order scope width s
  | .amomax d a b order scope width => Sys2Proof.Machine.execAmomax d a b order scope width s
  | .cas d a b order scope width => Sys2Proof.Machine.execCas d a b order scope width s
  | .beq a b imm => Sys2Proof.Machine.execBeq a b imm s
  | .bne a b imm => Sys2Proof.Machine.execBne a b imm s
  | .blt a b imm => Sys2Proof.Machine.execBlt a b imm s
  | .bge a b imm => Sys2Proof.Machine.execBge a b imm s
  | .bltu a b imm => Sys2Proof.Machine.execBltu a b imm s
  | .bgeu a b imm => Sys2Proof.Machine.execBgeu a b imm s
  | .jal d imm => Sys2Proof.Machine.execJal d imm s
  | .jalr d a imm => Sys2Proof.Machine.execJalr d a imm s
  | .fadd d a b rm ty => Sys2Proof.Machine.execFadd d a b rm ty s
  | .fsub d a b rm ty => Sys2Proof.Machine.execFsub d a b rm ty s
  | .fmul d a b rm ty => Sys2Proof.Machine.execFmul d a b rm ty s
  | .ffma d a b rm ty => Sys2Proof.Machine.execFfma d a b rm ty s
  | .fdiv d a b rm ty => Sys2Proof.Machine.execFdiv d a b rm ty s
  | .fsqrt d a rm ty => Sys2Proof.Machine.execFsqrt d a rm ty s
  | .fcmp d a b pred ty => Sys2Proof.Machine.execFcmp d a b pred ty s
  | .fcvt d a src rm ty => Sys2Proof.Machine.execFcvt d a src rm ty s
  | .sysr d num => Sys2Proof.Machine.execSysr d num s
  | .sysw a num => Sys2Proof.Machine.execSysw a num s
  | .sysx d a num => Sys2Proof.Machine.execSysx d a num s
  | .ctxctlWrite d a => Sys2Proof.Machine.execCtxctlWrite d a s
  | .corectlWrite d a => Sys2Proof.Machine.execCorectlWrite d a s
  | .svbufWrite d a slot => Sys2Proof.Machine.execSvbufWrite d a slot s
  | .vqsave a => Sys2Proof.Machine.execVqsave a s
  | .vqload a => Sys2Proof.Machine.execVqload a s
  | .fence dir scope => Sys2Proof.Machine.execFence dir scope s
  | .ldfeKeep d a imm => Sys2Proof.Machine.execLdfeKeep d a imm s
  | .ldfeClr d a imm => Sys2Proof.Machine.execLdfeClr d a imm s
  | .stfe t a imm => Sys2Proof.Machine.execStfe t a imm s
  | .send a b scope flits => Sys2Proof.Machine.execSend a b scope flits s
  | .recv d => Sys2Proof.Machine.execRecv d s
  | .htset a b => Sys2Proof.Machine.execHtset a b s
  | .forkS a b imm => Sys2Proof.Machine.execForkS a b imm s
  | .forkD a b imm => Sys2Proof.Machine.execForkD a b imm s
  | .fdeclCarry r => Sys2Proof.Machine.execFdeclCarry r s
  | .fdeclIndImm r imm => Sys2Proof.Machine.execFdeclIndImm r imm s
  | .fdeclIndReg r t => Sys2Proof.Machine.execFdeclIndReg r t s
  | .fdeclRed r op => Sys2Proof.Machine.execFdeclRed r op s
  | .fdeclVlive v => Sys2Proof.Machine.execFdeclVlive v s
  | .cpy a => Sys2Proof.Machine.execCpy a s
  | .barinit a b => Sys2Proof.Machine.execBarinit a b s
  | .bararv a b => Sys2Proof.Machine.execBararv a b s
  | .barwt a b => Sys2Proof.Machine.execBarwt a b s
  | .mgkick a => Sys2Proof.Machine.execMgkick a s
  | .mgstat d => Sys2Proof.Machine.execMgstat d s
  | .svbegin a b slot => Sys2Proof.Machine.execSvbegin a b slot s
  | .svwarm a slot => Sys2Proof.Machine.execSvwarm a slot s
  | .svchk d a b slot => Sys2Proof.Machine.execSvchk d a b slot s
  | .svend a slot => Sys2Proof.Machine.execSvend a slot s
  | .lreq d a => Sys2Proof.Machine.execLreq d a s
  | .lgrant a b => Sys2Proof.Machine.execLgrant a b s
  | .lreclaim a => Sys2Proof.Machine.execLreclaim a s
  | .ldone a => Sys2Proof.Machine.execLdone a s
  | .lrelease a => Sys2Proof.Machine.execLrelease a s
  | .tlbinv a b => Sys2Proof.Machine.execTlbinv a b s
  | .pgmig a b => Sys2Proof.Machine.execPgmig a b s
  | .odrain d a => Sys2Proof.Machine.execOdrain d a s
  | .launch a => Sys2Proof.Machine.execLaunch a s
  | .pref a imm => Sys2Proof.Machine.execPref a imm s
  | .resid a imm => Sys2Proof.Machine.execResid a imm s
  | .hintNoOp word => Sys2Proof.Machine.execHintNoOp word s
  | .undefinedWord word => Sys2Proof.Machine.execUndefinedWord word s
  | .convoy count units rsv db => Sys2Proof.Machine.execConvoy count units rsv db s
  | .convoyCommit hart => Sys2Proof.Machine.execConvoyCommit hart s
  | .convoyStart hart => Sys2Proof.Machine.execConvoyStart hart s
  | .vld o => Sys2Proof.Machine.execVld o s
  | .vlds o => Sys2Proof.Machine.execVlds o s
  | .vldx o => Sys2Proof.Machine.execVldx o s
  | .vldt o => Sys2Proof.Machine.execVldt o s
  | .vldp o => Sys2Proof.Machine.execVldp o s
  | .vst o => Sys2Proof.Machine.execVst o s
  | .vsts o => Sys2Proof.Machine.execVsts o s
  | .vstx o => Sys2Proof.Machine.execVstx o s
  | .vstt o => Sys2Proof.Machine.execVstt o s
  | .vadd o => Sys2Proof.Machine.execVadd o s
  | .vsub o => Sys2Proof.Machine.execVsub o s
  | .vmin o => Sys2Proof.Machine.execVmin o s
  | .vmax o => Sys2Proof.Machine.execVmax o s
  | .vand o => Sys2Proof.Machine.execVand o s
  | .vor o => Sys2Proof.Machine.execVor o s
  | .vxor o => Sys2Proof.Machine.execVxor o s
  | .vsll o => Sys2Proof.Machine.execVsll o s
  | .vsrl o => Sys2Proof.Machine.execVsrl o s
  | .vsra o => Sys2Proof.Machine.execVsra o s
  | .vabs o => Sys2Proof.Machine.execVabs o s
  | .vcmp o => Sys2Proof.Machine.execVcmp o s
  | .vsel o => Sys2Proof.Machine.execVsel o s
  | .vbcast o => Sys2Proof.Machine.execVbcast o s
  | .vmvxs o => Sys2Proof.Machine.execVmvxs o s
  | .vmvsx o => Sys2Proof.Machine.execVmvsx o s
  | .setvl o => Sys2Proof.Machine.execSetvl o s
  | .vrng o => Sys2Proof.Machine.execVrng o s
  | .vfadd o => Sys2Proof.Machine.execVfadd o s
  | .vfsub o => Sys2Proof.Machine.execVfsub o s
  | .vfmin o => Sys2Proof.Machine.execVfmin o s
  | .vfmax o => Sys2Proof.Machine.execVfmax o s
  | .vfsgn o => Sys2Proof.Machine.execVfsgn o s
  | .vfcmp o => Sys2Proof.Machine.execVfcmp o s
  | .vcvt o => Sys2Proof.Machine.execVcvt o s
  | .vcvts o => Sys2Proof.Machine.execVcvts o s
  | .vscalemx o => Sys2Proof.Machine.execVscalemx o s
  | .mand o => Sys2Proof.Machine.execMand o s
  | .mor o => Sys2Proof.Machine.execMor o s
  | .mxor o => Sys2Proof.Machine.execMxor o s
  | .mandn o => Sys2Proof.Machine.execMandn o s
  | .mpop o => Sys2Proof.Machine.execMpop o s
  | .mffs o => Sys2Proof.Machine.execMffs o s
  | .mmvx o => Sys2Proof.Machine.execMmvx o s
  | .mfromx o => Sys2Proof.Machine.execMfromx o s
  | .vfmul o => Sys2Proof.Machine.execVfmul o s
  | .vfma o => Sys2Proof.Machine.execVfma o s
  | .vfms o => Sys2Proof.Machine.execVfms o s
  | .vfnma o => Sys2Proof.Machine.execVfnma o s
  | .vfdiv o => Sys2Proof.Machine.execVfdiv o s
  | .vfsqrt o => Sys2Proof.Machine.execVfsqrt o s
  | .vmul o => Sys2Proof.Machine.execVmul o s
  | .vmulh o => Sys2Proof.Machine.execVmulh o s
  | .msetml o => Sys2Proof.Machine.execMsetml o s
  | .mend o => Sys2Proof.Machine.execMend o s
  | .mzero o => Sys2Proof.Machine.execMzero o s
  | .mxacc o => Sys2Proof.Machine.execMxacc o s
  | .mxdec o => Sys2Proof.Machine.execMxdec o s
  | .mxin o => Sys2Proof.Machine.execMxin o s
  | .mxout o => Sys2Proof.Machine.execMxout o s
  | .mlu o => Sys2Proof.Machine.execMlu o s
  | .mtrs o => Sys2Proof.Machine.execMtrs o s
  | .rpass o => Sys2Proof.Machine.execRpass o s
  | .vsfu o => Sys2Proof.Machine.execVsfu o s
  | .vslup o => Sys2Proof.Machine.execVslup o s
  | .vsldn o => Sys2Proof.Machine.execVsldn o s
  | .vgathr o => Sys2Proof.Machine.execVgathr o s
  | .vcompr o => Sys2Proof.Machine.execVcompr o s
  | .vexpnd o => Sys2Proof.Machine.execVexpnd o s
  | .vrev o => Sys2Proof.Machine.execVrev o s
  | .vred o => Sys2Proof.Machine.execVred o s
  | .vfred o => Sys2Proof.Machine.execVfred o s
  | .vscan o => Sys2Proof.Machine.execVscan o s
  | .vfscan o => Sys2Proof.Machine.execVfscan o s
  | .setvlf o => Sys2Proof.Machine.execSetvlf o s
  | .eventEntry hart => Sys2Proof.Machine.execEventEntry hart s
  | .watchdog hart => Sys2Proof.Machine.execWatchdog hart s
  | .retirement hart => Sys2Proof.Machine.execRetirement hart s
  | .stalledWfeEnd hart => Sys2Proof.Machine.execStalledWfeEnd hart s
  | .stoppedHartSlotFree hart => Sys2Proof.Machine.execStoppedHartSlotFree hart s
  | .sfuReturn ring unit => Sys2Proof.Machine.execSfuReturn ring unit s
  | .fragmentDelivery core => Sys2Proof.Machine.execFragmentDelivery core s
  | .chunkCreate ring => Sys2Proof.Machine.execChunkCreate ring s
  | .chunkStart ring chunk => Sys2Proof.Machine.execChunkStart ring chunk s
  | .carriedValueDelivery ring chunk => Sys2Proof.Machine.execCarriedValueDelivery ring chunk s
  | .chunkCommit ring => Sys2Proof.Machine.execChunkCommit ring s
  | .flitHop ring dir pos => Sys2Proof.Machine.execFlitHop ring dir pos s
  | .packetReinject ring dir pos => Sys2Proof.Machine.execPacketReinject ring dir pos s
  | .messageResolution ring pos => Sys2Proof.Machine.execMessageResolution ring pos s
  | .messageHartStart core => Sys2Proof.Machine.execMessageHartStart core s
  | .receiveQueueAppend core => Sys2Proof.Machine.execReceiveQueueAppend core s
  | .ringstall ring => Sys2Proof.Machine.execRingstall ring s
  | .dieNetworkTransfer ring => Sys2Proof.Machine.execDieNetworkTransfer ring s
  | .copyDescriptorRead core copy => Sys2Proof.Machine.execCopyDescriptorRead core copy s
  | .copyTransfer core copy => Sys2Proof.Machine.execCopyTransfer core copy s
  | .barrierAddition core copy => Sys2Proof.Machine.execBarrierAddition core copy s
  | .completionRecord core copy => Sys2Proof.Machine.execCompletionRecord core copy s
  | .mergeCommandStart ring => Sys2Proof.Machine.execMergeCommandStart ring s
  | .mergeRun ring => Sys2Proof.Machine.execMergeRun ring s
  | .mergeMailbox ring => Sys2Proof.Machine.execMergeMailbox ring s
  | .eviction core line => Sys2Proof.Machine.execEviction core line s
  | .patrolScrub pkg sector => Sys2Proof.Machine.execPatrolScrub pkg sector s
  | .dispatch pkg => Sys2Proof.Machine.execDispatch pkg s
  | .preemption ring => Sys2Proof.Machine.execPreemption ring s
  | .restore pkg => Sys2Proof.Machine.execRestore pkg s
  | .launchCompletion pkg launch => Sys2Proof.Machine.execLaunchCompletion pkg launch s
  | .switchForward port errors => Sys2Proof.Machine.execSwitchForward port errors s
  | .fabricPacketReceive pkg errors => Sys2Proof.Machine.execFabricPacketReceive pkg errors s
  | .fabRead pkg => Sys2Proof.Machine.execFabRead pkg s
  | .fabWrite pkg => Sys2Proof.Machine.execFabWrite pkg s
  | .fabAtomic pkg => Sys2Proof.Machine.execFabAtomic pkg s
  | .fabAccept pkg => Sys2Proof.Machine.execFabAccept pkg s
  | .fabUnpin pkg => Sys2Proof.Machine.execFabUnpin pkg s
  | .fabMessage pkg => Sys2Proof.Machine.execFabMessage pkg s
  | .fabResponse pkg => Sys2Proof.Machine.execFabResponse pkg s
  | .transitFailure pkg txn => Sys2Proof.Machine.execTransitFailure pkg txn s
  | .leaseRequest pkg => Sys2Proof.Machine.execLeaseRequest pkg s
  | .leaseGrant pkg => Sys2Proof.Machine.execLeaseGrant pkg s
  | .leaseRefuse pkg => Sys2Proof.Machine.execLeaseRefuse pkg s
  | .leaseCancellation pkg => Sys2Proof.Machine.execLeaseCancellation pkg s
  | .leaseReclaim pkg => Sys2Proof.Machine.execLeaseReclaim pkg s
  | .lodgingFrameMigrate pkg lease frame => Sys2Proof.Machine.execLodgingFrameMigrate pkg lease frame s
  | .leaseDone pkg => Sys2Proof.Machine.execLeaseDone pkg s
  | .reclaimDeadline pkg lease => Sys2Proof.Machine.execReclaimDeadline pkg lease s
  | .leaseRevoke pkg => Sys2Proof.Machine.execLeaseRevoke pkg s
  | .leaseReturn pkg => Sys2Proof.Machine.execLeaseReturn pkg s
  | .ecall => Sys2Proof.Machine.execEcall s
  | .ebreak => Sys2Proof.Machine.execEbreak s
  | .tret => Sys2Proof.Machine.execTret s
  | .wfe => Sys2Proof.Machine.execWfe s
  | .yield => Sys2Proof.Machine.execYield s
  | .halt => Sys2Proof.Machine.execHalt s
  | .fencei => Sys2Proof.Machine.execFencei s
  | .msgret => Sys2Proof.Machine.execMsgret s
  | .cend => Sys2Proof.Machine.execCend s
  | .exitl => Sys2Proof.Machine.execExitl s
  | .readRequest core line requester => Sys2Proof.Machine.execReadRequest core line requester s
  | .writeRequest core line requester => Sys2Proof.Machine.execWriteRequest core line requester s
  | .persistentRequest die line core => Sys2Proof.Machine.execPersistentRequest die line core s
  | .sramError site => Sys2Proof.Machine.execSramError site s
  | .vestibuleWrite pkg port offset bytes => Sys2Proof.Machine.execVestibuleWrite pkg port offset bytes s
  | .dieFailure die => Sys2Proof.Machine.execDieFailure die s
  | .packageReset pkg found => Sys2Proof.Machine.execPackageReset pkg found s
  | .pkgreset pkg value found => Sys2Proof.Machine.execPkgreset pkg value found s
  | .ctxtab pkg value => Sys2Proof.Machine.execCtxtab pkg value s
  | .hostRegisterWrite host offset width value => Sys2Proof.Machine.execHostRegisterWrite host offset width value s
  | .hostRegisterRead host offset width => Sys2Proof.Machine.execHostRegisterRead host offset width s
  | .hostLinkReset pkg port => Sys2Proof.Machine.execHostLinkReset pkg port s
  | .hostMemoryRead host addr len => Sys2Proof.Machine.execHostMemoryRead host addr len s
  | .hostMemoryWrite host addr bytes => Sys2Proof.Machine.execHostMemoryWrite host addr bytes s
  | .doeNonce pkg nonce => Sys2Proof.Machine.execDoeNonce pkg nonce s
  | .doeCertificateChain pkg => Sys2Proof.Machine.execDoeCertificateChain pkg s
  | .doeFirmwareImage pkg image => Sys2Proof.Machine.execDoeFirmwareImage pkg image s
  | .doeOtherObject pkg type => Sys2Proof.Machine.execDoeOtherObject pkg type s
  | .thermalThrottle pkg => Sys2Proof.Machine.execThermalThrottle pkg s
  | .thermalStop pkg => Sys2Proof.Machine.execThermalStop pkg s
  | .healthUpdate pkg value => Sys2Proof.Machine.execHealthUpdate pkg value s

end Sys2Proof.Machine
end

