-- ==== Sys2Proof/Machine/Issue.lean ====
section
/-! DEFINITION. What a step does around a meaning: time passes (R20, R147), a core issues for one of its harts (R150 to R152),
the vector unit works for a queue entry (R157, R158), and, where no move is fixed, one is drawn from everything that the machine
may do next of itself. -/

namespace Sys2Proof.Machine

/-! ### Time -/

/-- The ticks that pass before a step. (DESIGN CHOICE: log entry 3) -/
def State.passing (s : State) : Nat := Config.ticks s.free

/-- The watchdog counts of all harts (R147). (DESIGN CHOICE: log entry 3) -/
def State.countBlocked (s : State) (n : Nat) : Tab Hart :=
  s.harts.map (fun e => (e.1, { e.2 with rxCount := if s.recvBlocked e.1 then e.2.rxCount + n else 0 }))

/-- Time passes: the time bases advance, as far as they can without ever decreasing (R14), the watchdogs count, a fresh free value is due, and the first fixed move is taken. (DESIGN CHOICE: log entry 3, DESIGN CHOICE: log entry 4) -/
def State.elapse (s : State) : State :=
  let n := s.passing
  { s with
    pkgs := s.pkgs.map (fun e => (e.1, { e.2 with timebase := min (e.2.timebase + n) (2 ^ 64 - 1) })),
    harts := s.countBlocked n, free := s.free + 1, agenda := s.agenda.drop 1 }

/-- Whether versions of a hart's chunk drain at a commit: its chunk commits, or is fenced and becomes the oldest (R211, R212). -/
def State.drainsAtCommit (s : State) (k : Nat) : Bool :=
  (s.ring (ringOf k)).fork.any (fun f => f.chunks.any (fun c => c.hart = k && (c.state == .commit || c.fenced)))

/-- Whether an agent can still make an access for which it asked: its hart may act and does not wait for something else, or its chunk's
versions drain at a commit. (DEDUCED: log entry 38) -/
def State.mayAccess (s : State) (a : Nat) : Bool :=
  let h := s.hart (a / 2)
  h.live && !h.stopped && (if a % 2 = 1 then h.queue.any (·.runs)
    else s.drainsAtCommit (a / 2) || (!s.idleInFork (a / 2) && (h.wait == .none || h.wait == .remote)))

/-- The persistent requests whose agents have made their access, or can make none, are deactivated (R269). (DEDUCED: log entry 38) -/
def State.deactivate (s : State) : State :=
  { s with dies := s.dies.map (fun (e : Nat × Die) => (e.1, e.2.deactivate s.mayAccess)) }

/-- What every step adds after a move: redirects of migrations that nothing names any more end (R288), ready convoys reserve the
units that are busy (R157), persistent requests are deactivated (R269), the lease agents go on with their records (R353), and the ring
sequencers look whether a receive deadlock has ended (R242). (DEDUCED: log entry 68) -/
def State.settle (s : State) : State :=
  let s1 := (s.cores.foldl (fun (t : State) e => t.reserveUnits e.1) s.endRedirects).deactivate
  let s2 := (s1.pkgs.filter (fun (e : Nat × Pkg) => e.2.ready && !e.2.agentWrites.isEmpty)).foldl (fun t e => t.agentWrite e.1) s1
  (s2.rings.filter (fun (e : Nat × Ring) => !e.2.stalled.isEmpty)).foldl (fun t e => t.rearm e.1) s2

/-! ### The scalar front end (R150 to R152) -/

/-- Whether a hart may issue: its slot is live and the hart is no engine hart and neither stopped, retiring, waiting for queue entries nor waiting
for its fork, in a READY package. -/
def State.mayIssue (s : State) (k : Nat) : Bool :=
  let h := s.hart k
  h.live && !h.engine && !h.stopped && !h.retiring && h.pendConvoy.isNone && !s.idleInFork k && (s.pkg (pkgOf k)).ready

/-- The outcome of what an agent did from a state, with the lines for which it still asks (R269). -/
def attempted (s : State) (a : Nat) (o : Out) : Out :=
  match o with
  | .next t => .next (s.afterAttempt t a)
  | o => o

/-- The hart executes the instruction at its pc: it is fetched, decoded and carried out, or the fetch traps (R136). (DESIGN CHOICE: log entry 5) -/
def State.runHart (s : State) (k : Nat) : Out :=
  let s0 := { s with cur := k }.modHart k (fun h => { h with wait := .none })
  attempted s0 (2 * k) (match s0.fetch k 0 (s0.hart k).pc.toNat 4 with
    | .wait t w => .next (t.stall w)
    | .stop t f => .next (t.trap f.cause (BitVec.ofNat 64 f.addr) (BitVec.ofNat 64 f.val))
    | .ok t bs => exec (wordInstr (BitVec.ofNat 32 (bytesToNat bs))) t)

/-- A hart at an issue opportunity: a pending event is taken at user privilege (R144), else it executes an instruction. (DEDUCED: log entry 15) -/
def State.issueHart (s : State) (k : Nat) : Out := if s.eventReady k then .next ({ s with cur := k }.enterEvent k) else s.runHart k

/-- The harts of a list try in turn: one that has been stalled and stays so is not ready, and the next takes the
opportunity (R150). (DESIGN CHOICE: log entry 11) -/
def State.issueFirst (s : State) (core : Nat) : List Nat → Out
  | [] => .next s
  | k :: r =>
    if s.mayIssue k then
      match ({ s with cores := tput s.cores core { s.core core with last := slotOf k } }).issueHart k with
      | .next t =>
        if (s.hart k).wait != .none && (t.hart k).wait != .none then
          (t.modCore core (fun c => { c with last := (s.core core).last })).issueFirst core r
        else .next t
      | o => o
    else s.issueFirst core r

/-- The slots that an opportunity may serve: all, from the one after the last, or in strict mode the one whose turn it is. -/
def Core.turn (c : Core) : List Nat :=
  if c.strict then [c.opp % 8] else (List.range 8).map (fun i => (c.last + 1 + i) % 8)

/-- An issue opportunity of a core. -/
def State.issue (s : State) (core : Nat) : Out :=
  let c := s.core core
  (if c.strict then s.modCore core (fun x => { x with opp := x.opp + 1 }) else s).issueFirst core (c.turn.map (hartKey core))

/-! ### The vector units (R157, R158) -/

/-- Whether an entry stands still until something else happens: parked at a special-function unit, at an empty landing or
receive queue, or before a full outgoing buffer. (DESIGN CHOICE: log entry 12) -/
def State.standsStill (s : State) (core : Nat) (e : Entry) : Bool :=
  let c := s.core core
  e.parked || (match fieldsOf e.instr with
    | some o => (readsLanding o && c.landing.isNone) || (readsQueue o && c.recvQ.isEmpty)
    | none => false) || (match e.instr with
    | .rpass _ => c.outBuf.isSome
    | _ => false)

/-- Whether a member processes each element group by itself, from the same containers of its registers. -/
def ownGroup : Instr → Bool
  | .vld _ | .vlds _ | .vst _ | .vsts _ | .vadd _ | .vsub _ | .vmin _ | .vmax _ | .vand _ | .vor _ | .vxor _ | .vsll _ | .vsrl _ | .vsra _
  | .vabs _ | .vcmp _ | .vsel _ | .vbcast _ | .vfadd _ | .vfsub _ | .vfmin _ | .vfmax _ | .vfsgn _ | .vfcmp _ | .vfmul _ | .vfma _
  | .vfms _ | .vfnma _ | .vfdiv _ | .vfsqrt _ | .vmul _ | .vmulh _ => true
  | _ => false

/-- Whether a later member may process its next element group because an earlier one has finished it (R158): both work group by
group, and only one of them in memory. (DESIGN CHOICE: log entry 13) -/
def chains (earlier later : Entry) : Bool :=
  ownGroup earlier.instr && ownGroup later.instr && !fixesLength later.instr && !(earlier.unit ≤ 1 && later.unit ≤ 1) &&
  later.start / 16 * 16 + 16 ≤ earlier.start

/-- The entry at a position of a hart's queue that a vector unit may work for: each earlier member of its convoy stands still and
does not bear on it, or, where the unit does one element group, has finished that group. No group starts while the front end waits
for those under way (R159). (DESIGN CHOICE: log entry 12, DESIGN CHOICE: log entry 13) -/
def State.workable (s : State) (k pos : Nat) : Option Entry :=
  let h := s.hart k
  let before := (h.queue.take pos).filter (fun e => !e.frozen)
  match h.queue[pos]? with
  | none => none
  | some e =>
    if h.live && !h.stopped && e.runs && (s.pkg (pkgOf k)).ready && (!h.stopping || s.underWay k || (s.groupAbroad k && e.start % 16 != 0)) &&
        before.all (fun b => b.started && ((s.standsStill (coreOf k) b && !mustFollow b.instr e.instr) || (s.byGroup && chains b e))) then some e
    else none

/-- An entry that has popped a word was not blocked all the time: its hart's watchdog count starts again (R147). -/
def popped (s : State) (k : Nat) (o : Out) : Out :=
  match o with
  | .next t =>
    if (t.core (coreOf k)).recvQ.length < (s.core (coreOf k)).recvQ.length then .next (t.modHart k (fun h => { h with rxCount := 0 }))
    else .next t
  | o => o

/-- The vector unit works for an entry. (DESIGN CHOICE: log entry 5, DESIGN CHOICE: log entry 12) -/
def State.work (s : State) (k pos : Nat) : Out :=
  match s.workable k pos with
  | some e => popped s k (attempted s (2 * k + 1) (exec e.instr { s with cur := k, entry := e.id }))
  | none => s.noEvent

/-! ### One move -/

/-- The package in which an event of the part itself comes about: its harts, rings, engines, caches and agents stop with it (R318, R323). The
events of its switches, hosts and failures are none of these. (DEDUCED: log entry 83) -/
def eventPkg : Instr → Option Nat
  | .convoyCommit k | .convoyStart k | .eventEntry k | .watchdog k | .retirement k | .stalledWfeEnd k | .stoppedHartSlotFree k => some (pkgOf k)
  | .sfuReturn r _ | .chunkCreate r | .chunkStart r _ | .carriedValueDelivery r _ | .chunkCommit r | .flitHop r _ _ | .packetReinject r _ _
  | .messageResolution r _ | .ringstall r | .dieNetworkTransfer r | .mergeCommandStart r | .mergeRun r | .mergeMailbox r
  | .preemption r => some (pkgOfRing r)
  | .fragmentDelivery c | .messageHartStart c | .receiveQueueAppend c | .copyDescriptorRead c _ | .copyTransfer c _ | .barrierAddition c _
  | .completionRecord c _ | .eviction c _ | .readRequest c _ _ | .writeRequest c _ _ => some (pkgOfRing (ringOfCore c))
  | .persistentRequest d _ _ => some (pkgOfDie d)
  | .patrolScrub p _ | .dispatch p | .restore p | .launchCompletion p _ | .transitFailure p _ | .lodgingFrameMigrate p _ _
  | .reclaimDeadline p _ => some p
  | _ => none

/-- Carry out an event: one of the part itself only in a READY package. (DEDUCED: log entry 83) -/
def State.event (s : State) (i : Instr) : Out :=
  match eventPkg i with
  | some p => if (s.pkg p).ready then exec i s else s.noEvent
  | none => exec i s

/-- The line that a die's L2 writes back and drops: no L1 holds a token of it, and sectors that are dirty overwrite those in
memory (R266, R272). (DEDUCED: log entry 37) -/
def State.writeback (s : State) (die line : Nat) : Out :=
  let t := s.line die line
  if !dieExists die || (s.die die).failed || !t.held.isEmpty || !t.unserved.isEmpty || t.valid = 0 then s.noEvent
  else
    .next ((s.writeBack line t.dirty).modDie die (fun d => { d with lines := tdel d.lines line }))

/-- Carry out one move. -/
def State.act (s : State) (a : Act) : Out :=
  match a with
  | .issue core => if ringExists (ringOfCore core) then s.issue core else .fault .noSuchUnit
  | .vector k pos => { s with byGroup := false }.work k pos
  | .group k pos => match { s with byGroup := true }.work k pos with
    | .next t => .next { t with byGroup := false }
    | o => o
  | .event i => s.event i
  | .persist core line =>
    if (s.pkg (pkgOfRing (ringOfCore core))).ready then execPersistentRequest (dieOfCore core) line core s else s.noEvent
  | .decay pkg sector =>
    if (s.homeOf pkg (32 * sector)).isSome && pkg < 128 then
      .next (s.modPkg pkg (fun p => { p with badSectors := sins sector p.badSectors, scrubbed := sdel sector p.scrubbed }))
    else .fault .noSuchUnit
  | .writeback die line => s.writeback die line
  | .corrected die sram => if dieExists die then .next (if sram then s.sramCe die else s.eccCe die) else .fault .noSuchUnit
  | .cooled pkg => if pkgExists pkg then .next (s.modPkg pkg (fun p => { p with hot := false })) else .fault .noSuchUnit

/-! ### What may happen next -/

/-- The moves of a live hart and of its vector entries. -/
def hartMoves (k : Nat) (h : Hart) : List Act :=
  (List.range h.queue.length).map (Act.vector k) ++ (List.range h.queue.length).map (Act.group k) ++
  [.event (.convoyCommit k), .event (.convoyStart k), .event (.eventEntry k), .event (.watchdog k), .event (.retirement k),
   .event (.stalledWfeEnd k), .event (.stoppedHartSlotFree k)]

/-- The moves of a core and of its copies. -/
def coreMoves (c : Nat) (x : Core) : List Act :=
  [.issue c, .event (.fragmentDelivery c), .event (.messageHartStart c), .event (.receiveQueueAppend c)] ++
  x.copies.flatMap (fun p => [.event (.copyDescriptorRead c p.id), .event (.copyTransfer c p.id), .event (.barrierAddition c p.id),
    .event (.completionRecord c p.id)])

/-- The moves of a ring. -/
def ringMoves (r : Nat) (x : Ring) : List Act :=
  [.event (.sfuReturn r 0), .event (.sfuReturn r 1), .event (.chunkCreate r), .event (.chunkCommit r), .event (.ringstall r),
   .event (.dieNetworkTransfer r), .event (.mergeCommandStart r), .event (.mergeRun r), .event (.mergeMailbox r),
   .event (.preemption r)] ++
  (match x.fork with
   | none => []
   | some f => f.chunks.flatMap (fun c => [.event (.chunkStart r c.num), .event (.carriedValueDelivery r c.num)])) ++
  (List.range 8).flatMap (fun p => [.event (.flitHop r 0 p), .event (.flitHop r 1 p), .event (.packetReinject r 0 p),
    .event (.packetReinject r 1 p), .event (.messageResolution r p)])

/-- The moves of a package: dispatch, fabric, leases. -/
def pkgMoves (k : Nat) (p : Pkg) : List Act :=
  [.event (.dispatch k), .event (.restore k), .event (.switchForward k []), .event (.fabricPacketReceive k []),
   .event (.fabRead k), .event (.fabWrite k), .event (.fabAtomic k), .event (.fabAccept k), .event (.fabUnpin k),
   .event (.fabMessage k), .event (.fabResponse k), .event (.leaseRequest k), .event (.leaseGrant k), .event (.leaseRefuse k),
   .event (.leaseCancellation k), .event (.leaseReclaim k), .event (.leaseDone k), .event (.leaseRevoke k), .event (.leaseReturn k)] ++
  p.launches.map (fun l => .event (.launchCompletion k l.id)) ++ p.txns.map (fun t => .event (.transitFailure k t.id)) ++
  p.borrows.flatMap (fun b => [.event (.lodgingFrameMigrate k b.handle b.migrated), .event (.transitFailure k (leaseTxn + b.handle))]) ++
  p.lends.map (fun l => .event (.reclaimDeadline k l.id)) ++ p.badSectors.map (fun x => .event (.patrolScrub k x))

/-- The moves of the caches of a die: lines leave the L1s that hold them (R268), and the L2 (R266). -/
def dieMoves (k : Nat) (d : Die) : List Act :=
  d.lines.flatMap (fun l => Act.writeback k l.1 :: l.2.unserved.map (fun e => .persist (agentCore e.1) l.1) ++ l.2.held.map (fun e => .event (.eviction e.1 l.1)))

/-- Everything that the machine may do next of itself; what comes from outside it comes only by the agenda. (DESIGN CHOICE: log entry 1, DESIGN CHOICE: log entry 6) -/
def State.moves (s : State) : List Act :=
  (s.harts.filter (fun (e : Nat × Hart) => e.2.live && !e.2.engine)).flatMap (fun e => Act.issue (coreOf e.1) :: hartMoves e.1 e.2) ++
  s.cores.flatMap (fun (e : Nat × Core) => coreMoves e.1 e.2) ++ s.rings.flatMap (fun (e : Nat × Ring) => ringMoves e.1 e.2) ++
  s.dies.flatMap (fun (e : Nat × Die) => dieMoves e.1 e.2) ++ s.pkgs.flatMap (fun (e : Nat × Pkg) => pkgMoves e.1 e.2)

/-- A move drawn from those that may happen: one that turns out not to be possible leaves the machine idle for the step. (DESIGN CHOICE: log entry 1) -/
def State.drift (s : State) (n : Nat) : Out :=
  match s.moves[Config.pick n % s.moves.length]? with
  | none => .next s
  | some a => match s.act a with
    | .next t => .next t.settle
    | .fault r => .fault r
    | .refused _ => .next s

/-- The outcome of a move with what every step adds after it. -/
def settled (o : Out) : Out :=
  match o with
  | .next t => .next t.settle
  | .fault r => .fault r
  | .refused r => .refused r

/-- One step: time passes, then the first fixed move is carried out, or a move that is drawn. (DESIGN CHOICE: log entry 1) -/
def State.advanceMachine (s : State) : Out :=
  match s.agenda with
  | a :: _ => settled (s.elapse.act a)
  | [] => s.elapse.drift s.free

/-! ### The word that a step fetches -/

/-- The context of the hart that runs a word from reset: its aperture maps virtual address 0 upward to the package's memory from
physical address 0, for every kind of access at every privilege (R284). -/
def wordContext : Resident :=
  { ctx := 0, root := 0, apBase := 0, apLen := 1, img := 0, tvec := 0, vtt := [(0, PVal.clean 0x1F)] }

/-- The hart that runs a scalar word. (DESIGN CHOICE: log entry 7) -/
def wordHart : Hart := { Hart.empty with live := true }

/-- The hart that runs a vector word: the word stands in its queue as a convoy of one member that has started. (DESIGN CHOICE: log entry 7) -/
def vectorHart (w : Word) : Hart :=
  { wordHart with
    queue := [{ id := 0, insn := w, x := PVal.clean 0, crm := 0, db := false, first := true, ccount := 1, slot := 1, start := 0,
                pend := [], pins := [], frozen := false, started := true, parked := false }] }

/-- The machine around a word: package 0 is READY with memory that nobody has lent, reserved or migrates, die 0 is whole with the context resident, ring
0 runs no fork, and core 0 starts its opportunities at slot 0. (DESIGN CHOICE: log entry 7) -/
def State.aroundWord (s : State) (h : Hart) (mem : Mem) (a : Act) : State :=
  ((({ s with mem := mem, agenda := a :: s.agenda, migrations := s.migrations.filter (fun m => m.pkg != 0) }.modPkg 0 (fun p => { p with
      state := 1, badSectors := sdel 0 p.badSectors, scrubbed := sdel 0 p.scrubbed, lends := [], borrows := [], txns := [] })).modDie 0 (fun d => { d with
      failed := false, resident := [some wordContext] })).modRing 0 (fun r => { r with fork := none })).modCore 0 (fun c => { c with
      strict := false, last := 7 }) |>.setHart 0 h

/-- Place a word where the next step fetches. (DESIGN CHOICE: log entry 7) -/
def State.placeWord (s : State) (nbits w : Nat) : State :=
  if nbits ≤ 32 then s.aroundWord wordHart ((s.mem.setNum 0 4 w).unmark 0) (.issue 0)
  else s.aroundWord (vectorHart (BitVec.ofNat 64 w)) s.mem (.vector 0 0)

end Sys2Proof.Machine
end

