-- ==== Sys2Proof/Machine/Step.lean ====
section
/-! DEFINITION. One step of the machine, and the placing of a word where the next step fetches it. Both only call what
Issue.lean defines. -/

namespace Sys2Proof.Machine

/-- One step of the machine. -/
def step (s : State) : Host.Outcome State Fault Refusal := s.advanceMachine

/-- `s` with the instruction of a word stored where `step` fetches its next instruction. A scalar word stands at virtual address 0 of
a user ring-program context; a vector word is the started entry at the head of the queue of a vector hart. (DESIGN CHOICE: log entry 7) -/
def State.withFetchWord (s : State) (nbits w : Nat) : State := s.placeWord nbits w

end Sys2Proof.Machine
end

