-- ==== Sys2Proof/Safety.lean ====
section
/-! DEFINITION. What counts as a safe run, in the terms the statements use: the invariant of memory, what it is for nothing to
hold an instruction back, and the states an instruction leaves that changes one hart only. -/

namespace Sys2Proof.Machine

/-- The invariant that every step keeps: memory is in its canonical form (addresses rise strictly, no listed byte is zero, the
marked words rise strictly), so that equal memories are equal data. -/
def State.Canonical (s : State) : Prop := s.mem.wf = true

/-- Nothing holds an instruction of the executing hart back: no register it names awaits a delivery (R94), it breaks no rule of
declared registers (R205, R206), it need not wait to be oldest (R69, R214), and it is no update of a reduction register
(R206). -/
def State.Unheld (s : State) (i : Instr) : Prop := s.hold i = none ∧ s.updateOf s.cur i = none

/-- The executing hart goes on at the next word with `p` in `d` (`x0` discards it); nothing else of the machine changes. -/
def State.wrote (s : State) (d : Reg) (p : PVal) : State :=
  s.setHart s.cur { s.me with pc := s.me.pc + 4, x := (s.me.setX d p).x }

/-- The executing hart goes on at `pc`; nothing else of the machine changes. -/
def State.jumped (s : State) (pc : Word) : State := s.setHart s.cur { s.me with pc := pc }

/-- The executing hart waits; nothing else of the machine changes. -/
def State.waits (s : State) (w : Wait) : State := s.setHart s.cur { s.me with wait := w }

/-- A value that a source poisons (R68). -/
def poisonedBy (ps : List PVal) (v : Word) : PVal := if ps.any (·.poison) then PVal.poisoned else PVal.clean v

/-- The executing hart sets floating-point flags (R16); nothing else of the machine changes. -/
def State.flagged (s : State) (f : Flags) : State := s.setHart s.cur (s.me.raiseFlags f)

/-- No ring runs a parallel fork. -/
def State.NoForks (s : State) : Prop := ∀ r, (s.ring r).fork = none

/-- A hart has no access over the fabric under way. -/
def State.Calm (s : State) (k : Nat) : Prop :=
  ∀ w ∈ ([.vector k, .fetch k 0, .fetch k 1, .scalar k 0, .scalar k 1, kickPart k 0, kickPart k 1] : List Who), s.txnOf w = none

/-- `t` differs from `s` only in translations that the dies keep (R283): nothing else has come of translating, no error found in a page
table among it (R272). -/
def State.Translated (s t : State) : Prop :=
  t = { s with dies := t.dies } ∧ ∀ d, ∃ tlb, t.die d = { s.die d with tlb := tlb }

/-- The `n` bytes at a virtual address, for an access of a kind by the executing hart, lie at the locations `ls` of memory that
the hart reaches at once: they translate, without an error in a page table, they are of the hart's own package or of a lodging of its
context, no other core's persistent request holds their lines, and a load finds a token (R268, R269), no sector of theirs has an error that nobody has found (R272),
and the hart has no access over the fabric under way. -/
structure State.Reaches (s : State) (va n kind : Nat) (ls : List Nat) : Prop where
  places : ∃ h : Nat → Holder, (s.places (s.agentOf s.cur) [] kind va n).ans = .ok (ls.map (fun l => Place.at l (h l))) ∧
    ∀ l, h l ≠ Holder.other
  calm : s.Translated (s.places (s.agentOf s.cur) [] kind va n).st
  idle : ∀ l ∈ ls, s.lineBusy (coreOf s.cur) kind l = false
  sound : ∀ l ∈ ls, isDev l = true → l % 2 ^ 52 / 32 ∉ (s.pkg (l / 2 ^ 52)).badSectors
  alone : s.NoForks ∧ s.me.spec = false
  fresh : ∀ phase, s.txnOf (.scalar s.cur phase) = none

/-- The number that the bytes at some locations hold, the first the least significant (R6). -/
def Mem.numAt (m : Mem) : List Nat → Nat
  | [] => 0
  | l :: r => (m.byte l).toNat + 256 * m.numAt r

/-- Only the executing hart, the caches and translations of the dies, and memory may differ: packages, rings, cores, the other
harts and everything else are as before. -/
structure State.SameBut (s t : State) (h : Hart) : Prop where
  me : t.harts = (s.setHart s.cur h).harts
  cur : t.cur = s.cur
  pkgs : t.pkgs = s.pkgs
  rings : t.rings = s.rings
  cores : t.cores = s.cores
  full : t.full = s.full ∧ t.feWait = s.feWait
  wires : t.wires = s.wires ∧ t.migrations = s.migrations
  rest : t.entry = s.entry ∧ t.agenda = s.agenda ∧ t.free = s.free ∧ t.dropped = s.dropped ∧ t.byGroup = s.byGroup
  dies : ∀ d, ∃ tlb lines, t.die d = { s.die d with tlb := tlb, lines := lines }

/-- `m` after the bytes `bs` were stored at the locations `ls`: a location outside reads as before, each location reads the last
byte stored to it, a poisoned store marks every word it touches, and an unpoisoned one unmarks the words it stores whole
(R77). -/
structure Mem.Stored (m m' : Mem) (ls : List Nat) (bs : List Byte) (poison : Bool) : Prop where
  outside : ∀ a, a ∉ ls → m'.byte a = m.byte a
  inside : ∀ (i : Nat) (a : Nat) (b : Byte), ls[i]? = some a → bs[i]? = some b → (∀ j : Nat, i < j → ls[j]? ≠ some a) → m'.byte a = b
  untouched : ∀ a, (∀ l ∈ ls, l / 8 ≠ a / 8) → m'.marked a = m.marked a
  touched : ∀ a, (∃ l ∈ ls, l / 8 = a / 8) → m'.marked a =
    if poison then true else if (∀ i : Fin 8, a / 8 * 8 + i.val ∈ ls) then false else m.marked a

/-! ### Vector instructions -/

/-- The containers that an instruction of a started entry has yet to perform and that its mask selects. -/
def State.activeOf (s : State) (e : Entry) (o : VOp) : List Nat := (containers e.start s.me.vl).filter (s.me.active o)

/-- What a source gives an entry for one of its active containers: the container of a register, of the landing, or, of the words in
the receive queue, the one that its turn among the active containers takes (R93). -/
def State.gives (s : State) (e : Entry) (o : VOp) (r : VReg) (c : Nat) : Option PVal :=
  if r.toNat < 48 then some (s.me.getV r.toNat c)
  else if r.toNat = 48 then (s.core (coreOf s.cur)).landing.map (fun f => f.at c)
  else ((s.core (coreOf s.cur)).recvQ[((s.activeOf e o).filter (· < c)).length]?).map (fun w => PVal.clean w.1)

/-- An entry works now as far as it comes, and nothing holds its instruction with the sources `rs` back: the landing is full and the
receive queue holds enough words where a source reads them, no other pop waits, and a speculative chunk reads neither. -/
structure State.Ready (s : State) (e : Entry) (o : VOp) (rs : List VReg) : Prop where
  entry : s.entry? = some e
  runs : e.runs = true
  whole : s.byGroup = false
  calm : s.me.spec = true → readsLanding o = false ∧ readsQueue o = false
  given : ∀ r ∈ rs, ∀ c ∈ s.activeOf e o, (s.gives e o r c).isSome = true
  one : (rs.filter (· == 49)).length ≤ 1
  turn : 49 ∈ rs → ∀ k ∈ (s.core (coreOf s.cur)).recvWait, k = vectorPop s.cur

/-- The values that the sources give for a container. -/
def State.operands (s : State) (e : Entry) (o : VOp) (rs : List VReg) (c : Nat) : List PVal :=
  rs.map (fun r => (s.gives e o r c).getD PVal.poisoned)

/-- The state in which a form has popped a word for each of its active containers, if it reads the receive queue. -/
def State.popped (s : State) (e : Entry) (o : VOp) (rs : List VReg) : State :=
  if 49 ∈ rs ∧ s.activeOf e o ≠ [] then
    s.modCore (coreOf s.cur) (fun c => { c with
      recvQ := c.recvQ.drop (s.activeOf e o).length, recvWait := c.recvWait.filter (· != vectorPop s.cur) })
  else s

/-- The executing hart is `h`, with the executing entry gone from its queue; nothing else has changed. -/
def State.completed (s : State) (h : Hart) : State := s.setHart s.cur { h with queue := removeEntry s.entry h.queue }

/-- A form that writes one container of `vd` after the other has completed: from the start index up to `vl`, each active container
holds what `f` gives, an inactive one zero under `z`, and every other container of every register is as before; the flags `fl` are set,
and `SAT` where an element clipped; the words it popped are gone. Nothing else has changed (R91). -/
structure State.Lanes (s t : State) (e : Entry) (o : VOp) (rs : List VReg) (f : Nat → PVal) (fl : Flags) (sat : Bool) : Prop where
  lane : ∀ c, t.me.getV o.vd.toNat c =
    if e.start ≤ c ∧ c < s.me.vl then
      (if s.me.active o c then f c else if o.z then PVal.clean 0 else s.me.getV o.vd.toNat c)
    else s.me.getV o.vd.toNat c
  other : ∀ v c, v ≠ o.vd.toNat → t.me.getV v c = s.me.getV v c
  rest : t = (s.popped e o rs).completed { s.me with
    v := t.me.v, fstat := s.me.fstat ||| fl.zeroExtend 64, vstat := s.me.vstat ||| (if sat then 16 else 0) }

/-- The executing entry is the only one of its queue under its number, and keeps nothing of an unfinished container or segment. -/
def State.Sole (s : State) (e : Entry) : Prop := s.me.queue.filter (fun x => x.id == s.entry) = [e] ∧ e.pend = []

/-- The containers that a permutation reads whole: those of a register, of the landing, or one word of the receive queue for each
(R93, R124). -/
inductive State.Whole (s : State) (r : VReg) : State → List PVal → Prop where
  | register : r.toNat < 48 → State.Whole s r s ((List.range s.me.vl).map (s.me.getV r.toNat))
  | landing (f : Fragment) : r.toNat = 48 → (s.core (coreOf s.cur)).landing = some f →
      State.Whole s r s ((List.range s.me.vl).map (fun c => f.at c))
  | queue : r.toNat = 49 → s.me.vl ≤ (s.core (coreOf s.cur)).recvQ.length → (s.core (coreOf s.cur)).recvQ ≠ [] →
      (∀ k ∈ (s.core (coreOf s.cur)).recvWait, k = vectorPop s.cur) →
      State.Whole s r (s.modCore (coreOf s.cur) (fun c => { c with
          recvQ := c.recvQ.drop s.me.vl, recvWait := c.recvWait.filter (· != vectorPop s.cur) }))
        (((s.core (coreOf s.cur)).recvQ.take s.me.vl).map (fun w => PVal.clean w.1))

/-- The elements of a vector memory form lie at the locations `L c i`: for every active container each element is aligned, its index
is not poisoned, its bytes translate, lie in the hart's own reach, are wanted by no other core's persistent request (R269), and have
no error that nobody has found (R116 to R119); and the entry has no access over the fabric under way. -/
structure State.Spread (s : State) (e : Entry) (f : MemForm) (L : Nat → Nat → List Nat) : Prop where
  index : ∀ c ∈ s.activeOf e f.o, indexPoison s.me f.o f.form c = false
  places : ∃ h : Nat → Holder, (∀ l, h l ≠ Holder.other) ∧ ∀ x ∈ (s.memPlan f e).conts, ∀ (i : Nat) (y : ElemAt), x.elems[i]? = some y →
    y.elem.addr % y.elem.bytes = 0 ∧ y.bytes.map (·.2) = (L x.cont i).map (fun l => .ok (Place.at l (h l)))
  calm : s.Translated (s.memPlan f e).st
  idle : ∀ c ∈ s.activeOf e f.o, ∀ i, ∀ l ∈ L c i, s.lineBusy (coreOf s.cur) f.kind l = false
  sound : ∀ c ∈ s.activeOf e f.o, ∀ i, ∀ l ∈ L c i, isDev l = true → l % 2 ^ 52 / 32 ∉ (s.pkg (l / 2 ^ 52)).badSectors
  alone : s.NoForks ∧ s.me.spec = false
  fresh : s.txnOf (.vector s.cur) = none ∧ s.me.stopping = false

/-- A step of a run is safe when it answers a next state and keeps the invariant. -/
def SafeStep (s : State) : Prop := ∃ t, step s = .next t ∧ (s.Canonical → t.Canonical)

end Sys2Proof.Machine
end

