-- ==== Sys2Proof/Certificates/Slice0/Obligations.lean ====
section
/-! DEFINITION. The statements about the machine, each from the numbered rules of the spec that its docstring names. Nothing is
proved here. -/

open Sys2Proof Sys2Proof.Machine

/-! ### Integer instructions (R67 to R74) -/

/-- The register-register instructions of major 0x01 and what each computes (R70, R71). -/
abbrev Sys2Proof.Machine.registerTable : List ((Reg → Reg → Reg → Instr) × (Word → Word → Word)) :=
  [(.add, fun x y => x + y), (.sub, fun x y => x - y), (.and, fun x y => x &&& y), (.or, fun x y => x ||| y),
   (.xor, fun x y => x ^^^ y), (.sll, fun x y => x <<< (y.toNat % 64)), (.srl, fun x y => x >>> (y.toNat % 64)),
   (.sra, fun x y => x.sshiftRight (y.toNat % 64)), (.slt, fun x y => if x.toInt < y.toInt then 1 else 0),
   (.sltu, fun x y => if x.toNat < y.toNat then 1 else 0), (.mul, fun x y => BitVec.ofNat 64 (x.toNat * y.toNat)),
   (.mulh, fun x y => BitVec.ofInt 64 (x.toInt * y.toInt / 2 ^ 64)), (.mulhu, fun x y => BitVec.ofNat 64 (x.toNat * y.toNat / 2 ^ 64)),
   (.min, fun x y => if y.toInt < x.toInt then y else x), (.max, fun x y => if x.toInt < y.toInt then y else x),
   (.minu, fun x y => if y.toNat < x.toNat then y else x), (.maxu, fun x y => if x.toNat < y.toNat then y else x)]

/-- Each integer register-register instruction but the divisions answers the state in which its destination holds its result,
poisoned where a source is, the pc stands at the next word, and nothing else has changed (R68, R70). -/
def Obligations.IntegerRegisterResult : Prop :=
  ∀ p ∈ registerTable, ∀ (d a b : Reg) (s : State), s.Unheld (p.1 d a b) →
    exec (p.1 d a b) s = .next (s.wrote d (poisonedBy [s.getX a, s.getX b] (p.2 (s.getX a).val (s.getX b).val)))

/-- What a division instruction computes when neither exceptional case of R71 holds, and in each of them. -/
abbrev Sys2Proof.Machine.divisionTable : List ((Reg → Reg → Reg → Instr) × (Word → Word → Word)) :=
  [(.div, fun x y => if y = 0 then 0xFFFFFFFFFFFFFFFF else if x = 0x8000000000000000 ∧ y = 0xFFFFFFFFFFFFFFFF then 0x8000000000000000
      else BitVec.ofInt 64 (x.toInt.tdiv y.toInt)),
   (.divu, fun x y => if y = 0 then 0xFFFFFFFFFFFFFFFF else BitVec.ofNat 64 (x.toNat / y.toNat)),
   (.rem, fun x y => if y = 0 then x else if x = 0x8000000000000000 ∧ y = 0xFFFFFFFFFFFFFFFF then 0
      else BitVec.ofInt 64 (x.toInt.tmod y.toInt)),
   (.remu, fun x y => if y = 0 then x else BitVec.ofNat 64 (x.toNat % y.toNat))]

/-- Division never traps: it writes its quotient or remainder, with the results of R71 for a zero divisor and for the one
quotient that does not fit. -/
def Obligations.DivisionNeverTraps : Prop :=
  ∀ p ∈ divisionTable, ∀ (d a b : Reg) (s : State), s.Unheld (p.1 d a b) →
    exec (p.1 d a b) s = .next (s.wrote d (poisonedBy [s.getX a, s.getX b] (p.2 (s.getX a).val (s.getX b).val)))

/-- `clz`, `ctz` and `popc` write the count that R70 names: the zero bits above the highest one bit, below the lowest, or the
number of one bits; 64 for both zero counts of zero. -/
def Obligations.BitCountResult : Prop :=
  ∀ (d a : Reg) (s : State),
    (s.Unheld (.clz d a) → ∃ n, n ≤ 64 ∧ (∀ i, i < n → (s.getX a).val.getLsbD (63 - i) = false) ∧
      (n < 64 → (s.getX a).val.getLsbD (63 - n) = true) ∧
      exec (.clz d a) s = .next (s.wrote d (poisonedBy [s.getX a] (BitVec.ofNat 64 n)))) ∧
    (s.Unheld (.ctz d a) → ∃ n, n ≤ 64 ∧ (∀ i, i < n → (s.getX a).val.getLsbD i = false) ∧
      (n < 64 → (s.getX a).val.getLsbD n = true) ∧
      exec (.ctz d a) s = .next (s.wrote d (poisonedBy [s.getX a] (BitVec.ofNat 64 n)))) ∧
    (s.Unheld (.popc d a) →
      exec (.popc d a) s = .next (s.wrote d (poisonedBy [s.getX a]
        (BitVec.ofNat 64 (((List.range 64).map (fun i => ((s.getX a).val.getLsbD i).toNat)).sum)))))

/-- The instructions with a 16-bit immediate or a shift amount write their results (R72). -/
abbrev Sys2Proof.Machine.ImmediateResultPart : Prop :=
  ∀ (d a : Reg) (imm : BitVec 16) (sh : BitVec 6) (s : State),
    let x := (s.getX a).val
    let wrote := fun (w : Word) => (Host.Outcome.next (s.wrote d (poisonedBy [s.getX a] w)) : Out)
    (s.Unheld (.addi d a imm) → exec (.addi d a imm) s = wrote (x + imm.signExtend 64)) ∧
    (s.Unheld (.andi d a imm) → exec (.andi d a imm) s = wrote (x &&& imm.zeroExtend 64)) ∧
    (s.Unheld (.ori d a imm) → exec (.ori d a imm) s = wrote (x ||| imm.zeroExtend 64)) ∧
    (s.Unheld (.xori d a imm) → exec (.xori d a imm) s = wrote (x ^^^ imm.zeroExtend 64)) ∧
    (s.Unheld (.slti d a imm) → exec (.slti d a imm) s = wrote (if x.toInt < imm.toInt then 1 else 0)) ∧
    (s.Unheld (.slli d a sh) → exec (.slli d a sh) s = wrote (x <<< sh.toNat)) ∧
    (s.Unheld (.srli d a sh) → exec (.srli d a sh) s = wrote (x >>> sh.toNat)) ∧
    (s.Unheld (.srai d a sh) → exec (.srai d a sh) s = wrote (x.sshiftRight sh.toNat))

/-- `lui` writes its immediate times 2^16 and `auipc` adds that to its own address (R72). -/
abbrev Sys2Proof.Machine.UpperImmediateResult : Prop :=
  ∀ (d : Reg) (imm : BitVec 21) (s : State),
    (s.Unheld (.lui d imm) → exec (.lui d imm) s = .next (s.wrote d (PVal.clean (BitVec.ofInt 64 (imm.toInt * 2 ^ 16))))) ∧
    (s.Unheld (.auipc d imm) →
      exec (.auipc d imm) s = .next (s.wrote d (PVal.clean (s.me.pc + BitVec.ofInt 64 (imm.toInt * 2 ^ 16)))))

/-- Every instruction with an immediate answers the state in which its destination holds its result (R72). -/
def Obligations.ImmediateResult : Prop := ImmediateResultPart ∧ UpperImmediateResult

/-- The branches of major 0x0D with their conditions (R73). -/
abbrev Sys2Proof.Machine.branchTable : List ((Reg → Reg → BitVec 13 → Instr) × (Word → Word → Prop)) :=
  [(.beq, fun x y => x = y), (.bne, fun x y => x ≠ y), (.blt, fun x y => x.toInt < y.toInt), (.bge, fun x y => y.toInt ≤ x.toInt),
   (.bltu, fun x y => x.toNat < y.toNat), (.bgeu, fun x y => y.toNat ≤ x.toNat)]

/-- A branch on unpoisoned operands goes to its own address plus four times its offset when its condition holds, unless the target
fails one of the two checks of R74, and to the next word when it does not hold; a poisoned operand traps `POISON_CONSUME` whether
or not the condition holds; conditions 6 and 7 trap `ILLEGAL` (R73). -/
def Obligations.BranchGoesWhereConditionSays : Prop :=
  (∀ p ∈ branchTable, ∀ (a b : Reg) (imm : BitVec 13) (s : State), s.hold (p.1 a b imm) = none →
    let target := s.me.pc + BitVec.ofInt 64 (imm.toInt * 4)
    ((s.getX a).poison = false → (s.getX b).poison = false →
      (¬ p.2 (s.getX a).val (s.getX b).val → exec (p.1 a b imm) s = .next (s.jumped (s.me.pc + 4))) ∧
      (p.2 (s.getX a).val (s.getX b).val →
        (target.toNat % 4 = 0 → target.toNat < 2 ^ 48 → exec (p.1 a b imm) s = .next (s.jumped target)) ∧
        (target.toNat % 4 ≠ 0 → exec (p.1 a b imm) s = .next (s.trap cMisalign target 2)) ∧
        (target.toNat % 4 = 0 → 2 ^ 48 ≤ target.toNat → exec (p.1 a b imm) s = .next (s.trap cProtect target 2)))) ∧
    ((s.getX a).poison = true ∨ (s.getX b).poison = true → exec (p.1 a b imm) s = .next (s.trap cPoison 0 1))) ∧
  ∀ (w : IWord) (s : State), (w.extractLsb' 26 6).toNat = 0x0D → 6 ≤ (w.extractLsb' 13 3).toNat →
    (∃ e, decodeWord w = .error e) ∧ exec (.undefinedWord w) s = .next (s.trap cIllegal 0 (w.zeroExtend 64))

/-- `jal` and `jalr` write the address of the next word to their destination and go to their target, formed from the old value
of the base; a base that is poisoned, a target that is not a multiple of 4 and a target outside bits 47:0 trap, and then
nothing is written (R74). -/
def Obligations.JumpLinksAndGoes : Prop :=
  ∀ (d a : Reg) (off : BitVec 21) (imm : BitVec 16) (s : State),
    let goes := fun (i : Instr) (target : Word) =>
      (target.toNat % 4 = 0 → target.toNat < 2 ^ 48 →
        exec i s = .next ((s.wrote d (PVal.clean (s.me.pc + 4))).jumped target)) ∧
      (target.toNat % 4 ≠ 0 → exec i s = .next (s.trap cMisalign target 2)) ∧
      (target.toNat % 4 = 0 → 2 ^ 48 ≤ target.toNat → exec i s = .next (s.trap cProtect target 2))
    (s.hold (.jal d off) = none → goes (.jal d off) (s.me.pc + BitVec.ofInt 64 (off.toInt * 4))) ∧
    (s.hold (.jalr d a imm) = none →
      ((s.getX a).poison = false → goes (.jalr d a imm) ((s.getX a).val + imm.signExtend 64)) ∧
      ((s.getX a).poison = true → exec (.jalr d a imm) s = .next (s.trap cPoison 0 2)))

/-! ### Loads, stores and atomics (R75 to R78) -/

/-- The loads with their sizes and whether they sign-extend (R75). -/
abbrev Sys2Proof.Machine.loadTable : List ((Reg → Reg → BitVec 13 → Instr) × Nat × Bool) :=
  [(.lb, 1, true), (.lh, 2, true), (.lw, 4, true), (.ld, 8, false), (.lbu, 1, false), (.lhu, 2, false), (.lwu, 4, false)]

/-- The value of `n` little-endian bytes in a register, sign- or zero-extended. -/
abbrev Sys2Proof.Machine.extended (n : Nat) (signed : Bool) (v : Nat) : Word :=
  if signed ∧ 2 ^ (8 * n - 1) ≤ v then BitVec.ofNat 64 (v + (2 ^ 64 - 2 ^ (8 * n))) else BitVec.ofNat 64 v

/-- A load whose base is unpoisoned and whose bytes the hart reaches writes the extended little-endian value of those bytes, or
zero with poison when one of them lies in a marked word; memory, the other harts and everything but the caches and
translations stay as they are (R75, R77). -/
def Obligations.LoadReadsMemory : Prop :=
  ∀ p ∈ loadTable, ∀ (d a : Reg) (imm : BitVec 13) (s : State) (ls : List Nat), s.hold (p.1 d a imm) = none →
    (s.getX a).poison = false → s.Reaches ((s.getX a).val + imm.signExtend 64).toNat p.2.1 kLoad ls →
    ∃ t, exec (p.1 d a imm) s = .next t ∧ t.mem = s.mem ∧
      s.SameBut t { s.me with pc := s.me.pc + 4, x := (s.me.setX d (if ls.any s.mem.marked then PVal.poisoned
        else PVal.clean (extended p.2.1 p.2.2 (s.mem.numAt ls)))).x }

/-- The stores with their sizes (R75). -/
abbrev Sys2Proof.Machine.storeTable : List ((Reg → Reg → BitVec 13 → Instr) × Nat) := [(.sb, 1), (.sh, 2), (.sw, 4), (.sd, 8)]

/-- A store whose base is unpoisoned and whose bytes the hart reaches stores the low bytes of its data register at exactly the
locations its address translates to; every other byte of memory, every register and the other harts stay as they are, and
markers change as R77 says (R75, R77). -/
def Obligations.StoreWritesMemory : Prop :=
  ∀ p ∈ storeTable, ∀ (x a : Reg) (imm : BitVec 13) (s : State) (ls : List Nat), s.hold (p.1 x a imm) = none →
    (s.getX a).poison = false → s.Reaches ((s.getX a).val + imm.signExtend 64).toNat p.2 kStore ls →
    ∃ t, exec (p.1 x a imm) s = .next t ∧ s.SameBut t { s.me with pc := s.me.pc + 4 } ∧
      s.mem.Stored t.mem ls ((List.range p.2).map (fun i => (s.getX x).val.extractLsb' (8 * i) 8)) (s.getX x).poison

/-- How an access of the executing hart that does not translate traps, with the fault `f` that its bytes meet and the state `x.st` in which they
have been translated. A poisoned entry comes first, with point 2. Then poisoned data that would leave the package traps with point 8. Then
the lowest byte that faults decides: a byte below `f` that its target refuses traps `PROTECT` and is logged; where no byte below `f` lies
in another package, it is `f` with the access kind (R67, R76, R136, R338, R340). Nothing of the access performs. -/
abbrev Sys2Proof.Machine.State.Misses (s : State) (i : Instr) (kind op va : Nat) (poison : Bool) (x : Places) : Prop :=
  let w : Who := .scalar s.cur 0
  ∀ f, x.ans = .error f →
    let below := okPlaces (x.bytes.takeWhile (fun b => b.1 ≠ f.addr))
    (f.cause = cPoison → exec i s = .next (x.st.trap cPoison (BitVec.ofNat 64 f.addr) 2)) ∧
    (f.cause ≠ cPoison → (x.st.hart s.cur).spec = false →
      (poison = true → egress (okPlaces x.bytes) = true → exec i s = .next (x.st.trap cPoison (BitVec.ofNat 64 va) 8)) ∧
      (poison = false ∨ egress (okPlaces x.bytes) = false →
        (anyRemote below = false →
          exec i s = .next ((x.st.release w).trap f.cause (BitVec.ofNat 64 f.addr) (BitVec.ofNat 64 kind))) ∧
        (∀ u, x.st.askedBelow w (x.st.hart s.cur).ctx kind op x f = .wait u → exec i s = .next (u.stall .remote)) ∧
        (∀ u j c t la, x.st.askedBelow w (x.st.hart s.cur).ctx kind op x f = .refused u j c t la →
          exec i s = .next ((u.fabLog (pkgOf s.cur) c t la).trap cProtect (BitVec.ofNat 64 ((va + j) % 2 ^ 64)) (BitVec.ofNat 64 kind)))))

/-- A load or store whose base is poisoned traps `POISON_CONSUME`; one of whose bytes does not translate traps as `State.Misses` says
(R67, R76, R136). -/
abbrev Sys2Proof.Machine.LoadStoreFaultPart : Prop :=
  ∀ (d a : Reg) (imm : BitVec 13) (s : State),
    let va := ((s.getX a).val + imm.signExtend 64).toNat
    let at' := fun (kind n : Nat) => s.places (s.agentOf s.cur) (s.heldPins (.scalar s.cur 0)) kind va n
    (∀ p ∈ loadTable, s.hold (p.1 d a imm) = none →
      ((s.getX a).poison = true → exec (p.1 d a imm) s = .next (s.trap cPoison 0 2)) ∧
      ((s.getX a).poison = false → s.Misses (p.1 d a imm) kLoad 0 va false (at' kLoad p.2.1))) ∧
    (∀ p ∈ storeTable, s.hold (p.1 d a imm) = none →
      ((s.getX a).poison = true → exec (p.1 d a imm) s = .next (s.trap cPoison 0 2)) ∧
      ((s.getX a).poison = false → s.Misses (p.1 d a imm) kStore 0 va (s.getX d).poison (at' kStore p.2)))

/-- The read-modify-write atomics and the value each stores, from the old value and the operand, both of `n` bytes (R78). -/
abbrev Sys2Proof.Machine.atomicTable : List ((Reg → Reg → Reg → AmoOrder → Scope → AmoWidth → Instr) × (Nat → Nat → Nat → Nat)) :=
  [(.amoswap, fun _ _ x => x), (.amoadd, fun n o x => (o + x) % 2 ^ (8 * n)), (.amoand, fun _ o x => o &&& x),
   (.amoor, fun _ o x => o ||| x), (.amoxor, fun _ o x => o ^^^ x),
   (.amomin, fun n o x => if (o + 2 ^ (8 * n - 1)) % 2 ^ (8 * n) ≤ (x + 2 ^ (8 * n - 1)) % 2 ^ (8 * n) then o else x),
   (.amomax, fun n o x => if (o + 2 ^ (8 * n - 1)) % 2 ^ (8 * n) ≤ (x + 2 ^ (8 * n - 1)) % 2 ^ (8 * n) then x else o)]

/-- An aligned atomic on memory the hart reaches stores its new value there in the step in which it reads the old one, and
writes the old value, sign-extended, to its destination; when the location is poisoned it stores nothing and writes zero with
poison. `cas` stores only when the location holds the low bytes of `xd`, `ldaq` stores nothing and `strl` writes no register
(R78). -/
def Obligations.AtomicReadsAndWrites : Prop :=
  ∀ (d a b : Reg) (order : AmoOrder) (scope : Scope) (width : AmoWidth) (s : State) (ls : List Nat),
    let n := amoBytes width
    let old := s.mem.numAt ls
    let data := (s.getX b).val.toNat % 2 ^ (8 * n)
    let bad := ls.any s.mem.marked
    let back : PVal := if bad then PVal.poisoned else PVal.clean (extended n true old)
    let moved : Hart := { s.me with pc := s.me.pc + 4, x := (s.me.setX d back).x }
    let bytes := fun (v : Nat) => (List.range n).map (fun i => BitVec.ofNat 8 (v / 256 ^ i))
    let reaches := (s.getX a).poison = false ∧ (s.getX a).val.toNat % n = 0 ∧ s.Reaches (s.getX a).val.toNat n kAtomic ls
    (∀ p ∈ atomicTable, s.hold (p.1 d a b order scope width) = none → reaches →
      ∃ t, exec (p.1 d a b order scope width) s = .next t ∧ s.SameBut t moved ∧
        (bad = true → t.mem = s.mem) ∧
        (bad = false → s.mem.Stored t.mem ls (bytes (p.2 n old data)) (s.getX b).poison)) ∧
    (s.hold (.cas d a b order scope width) = none → reaches → (s.getX d).poison = false →
      ∃ t, exec (.cas d a b order scope width) s = .next t ∧ s.SameBut t moved ∧
        ((bad = true ∨ old ≠ (s.getX d).val.toNat % 2 ^ (8 * n)) → t.mem = s.mem) ∧
        (bad = false → old = (s.getX d).val.toNat % 2 ^ (8 * n) → s.mem.Stored t.mem ls (bytes data) (s.getX b).poison)) ∧
    (s.hold (.ldaq d a scope width) = none → reaches →
      ∃ t, exec (.ldaq d a scope width) s = .next t ∧ s.SameBut t moved ∧ t.mem = s.mem) ∧
    (s.hold (.strl a b scope width) = none → reaches →
      ∃ t, exec (.strl a b scope width) s = .next t ∧ s.SameBut t { s.me with pc := s.me.pc + 4 } ∧
        (bad = true → t.mem = s.mem) ∧ (bad = false → s.mem.Stored t.mem ls (bytes data) (s.getX b).poison))

/-- An atomic checks its operands in the order of R78: a poisoned base, an address that is not a multiple of its width, and for
`cas` a poisoned comparison value trap, with nothing read or written; then one whose bytes do not translate traps as `State.Misses`
says, with the access kind of an atomic. Each form stands with its operation and whether it sends poisoned data. -/
abbrev Sys2Proof.Machine.AtomicChecks : Prop :=
  ∀ (d a b : Reg) (order : AmoOrder) (scope : Scope) (width : AmoWidth) (s : State),
    let va := (s.getX a).val
    let forms : List (Instr × Nat × Bool) :=
      [(.cas d a b order scope width, 9, (s.getX b).poison), (.ldaq d a scope width, 0, false), (.strl a b scope width, 1, (s.getX b).poison)] ++
        atomicTable.zipIdx.map (fun p => (p.1.1 d a b order scope width, p.2 + 2, (s.getX b).poison))
    ∀ p ∈ forms, s.hold p.1 = none →
      ((s.getX a).poison = true → exec p.1 s = .next (s.trap cPoison 0 2)) ∧
      ((s.getX a).poison = false → va.toNat % amoBytes width ≠ 0 → exec p.1 s = .next (s.trap cMisalign va 3)) ∧
      (p.1 = .cas d a b order scope width → (s.getX a).poison = false → va.toNat % amoBytes width = 0 → (s.getX d).poison = true →
        exec p.1 s = .next (s.trap cPoison va 1)) ∧
      ((s.getX a).poison = false → va.toNat % amoBytes width = 0 →
        (p.1 = .cas d a b order scope width → (s.getX d).poison = false) →
        s.Misses p.1 kAtomic p.2.1 va.toNat p.2.2
          (s.places (s.agentOf s.cur) (s.heldPins (.scalar s.cur 0)) kAtomic va.toNat (amoBytes width)))

/-- Loads, stores and atomics trap with the checks of their operands and their bytes, in order, and then perform nothing (R67, R76, R78,
R136, R338, R340). -/
def Obligations.LoadStoreFault : Prop := LoadStoreFaultPart ∧ AtomicChecks

/-! ### Scalar floating point (R79 to R82) -/

/-- The floating-point instructions of the executing hart with what each computes: bits and flags, from its operands (R80 to
R82). -/
abbrev Sys2Proof.Machine.fpTable (s : State) (d a b : Reg) (rm : Rm) (ty src : Ty) (pred : FPred) :
    List (Instr × List PVal × (Word × Flags)) :=
  let x := readF s.me.ftz ty ((s.getX a).val.toNat % 2 ^ ty.width)
  let y := readF s.me.ftz ty ((s.getX b).val.toNat % 2 ^ ty.width)
  let z := readF s.me.ftz ty ((s.getX d).val.toNat % 2 ^ ty.width)
  let m := s.me.rounding rm
  let bits := fun (r : Nat × Flags) => (BitVec.ofNat 64 r.1, r.2)
  let c := convert s.me.ftz ty src (.mode m) false ((s.getX a).val.toNat % 2 ^ src.width)
  [(.fadd d a b rm ty, [s.getX a, s.getX b], bits (fpAdd s.me.ftz ty m x y)),
   (.fsub d a b rm ty, [s.getX a, s.getX b], bits (fpAdd s.me.ftz ty m x y.negate)),
   (.fmul d a b rm ty, [s.getX a, s.getX b], bits (fpMul s.me.ftz ty m x y)),
   (.fdiv d a b rm ty, [s.getX a, s.getX b], bits (fpDiv s.me.ftz ty m x y)),
   (.ffma d a b rm ty, [s.getX a, s.getX b, s.getX d], bits (fpFma s.me.ftz ty m x y z)),
   (.fsqrt d a rm ty, [s.getX a], bits (fpSqrt s.me.ftz ty m x)),
   (.fcmp d a b pred ty, [s.getX a, s.getX b],
     (if (fpCompare pred.code.toNat x y).1 then 1 else 0, (fpCompare pred.code.toNat x y).2)),
   (.fcvt d a src rm ty, [s.getX a], (fcvtWord ty c.bits, c.flags))]

/-- A scalar floating-point instruction on unpoisoned operands sets its flags and writes its result; when it raises a flag that
is enabled it sets the flags and traps `FP_ENABLED` with the enabled flags, writing nothing; a poisoned operand makes the result
poisoned and raises no flag (R35, R67, R68, R80). -/
def Obligations.FloatingPointResult : Prop :=
  ∀ (d a b : Reg) (rm : Rm) (ty src : Ty) (pred : FPred) (s : State), ∀ p ∈ fpTable s d a b rm ty src pred, s.Unheld p.1 →
    (p.2.1.any (·.poison) = false → p.2.2.2 &&& s.me.ten = 0 →
      exec p.1 s = .next ((s.flagged p.2.2.2).wrote d (PVal.clean p.2.2.1))) ∧
    (p.2.1.any (·.poison) = false → p.2.2.2 &&& s.me.ten ≠ 0 →
      exec p.1 s = .next ((s.flagged p.2.2.2).trap cFp 0 ((p.2.2.2 &&& s.me.ten).zeroExtend 64))) ∧
    (p.2.1.any (·.poison) = true → exec p.1 s = .next (s.wrote d PVal.poisoned))

/-- Rounding is exact where it can be: the value of every finite number of a floating-point type rounds, in every mode, to the number itself,
raising nothing (R25, R32). -/
abbrev Sys2Proof.Machine.ExactValuesKept : Prop :=
  ∀ (t : Ty) (rm : Rm) (bits : Nat) (neg : Bool) (m : Nat) (e : Int), t.isInt = false → bits < 2 ^ t.width →
    unpack t bits = .fin neg m e → roundFin false t rm neg m e = (bits, 0)

/-- The magnitude with the bits `b` of a type, in units of 2^e; one above the largest finite magnitude M stands for M + u(M), which the type
does not hold (R33). -/
abbrev Sys2Proof.Machine.gridAt (t : Ty) (e : Int) (b : Nat) : Int :=
  let held := fun (x : Nat) => match unpack t x with
    | .fin _ m q => scaled false m q e
    | _ => 0
  if b ≤ maxMag t then held b else 2 * held (maxMag t) - held (maxMag t - 1)

/-- What rounding delivers beyond the range. In FP64, FP32, FP16, BF16 and E5M2 an infinity, or the largest magnitude where the mode turns
away from it; a conversion clamps E5M2 and E4M3 under `.sat`, gives a NaN in E4M3 without it, and ±6 in E2M1 (R33, R34). -/
abbrev Sys2Proof.Machine.beyond (t : Ty) (conversion sat neg toInf : Bool) : Nat × Flags :=
  let largest := signBit t neg + maxMag t
  (if conversion && (t == .e2m1 || (sat && (t == .e4m3 || t == .e5m2))) then largest
    else if conversion && t == .e4m3 then canonNaN t
    else if toInf then infBits t neg else largest, 0b00101)

/-- A value strictly between two neighbouring magnitudes `b` and `b + 1` of a type, the latter possibly M + u(M), rounds to the one that the
mode names: the nearer, of two as near the even one; toward zero; toward one infinity; or with a 32-bit draw the upper one where the draw
lies below the fraction in units of 2^-32. The result is inexact, and it underflows where twice the value, rounded, lies below twice the
smallest normal number, or with a draw where the value returned lies below the smallest normal number; M + u(M) is the overflow result. A
value at or above M + u(M) is the overflow result (R30, R32 to R34). -/
abbrev Sys2Proof.Machine.NeighbourChosen : Prop :=
  ∀ (t : Ty) (sat neg : Bool) (m b : Nat) (e : Int), t.isInt = false → m ≠ 0 → b ≤ maxMag t →
    let unit := min e (eMin t - fracBits t)
    let v := scaled false m e unit
    let lo := gridAt t unit b
    let hi := gridAt t unit (b + 1)
    let inf := fun (rm : Rm) => rm == .rne || (rm == .rup && !neg) || (rm == .rdn && neg)
    (lo < v → v < hi →
      let delivered := fun (conversion toInf up tiny : Bool) =>
        let mag := if up then b + 1 else b
        if maxMag t < mag then beyond t conversion sat neg toInf
        else (signBit t neg + mag, if tiny then (0b00011 : Flags) else 0b00001)
      (∀ p ∈ ([(.rne, decide (hi - v < v - lo ∨ (hi - v = v - lo ∧ b % 2 = 1))), (.rtz, false), (.rdn, neg), (.rup, !neg)] :
          List (Rm × Bool)),
        let tiny := decide ((roundFin false t p.1 neg m (e + 1)).1 % 2 ^ (t.width - 1) < 2 * 2 ^ fracBits t)
        (t.isFp = true → roundFin false t p.1 neg m e = delivered false (inf p.1) p.2 tiny) ∧
        cvtToFp false t (.mode p.1) sat (.fin neg m e) = delivered true (inf p.1) p.2 tiny) ∧
      ∀ u, let up := decide ((u % 2 ^ 32 : Nat) < (v - lo) * 2 ^ 32 / (hi - lo))
        cvtToFp false t (.draw u) sat (.fin neg m e) =
          delivered true true up (decide ((if up then b + 1 else b) < 2 ^ fracBits t))) ∧
    (gridAt t unit (maxMag t + 1) ≤ v →
      (∀ rm ∈ ([.rne, .rtz, .rdn, .rup] : List Rm),
        (t.isFp = true → roundFin false t rm neg m e = beyond t false sat neg (inf rm)) ∧
        cvtToFp false t (.mode rm) sat (.fin neg m e) = beyond t true sat neg (inf rm)) ∧
      ∀ u, cvtToFp false t (.draw u) sat (.fin neg m e) = beyond t true sat neg true)

/-- Under `FTZ` a subnormal result of FP64, FP32, FP16 or BF16 is the zero of its sign, with UF and NX; every other result is as without
it (R30). -/
abbrev Sys2Proof.Machine.SubnormalsFlushed : Prop :=
  ∀ (t : Ty) (rm : Rm) (neg : Bool) (m : Nat) (e : Int), t.isFp = true →
    let r := roundFin false t rm neg m e
    let mag := r.1 % 2 ^ (t.width - 1)
    roundFin true t rm neg m e = if 0 < mag ∧ mag < 2 ^ fracBits t then (signBit t neg, r.2 ||| 0b00011) else r

/-- Rounding, in every mode: a value that the type holds stays as it is, raising nothing; one between two neighbours becomes one of them; one
beyond the range becomes the overflow result; and subnormal results are flushed under `FTZ` (R25, R30, R32 to R34). -/
def Obligations.RoundingKeepsRepresentable : Prop := ExactValuesKept ∧ NeighbourChosen ∧ SubnormalsFlushed

/-! ### System registers and system functions (R13 to R19, R83 to R88) -/

/-- The numbers that name a system register (R13). -/
abbrev Sys2Proof.Machine.systemNumbers : List Nat :=
  [0x00, 0x01, 0x02, 0x03, 0x04, 0x05, 0x08, 0x10, 0x11, 0x12, 0x13, 0x14, 0x18, 0x20, 0x21, 0x22, 0x23, 0x24, 0x25, 0x26, 0x30,
   0x40, 0x41, 0x42, 0x43, 0x50, 0x51, 0x80, 0x81, 0x90, 0x91, 0x92, 0x93, 0x94, 0xA0, 0xB0, 0xD0, 0xD1, 0xD8] ++
  (List.range 24).map (0x60 + ·) ++ (List.range 16).map (0xC0 + ·)

/-- The registers whose minimum privilege is supervisor (R13). -/
abbrev Sys2Proof.Machine.supervisorNumbers : List Nat :=
  [0x20, 0x21, 0x22, 0x23, 0x24, 0x25, 0x26, 0x30, 0x50, 0x81, 0x90, 0x91, 0x92, 0x93, 0x94, 0xA0, 0xB0, 0xD1, 0xD8] ++
  (List.range 16).map (0xC0 + ·)

/-- The registers that only a vector hart has (R10, R185, R197). -/
abbrev Sys2Proof.Machine.vectorNumbers : List Nat := [0x11, 0x12, 0x51] ++ (List.range 24).map (0x60 + ·)

/-- Whether the executing hart has the vector registers: it is a vector hart, or its microcode declares a vector role (R10). -/
abbrev Sys2Proof.Machine.State.hasVector (s : State) : Prop := s.cur % 8 < 4 ∨ s.me.vecRole = true

/-- Whether the executing hart may access a system register: the number names one, the register is one of its hart's, and its
privilege suffices (R13). -/
abbrev Sys2Proof.Machine.State.mayName (s : State) (n : Nat) : Prop :=
  n ∈ systemNumbers ∧ (n ∈ vectorNumbers → s.hasVector) ∧ (n ∈ supervisorNumbers → s.me.priv ≠ 0)

/-- Whether an access that may be made, and that reads the register or does not, awaits the vector queue (R83, R185). -/
abbrev Sys2Proof.Machine.State.awaitsQueue (s : State) (n : Nat) (reads : Bool) : Prop :=
  (n ∈ [0x10, 0x11, 0x12, 0x13] ∨ (n = 0x51 ∧ reads = true)) ∧ ∃ e ∈ s.me.queue, e.frozen = false

/-- Whether the executing hart may access a system register at once. -/
abbrev Sys2Proof.Machine.State.mayNow (s : State) (n : Nat) (reads : Bool) : Prop := s.mayName n ∧ ¬ s.awaitsQueue n reads

/-- Whether a write is allowed its value: basic, or the context's `EXPERT` is 1 (R19, R153). -/
abbrev Sys2Proof.Machine.State.mayWrite (s : State) (n : Nat) (w : Word) : Prop :=
  s.expert s.cur = true ∨ ((n = 0x10 → w.extractLsb' 8 6 = 0) ∧ (n = 0x13 → 16 ≤ w.toNat % 32) ∧ (n = 0x14 → w = 0) ∧
    (n = 0x50 → w.getLsbD 0 = false))

/-- A system register access that its checks allow: a read writes the register's value to `xd`; a write performs the write of
the register and gives `xd` the old value (R13, R48, R83). -/
abbrev Sys2Proof.Machine.SystemRegisterAccessPart : Prop :=
  ∀ (d a : Reg) (num : BitVec 16) (slot : BitVec 2) (s : State) (old : Word),
    (s.hold (.sysr d num) = none → s.mayNow num.toNat true → s.sysRead s.cur num.toNat = some old →
      exec (.sysr d num) s = .next (s.wrote d (PVal.clean old))) ∧
    (∀ p ∈ ([(Instr.sysw a num, (0 : Reg), num.toNat, false), (.sysx d a num, d, num.toNat, true), (.ctxctlWrite d a, d, 0x30, false),
        (.corectlWrite d a, d, 0x50, false), (.svbufWrite d a slot, d, 0x60 + slot.toNat, false)] : List (Instr × Reg × Nat × Bool)),
      s.hold p.1 = none → s.mayNow p.2.2.1 p.2.2.2 → s.sysRead s.cur p.2.2.1 = some old → (s.getX a).poison = false →
      s.mayWrite p.2.2.1 (s.getX a).val →
      exec p.1 s = .next ((s.sysWrite s.cur p.2.2.1 (s.getX a).val).wrote p.2.1 (PVal.clean old)))

/-- What a register reads after a write: from the number, the old value and the value written (R7, R13, R16 to R19, R135, R153,
R197, R238, R273, R274, R290, R337, R341, R345). -/
abbrev Sys2Proof.Machine.writtenTable : List (Nat × (Word → Word → Word)) :=
  ([(0x10, fun o w => if 5 ≤ w.toNat / 32 % 8 then (w &&& 0x3F1F) ||| (o &&& 0xE0) else w &&& 0x3FFF),
   (0x11, fun _ w => w &&& 0x3F1F),
   (0x13, fun o w => if 4 ≤ w.toNat % 32 ∧ w.toNat % 32 ≤ 16 then w &&& 0x1F else o),
   (0x14, fun _ w => w), (0x20, fun _ w => w &&& 0xC0000000000000FF), (0x21, fun _ w => w &&& 0x0000FFFFFFFFFFFC),
   (0x22, fun _ w => w &&& 0xF), (0x23, fun _ w => w &&& 0x7F), (0x24, fun _ w => w), (0x25, fun _ w => w),
   (0x26, fun _ w => w &&& 0x0000FFFFFFFFFFFC), (0x50, fun _ w => w &&& 1),
   (0x92, fun o w => if w.getLsbD 63 then o &&& 0x7FFFFFFFFFFFFFFF else o),
   (0xD1, fun o w => if w.getLsbD 63 then o &&& 0x7FFFFFFFFFFFFFFF else o), (0xD8, fun _ w => w)] : List (Nat × (Word → Word → Word))) ++
  [0x60, 0x61, 0x62, 0x63].map (fun n => (n, fun _ w => w)) ++
  [0x81, 0x90, 0x91, 0x93, 0x94, 0xA0].map (fun n => (n, fun _ w => w &&& 0xFFFFFFFF)) ++
  (List.range 16).map (fun i => (0xC0 + i, fun _ w => w &&& 0xFFF007FFFFFF0000)) ++
  ([0x00, 0x01, 0x02, 0x03, 0x04, 0x05, 0x08, 0x12, 0x18, 0x40, 0x41, 0x42, 0x43, 0x51, 0x80, 0xB0, 0xD0] ++
    (List.range 20).map (0x64 + ·)).map (fun n => (n, fun o _ => o))

/-- A system register reads back what its fields keep of the value written; a read-only register ignores the write. `CTXCTL`
takes a write only while no other hart of the context is live, and a write of a solve buffer by another context makes it
the owner and clears `SVALID` and `ACTIVE` (R7, R13, R16 to R19, R135, R153, R197). -/
def Obligations.SystemRegisterWritten : Prop :=
  ∀ (s : State) (k : Nat) (w old : Word),
    (∀ p ∈ writtenTable, s.sysRead k p.1 = some old → (s.sysWrite k p.1 w).sysRead k p.1 = some (p.2 old w)) ∧
    (s.othersOfContext k = false → (s.sysWrite k 0x30 w).sysRead k 0x30 = some (w &&& 1)) ∧
    (s.othersOfContext k = true → s.sysWrite k 0x30 w = s) ∧
    (∀ n, n < 4 → let v := (s.core (coreOf k)).slot n; let u := ((s.sysWrite k (0x60 + n) w).core (coreOf k)).slot n
      u.owner = (s.hart k).ctx ∧ (v.owner ≠ (s.hart k).ctx → u.svalid = false ∧ u.active = false))

/-- An access whose checks fail traps and changes nothing else, in the order `ILLEGAL`, `PRIV`, wait for the queue, poisoned data,
and the privilege that an expert value needs (R10, R13, R19, R67, R83). -/
abbrev Sys2Proof.Machine.SystemRegisterChecks : Prop :=
  ∀ (d a : Reg) (num : BitVec 16) (slot : BitVec 2) (s : State),
    let n := num.toNat
    (n ∈ systemNumbers ↔ s.sysRead s.cur n ≠ none) ∧
    (∀ p ∈ ([(Instr.sysr d num, n, true, false), (.sysw a num, n, false, true), (.sysx d a num, n, true, true),
        (.ctxctlWrite d a, 0x30, false, true), (.corectlWrite d a, 0x50, false, true),
        (.svbufWrite d a slot, 0x60 + slot.toNat, false, true)] : List (Instr × Nat × Bool × Bool)),
      s.hold p.1 = none →
      (p.2.1 ∉ systemNumbers ∨ (p.2.1 ∈ vectorNumbers ∧ ¬ s.hasVector) → exec p.1 s = .next (s.trapWord cIllegal p.1)) ∧
      (p.2.1 ∈ systemNumbers → (p.2.1 ∈ vectorNumbers → s.hasVector) → p.2.1 ∈ supervisorNumbers → s.me.priv = 0 →
        exec p.1 s = .next (s.trapWord cPriv p.1)) ∧
      (s.mayName p.2.1 → s.awaitsQueue p.2.1 p.2.2.1 → exec p.1 s = .next (s.waits .drain)) ∧
      (p.2.2.2 = true → s.mayNow p.2.1 p.2.2.1 → (s.getX a).poison = true → exec p.1 s = .next (s.trap cPoison 0 4)) ∧
      (p.2.2.2 = true → s.mayNow p.2.1 p.2.2.1 → (s.getX a).poison = false → ¬ s.mayWrite p.2.1 (s.getX a).val →
        exec p.1 s = .next (s.trapWord cPriv p.1)))

/-- Every access to a system register has its effect, or the trap of its first failing check (R10, R13, R19, R48, R67, R83). Model's choices: log entries 17 and 19. -/
def Obligations.SystemRegisterAccess : Prop := SystemRegisterAccessPart ∧ SystemRegisterChecks

/-- `ecall` raises `SYSCALL` and `ebreak` raises `BREAK`, each with its own address in `TPC` and zero in `TVAL` and `TADDR`; a word
that names no instruction raises `ILLEGAL` with the word in `TVAL`. A speculative chunk waits until it is the oldest. No register of
the program changes, and with a trap vector the hart goes on there at supervisor privilege (R54, R59, R69, R84, R136, R137). That a hart
whose vector unit has an element group under way at another package waits until that has ended (R137, R339) is the model's reading, log
entry 110. -/
def Obligations.SystemCallsTrap : Prop :=
  ∀ (word : IWord) (s : State),
    ∀ p ∈ ([(Instr.ecall, 0x0C, 0), (.ebreak, 0x0B, 0), (.undefinedWord word, 0x01, word.zeroExtend 64)] : List (Instr × Word × Word)),
      (p.1 = .undefinedWord word ∨ s.hold p.1 = none) →
      (s.me.spec = true → exec p.1 s = .next (s.waits .oldest)) ∧
      (s.me.spec = false → s.groupAbroad s.cur = true → exec p.1 s = .next (s.waits .stopping)) ∧
      (s.me.spec = false → s.groupAbroad s.cur = false →
        ∃ t, exec p.1 s = .next t ∧ (t.hart s.cur).tcause = p.2.1 ∧ (t.hart s.cur).tpc = s.me.pc &&& 0x0000FFFFFFFFFFFC ∧
          (t.hart s.cur).tval = p.2.2 ∧ (t.hart s.cur).taddr = 0 ∧ (t.hart s.cur).x = s.me.x ∧ t.mem = s.mem ∧
          (s.me.tvec ≠ 0 → (t.hart s.cur).pc = s.me.tvec ∧ (t.hart s.cur).ppriv = s.me.priv ∧
            (t.hart s.cur).priv = if s.me.priv = 0 then 1 else s.me.priv))

/-- Taking an exception. The hart writes the six record registers, keeps its privilege in `PPRIV`, is raised from user to
supervisor, freezes its queue, whose entries keep their start indices and the pending values of a reduction, and goes on at `TVEC`, or
where that is zero at its context's vector; its x, vector, mask and floating-point registers, every other hart and memory stay, and so do
the packages where it has no access over the fabric under way. With neither vector it takes no further instruction and keeps pc and
privilege, with the record written (R135, R137, R138). -/
def Obligations.TrapEntry : Prop :=
  ∀ (s : State) (k : Nat) (t : TrapInfo),
    let h := s.hart k
    let vector := if h.tvec ≠ 0 then h.tvec else s.ctxTvec (dieOf k) h.ctx
    let record : Hart := { h with
      queue := h.queue.map (fun e => { e with
        frozen := true, started := false, parked := false, pins := [], pend := e.pend.filter (fun p => p.1 < 16) }),
      tcause := t.cause &&& 0xC0000000000000FF, tpc := t.tpc &&& 0x0000FFFFFFFFFFFC, tqpos := BitVec.ofNat 64 (t.tqpos % 16),
      telem := BitVec.ofNat 64 (t.telem % 128), taddr := t.addr, tval := t.val, wait := .none, pendConvoy := none, rxCount := 0,
      retiring := false }
    (vector ≠ 0 →
      (s.takeTrap k t).hart k = { record with ppriv := h.priv, priv := if h.priv = 0 then 1 else h.priv, pc := vector } ∧
      (∀ j, j ≠ k → (s.takeTrap k t).hart j = s.hart j) ∧ (s.takeTrap k t).mem = s.mem ∧
      (s.takeTrap k t).dies = s.dies ∧ (s.Calm k → (s.takeTrap k t).pkgs = s.pkgs)) ∧
    (vector = 0 →
      (s.takeTrap k t).hart k = { record with stopped := true } ∧ (s.takeTrap k t).mem = s.mem ∧ (s.takeTrap k t).dies = s.dies)

/-- `tret` above user privilege, unless it would return from supervisor to firmware, sets the pc from `TPC` and the privilege from
`PPRIV` and unfreezes the queue, whose entries keep their start indices, and changes nothing else; otherwise it traps `PRIV` with
its own word (R85). -/
def Obligations.ReturnFromTrap : Prop :=
  ∀ s : State, s.hold .tret = none →
    (s.me.priv ≠ 0 → ¬(s.me.priv = 1 ∧ s.me.ppriv = 3) →
      exec .tret s = .next (s.setHart s.cur { s.me with
        pc := s.me.tpc, priv := s.me.ppriv, queue := s.me.queue.map (fun e => { e with frozen := false }) })) ∧
    (s.me.priv = 0 ∨ (s.me.priv = 1 ∧ s.me.ppriv = 3) → exec .tret s = .next (s.trap cPriv 0 0x4400FF02))

/-- The instructions that wait or only go on. `wfe` clears a set latch and goes on, goes on at once in a speculative chunk, and
else waits; above user privilege it takes a pending event; `yield` goes on and changes only which harts issue next; `fencei` and a fence go on once the entries they wait for
have completed; a word of major 0x3E that is no `pref` or `resid` goes on (R55, R86, R87, R88, R182). -/
abbrev Sys2Proof.Machine.WaitsAndNoOpsPart : Prop :=
  ∀ (s : State) (dir : FenceDir) (scope : Scope) (w : BitVec 26),
    (s.hold .wfe = none →
      (s.me.spec = true → exec .wfe s = .next (s.jumped (s.me.pc + 4))) ∧
      (s.me.spec = false → s.me.priv = 0 ∨ s.me.events = [] → s.me.latch = true →
        exec .wfe s = .next (s.setHart s.cur { s.me with pc := s.me.pc + 4, latch := false })) ∧
      (s.me.spec = false → s.me.priv = 0 ∨ s.me.events = [] → s.me.latch = false → exec .wfe s = .next (s.waits .wfe)) ∧
      (s.me.spec = false → s.me.priv ≠ 0 → s.me.events ≠ [] → s.groupAbroad s.cur = false →
        exec .wfe s = .next ((s.setHart s.cur { s.me with latch := false }).takeEvent s.cur (s.me.pc + 4)))) ∧
    (s.hold .yield = none → ∃ y, (∀ j ∈ y, j ≠ s.cur ∧ j / 8 = coreOf s.cur ∧ (s.hart j).live = true) ∧
      ((s.core (coreOf s.cur)).strict = true → y = []) ∧
      exec .yield s = .next (s.setHart s.cur { s.me with pc := s.me.pc + 4, yielded := y })) ∧
    (s.hold .fencei = none → s.NoForks →
      ((∀ e ∈ s.me.queue, e.frozen = true) → exec .fencei s = .next (s.jumped (s.me.pc + 4))) ∧
      ((∃ e ∈ s.me.queue, e.frozen = false) → exec .fencei s = .next (s.waits .drain))) ∧
    (s.hold (.fence dir scope) = none → s.NoForks →
      (dir = .sv ∨ dir = .vv ∨ (∀ e ∈ s.me.queue, e.frozen = true) → exec (.fence dir scope) s = .next (s.jumped (s.me.pc + 4))) ∧
      (dir = .vs ∨ dir = .all → (∃ e ∈ s.me.queue, e.frozen = false) → exec (.fence dir scope) s = .next (s.waits .drain))) ∧
    exec (.hintNoOp w) s = .next (s.jumped (s.me.pc + 4))

/-- The hints never trap: a hint whose base is poisoned or whose address no agent may read is counted in `HINTDROP` and dropped;
`resid` changes nothing but what the translation of the address keeps, and `pref` beside that only which lines the caches hold, unless it finds
an error in the line that it reads (R55, R90, R272, R290). -/
abbrev Sys2Proof.Machine.HintsNeverTrap : Prop :=
  ∀ (a : Reg) (imm : BitVec 13) (s : State), (a = 0 ∨ ∀ e ∈ s.me.queue, e.frozen = true) →
    let place := s.xlate (s.agentOf s.cur) [] false ((s.getX a).val + imm.signExtend 64).toNat kLoad
    let u := if (s.getX a).poison then s else place.st
    let dropped := u.modCore (coreOf u.cur) (fun c => { c with hintdrop := min (c.hintdrop + 1) 0xFFFFFFFF })
    ((s.getX a).poison = true ∨ (∃ f, place.ans = .error f) →
      exec (.pref a imm) s = .next (dropped.jumped (u.me.pc + 4)) ∧ exec (.resid a imm) s = .next (dropped.jumped (u.me.pc + 4))) ∧
    ((s.getX a).poison = false → (∃ p, place.ans = .ok p) →
      exec (.resid a imm) s = .next (u.jumped (u.me.pc + 4)) ∧
      ∃ t, exec (.pref a imm) s = .next t ∧ t.hart s.cur = { u.me with pc := u.me.pc + 4 } ∧
        ((∀ l h, place.ans = .ok (.at l h) → isDev l = true → ∀ x ∈ (u.pkg (l / 2 ^ 52)).badSectors, x / 4 ≠ l % 2 ^ 52 / 128) →
          u.SameBut t { u.me with pc := u.me.pc + 4 } ∧ t.mem = u.mem))

/-- The instructions that wait or only go on, and the hints, which never trap (R55, R86 to R90, R182, R290). -/
def Obligations.WaitsAndNoOps : Prop := WaitsAndNoOpsPart ∧ HintsNeverTrap

/-- `halt` with no fork open, and `msgret` by a hart that a message created, leave the hart retiring at the instruction, its frozen
entries discarded and nothing else changed; with a fork open, or in another hart, they trap `ILLEGAL` with their words (R24). Model's choices: log entry 20. -/
def Obligations.HaltAndMsgretRetire : Prop :=
  ∀ s : State,
    let gone := s.setHart s.cur { s.me with retiring := true, queue := s.me.queue.filter (fun e => !e.frozen) }
    (s.hold .halt = none →
      (s.openForks s.cur = 0 → exec .halt s = .next gone) ∧
      (s.openForks s.cur ≠ 0 → exec .halt s = .next (s.trapWord cIllegal .halt))) ∧
    (s.hold .msgret = none →
      (s.me.route = 2 → exec .msgret s = .next gone) ∧
      (s.me.route ≠ 2 → exec .msgret s = .next (s.trapWord cIllegal .msgret)))

/-! ### Full/empty bits, barrier words, messages (R165 to R168, R175 to R177, R226 to R237) -/

/-- The executing hart goes on as `h`, and beside it only event latches of harts may differ. -/
abbrev Sys2Proof.Machine.State.latchesBut (s t : State) (h : Hart) : Prop :=
  t.hart s.cur = { h with latch := (t.hart s.cur).latch } ∧
  ∀ k, k ≠ s.cur → t.hart k = { s.hart k with latch := (t.hart k).latch }

/-- A full/empty access whose address is a multiple of 8 in a TCM or the die store, and whose turn it is: `ldfe` reads the word when
its granule is full and `ldfe.clr` empties the granule in the same step; `stfe` writes the word, poisoned or not, when the
granule is empty and fills it in the same step. No other bit changes, and a change in a TCM sets the latch of every live hart of its
core. While the bit is not as wanted the hart waits (R165, R167, R168). -/
abbrev Sys2Proof.Machine.FullEmptyAccessPart : Prop :=
  ∀ (x a : Reg) (imm : BitVec 13) (s : State) (l : Nat),
    let va := ((s.getX a).val + imm.signExtend 64).toNat
    let ls := (List.range 8).map (l + ·)
    let g := l / 16
    let back : PVal := if s.mem.marked l then PVal.poisoned else PVal.clean (BitVec.ofNat 64 (s.mem.numAt ls))
    let moved : Hart := { s.me with pc := s.me.pc + 4 }
    let others := fun (t : State) => (∀ g', g' ≠ g → (g' ∈ t.full ↔ g' ∈ s.full)) ∧
      (isTcm l = true → ∀ k, k / 8 = (l - 2 ^ 60) / 2 ^ 17 → (s.hart k).live = true → (t.hart k).latch = true)
    (s.getX a).poison = false → va % 8 = 0 → va / 2 ^ 40 = 0xFF → l % 8 = 0 → (isTcm l = true ∨ isStore l = true) → s.NoForks →
    (s.places (s.agentOf s.cur) [] kAtomic va 8).ans = .ok (ls.map (fun b => Place.at b .home)) →
    (s.hold (.ldfeKeep x a imm) = none → g ∈ s.full → s.olderServed s.cur g = false →
      ∃ t, exec (.ldfeKeep x a imm) s = .next t ∧ t.hart s.cur = { moved with x := (s.me.setX x back).x } ∧
        (∀ k, k ≠ s.cur → t.hart k = s.hart k) ∧ t.mem = s.mem ∧ t.full = s.full) ∧
    (s.hold (.ldfeClr x a imm) = none → g ∈ s.full → s.olderServed s.cur g = false →
      ∃ t, exec (.ldfeClr x a imm) s = .next t ∧ s.latchesBut t { moved with x := (s.me.setX x back).x } ∧ t.mem = s.mem ∧
        g ∉ t.full ∧ others t) ∧
    (s.hold (.stfe x a imm) = none → g ∉ s.full → s.olderServed s.cur g = false →
      ∃ t, exec (.stfe x a imm) s = .next t ∧ s.latchesBut t moved ∧ g ∈ t.full ∧ others t ∧
        s.mem.Stored t.mem ls ((List.range 8).map (fun i => (s.getX x).val.extractLsb' (8 * i) 8)) (s.getX x).poison) ∧
    (∀ p ∈ ([(Instr.ldfeKeep x a imm, true), (.ldfeClr x a imm, true), (.stfe x a imm, false)] : List (Instr × Bool)),
      s.hold p.1 = none → s.isFull g ≠ p.2 ∨ s.olderServed s.cur g = true →
      ∃ t, exec p.1 s = .next t ∧ t.hart s.cur = { s.me with wait := .fullEmpty g } ∧ t.mem = s.mem ∧ t.full = s.full)

/-- A full/empty access checks its base, its alignment and that it lies in the windows, in this order, before anything else
(R148, R167). -/
abbrev Sys2Proof.Machine.FullEmptyChecks : Prop :=
  ∀ (x a : Reg) (imm : BitVec 13) (s : State),
    let va := (s.getX a).val + imm.signExtend 64
    ∀ i ∈ ([.ldfeKeep x a imm, .ldfeClr x a imm, .stfe x a imm] : List Instr), s.hold i = none →
      ((s.getX a).poison = true → exec i s = .next (s.trap cPoison 0 2)) ∧
      ((s.getX a).poison = false → va.toNat % 8 ≠ 0 → exec i s = .next (s.trap cMisalign va 3)) ∧
      ((s.getX a).poison = false → va.toNat % 8 = 0 → va.toNat / 2 ^ 40 ≠ 0xFF → exec i s = .next (s.trap cProtect va 3))

/-- Full/empty accesses, and the checks of their operands (R148, R165, R167, R168). Model's choices: log entry 35. -/
def Obligations.FullEmptyAccess : Prop := FullEmptyAccessPart ∧ FullEmptyChecks

/-- The barrier instructions on a word that the hart reaches. `barinit` sets the expected counts and clears the rest. `bararv` adds
its operand's counts, clamps each at its expected value with `OVF` set, and where both are met inverts `PHASE` and clears the
counts. `barwt` goes on when `PHASE` is bit 0 of its operand and else waits. A marked word or a poisoned operand traps with point 1.
Beside the word only what the translation of the address keeps and the caches may differ (R175, R176, R177). -/
def Obligations.BarrierWords : Prop :=
  ∀ (a b : Reg) (s : State) (ls : List Nat),
    let va := (s.getX a).val
    let w := (s.getX b).val.toNat
    let lo := s.mem.numAt (ls.take 8)
    let hi := s.mem.numAt (ls.drop 8)
    let expArv := hi / 2 ^ 48 % 2 ^ 15
    let expBytes := hi % 2 ^ 48
    let arv := lo / 2 ^ 48 % 2 ^ 15 + w / 2 ^ 48 % 2 ^ 15
    let bytes := lo % 2 ^ 48 + w % 2 ^ 48
    let ovf := if expArv < arv ∨ expBytes < bytes then 1 else lo / 2 ^ 63
    let done : Prop := expArv ≤ arv ∧ expBytes ≤ bytes
    let lo' := ovf * 2 ^ 63 + if done then 0 else min arv expArv * 2 ^ 48 + min bytes expBytes
    let hi' := if done then (hi + 2 ^ 63) % 2 ^ 64 else hi
    let number := fun (v : Nat) => (List.range 16).map (fun i => BitVec.ofNat 8 (v / 256 ^ i))
    let moved : Hart := { s.me with pc := s.me.pc + 4 }
    let u := (s.places (s.agentOf s.cur) [] kAtomic va.toNat 16).st
    (s.getX a).poison = false → va.toNat % 16 = 0 → s.Reaches va.toNat 16 kAtomic ls →
    (s.hold (.barinit a b) = none → (s.getX b).poison = false →
      ∃ t, exec (.barinit a b) s = .next t ∧ s.SameBut t moved ∧ s.mem.Stored t.mem ls (number (w % 2 ^ 63 * 2 ^ 64)) false) ∧
    (s.hold (.bararv a b) = none → (s.getX b).poison = false → ls.any s.mem.marked = false →
      ∃ t, exec (.bararv a b) s = .next t ∧ s.SameBut t moved ∧ s.mem.Stored t.mem ls (number (lo' + hi' * 2 ^ 64)) false) ∧
    (s.hold (.barwt a b) = none → (s.getX b).poison = false → ls.any s.mem.marked = false →
      (hi / 2 ^ 63 = w % 2 → exec (.barwt a b) s = .next (u.jumped (u.me.pc + 4))) ∧
      (hi / 2 ^ 63 ≠ w % 2 → exec (.barwt a b) s = .next (u.waits (.barrier va.toNat)))) ∧
    (∀ i ∈ ([.barinit a b, .bararv a b, .barwt a b] : List Instr), s.hold i = none →
      ((s.getX b).poison = true ∨ (i ≠ .barinit a b ∧ ls.any s.mem.marked = true)) → exec i s = .next (u.trap cPoison va 1))

/-- `send` with operands that its rules allow puts a packet at the injection of the stop its direction names: the destination word,
a header word that names the sender's context, the handler, the length, the scope and the sending hart, and the payload registers;
a send to the hart's own core sets the latches of its harts. While the injection is taken the hart waits (R221, R227, R228). That the injection
holds one packet is the model's choice, log entry 138. -/
def Obligations.SendInjectsPacket : Prop :=
  ∀ (a b : Reg) (scope : Scope) (flits : BitVec 3) (s : State),
    let d := (s.getX a).val
    let f := flits.toNat
    let dest := d.toNat / 8 % 2 ^ 23
    let ring := ringOf s.cur
    let pos := posOf (coreOf s.cur)
    let dir := ringDir (d.toNat / 2 ^ 38 % 4) pos (if dest / 8 = ring then dest % 8 else 0)
    let regs := (List.range (2 * f)).map (fun i => (BitVec.ofNat 5 (b.toNat + i) : Reg))
    let allowed := scope ≠ .h ∧ (f = 0 → b = 0) ∧ (0 < f → b.toNat + 2 * f ≤ 32) ∧ coreInScope (coreOf s.cur) dest scope = true
    s.hold (.send a b scope flits) = none →
    ((s.getX a).poison = false → allowed → (∀ r ∈ regs, (s.getX r).poison = false) → s.NoForks →
      (((s.ring ring).stop dir pos).inj = [] →
        ∃ t, exec (.send a b scope flits) s = .next t ∧ s.latchesBut t { s.me with pc := s.me.pc + 4 } ∧ t.mem = s.mem ∧
          ((t.ring ring).stop dir pos).inj = [(s.ring ring).packetSeq] ∧
          (∀ p, tget p (t.ring ring).packets (s.ring ring).packetSeq =
            { id := (s.ring ring).packetSeq, dest := d,
              header := BitVec.ofNat 64 (s.me.ctx % 2 ^ 16 * 2 ^ 48 + d.toNat / 2 ^ 40 % 256 * 2 ^ 40 + f * 2 ^ 37 +
                scope.code.toNat * 2 ^ 32 + s.cur % 2 ^ 26),
              payload := regs.map (fun r => (s.getX r).val), dir := dir, crossed := false, vc := 0, esc := none, notice := false }) ∧
          (dest = coreOf s.cur → ∀ k, k / 8 = dest → (s.hart k).live = true → (t.hart k).latch = true)) ∧
      (((s.ring ring).stop dir pos).inj ≠ [] → exec (.send a b scope flits) s = .next (s.waits .injection))) ∧
    ((s.getX a).poison = true → scope ≠ .h → (f = 0 → b = 0) → (0 < f → b.toNat + 2 * f ≤ 32) →
      exec (.send a b scope flits) s = .next (s.trap cPoison 0 6)) ∧
    ((s.getX a).poison = false → allowed → (∃ r ∈ regs, (s.getX r).poison = true) →
      exec (.send a b scope flits) s = .next (s.trap cPoison 0 6)) ∧
    ((s.getX a).poison = false → ¬ allowed → exec (.send a b scope flits) s = .next (s.trapWord cIllegal (.send a b scope flits)))

/-- `recv` takes the oldest word of the core's receive queue when no older pop waits, and else joins the waiting pops and waits
(R236). -/
abbrev Sys2Proof.Machine.RecvTakesOldestWordPart : Prop :=
  ∀ (d : Reg) (s : State), s.hold (.recv d) = none →
    let c := s.core (coreOf s.cur)
    let turn := ∀ k, c.recvWait.head? = some k → k = s.cur
    (∀ w g r, c.recvQ = (w, g) :: r → turn →
      exec (.recv d) s = .next ((s.modCore (coreOf s.cur) (fun x => { x with recvQ := r, recvWait := x.recvWait.filter (· != s.cur) })).wrote d
        (PVal.clean w))) ∧
    (c.recvQ = [] ∨ ¬ turn →
      exec (.recv d) s = .next ((s.modCore (coreOf s.cur) (fun x => { x with recvWait := joinLast s.cur x.recvWait })).waits .recv))

/-- `htset` reads two dwords at a 16-byte aligned address and makes them an entry of the core's handler table, unless a reserved field
is nonzero or a user hart would touch an entry of supervisor privilege or of another context (R230, R234). -/
abbrev Sys2Proof.Machine.HandlerTableEntry : Prop :=
  ∀ (a b : Reg) (s : State) (ls : List Nat), s.hold (.htset a b) = none → (s.getX a).poison = false → (s.getX b).poison = false →
    let n := (s.getX a).val.toNat % 256
    let va := (s.getX b).val
    let w0 : Word := BitVec.ofNat 64 (s.mem.numAt (ls.take 8))
    let w1 : Word := BitVec.ofNat 64 (s.mem.numAt (ls.drop 8))
    let old := (s.core (coreOf s.cur)).handler n
    let ok := w0.extractLsb' 48 16 = 0 ∧ w0.extractLsb' 0 2 = 0 ∧ w1.extractLsb' 16 45 = 0
    let own := w1.getLsbD 61 = false ∧ (w1.getLsbD 63 = true → (w1.extractLsb' 0 16).toNat = s.me.ctx) ∧
      (old.w1.getLsbD 63 = true → (old.w1.extractLsb' 0 16).toNat = s.me.ctx)
    (va.toNat % 16 ≠ 0 → exec (.htset a b) s = .next (s.trap cMisalign va 0)) ∧
    (va.toNat % 16 = 0 → s.Reaches va.toNat 16 kLoad ls →
      let u := (s.places (s.agentOf s.cur) [] kLoad va.toNat 16).st
      (ls.any s.mem.marked = true → exec (.htset a b) s = .next (u.trap cPoison va 4)) ∧
      (ls.any s.mem.marked = false → ¬ ok → exec (.htset a b) s = .next (u.trapWord cIllegal (.htset a b))) ∧
      (ls.any s.mem.marked = false → ok → s.me.priv = 0 → ¬ own → exec (.htset a b) s = .next (u.trapWord cPriv (.htset a b))) ∧
      (ls.any s.mem.marked = false → ok → (s.me.priv ≠ 0 ∨ own) →
        exec (.htset a b) s = .next ((u.modCore (coreOf u.cur) (fun c =>
          { c with handlers := tset Handler.empty c.handlers n { w0 := w0, w1 := w1 } })).jumped (u.me.pc + 4))))

/-- The receiving side: `recv`, and the handler table with `htset` (R230, R234, R236). Model's choices: log entry 11. -/
def Obligations.RecvTakesOldestWord : Prop := RecvTakesOldestWordPart ∧ HandlerTableEntry

/-! ### Forks (R200 to R206) -/

/-- The declarations with their items. -/
abbrev Sys2Proof.Machine.declTable (r q : Reg) (imm : BitVec 13) (op : RedOp) (v : VReg) : List (Instr × DeclItem) :=
  [(.fdeclCarry r, .carry r), (.fdeclIndImm r imm, .indImm r imm), (.fdeclIndReg r q, .indReg r q), (.fdeclRed r op, .red r op),
   (.fdeclVlive v, .vlive v)]

/-- A declaration joins the hart's declaration set when its register is not `x0` and not declared yet, or, of a vector live-in, when
the hart is a vector hart, the register is not a live-in yet and fewer than eight are; otherwise it traps `ILLEGAL` (R200). -/
def Obligations.DeclarationsCollect : Prop :=
  ∀ (r q : Reg) (imm : BitVec 13) (op : RedOp) (v : VReg) (s : State), ∀ p ∈ declTable r q imm op v, s.hold p.1 = none →
    let lives := s.me.decls.filter (fun d => d.reg? == none)
    let ok := if p.1 = .fdeclVlive v then s.cur % 8 < 4 ∧ .vlive v ∉ s.me.decls ∧ lives.length < 8
      else r ≠ 0 ∧ ∀ d ∈ s.me.decls, d.reg? ≠ some r
    (ok → exec p.1 s = .next (s.setHart s.cur { s.me with pc := s.me.pc + 4, decls := s.me.decls ++ [p.2] })) ∧
    (¬ ok → exec p.1 s = .next (s.trapWord cIllegal p.1))

/-- `fork.s` and `fork.d`. A fork waits for the vector entries, and a chunk's for its stores: while the chunk is speculative until it is the
oldest, as long as it holds versions. Zero iterations discard the declarations and go on at the target. Otherwise the body starts at the next
word with chunk 0: flags and `VSTAT` clear, lane tables empty, undeclared x registers kept, vector registers kept only where
declared; and the fork is open with its iterations, its chunk size, body and target, on the ring sequencer when a ring program
opens its first fork, else on the hart (R201 to R204). Model's choices: log entries 52 and 117. -/
def Obligations.ForkOpens : Prop :=
  ∀ (a b : Reg) (imm : BitVec 13) (s : State),
    let target := (s.me.pc + BitVec.ofInt 64 (imm.toInt * 4)) &&& 0x0000FFFFFFFFFFFC
    let n := (s.getX a).val.toNat
    let xb := (s.getX b).val.toNat
    let m := 4 * s.ringSize (ringOf s.cur)
    let c := max (max 1 (if xb = 0 then (n + m - 1) / m else xb)) ((n + 65535) / 65536)
    let carries := ∃ r, DeclItem.carry r ∈ s.me.decls
    ∀ p ∈ ([(Instr.forkS a b imm, false), (.forkD a b imm, true)] : List (Instr × Bool)), s.hold p.1 = none →
      ((∃ e ∈ s.me.queue, e.frozen = false) → exec p.1 s = .next (s.waits .drain)) ∧
      ((∀ e ∈ s.me.queue, e.frozen = true) → s.me.spec = true → s.ownVersions s.cur = true → exec p.1 s = .next (s.waits .oldest)) ∧
      ((∀ e ∈ s.me.queue, e.frozen = true) → s.ownVersions s.cur = false →
        ((s.getX a).poison = true ∨ (s.getX b).poison = true → exec p.1 s = .next (s.trap cPoison 0 1)) ∧
        ((s.getX a).poison = false → (s.getX b).poison = false →
          ((p.2 = true ∧ carries) ∨ 4 ≤ s.openForks s.cur → exec p.1 s = .next (s.trapWord cIllegal p.1)) ∧
          (¬(p.2 = true ∧ carries) → s.openForks s.cur < 4 →
            (n = 0 → ∃ t, exec p.1 s = .next t ∧ t.hart s.cur = { s.me with decls := [], pc := target } ∧
              (∀ k, k ≠ s.cur → t.hart k = s.hart k) ∧ t.mem = s.mem) ∧
            (n = 0 → s.NoForks → exec p.1 s = .next (s.setHart s.cur { s.me with decls := [], pc := target })) ∧
            (n ≠ 0 → ∃ t, exec p.1 s = .next t ∧ (t.hart s.cur).pc = s.me.pc + 4 ∧ (t.hart s.cur).decls = [] ∧
              (t.hart s.cur).chunkno = 0 ∧ (t.hart s.cur).fstat = s.me.fstat &&& 0xFFFFFFFFFFFFFFE0 ∧ (t.hart s.cur).vstat = 0 ∧
              (t.hart s.cur).lanes = { cells := [], marks := [] } ∧ (t.hart s.cur).m = s.me.m ∧ (t.hart s.cur).vl = s.me.vl ∧
              (∀ r, (∀ d ∈ s.me.decls, d.reg? ≠ some r) → (t.hart s.cur).getX r = s.me.getX r) ∧
              (∀ v e, (t.hart s.cur).getV v e =
                if ∃ r : VReg, r.toNat = v ∧ .vlive r ∈ s.me.decls then s.me.getV v e else PVal.clean 0) ∧
              (∀ k, k ≠ s.cur → t.hart k = s.hart k) ∧ t.mem = s.mem ∧
              (s.forkParallel = true → ∃ f, (t.ring (ringOf s.cur)).fork = some f ∧ f.hart = s.cur ∧ f.strip = p.2 ∧ f.n = n ∧ f.c = c ∧
                f.body = (s.me.pc + 4).toNat ∧ f.target = target.toNat ∧ f.decls = s.me.decls ∧ f.oldest = 0 ∧
                f.chunks.map (fun k => (k.num, k.hart, k.state)) = [(0, s.cur, .oldest)]) ∧
              (s.forkParallel = false → (s.NoForks → t.rings = s.rings) ∧ ∃ f, (t.hart s.cur).forks = f :: s.me.forks ∧ f.n = n ∧ f.i = 0 ∧
                f.body = (s.me.pc + 4).toNat ∧ f.target = target.toNat ∧ f.decls = s.me.decls)))))

/-- A declaration set as declarations make it: no register is declared twice (R200). -/
abbrev Sys2Proof.Machine.Distinct (ds : List DeclItem) : Prop :=
  ∀ d ∈ ds, ∀ r, d.reg? = some r → ds.filter (fun e => e.reg? == some r) = [d]

/-- A hart after a join: `x` as the loop left it but for each reduction register, which holds its fold; the vector state and `HCTL` of the
fork; the flags of the fork, of the loop and of the folds; the `VSTAT` flags of the fork and of the loop, with the column of the loop
where it set `SING`; `CHUNKNO` as at the fork; and the pc at the target (R39, R203). -/
abbrev Sys2Proof.Machine.JoinedAs (g : Hart) (ds : List DeclItem) (sv : Saved) (x : Tab PVal) (fold : Reg → RedOp → PVal × Flags)
    (flags vflags : BitVec 5) (sing : Option (BitVec 6)) (chunkno target : Nat) : Prop :=
  let sums := ds.filterMap (fun d => match d with
    | .red r op => some (fold r op).2
    | _ => none)
  g.pc = BitVec.ofNat 64 target ∧ g.v = sv.v ∧ g.m = sv.m ∧ g.vl = sv.vl ∧ g.lanes = sv.lanes ∧ g.hctl = sv.hctl ∧ g.chunkno = chunkno ∧
  (∀ r : Reg, (∀ op, .red r op ∉ ds) → tget (PVal.clean 0) g.x r.toNat = tget (PVal.clean 0) x r.toNat) ∧
  (∀ (r : Reg) (op : RedOp), .red r op ∈ ds → tget (PVal.clean 0) g.x r.toNat = (fold r op).1) ∧
  g.fstat = sv.fstat ||| flags.zeroExtend 64 ||| (sums.foldl (· ||| ·) 0).zeroExtend 64 ∧
  g.vstat.extractLsb' 0 5 = sv.vstat.extractLsb' 0 5 ||| vflags ∧ g.vstat.extractLsb' 8 6 = sing.getD (sv.vstat.extractLsb' 8 6)

/-- The fold of a reduction register: what its fork found in it and the partial of the loop, combined exactly and rounded once (R39). -/
abbrev Sys2Proof.Machine.foldOf (sv : Saved) (x0 : Tab PVal) (part : Reg → RedOp → Partial) (r : Reg) (op : RedOp) : PVal × Flags :=
  (Partial.join op (sv.fstat.getLsbD 8) (foldStart op (sv.fstat.getLsbD 8) (tget (PVal.clean 0) x0 r.toNat)) (part r op)).result op
    (sv.fstat.getLsbD 8)

/-- The integer reduction operators (R39). -/
abbrev Sys2Proof.Machine.reductionTable : List (RedOp × (Word → Word → Word)) :=
  [(.addS64, fun a b => a + b), (.minS64, fun a b => if b.toInt < a.toInt then b else a),
   (.maxS64, fun a b => if a.toInt < b.toInt then b else a), (.minN64, fun a b => if b.toNat < a.toNat then b else a),
   (.maxN64, fun a b => if a.toNat < b.toNat then b else a), (.and, fun a b => a &&& b), (.or, fun a b => a ||| b),
   (.xor, fun a b => a ^^^ b)]

/-- What a fold holds: poison where a part of it is poisoned, else the integer operator's value; of a floating-point sum the exact sum
rounded once to nearest, or the canonical NaN with `NV` where a NaN or both infinities took part (R39). -/
abbrev Sys2Proof.Machine.FoldValues : Prop :=
  ∀ (ftz : Bool) (r0 : PVal) (p : Partial),
    let fold := fun (op : RedOp) => (Partial.join op ftz (foldStart op ftz r0) p).result op ftz
    (r0.poison = true ∨ p.poison = true → ∀ op, fold op = (PVal.poisoned, 0)) ∧
    (r0.poison = false → p.poison = false →
      (∀ q ∈ reductionTable, (fold q.1).1 = PVal.clean (q.2 r0.val p.val)) ∧
      (∀ q ∈ ([(.addF64, .f64, r0.val.toNat), (.addF32, .f32, r0.val.toNat % 2 ^ 32)] : List (RedOp × Ty × Nat)),
        (p.nan = true ∨ (p.negInf = true ∧ p.posInf = true) → fold q.1 = (PVal.clean (BitVec.ofNat 64 (canonNaN q.2.1)), fNV)) ∧
        (∀ n m e, readF ftz q.2.1 q.2.2 = .fin n m e → p.nan = false → p.negInf = false → p.posInf = false →
          let sum := units n m e + p.sum
          let r := roundFin ftz q.2.1 .rne (decide (sum < 0)) sum.natAbs (-1074)
          fold q.1 = (PVal.clean (BitVec.ofNat 64 r.1), r.2))))

/-- `x'` holds the induction registers of `x` each one stride on, and every other register as in `x` (R200, R203). -/
abbrev Sys2Proof.Machine.Stepped (ds : List DeclItem) (x0 x x' : Tab PVal) : Prop :=
  (∀ r : Reg, (∀ d ∈ ds, d.reg? = some r → ∃ q op, d = .carry q ∨ d = .red q op) →
    tget (PVal.clean 0) x' r.toNat = tget (PVal.clean 0) x r.toNat) ∧
  (∀ (r : Reg) (imm : BitVec 13), ds.filter (fun d => d.reg? == some r) = [.indImm r imm] →
    tget (PVal.clean 0) x' r.toNat = addP (tget (PVal.clean 0) x r.toNat) (PVal.clean (imm.signExtend 64))) ∧
  (∀ r q : Reg, ds.filter (fun d => d.reg? == some r) = [.indReg r q] →
    tget (PVal.clean 0) x' r.toNat = addP (tget (PVal.clean 0) x r.toNat)
      (if q = 0 then PVal.clean 0 else tget (PVal.clean 0) x0 q.toNat))

/-- The end of an iteration. `cend` with iterations left steps the induction registers and goes on at the body; after the last
iteration of a sequential fork, and at `exitl`, the hart joins at the target, or, where a flag that a fold raises is enabled, traps there,
a speculative chunk only once it is the oldest; at the end of a chunk the chunk has its end values, the carried registers as stepped, and
waits for its commit; `exitl` in a chunk makes it the last and discards the younger ones. Until the hart's queue is empty each of these
ends waits. Outside every fork both trap `ILLEGAL` (R203, R208, R210, R216). -/
abbrev Sys2Proof.Machine.IterationEndsPart : Prop :=
  ∀ s : State,
    let drained := ∀ e ∈ s.me.queue, e.frozen = true
    (∀ f r, s.me.forks = f :: r → ∃ x', Stepped f.decls f.x0 s.me.x x' ∧
      (s.hold .cend = none → f.i + 1 ≠ f.n → exec .cend s = .next (s.setHart s.cur { s.me with
        x := x', pc := BitVec.ofNat 64 f.body, forks := { f with i := f.i + 1 } :: r })) ∧
      (∀ p ∈ ([(Instr.cend, x'), (.exitl, s.me.x)] : List (Instr × Tab PVal)), s.hold p.1 = none → (p.1 = .cend → f.i + 1 = f.n) →
        (¬ drained → exec p.1 s = .next (s.waits .queueEmpty)) ∧
        (drained → Distinct f.decls →
          let fold := foldOf f.saved f.x0 (fun q op => tget (Partial.start op) f.parts q.toNat)
          let raised := (f.decls.filterMap (fun d => match d with
            | .red q op => some (fold q op).2
            | _ => none)).foldl (· ||| ·) 0 &&& f.saved.fstat.extractLsb' 9 5
          ∃ g : Hart, JoinedAs g f.decls f.saved p.2 fold (s.me.fstat.extractLsb' 0 5) (s.me.vstat.extractLsb' 0 5)
              (if s.me.vstat.getLsbD 2 then some (s.me.vstat.extractLsb' 8 6) else none) f.chunkno f.target ∧
            g = { s.me with x := g.x, v := g.v, m := g.m, vl := g.vl, lanes := g.lanes, hctl := g.hctl, fstat := g.fstat, vstat := g.vstat,
                            chunkno := g.chunkno, pc := g.pc, wait := .none, forks := r } ∧
            (raised = 0 → exec p.1 s = .next (s.setHart s.cur g)) ∧
            (raised ≠ 0 → s.me.spec = true → exec p.1 s = .next (s.waits .oldest)) ∧
            (raised ≠ 0 → s.me.spec = false → exec p.1 s = .next ((s.setHart s.cur g).takeTrap s.cur
              { cause := BitVec.ofNat 64 cFp, tpc := BitVec.ofNat 64 f.target, tqpos := 0, telem := 0, addr := 0,
                val := raised.zeroExtend 64 }))))) ∧
    (s.me.forks = [] → ∀ f c, s.chunkOf s.cur = some (f, c) → ∃ x', Stepped f.decls f.x0 s.me.x x' ∧
      (s.hold .cend = none → c.i + 1 ≠ f.n → c.i + 1 ≠ (c.num + 1) * f.c →
        ∃ t, exec .cend s = .next t ∧
          t.hart s.cur = { s.me with x := x', pc := BitVec.ofNat 64 f.body } ∧ t.mem = s.mem ∧
          ∃ g, (t.ring (ringOf s.cur)).fork = some g ∧ { c with i := c.i + 1 } ∈ g.chunks) ∧
      (s.hold .cend = none → c.i + 1 = f.n ∨ c.i + 1 = (c.num + 1) * f.c →
        (¬ drained → exec .cend s = .next (s.waits .queueEmpty)) ∧
        (drained → ∃ t, exec .cend s = .next t ∧ (t.hart s.cur).pc = s.me.pc ∧ (t.hart s.cur).x = x' ∧ t.mem = s.mem ∧
          ∃ g, (t.ring (ringOf s.cur)).fork = some g ∧
            { c with i := c.i + 1, ends := some (carried f.decls x'), exited := false,
                     state := if c.state = .oldest then .commit else .ended } ∈ g.chunks)) ∧
      (s.hold .exitl = none →
        (¬ drained → exec .exitl s = .next (s.waits .queueEmpty)) ∧
        (drained → (∀ d ∈ f.chunks, c.num < d.num → d.hart ≠ s.cur) →
          ∃ t, exec .exitl s = .next t ∧ (t.hart s.cur).pc = s.me.pc ∧ (t.hart s.cur).x = s.me.x ∧ t.mem = s.mem ∧
          ∃ g, (t.ring (ringOf s.cur)).fork = some g ∧ g.last = some c.num ∧ (∀ d ∈ g.chunks, d.num ≤ c.num) ∧
            { c with ends := some (carried f.decls s.me.x), exited := true,
                     state := if c.state = .oldest then .commit else .ended } ∈ g.chunks))) ∧
    (s.me.forks = [] → s.chunkOf s.cur = none →
      (s.hold .cend = none → exec .cend s = .next (s.trapWord cIllegal .cend)) ∧
      (s.hold .exitl = none → exec .exitl s = .next (s.trapWord cIllegal .exitl)))

/-- `p'` is the partial `p` of an operator joined with one more operand: poisoned by a poisoned one; of a floating-point sum with the exact
value added, or the NaN or infinity noted; else combined by the operator, of floating point by minimumNumber or maximumNumber with a
signalling NaN noted (R39, R206). -/
abbrev Sys2Proof.Machine.Partial.Joined (ftz : Bool) (op : RedOp) (p : Partial) (x : PVal) (p' : Partial) : Prop :=
  (x.poison = true → p' = { p with poison := true }) ∧
  (x.poison = false →
    (∀ q ∈ ([(.addF64, .f64), (.addF32, .f32)] : List (RedOp × Ty)), q.1 = op → p' = match readF ftz q.2 (x.val.toNat % 2 ^ q.2.width) with
      | .nan _ => { p with nan := true }
      | .inf true => { p with negInf := true }
      | .inf false => { p with posInf := true }
      | .fin n m e => { p with sum := p.sum + units n m e }) ∧
    (∀ q ∈ reductionTable, q.1 = op → p' = { p with val := q.2 p.val x.val }) ∧
    (∀ q ∈ ([(.minF64, .f64, false), (.minF32, .f32, false), (.maxF64, .f64, true), (.maxF32, .f32, true)] : List (RedOp × Ty × Bool)),
      q.1 = op →
      let r := fpMinMax q.2.2 ftz q.2.1 (p.val.toNat % 2 ^ q.2.1.width) (x.val.toNat % 2 ^ q.2.1.width)
      p' = { p with val := BitVec.ofNat 64 r.1, nan := p.nan || decide (r.2 ≠ 0) }))

/-- The updates of a reduction register with the operators whose updates they are, and the operand that each combines (R206). -/
abbrev Sys2Proof.Machine.updateTable (s : State) (r b : Reg) (imm : BitVec 16) (rm : Rm) : List (Instr × List RedOp × PVal) :=
  (if b = r then [] else
    [(.fadd r r b rm .f64, [.addF64], s.getX b), (.fadd r r b rm .f32, [.addF32], s.getX b),
     (.min r r b, [.minF64, .minF32, .minS64], s.getX b), (.max r r b, [.maxF64, .maxF32, .maxS64], s.getX b),
     (.add r r b, [.addS64], s.getX b), (.minu r r b, [.minN64], s.getX b), (.maxu r r b, [.maxN64], s.getX b),
     (.and r r b, [.and], s.getX b), (.or r r b, [.or], s.getX b), (.xor r r b, [.xor], s.getX b)]) ++
  [(.addi r r imm, [.addS64], PVal.clean (imm.signExtend 64))]

/-- The update of a reduction register joins its operand to the partial of the innermost open fork that declares the register, sequential or
the hart's chunk, and does nothing else: the register and the flags stay, and the pc stands at the next word. A register-register
instruction that names the register and is no update of its operator traps `ILLEGAL` (R206). Model's choices: log entry 133. -/
abbrev Sys2Proof.Machine.ReductionUpdates : Prop :=
  ∀ (r b : Reg) (imm : BitVec 16) (rm : Rm) (s : State), r ≠ 0 →
    let declares := fun (ds : List DeclItem) (op : RedOp) => ds.find? (fun d => d.reg? == some r) = some (.red r op)
    let silent := fun (ds : List DeclItem) => ∀ d ∈ ds, d.reg? ≠ some r
    (∀ p ∈ updateTable s r b imm rm, ∀ op ∈ p.2.1, s.hold p.1 = none →
      (∀ pre f rest, s.me.forks = pre ++ f :: rest → (∀ g ∈ pre, silent g.decls) → declares f.decls op →
        ∃ p', Partial.Joined s.me.ftz op (tget (Partial.start op) f.parts r.toNat) p.2.2 p' ∧
          exec p.1 s = .next (s.setHart s.cur { s.me with
            pc := s.me.pc + 4, forks := pre ++ { f with parts := tput f.parts r.toNat p' } :: rest })) ∧
      (∀ f c, (∀ g ∈ s.me.forks, silent g.decls) → s.chunkOf s.cur = some (f, c) → declares f.decls op → f.chunk? c.num = some c →
        (f.chunks.filter (fun d => d.num = c.num)).length = 1 →
        ∃ p', Partial.Joined s.me.ftz op (tget (Partial.start op) c.parts r.toNat) p.2.2 p' ∧
          exec p.1 s = .next ((s.modFork (ringOf s.cur) (fun g => { g with
            chunks := g.chunks.map (fun d => if d.num = c.num then { d with parts := tput d.parts r.toNat p' } else d) })).jumped
              (s.me.pc + 4)))) ∧
    (∀ p ∈ registerTable, ∀ (d a : Reg) (op : RedOp), s.role s.cur r = some (.red r op) → r ∈ [d, a, b] →
      (∀ q ∈ updateTable s r b imm rm, op ∈ q.2.1 → q.1 ≠ p.1 d a b) →
      (∀ x ∈ [d, a, b], x ≠ 0 → s.me.xPending x = false) → exec (p.1 d a b) s = .next (s.trapWord cIllegal (p.1 d a b)))

/-- The ends of an iteration, of a chunk and of a sequential fork, the folds of a join, and the updates of reduction registers (R39, R203, R206,
R208, R210, R216). Model's choices: log entries 23, 54 and 133. -/
def Obligations.IterationEnds : Prop := IterationEndsPart ∧ FoldValues ∧ ReductionUpdates

/-! ### Engines, solver, die, leases (R169, R197 to R199, R247, R256, R287, R288, R294, R317, R350 to R359) -/

/-- A kick names a 64-byte aligned block that translates. `cpy` hands a copy with the hart's context and privilege to the engine of its
core while fewer than 32 are in flight and no older kick waits; `mgkick` enters the command, with its block and table as read, in the
merge network of its ring while fewer than four wait and nothing of it is still to come over the fabric; otherwise the hart joins those
that wait. `mgstat` reads whether a command runs, how many wait, and the
address of the running one if it is the hart's context's (R169, R247, R256). -/
def Obligations.EngineKicks : Prop :=
  ∀ (a d : Reg) (s : State),
    let va := (s.getX a).val
    let r := s.ring (ringOf s.cur)
    let x := s.places (s.agentOf s.cur) [] kLoad va.toNat 64
    let u := x.st
    let c := u.core (coreOf u.cur)
    let q := u.ring (ringOf u.cur)
    let kicked := (s.getX a).poison = false ∧ va.toNat % 64 = 0 ∧ (∃ ps, x.ans = .ok ps) ∧ u.NoForks
    (∀ i ∈ ([.cpy a, .mgkick a] : List Instr), s.hold i = none →
      ((s.getX a).poison = true → exec i s = .next (s.trap cPoison 0 2)) ∧
      ((s.getX a).poison = false → va.toNat % 64 ≠ 0 → exec i s = .next (s.trap cMisalign va 0))) ∧
    (s.hold (.cpy a) = none → kicked →
      let turn := c.copies.length < 32 ∧ ∀ k, c.copyWait.head? = some k → k = u.cur
      (turn → exec (.cpy a) s = .next ((u.modCore (coreOf u.cur) (fun y => { y with
        copies := y.copies ++ [newCopy y.copySeq va.toNat u.me.ctx u.me.priv],
        copySeq := y.copySeq + 1, copyWait := y.copyWait.filter (· != u.cur) })).jumped (u.me.pc + 4))) ∧
      (¬ turn → exec (.cpy a) s = .next ((u.modCore (coreOf u.cur) (fun y => { y with copyWait := joinLast u.cur y.copyWait })).waits
        .copySlot))) ∧
    (s.hold (.mgkick a) = none → kicked →
      let turn := q.mergeQ.length < 4 ∧ ∀ k, q.mergeWait.head? = some k → k = u.cur
      let join := fun (v : State) => v.modRing (ringOf u.cur) (fun y => { y with mergeWait := joinLast u.cur y.mergeWait })
      (turn → ∀ v : State,
        (∀ cmd, u.mergeCommand u.cur va.toNat = (v, some cmd) →
          exec (.mgkick a) s = .next ((v.modRing (ringOf u.cur) (fun y => { y with
            mergeQ := y.mergeQ ++ [cmd], mergeWait := y.mergeWait.filter (· != u.cur) })).jumped (v.me.pc + 4)) ∧
          cmd.addr = va.toNat ∧ cmd.ctx = u.me.ctx ∧ cmd.priv = u.me.priv ∧ cmd.core = coreOf u.cur) ∧
        (u.mergeCommand u.cur va.toNat = (v, none) → exec (.mgkick a) s = .next ((join v).waits .mergeSlot))) ∧
      (¬ turn → exec (.mgkick a) s = .next ((join u).waits .mergeSlot))) ∧
    (s.hold (.mgstat d) = none →
      (r.mergeRun = none → exec (.mgstat d) s = .next (s.wrote d (PVal.clean (BitVec.ofNat 64 (r.mergeQ.length % 8 * 2 ^ 60))))) ∧
      (∀ m, r.mergeRun = some m → exec (.mgstat d) s = .next (s.wrote d (PVal.clean (BitVec.ofNat 64
        (2 ^ 63 + r.mergeQ.length % 8 * 2 ^ 60 + if m.cmd.ctx = s.me.ctx then m.cmd.addr % 2 ^ 48 else 0))))))

/-- The solver instructions on a vector hart. `svbegin` makes the context the owner of the slot, active, with its hash and deadline and
no iterations; `svchk` compares its operands as FP64, counts an iteration and writes both to `xd`, or traps `DEADLINE_MISS`;
`svwarm` copies the stored solution to its region where the hashes agree, and else writes zero and sets `WSMISS`; `svend` copies its
region to the buffer, which then holds a solution. A scalar hart, and a slot that is not active for the context, trap `ILLEGAL`
(R197 to R199). -/
def Obligations.SolverSlots : Prop :=
  ∀ (d a b : Reg) (slot : BitVec 2) (s : State),
    let v := s.solveSlot slot
    let now := (s.pkg (pkgOf s.cur)).timebase
    let setSlot := fun (f : SolveSlot → SolveSlot) => s.modCore (coreOf s.cur) (fun c => c.modSlot slot.toNat f)
    let mine := v.owner = s.me.ctx ∧ v.active = true
    (∀ p ∈ ([(Instr.svbegin a b slot, true), (.svwarm a slot, false), (.svchk d a b slot, false), (.svend a slot, false)] :
        List (Instr × Bool)), s.hold p.1 = none → 4 ≤ s.cur % 8 ∨ (p.2 = false ∧ ¬ mine) →
      exec p.1 s = .next (s.trapWord cIllegal p.1)) ∧
    (s.cur % 8 < 4 →
      (s.hold (.svbegin a b slot) = none →
        ((s.getX a).poison = true ∨ (s.getX b).poison = true → exec (.svbegin a b slot) s = .next (s.trap cPoison 0 4)) ∧
        ((s.getX a).poison = false → (s.getX b).poison = false →
          exec (.svbegin a b slot) s = .next ((setSlot (fun w => { w with
            owner := s.me.ctx, svalid := (w.svalid && w.owner == s.me.ctx), cur := (s.getX a).val, iter := 0, active := true,
            dl := if (s.getX b).val = 0 then 0 else min (now + (s.getX b).val.toNat) (2 ^ 64 - 1) })).jumped (s.me.pc + 4)))) ∧
      (s.hold (.svchk d a b slot) = none → mine →
        let conv := (fpCompare 2 (readF s.me.ftz .f64 (s.getX a).val.toNat) (readF s.me.ftz .f64 (s.getX b).val.toNat)).1
        let n := min (v.iter + 1) (2 ^ 32 - 1)
        ((s.getX a).poison = true ∨ (s.getX b).poison = true → exec (.svchk d a b slot) s = .next (s.trap cPoison 0 1)) ∧
        ((s.getX a).poison = false → (s.getX b).poison = false → conv = false → v.dl ≠ 0 → v.dl ≤ now →
          exec (.svchk d a b slot) s = .next (s.trap cDeadline 0 (BitVec.ofNat 64 slot.toNat))) ∧
        ((s.getX a).poison = false → (s.getX b).poison = false → (conv = true ∨ v.dl = 0 ∨ now < v.dl) →
          exec (.svchk d a b slot) s = .next ((setSlot (fun w => { w with iter := n })).wrote d (PVal.clean
            ((if conv then 0x8000000000000000 else 0) ||| BitVec.ofNat 64 n))))) ∧
      (∀ len dst src, len = 16 * v.len → 0 < len → (s.getX a).poison = false → mine → s.NoForks →
        (s.getX a).val.toNat = 0xFF00 * 2 ^ 32 + dst → v.base = 0xFF00 * 2 ^ 32 + src → dst % 16 = 0 → src % 16 = 0 →
        dst + len ≤ 131072 → src + len ≤ 131072 → dst + len ≤ src ∨ src + len ≤ dst →
        let at_ := fun (off : Nat) => locTcm (coreOf s.cur) off
        let copied := fun (t : State) (x y : Nat) =>
          (∀ i, i < len → t.mem.byte (at_ (y + i)) = s.mem.byte (at_ (x + i)) ∧ t.mem.marked (at_ (y + i)) = s.mem.marked (at_ (x + i))) ∧
          (∀ l, l < at_ y ∨ at_ y + len ≤ l → t.mem.byte l = s.mem.byte l ∧ t.mem.marked l = s.mem.marked l)
        (s.hold (.svwarm a slot) = none → (∀ e ∈ s.me.queue, e.frozen = true) → v.svalid = true → v.hash = v.cur →
          ∃ t, exec (.svwarm a slot) s = .next t ∧ t.hart s.cur = { s.me with pc := s.me.pc + 4 } ∧ copied t src dst) ∧
        (s.hold (.svwarm a slot) = none → (∀ e ∈ s.me.queue, e.frozen = true) → ¬(v.svalid = true ∧ v.hash = v.cur) →
          ∃ t, exec (.svwarm a slot) s = .next t ∧ t.hart s.cur = { s.me with pc := s.me.pc + 4, vstat := s.me.vstat ||| 8 } ∧
            (∀ i, i < len → t.mem.byte (at_ (dst + i)) = 0 ∧ t.mem.marked (at_ (dst + i)) = false) ∧
            (∀ l, l < at_ dst ∨ at_ dst + len ≤ l → t.mem.byte l = s.mem.byte l ∧ t.mem.marked l = s.mem.marked l)) ∧
        (s.hold (.svend a slot) = none →
          ∃ t, exec (.svend a slot) s = .next t ∧ t.hart s.cur = { s.me with pc := s.me.pc + 4 } ∧ copied t dst src ∧
            t.solveSlot slot = { v with hash := v.cur, svalid := true, active := false })))

/-- The record of an orphan line at a physical address: its address with bit 0 set; its sectors in bits 19:16 of the second dword, the die of
its HBM from bit 24 on, and which of its words are poisoned; and from byte 64 on the bytes of its line, of a poisoned word and of a sector
that was not held zero (R317). -/
abbrev Sys2Proof.Machine.orphanBytes (pa : Nat) (o : OrphanLine) : List Byte :=
  let good := fun (i : Nat) => o.sectors.testBit (i / 32) && !o.marks.testBit (i / 8)
  let poisoned := ((List.range 16).map (fun i => if o.sectors.testBit (i / 4) && o.marks.testBit i then 2 ^ i else 0)).sum
  let number := fun (n v : Nat) => (List.range n).map (fun i => (BitVec.ofNat 8 (v / 256 ^ i) : Byte))
  number 8 (pa + 1) ++ number 8 (pa / 0x4000000000 * 2 ^ 24 + o.sectors % 16 * 2 ^ 16 + poisoned) ++ number 48 0 ++
    (List.range 128).map (fun i => if good i then o.bytes.getD i 0 else 0)

/-- The instructions of the die, at supervisor privilege or above where the spec asks for it. `tlbinv` leaves no die of the package a
translation of the context in its range; `odrain` stores the record of the lowest orphan line and writes how many there were;
`launch` appends its record to the Vestibule; `pgmig` of an unpinned page ends with no translation of the page on any die, its bytes and
markers at the new place, its entries naming that, and every other byte as it was. A user hart traps `PRIV` on the first three of them that
need privilege (R287, R288, R294, R317). Model's choices: log entries 45 and 46. -/
def Obligations.DieInstructions : Prop :=
  ∀ (d a b : Reg) (s : State) (ls : List Nat),
    let va := (s.getX a).val
    let w := (s.getX b).val
    let pkg := pkgOf s.cur
    let moved : Hart := { s.me with pc := s.me.pc + 4 }
    let unpinned := (∀ k, ∀ q ∈ (s.hart k).queue, q.pins = []) ∧ (∀ k, ∀ x ∈ (s.core k).copies, x.pins = []) ∧
      (s.pkg pkg).txns = [] ∧ (s.pkg pkg).accepts = [] ∧ s.pins pkg = []
    let u := (s.places (s.agentOf s.cur) [] kStore va.toNat 192).st
    let v := (s.places (s.agentOf s.cur) [] kLoad va.toNat 64).st
    (∀ i ∈ ([.tlbinv a b, .pgmig a b, .odrain d a] : List Instr), s.hold i = none → s.me.priv = 0 →
      exec i s = .next (s.trapWord cPriv i)) ∧
    (s.hold (.tlbinv a b) = none → s.me.priv ≠ 0 → (s.getX a).poison = false → (s.getX b).poison = false → w.extractLsb' 40 22 = 0 →
      (∀ e ∈ s.me.queue, e.frozen = true) → s.NoForks → unpinned → s.cur ∉ s.dropped → (s.pkg pkg).badSectors = [] →
      ∃ t, exec (.tlbinv a b) s = .next t ∧ (∀ k, t.hart k = if k = s.cur then moved else s.hart k) ∧ t.mem = s.mem ∧
        (∀ n x, n < 4 → x ∈ (t.die (16 * pkg + n)).tlb → x.ctx = s.me.ctx → x.covered (invRange va w) = false)) ∧
    (s.hold (.pgmig a b) = none → s.me.priv ≠ 0 → (s.getX a).poison = false → (s.getX b).poison = false →
      let y := s.xlate (s.agentOf s.cur) [] false va.toNat kStore
      ∀ p g z, y.ans = .ok p → va.toNat / 2 ^ 40 ≠ 0xFF → y.st.pageOf va.toNat = (z, .ok g) → z = y.st → s.Translated z →
      unpinned → s.NoForks → w.toNat % g.size = 0 → s.deviceRange pkg g.pa g.size = true → s.deviceRange pkg w.toNat g.size = true →
      s.migrating pkg s.me.ctx g = false →
      (g.pa = w.toNat → exec (.pgmig a b) s = .next (z.jumped (s.me.pc + 4))) ∧
      (g.pa ≠ w.toNat → ∃ t, exec (.pgmig a b) s = .next t ∧ t.hart s.cur = moved ∧ t.migrations = s.migrations ∧
        (∀ n x, n < 4 → x ∈ (t.die (16 * pkg + n)).tlb → x.ctx = s.me.ctx → ¬(x.va < g.va + g.size ∧ g.va < x.va + x.size)) ∧
        ((∀ n, (s.pkg n).badSectors = []) → (∀ n, (s.die n).failed = false) → ∀ loc : Nat → Nat,
          (∀ q ∈ g.entries, (∃ h : Holder, s.physical pkg s.me.ctx q.1 = some (.at (loc q.1) h)) ∧
            (∃ p', s.pte pkg s.me.ctx q.1 = some p' ∧ p'.poison = false) ∧
            ∀ base, base = g.pa ∨ base = w.toNat → loc q.1 + 8 ≤ locDev pkg base ∨ locDev pkg base + g.size ≤ loc q.1) →
          (∀ q ∈ g.entries, ∀ q' ∈ g.entries, q ≠ q' → loc q.1 + 8 ≤ loc q'.1 ∨ loc q'.1 + 8 ≤ loc q.1) →
          (∀ i, i < g.size → t.mem.byte (locDev pkg w.toNat + i) = s.mem.byte (locDev pkg g.pa + i) ∧
            t.mem.marked (locDev pkg w.toNat + i) = s.mem.marked (locDev pkg g.pa + i)) ∧
          (∀ q ∈ g.entries, ∀ p', s.pte pkg s.me.ctx q.1 = some p' → t.mem.numAt ((List.range 8).map (loc q.1 + ·)) =
            (p'.val.toNat % 4096 + (w.toNat + q.2) / 4096 * 4096) % 2 ^ 64) ∧
          ∀ a, (∀ base, base = g.pa ∨ base = w.toNat → a < locDev pkg base ∨ locDev pkg base + g.size ≤ a) →
            (∀ q ∈ g.entries, a < loc q.1 ∨ loc q.1 + 8 ≤ a) → t.mem.byte a = s.mem.byte a ∧ t.mem.marked a = s.mem.marked a))) ∧
    (s.hold (.odrain d a) = none → s.me.priv ≠ 0 → (s.getX a).poison = false → va.toNat % 64 = 0 → s.Reaches va.toNat 192 kStore ls →
      ((s.die (dieOf s.cur)).orphans = [] → exec (.odrain d a) s = .next (u.wrote d (PVal.clean 0))) ∧
      (∀ line o rest, (s.die (dieOf s.cur)).orphans = (line, o) :: rest →
        ∃ t, exec (.odrain d a) s = .next t ∧ (t.die (dieOf s.cur)).orphans = rest ∧
          t.hart s.cur = { moved with x := (s.me.setX d (PVal.clean (BitVec.ofNat 64 (1 + rest.length)))).x } ∧
          s.mem.Stored t.mem ls (orphanBytes (128 * line) o) false)) ∧
    (s.hold (.launch a) = none → (s.getX a).poison = false → va.toNat % 64 = 0 → s.Reaches va.toNat 64 kLoad ls →
      ls.any s.mem.marked = false →
      let rec_ : List Word := (List.range 8).map (fun i => BitVec.ofNat 64 (s.mem.numAt ((ls.drop (8 * i)).take 8)))
      let allowed := s.me.priv ≠ 0 ∨ (recCtx rec_ = s.me.ctx ∧ recPrio rec_ ≤ s.launchPrio s.cur)
      (¬ allowed → exec (.launch a) s = .next (v.trapWord cPriv (.launch a))) ∧
      (allowed → 1024 ≤ (s.pkg pkg).vestibule.length → exec (.launch a) s = .next (v.waits .vestibule)) ∧
      (allowed → (s.pkg pkg).vestibule.length < 1024 → exec (.launch a) s = .next ((v.modPkg pkg (fun p => { p with
        vestibule := p.vestibule ++ [{ id := p.recordSeq, words := rec_, placed := 0, map := none }],
        recordSeq := p.recordSeq + 1 })).jumped (s.me.pc + 4))))

/-- The lease instructions above user privilege. `lreq` with a good request block reserves the Escrow, takes the lowest free handle for
a lease that is requested, and writes the handle; `lgrant` with `REFUSE` drops the request, and with free units that nobody pins lends
them; `lreclaim` starts the reclaim of a lease with its deadline; `ldone` drops the frames that remain; `lrelease` frees the lease. A
user hart traps `PRIV` (R344, R350, R352, R355, R358, R359). Model's choices: log entries 99, 100 and 101. -/
def Obligations.LeaseInstructions : Prop :=
  ∀ (d a b : Reg) (s : State) (ls : List Nat),
    let pkg := pkgOf s.cur
    let p := s.pkg pkg
    let xa := (s.getX a).val
    let moved : Hart := { s.me with pc := s.me.pc + 4 }
    let block : List Word := (List.range 8).map (fun i => BitVec.ofNat 64 (s.mem.numAt ((ls.drop (8 * i)).take 8)))
    let readable := fun (va : Word) => va.toNat % 64 = 0 ∧ s.Reaches va.toNat 64 kLoad ls ∧ ls.any s.mem.marked = false
    let unpinned := s.pins pkg = [] ∧ p.accepts = []
    (∀ i ∈ ([.lreq d a, .lgrant a b, .lreclaim a, .ldone a, .lrelease a] : List Instr), s.hold i = none → s.me.priv = 0 →
      exec i s = .next (s.trapWord cPriv i)) ∧
    (s.me.priv ≠ 0 → (s.getX a).poison = false →
      (s.hold (.lreq d a) = none → readable xa →
        let units := (dw block 0).toNat % 2 ^ 16
        let lender := (dw block 0).toNat / 2 ^ 16 % 128
        let escrow := (dw block 1).toNat
        requestBad block = false → escrow % 2 ^ 30 = 0 → s.unitsPopulated pkg escrow units true = true →
        p.unitsTaken escrow (units * 2 ^ 30) = false → unpinned →
        lender ≠ pkg → s.hasPort lender = true → ∀ h, lowestFree (p.borrows.map (·.handle)) = some h →
        ∃ t x, exec (.lreq d a) s = .next t ∧ t.hart s.cur = { moved with x := (s.me.setX d (PVal.clean (BitVec.ofNat 64 h))).x } ∧
          (t.pkg pkg).borrows = p.borrows ++ [x] ∧ x.handle = h ∧ x.state = .requested ∧ x.ctx = s.me.ctx ∧ x.lender = lender ∧
          x.units = units ∧ x.escrow = escrow ∧ x.migrated = 0) ∧
      (s.hold (.lgrant a b) = none → (s.getX b).poison = false → readable (s.getX b).val → grantBad block = false →
        ∀ r, p.requests.find? (fun r => r.borrower = xa.toNat / 2 ^ 40 % 128 && r.reqno % 2 ^ 16 = xa.toNat / 2 ^ 24 % 2 ^ 16) = some r →
        p.lends.find? (fun l => l.marked && l.borrower = xa.toNat / 2 ^ 40 % 128 && l.reqno = r.reqno) = none →
        ((dw block 0).getLsbD 0 = true →
          ∃ t, exec (.lgrant a b) s = .next t ∧ t.harts = (s.setHart s.cur moved).harts ∧
            (t.pkg pkg).requests = p.requests.filter (fun q => q != r) ∧ (t.pkg pkg).lends = p.lends) ∧
        (∀ base id, base = (dw block 0).toNat / 2 ^ 30 * 2 ^ 30 → (dw block 0).getLsbD 0 = false →
          s.unitsPopulated pkg base r.units false = true → p.unitsTaken base (r.units * 2 ^ 30) = false → unpinned →
          lowestFree (p.lends.map (·.id)) = some id →
          ∃ t l, exec (.lgrant a b) s = .next t ∧ t.harts = (s.setHart s.cur moved).harts ∧
            (t.pkg pkg).requests = p.requests.filter (fun q => q != r) ∧ (t.pkg pkg).lends = p.lends ++ [l] ∧ l.id = id ∧
            l.borrower = xa.toNat / 2 ^ 40 % 128 ∧ l.base = base ∧ l.units = r.units ∧ l.wfin = max (dw block 1).toNat r.wmin ∧
            l.marked = false ∧ l.deadline = none)) ∧
      (s.hold (.lreclaim a) = none → s.NoForks → ∀ l, p.lend? (xa.toNat % 2 ^ 16) = some l → l.marked = false → l.deadline = none →
        ∃ t, exec (.lreclaim a) s = .next t ∧ t.harts = (s.setHart s.cur moved).harts ∧ t.mem = s.mem ∧
          (t.pkg pkg).lend? (xa.toNat % 2 ^ 16) = some { l with deadline := some (p.timebase + l.wfin) }) ∧
      (s.hold (.ldone a) = none → s.NoForks → ∀ x, p.borrow? (xa.toNat % 2 ^ 16) = some x → x.ctx = s.me.ctx → x.state = .reclaiming →
        ∃ t, exec (.ldone a) s = .next t ∧ t.harts = (s.setHart s.cur moved).harts ∧
          (t.pkg pkg).borrow? (xa.toNat % 2 ^ 16) = some { x with state := .demoted, migrated := x.units * 2 ^ 18 }) ∧
      (s.hold (.lrelease a) = none → s.NoForks → ∀ x, p.borrow? (xa.toNat % 2 ^ 16) = some x → x.ctx = s.me.ctx →
        (x.state = .granted → s.pins pkg = []) →
        ∃ t, exec (.lrelease a) s = .next t ∧ t.harts = (s.setHart s.cur moved).harts ∧
          (t.pkg pkg).borrows = p.borrows.filter (fun y => y.handle != x.handle)))

/-! ### The vector queue (R49, R56, R57, R89, R155 to R162) -/

/-- `vqsave` at supervisor privilege on a vector hart writes the image of the hart's queue at its 128-byte aligned address and empties
the queue; `vqload` of an image that passes its checks makes the entries of the image, frozen, the hart's queue, with the image's
`vl` (R89, R160 to R162). Model's choices: log entries 103, 136 and 137. -/
def Obligations.QueueImages : Prop :=
  ∀ (a : Reg) (s : State) (ls : List Nat), s.cur % 8 < 4 → s.me.priv ≠ 0 → (s.getX a).poison = false →
    let va := (s.getX a).val.toNat
    va % 128 = 0 →
    (s.hold (.vqsave a) = none → (∀ e ∈ s.me.queue, e.x.poison = false) → s.Reaches va (128 + 128 * s.me.queue.length) kStore ls →
      s.groupAbroad s.cur = false →
      ∃ t, exec (.vqsave a) s = .next t ∧ t.hart s.cur = { s.me with pc := s.me.pc + 4, queue := [] } ∧
        (∀ k, k ≠ s.cur → t.hart k = s.hart k) ∧
        s.mem.Stored t.mem ls (dwordBytes (queueImage s.me.vl s.me.queue)) false) ∧
    (∀ n, s.hold (.vqload a) = none → s.me.queue = [] → s.Reaches va 128 kLoad (ls.take 128) →
      (s.places (s.agentOf s.cur) [] kLoad va 128).st.Reaches va (128 + 128 * n) kLoad ls → s.olderWaits s.cur = false →
      ls.any s.mem.marked = false →
      let words : List PVal := (List.range (ls.length / 8)).map (fun i =>
        PVal.clean (BitVec.ofNat 64 (s.mem.numAt ((ls.drop (8 * i)).take 8))))
      n = (lget (PVal.clean 0) words 0).val.toNat % 32 → badImageHeader s.me.depth words = none →
      badRecords s.me (recordsOf n (words.drop 16)) 128 none = none → s.queueUse (coreOf s.cur) + n ≤ 32 →
      ∃ t q, exec (.vqload a) s = .next t ∧
        t.hart s.cur = { s.me with pc := s.me.pc + 4, vl := (lget (PVal.clean 0) words 0).val.toNat / 2 ^ 16 % 2 ^ 8, queue := q } ∧
        q.length = n ∧ (∀ e ∈ q, e.frozen = true ∧ e.started = false) ∧
        q.map (fun e => (e.insn, e.x, e.start)) = (recordsOf n (words.drop 16)).map (fun r =>
          ((lget (PVal.clean 0) r 0).val,
           if (lget (PVal.clean 0) r 1).val.getLsbD 16 then PVal.poisoned else PVal.clean (lget (PVal.clean 0) r 2).val,
           (lget (PVal.clean 0) r 1).val.toNat % 128)) ∧
        t.mem = s.mem)

/-- A convoy header on a vector hart with no frozen entry fetches its members: the fetch waits, or traps at the first byte that it cannot
have, or answers all of them. A convoy that breaks no rule then waits for its queue entries; one that does traps with the cause, the address and the slot of its first failing check. On a scalar hart the header
traps `ILLEGAL` (R49, R54, R56, R57, R155). Model's choices: log entry 27, and log entry 28 for a header that meets frozen entries: it traps
`ILLEGAL` with `TADDR` 0 before its members are fetched. -/
def Obligations.ConvoyChecked : Prop :=
  ∀ (count : BitVec 3) (units : BitVec 18) (rsv : BitVec 4) (db : Bool) (s : State),
    let i := Instr.convoy count units rsv db
    let n := count.toNat
    let read := s.fetch s.cur 1 (s.me.pc + 4).toNat (8 * n)
    (4 ≤ s.cur % 8 → exec i s = .next (s.trapWord cIllegal i)) ∧
    (s.cur % 8 < 4 → (∃ e ∈ s.me.queue, e.frozen = true) → exec i s = .next (s.trap cIllegal 0 0)) ∧
    (s.cur % 8 < 4 → (∀ e ∈ s.me.queue, e.frozen = false) → ∀ u,
      (∀ w, read = .wait u w → exec i s = .next (u.waits w)) ∧
      (∀ z, read = .stop u z → exec i s = .next (u.trap z.cause (BitVec.ofNat 64 z.addr) (BitVec.ofNat 64 z.val)))) ∧
    (s.cur % 8 < 4 → (∀ e ∈ s.me.queue, e.frozen = false) → ∀ s1 bs, read = .ok s1 bs →
      let words := fetchWords bs n
      (∀ bad, checkConvoy (s1.memberBreaks s.cur) n units rsv s.me.depth words = .error bad →
        exec i s = .next (s1.trap bad.cause (if bad.slot = 0 then s.me.pc else s.me.pc + 4 + BitVec.ofNat 64 (8 * (bad.slot - 1)))
          (BitVec.ofNat 64 bad.slot))) ∧
      (∀ members, checkConvoy (s1.memberBreaks s.cur) n units rsv s.me.depth words = .ok members →
        (∀ r ∈ members.filterMap vectorXSource, s.me.xPending r = false) →
        ∃ t, exec i s = .next t ∧
          t.hart s.cur = { s1.hart s.cur with
            pendConvoy := some { addr := s.me.pc.toNat, db := db, words := words }, wait := .none } ∧
          (t.core (coreOf s.cur)).queueWait = joinLast s.cur (s1.core (coreOf s.cur)).queueWait ∧ t.mem = s1.mem))

/-- The rules that no convoy may break: a count of 0 or 7 or above the hart's `VQDEPTH`, two members on one unit, a member whose unit
differs from its slot of the header, two members with one destination, and two members that read the receive queue trap
`ILLEGAL_CONVOY`; a convoy without any of these, whose reserved fields are zero and whose members all decode, passes (R54, R56). -/
def Obligations.ConvoyRules : Prop :=
  ∀ (count : BitVec 3) (units : BitVec 18) (depth : Nat) (words : List Word) (members : List Instr),
    words.length = count.toNat → words.map decodeMember = members.map .ok →
    (∀ k, count.toNat < k → k ≤ 6 → units.toNat / 2 ^ (18 - 3 * k) % 8 = 0) →
    let breaks := count.toNat = 0 ∨ count.toNat = 7 ∨ depth < count.toNat ∨
      (∃ (k : Nat) (i : Instr), members[k]? = some i ∧ units.toNat / 2 ^ (15 - 3 * k) % 8 ≠ unitOf i) ∨
      (∃ (j k : Nat) (a b : Instr), j < k ∧ members[j]? = some a ∧ members[k]? = some b ∧
        (unitOf a = unitOf b ∨ (∃ d ∈ memberDests a, d ∈ memberDests b) ∨ (popsQueue a = true ∧ popsQueue b = true)))
    (breaks → ∃ slot, checkConvoy (fun _ => false) count.toNat units 0 depth words = .error { cause := cIllegalConvoy, slot := slot }) ∧
    (¬ breaks → checkConvoy (fun _ => false) count.toNat units 0 depth words = .ok members)

/-- A waiting convoy whose entries its hart and its core have room for, and before which no older convoy waits that its hart had room
for, enters the queue as one step in slot order, and the scalar front end goes on after its last member; the first convoy of a queue
whose units are neither at work for another hart nor reserved for an older convoy starts (R155, R156, R157). -/
def Obligations.ConvoyEntersAndStarts : Prop :=
  ∀ (k : Nat) (s : State), ringExists (ringOf k) = true → (s.hart k).live = true → (s.hart k).stopped = false →
    let h := s.hart k
    let core := coreOf k
    (∀ p, h.pendConvoy = some p → h.queue.length + p.words.length ≤ h.depth → s.queueUse core + p.words.length ≤ 32 →
      s.olderWaits k = false →
      ∃ t es, exec (.convoyCommit k) s = .next t ∧ es.length = p.words.length ∧ es.map (·.insn) = p.words ∧
        es.map (·.slot) = (List.range p.words.length).map (· + 1) ∧
        (∀ e ∈ es, e.start = 0 ∧ e.frozen = false ∧ e.started = false ∧ e.db = p.db) ∧
        t.hart k = { h with queue := h.queue ++ es, pendConvoy := none, pc := h.pc + 4 + BitVec.ofNat 64 (8 * p.words.length) } ∧
        (∀ j, j ≠ k → t.hart j = s.hart j) ∧ t.mem = s.mem) ∧
    (∀ e r, h.headConvoy = e :: r → e.started = false →
      (∀ x ∈ e :: r, s.unitBusy core k x.unit = false ∧ ∀ q ∈ (s.core core).reserved, q.1 = x.unit → e.id ≤ q.2) →
      ∃ t, exec (.convoyStart k) s = .next t ∧
        t.hart k = { h with queue := h.queue.map (fun x => if x.id ∈ (e :: r).map (·.id) then { x with started := true } else x) } ∧
        (∀ j, j ≠ k → t.hart j = s.hart j) ∧ t.mem = s.mem)

/-! ### Vector arithmetic (R91, R97 to R114) -/

/-- The integer B instructions: the exact result from two elements as integers and as bits (R97). -/
abbrev Sys2Proof.Machine.vectorIntTable (o : VOp) : List (Instr × (Int → Int → Nat → Nat → Int)) :=
  [(.vadd o, fun x y _ _ => x + y), (.vsub o, fun x y _ _ => x - y), (.vmin o, fun x y _ _ => if x ≤ y then x else y),
   (.vmax o, fun x y _ _ => if x ≤ y then y else x), (.vand o, fun _ _ a b => (a &&& b : Nat)), (.vor o, fun _ _ a b => (a ||| b : Nat)),
   (.vxor o, fun _ _ a b => (a ^^^ b : Nat)), (.vsll o, fun x _ _ b => x * 2 ^ (b % o.ty.width)),
   (.vsrl o, fun _ _ a b => (a / 2 ^ (b % o.ty.width) : Nat)), (.vsra o, fun _ _ a b => intOf true o.ty.width a / 2 ^ (b % o.ty.width)),
   (.vmul o, fun x y _ _ => x * y), (.vmulh o, fun x y _ _ => x * y / 2 ^ o.ty.width)]

/-- An exact integer as an element: wrapped modulo 2^w, or under `.sat` clamped to the range of the type, with whether it clipped
(R28, R97). -/
abbrev Sys2Proof.Machine.elementOf (t : Ty) (sat : Bool) (y : Int) : Nat × Bool :=
  let lo : Int := if t.signed then -(2 : Int) ^ (t.width - 1) else 0
  let hi : Int := if t.signed then 2 ^ (t.width - 1) - 1 else 2 ^ t.width - 1
  let z := if sat then (if y < lo then lo else if hi < y then hi else y) else y
  ((z % 2 ^ t.width).toNat, sat && (y < lo || hi < y))

/-- The second operand of a B form for a container: the register's, or the scalar or immediate in every element (R52, R98). -/
abbrev Sys2Proof.Machine.secondOperand (o : VOp) (e : Entry) (imm : Int) (vals : List PVal) : PVal :=
  match o.sel with
  | 0 => lget (PVal.clean 0) vals 1
  | 1 => if e.x.poison then PVal.poisoned else PVal.clean (replicate o.ty (e.x.val.toNat % 2 ^ o.ty.width))
  | _ => PVal.clean (replicate o.ty (imm % 2 ^ o.ty.width).toNat)

/-- An integer vector instruction that may work writes, container by container, each element's result, wrapped or clamped; a container
that a poisoned operand enters becomes poisoned and clips nothing; and it completes with nothing else changed (R28, R42, R91, R97,
R98). -/
def Obligations.VectorIntegerResult : Prop :=
  ∀ (o : VOp) (e : Entry) (s : State),
    let elems := fun (c : Word) => (List.range o.ty.elems).map (elemOf o.ty c)
    let int := fun (n : Nat) => intOf o.ty.signed o.ty.width n
    (∀ p ∈ vectorIntTable o,
      let rs := if o.sel = 0 then [o.vs1, o.vs2] else [o.vs1]
      let first := fun (c : Nat) => lget (PVal.clean 0) (s.operands e o rs c) 0
      let second := fun (c : Nat) => secondOperand o e (intOf true 12 (o.lowBits 11 0)) (s.operands e o rs c)
      let bad := fun (c : Nat) => (first c).poison || (second c).poison
      let out := fun (c : Nat) => ((elems (first c).val).zip (elems (second c).val)).map (fun q =>
        elementOf o.ty (o.lowBits 12 12 == 1) (p.2 (int q.1) (int q.2) q.1 q.2))
      s.Ready e o rs →
      ∃ t, exec p.1 s = .next t ∧ s.Lanes t e o rs
        (fun c => if bad c then PVal.poisoned else PVal.clean (packElems o.ty ((out c).map (·.1)))) 0
        ((s.activeOf e o).any (fun c => !bad c && (out c).any (·.2)))) ∧
    (let value := fun (c : Nat) => lget (PVal.clean 0) (s.operands e o [o.vs1] c) 0
      let out := fun (c : Nat) => (elems (value c).val).map (fun n => elementOf o.ty (o.lowBits 12 12 == 1) (intOf true o.ty.width n).natAbs)
      s.Ready e o [o.vs1] →
      ∃ t, exec (.vabs o) s = .next t ∧ s.Lanes t e o [o.vs1]
        (fun c => if (value c).poison then PVal.poisoned else PVal.clean (packElems o.ty ((out c).map (·.1)))) 0
        ((s.activeOf e o).any (fun c => !(value c).poison && (out c).any (·.2))))

/-- The floating-point vector instructions with their sources and what they compute for one element from its operands: bits and flags
(R99, R100). -/
abbrev Sys2Proof.Machine.vectorFpTable (h : Hart) (e : Entry) (o : VOp) :
    List (Instr × List VReg × (Nat → Nat → Nat → Nat × Flags)) :=
  let v := fun (n : Nat) => readF h.ftz o.ty n
  let m := match o.rm with
    | .dyn => modeOf e.crm
    | .stoch => .rne
    | r => r
  let two := if o.sel = 0 then [o.vs1, o.vs2] else [o.vs1]
  let three := [o.vs1, o.vs2, o.vs3]
  let top := 2 ^ (o.ty.width - 1)
  [(.vfadd o, two, fun a b _ => fpAdd h.ftz o.ty m (v a) (v b)), (.vfsub o, two, fun a b _ => fpAdd h.ftz o.ty m (v a) (v b).negate),
   (.vfmul o, two, fun a b _ => fpMul h.ftz o.ty m (v a) (v b)), (.vfdiv o, two, fun a b _ => fpDiv h.ftz o.ty m (v a) (v b)),
   (.vfmin o, two, fun a b _ => fpMinMax false h.ftz o.ty a b), (.vfmax o, two, fun a b _ => fpMinMax true h.ftz o.ty a b),
   (.vfma o, three, fun a b c => fpFma h.ftz o.ty m (v a) (v b) (v c)),
   (.vfms o, three, fun a b c => fpFma h.ftz o.ty m (v a) (v b) (v c).negate),
   (.vfnma o, three, fun a b c => fpFma h.ftz o.ty m (v a).negate (v b) (v c)),
   (.vfsqrt o, [o.vs1], fun a _ _ => fpSqrt h.ftz o.ty m (v a)),
   (.vfsgn o, [o.vs1, o.vs2], fun a b _ => (a % top + top * (match o.lowBits 1 0 with
      | 0 => b / top % 2
      | 1 => 1 - b / top % 2
      | _ => (a / top + b / top) % 2), 0))]

/-- A floating-point vector instruction that may work and raises no enabled flag writes each element's rounded result and sets every
flag that an active, unpoisoned container raises; a container with a poisoned operand becomes poisoned and raises none; and it
completes with nothing else changed. Where an enabled flag is raised it traps `FP_ENABLED` at the lowest container that raises one, with the
containers below written and their words popped, that container and those above as they were, and the flags of those below and of that
container's elements up to the first that raises an enabled one set; `TVAL` names that element's enabled flags (R35, R42, R91, R99,
R100, R136). Model's choices: log entry 24. -/
def Obligations.VectorFloatResult : Prop :=
  ∀ (o : VOp) (e : Entry) (s : State), ∀ p ∈ vectorFpTable s.me e o,
    let rs := p.2.1
    let vals := fun (c : Nat) => s.operands e o rs c
    let arg := fun (c n : Nat) => if n = 1 ∧ rs.length < 2 then secondOperand o e 0 (vals c) else lget (PVal.clean 0) (vals c) n
    let scalar := o.sel = 1 ∧ p.1 ∈ [.vfadd o, .vfsub o, .vfmul o, .vfdiv o, .vfmin o, .vfmax o]
    let bad := fun (c : Nat) => (vals c).any (·.poison) || (decide scalar && e.x.poison)
    let out := fun (c : Nat) => (List.range o.ty.elems).map (fun i =>
      p.2.2 (elemOf o.ty (arg c 0).val i) (elemOf o.ty (arg c 1).val i) (elemOf o.ty (arg c 2).val i))
    let flags := fun (c : Nat) => if bad c then (0 : Flags) else (out c).foldl (fun f q => f ||| q.2) 0
    let made := fun (c : Nat) => if bad c then PVal.poisoned else PVal.clean (packElems o.ty ((out c).map (·.1)))
    s.Ready e o rs → o.sel ≤ 1 →
    ((∀ c ∈ s.activeOf e o, flags c &&& s.me.ten = 0) →
      ∃ t, exec p.1 s = .next t ∧ s.Lanes t e o rs made ((s.activeOf e o).foldl (fun f c => f ||| flags c) 0) false) ∧
    (∀ low c high, s.activeOf e o = low ++ c :: high → (∀ d ∈ low, flags d &&& s.me.ten = 0) → flags c &&& s.me.ten ≠ 0 → bad c = false →
      ∀ quiet (x : Nat × Flags) more, out c = quiet ++ x :: more → (∀ y ∈ quiet, y.2 &&& s.me.ten = 0) → x.2 &&& s.me.ten ≠ 0 →
      let u := if 49 ∈ rs ∧ low ≠ [] then
          s.modCore (coreOf s.cur) (fun k => { k with
            recvQ := k.recvQ.drop low.length, recvWait := k.recvWait.filter (· != vectorPop s.cur) })
        else s
      ∃ g : Hart, exec p.1 s = .next ((u.setHart s.cur g).trapAt c cFp 0 ((x.2 &&& s.me.ten).zeroExtend 64)) ∧
        g = { s.me with v := g.v, fstat := s.me.fstat |||
          (low.foldl (fun f d => f ||| flags d) 0 ||| quiet.foldl (fun f y => f ||| y.2) 0 ||| x.2).zeroExtend 64 } ∧
        (∀ v d, v ≠ o.vd.toNat → g.getV v d = s.me.getV v d) ∧
        ∀ d, g.getV o.vd.toNat d =
          if e.start ≤ d ∧ d < c then (if s.me.active o d then made d else if o.z then PVal.clean 0 else s.me.getV o.vd.toNat d)
          else s.me.getV o.vd.toNat d)

/-- How a vector conversion rounds the element of a flat index: with a draw of the generator under the key, or in a mode (R32, R33, R105). -/
abbrev Sys2Proof.Machine.conversionMode (o : VOp) (st : Ty) (e : Entry) (key : Word) (ctx q : Nat) : CvtMode :=
  if o.rm = .stoch ∨ (o.rm = .dyn ∧ e.crm = 4 ∧ o.ty.isInt = false ∧ o.ty.width < st.width) then
    .draw ((rng ctx key (BitVec.ofNat 64 q)).toNat % 2 ^ 32)
  else .mode (match o.rm with
    | .dyn => modeOf e.crm
    | r => r)

/-- The draws. The generator runs four rounds over the flat index (R114); and a draw `u` of 32 bits rounds a finite value that lies `rem`
parts of 2^sh above its lower neighbour to the upper one exactly where `u` lies below the fraction in units of 2^-32 (R33). -/
abbrev Sys2Proof.Machine.StochasticDraws : Prop :=
  (∀ (ctx : Nat) (key q : Word),
    let round := fun (p : Word × Word) =>
      let a := (p.2 ^^^ p.1) * 0xB5C26A3D94F10E27
      let b := (a ^^^ (a >>> 31)) * 0x8F3AD6194C7B2E53
      (p.1 + 0x9D7F4A61E3C50B8B, b ^^^ (b >>> 29))
    rng ctx key q = (round (round (round (round (key ^^^ (BitVec.ofNat 64 ctx <<< 48) ^^^ 0x5C3E91D72A08B6F1, q))))).2) ∧
  ∀ (t : Ty) (u : Nat) (sat neg : Bool) (m : Nat) (e : Int), m ≠ 0 →
    let a : Mag := { m := m, e := e, sticky := false }
    let cut := splitAt a (quantum t a)
    let n := if u % 2 ^ 32 < cut.2.1 * 2 ^ 32 / 2 ^ cut.2.2 then cut.1 + 1 else cut.1
    let mag := magBits t n (quantum t a)
    (mag ≤ maxMag t → (cvtToFp false t (.draw u) sat (.fin neg m e)).1 = signBit t neg + mag) ∧
    (maxMag t < mag → cvtToFp false t (.draw u) sat (.fin neg m e) = cvtOverflow t (.draw u) sat neg)

/-- A conversion between any two types that raises no enabled flag. Each container keeps its elements: where the destination packs more,
part `k` of it is converted and the others keep their old bits; where the source packs more, part `k` of the source is converted. Each
element is converted by itself under the instruction's mode or its draw for its flat position, with an E2M1 side under the scale of its
block. A container is poisoned with its source, with its old destination where that is read, and with its scale; `vcvts` under a poisoned
key poisons every active container (R103 to R106). -/
abbrev Sys2Proof.Machine.ConversionPart : Prop :=
  ∀ (o : VOp) (e : Entry) (s : State) (st : Ty),
    o.srcTy = some st → o.vd.toNat < 48 →
    let pd := o.ty.elems
    let ps := st.elems
    let k := o.part
    let mx := o.ty = .e2m1 ∨ st = .e2m1
    ∀ p ∈ ([(Instr.vcvt o, false), (.vcvts o, true)] : List (Instr × Bool)),
      let key := if p.2 then e.x.val else 0
      let value := fun (c : Nat) => lget (PVal.clean 0) (s.operands e o [o.vs1] c) 0
      let old := fun (c : Nat) => s.me.getV o.vd.toNat c
      let scale := fun (u : State) (c : Nat) => if c = 0 then s.me.getV o.vs2.toNat 0 else u.me.getV o.vs2.toNat (c / 16)
      let bad := fun (u : State) (c : Nat) => (p.2 && e.x.poison) || (value c).poison || (decide (ps < pd) && (old c).poison) ||
        (decide mx && (scale u c).poison)
      let converted := fun (u : State) (c i : Nat) =>
        let bits := elemOf st (value c).val (if pd < ps then k * pd + i else i - k * ps)
        let mode := conversionMode o st e key s.me.ctx (c * pd + i)
        let sc := (scale u c).val.toNat / 256 ^ (c / 2 % 8) % 256
        if ¬ mx then convert s.me.ftz o.ty st mode (o.lowBits 12 12 == 1) bits
        else if sc = 255 then ({ bits := if o.ty = .e2m1 then 0 else canonNaN o.ty, flags := fNV, sat := false } : Cvt)
        else
          let r := cvtToFp s.me.ftz o.ty mode (o.lowBits 12 12 == 1)
            ((readF s.me.ftz st bits).scale (if st = .e2m1 then (sc : Int) - 127 else 127 - (sc : Int)))
          ({ bits := r.1, flags := r.2, sat := false } : Cvt)
      let out := fun (u : State) (c : Nat) => (List.range pd).map (fun i =>
        if pd ≤ ps ∨ (k * ps ≤ i ∧ i < (k + 1) * ps) then converted u c i
        else ({ bits := elemOf o.ty (old c).val i, flags := 0, sat := false } : Cvt))
      let flags := fun (u : State) (c : Nat) => if bad u c then (0 : Flags) else (out u c).foldl (fun f q => f ||| q.flags) 0
      s.Ready e o [o.vs1] → k * min pd ps < max pd ps → (mx → o.vs2.toNat < 48) →
      (s.me.ten = 0 ∨ ((mx → o.vs2 ≠ o.vd) ∧ ∀ c ∈ s.activeOf e o, flags s c &&& s.me.ten = 0)) →
      ∃ t, exec p.1 s = .next t ∧ s.Lanes t e o [o.vs1]
        (fun c => if bad t c then PVal.poisoned else PVal.clean (packElems o.ty ((out t c).map (·.bits))))
        ((s.activeOf e o).foldl (fun f c => f ||| flags t c) 0)
        ((s.activeOf e o).any (fun c => !bad t c && (out t c).any (·.sat)))

/-- The scale candidate of a container: 0xFF where an element is an infinity or a NaN, 0 where all are zero, and else the exponent of the
largest magnitude less 2, biased and clamped (R107). -/
abbrev Sys2Proof.Machine.ScaleCandidates : Prop :=
  ∀ (ftz : Bool) (t : Ty) (c : Word), t.isInt = false →
    let vs := (List.range t.elems).map (fun i => readF ftz t (elemOf t c i))
    ((∃ v ∈ vs, ∀ n m e, v ≠ .fin n m e) → scaleOf ftz t c = 0xFF) ∧
    ((∀ v ∈ vs, ∃ n e, v = .fin n 0 e) → scaleOf ftz t c = 0) ∧
    (∀ k : Int, (∀ v ∈ vs, ∃ n m e, v = .fin n m e ∧ (m ≠ 0 → (m.log2 : Int) + e ≤ k)) →
      (∃ v ∈ vs, ∃ n m e, v = .fin n m e ∧ m ≠ 0 ∧ (m.log2 : Int) + e = k) →
      scaleOf ftz t c = (min 254 (max 0 (k - 2 + 127))).toNat)

/-- `vscalemx` merges the candidate of each active container into the byte of its block: byte `b` of container `j` becomes the largest of
its old value and the candidates of the active containers of block 8j + b; every other byte stays; a container is rewritten only where
one of its sixteen is active, and then poisoned with any of them or with its old contents; no flag is raised (R107). -/
abbrev Sys2Proof.Machine.ScaleMergePart : Prop :=
  ∀ (o : VOp) (e : Entry) (s : State), s.Ready e o [o.vs1] →
    let value := fun (c : Nat) => lget (PVal.clean 0) (s.operands e o [o.vs1] c) 0
    let old := fun (j : Nat) => s.me.getV o.vd.toNat j
    let into := fun (j : Nat) => (s.activeOf e o).filter (fun c => c / 16 = j)
    ∃ t, exec (.vscalemx o) s = .next t ∧ t = (s.popped e o [o.vs1]).completed { s.me with v := t.me.v } ∧
      (∀ v c, v ≠ o.vd.toNat → t.me.getV v c = s.me.getV v c) ∧
      (∀ j, into j = [] → t.me.getV o.vd.toNat j = old j) ∧
      (∀ j, into j ≠ [] →
        (t.me.getV o.vd.toNat j).poison = ((old j).poison || (into j).any (fun c => (value c).poison)) ∧
        ((t.me.getV o.vd.toNat j).poison = true → (t.me.getV o.vd.toNat j).val = 0) ∧
        ((t.me.getV o.vd.toNat j).poison = false → ∀ b, b < 8 →
          elemOf .n8 (t.me.getV o.vd.toNat j).val b =
            ((s.activeOf e o).filter (fun c => c / 2 = 8 * j + b)).foldl (fun m c => max m (scaleOf s.me.ftz o.ty (value c).val))
              (elemOf .n8 (old j).val b)))

/-- The conversions with their draws, and the scales that `vscalemx` merges (R33, R103 to R107, R114). Model's choices: log entry 129. -/
def Obligations.VectorConversionResult : Prop := ConversionPart ∧ StochasticDraws ∧ ScaleMergePart ∧ ScaleCandidates

/-- The compares with whether one pair of elements meets the condition, and the flags it raises (R101). -/
abbrev Sys2Proof.Machine.vectorCompareTable (h : Hart) (o : VOp) : List (Instr × (Nat → Nat → Bool × Flags)) :=
  let i := fun (n : Nat) => intOf o.ty.signed o.ty.width n
  let v := fun (n : Nat) => readF h.ftz o.ty n
  [(.vcmp o, fun a b => (match o.lowBits 10 8 with
      | 0 => decide (i a = i b)
      | 1 => decide (i a ≠ i b)
      | 2 => decide (i a < i b)
      | 3 => decide (i a ≤ i b)
      | 4 => decide (i b < i a)
      | _ => decide (i b ≤ i a), 0)),
   (.vfcmp o, fun a b => match o.lowBits 10 8 with
      | 0 => fpCompare 0 (v a) (v b)
      | 1 => (!(fpCompare 0 (v a) (v b)).1, (fpCompare 0 (v a) (v b)).2)
      | 2 => fpCompare 1 (v a) (v b)
      | 3 => fpCompare 2 (v a) (v b)
      | 4 => fpCompare 1 (v b) (v a)
      | 5 => fpCompare 2 (v b) (v a)
      | _ => fpCompare 3 (v a) (v b))]

/-- A compare of unpoisoned operands that raises no enabled flag gives each active container one bit of `md`: whether any, or whether
all, of its pairs of elements meet the condition; every other bit stays, and it completes with its flags set and nothing else changed.
A poisoned container of a register stops it there with a trap of point 5 (R91, R101, R102). -/
def Obligations.VectorCompareResult : Prop :=
  ∀ (o : VOp) (e : Entry) (s : State), ∀ p ∈ vectorCompareTable s.me o,
    let rs := if o.sel = 0 then [o.vs1, o.vs2] else [o.vs1]
    let first := fun (c : Nat) => lget (PVal.clean 0) (s.operands e o rs c) 0
    let second := fun (c : Nat) => secondOperand o e (intOf true 8 (o.lowBits 7 0)) (s.operands e o rs c)
    let out := fun (c : Nat) => (List.range o.ty.elems).map (fun i =>
      p.2 (elemOf o.ty (first c).val i) (elemOf o.ty (second c).val i))
    let flags := fun (c : Nat) => (out c).foldl (fun f q => f ||| q.2) (0 : Flags)
    s.Ready e o rs →
    ((∀ c ∈ s.activeOf e o, (first c).poison = false ∧ (second c).poison = false ∧ flags c &&& s.me.ten = 0) →
      ∃ t, exec p.1 s = .next t ∧
        (∀ c, c < 128 → (t.me.getM o.vd.toNat).getLsbD c =
          if c ∈ s.activeOf e o then (if o.lowBits 11 11 = 1 then (out c).any (·.1) else (out c).all (·.1))
          else (s.me.getM o.vd.toNat).getLsbD c) ∧
        (∀ m, m ≠ o.vd.toNat → t.me.getM m = s.me.getM m) ∧
        t = (s.popped e o rs).completed { s.me with
          m := t.me.m
          fstat := s.me.fstat ||| ((s.activeOf e o).foldl (fun f c => f ||| flags c) 0).zeroExtend 64 }) ∧
    (∀ c r, s.activeOf e o = c :: r → s.me.spec = false → (∀ x ∈ rs, x.toNat < 48) → (first c).poison = true →
      exec p.1 s = .next ((s.waitAt c).vtrap s.cur s.entryPos c cPoison 0 5))

/-- The mask instructions: a logical operation of two masks below `vl`; the number of set bits below `vl`, the lowest of them or −1, or
half a mask, delivered to an x register; and half a mask from an unpoisoned scalar. Each completes with nothing else changed (R102,
R108, R109). -/
def Obligations.MaskInstructions : Prop :=
  ∀ (o : VOp) (e : Entry) (s : State), s.entry? = some e → e.runs = true →
    let h := s.me
    let a := h.getM o.vs1.toNat
    let b := h.getM o.vs2.toNat
    let set := (List.range h.vl).filter a.getLsbD
    let deliver := fun (w : Word) => (Host.Outcome.next (s.completed (h.setX (o.vd.extractLsb' 0 5) (PVal.clean w))) : Out)
    (h.vl ≤ 128 → ∀ p ∈ ([(Instr.mand o, fun x y => x && y), (.mor o, fun x y => x || y), (.mxor o, fun x y => x != y),
        (.mandn o, fun x y => x && !y)] : List (Instr × (Bool → Bool → Bool))),
      ∃ t, exec p.1 s = .next t ∧ t = s.completed { h with m := t.me.m } ∧ (∀ m, m ≠ o.vd.toNat → t.me.getM m = h.getM m) ∧
        ∀ c, c < 128 → (t.me.getM o.vd.toNat).getLsbD c =
          if c < h.vl then p.2 (a.getLsbD c) (b.getLsbD c) else (h.getM o.vd.toNat).getLsbD c) ∧
    exec (.mpop o) s = deliver (BitVec.ofNat 64 set.length) ∧
    (set = [] → exec (.mffs o) s = deliver 0xFFFFFFFFFFFFFFFF) ∧
    (∀ c r, set = c :: r → exec (.mffs o) s = deliver (BitVec.ofNat 64 c)) ∧
    exec (.mmvx o) s = deliver (a.extractLsb' (64 * (o.low.toNat % 2)) 64) ∧
    (e.x.poison = false → ∃ t, exec (.mfromx o) s = .next t ∧ t = s.completed { h with m := t.me.m } ∧
      (∀ m, m ≠ o.vd.toNat → t.me.getM m = h.getM m) ∧
      ∀ c, c < 128 → (t.me.getM o.vd.toNat).getLsbD c =
        if c / 64 = o.low.toNat % 2 then e.x.val.getLsbD (c % 64) else (h.getM o.vd.toNat).getLsbD c) ∧
    (e.x.poison = true → s.me.spec = false → exec (.mfromx o) s = .next ((s.waitAt 0).vtrap s.cur s.entryPos 0 cPoison 0 5))

/-- Lengths and moves: `setvl` and `setvlf` set `vl` from an unpoisoned count and deliver it; `vmvxs` delivers one element with its
container's poison and `vmvsx` writes one; `vbcast` fills active containers with the captured scalar, `vrng` with the generator's
words, and `vsel` takes each container from one of two registers (R96, R110 to R112, R114, R133). -/
def Obligations.LengthsAndMoves : Prop :=
  ∀ (o : VOp) (e : Entry) (s : State), s.entry? = some e → e.runs = true →
    let h := s.me
    let n := e.x.val.toNat
    let j := o.lowBits 10 0
    let at_ := j / o.ty.elems
    let from_ := h.getV o.vs1.toNat at_
    let to_ := h.getV o.vd.toNat at_
    let deliver := fun (g : Hart) (p : PVal) => (Host.Outcome.next (s.completed (g.setX (o.vd.extractLsb' 0 5) p)) : Out)
    (e.x.poison = false → exec (.setvl o) s = deliver { h with vl := min n 128 } (PVal.clean (BitVec.ofNat 64 (min n 128)))) ∧
    (e.x.poison = false →
      let ends := h.getM o.vs1.toNat
      let strip := if n ≤ 128 then (n, 0) else match ((List.range 128).filter ends.getLsbD).getLast? with
        | some c => (c + 1, 0)
        | none => (128, 1)
      ∃ m, exec (.setvlf o) s = deliver { h with vl := strip.1, m := m } (PVal.clean (BitVec.ofNat 64 (strip.2 * 256 + strip.1))) ∧
        (∀ k, k ≠ o.vs1.toNat → tget 0 m k = h.getM k) ∧
        ∀ c, c < 128 → (tget 0 m o.vs1.toNat).getLsbD c = decide (c < strip.1 ∧ (c = 0 ∨ ends.getLsbD (c - 1) = true))) ∧
    (∀ i ∈ ([.setvl o, .setvlf o] : List Instr), e.x.poison = true → h.spec = false →
      exec i s = .next ((s.waitAt 0).vtrap s.cur s.entryPos 0 cPoison 0 5)) ∧
    exec (.vmvxs o) s = deliver h (if from_.poison then PVal.poisoned else PVal.clean
      (if o.ty.signed then BitVec.ofInt 64 (intOf true o.ty.width (elemOf o.ty from_.val (j % o.ty.elems)))
        else BitVec.ofNat 64 (elemOf o.ty from_.val (j % o.ty.elems)))) ∧
    exec (.vmvsx o) s = .next (s.completed (h.setV o.vd.toNat at_
      (if e.x.poison = true ∨ (1 < o.ty.elems ∧ to_.poison = true) then PVal.poisoned
        else PVal.clean (putElem o.ty to_.val (j % o.ty.elems) (e.x.val.toNat % 2 ^ o.ty.width))))) ∧
    (s.Ready e o [] → ∃ t, exec (.vbcast o) s = .next t ∧ s.Lanes t e o []
      (fun _ => if e.x.poison then PVal.poisoned else PVal.clean (replicate o.ty (e.x.val.toNat % 2 ^ o.ty.width))) 0 false) ∧
    (s.Ready e o [] → ∃ t, exec (.vrng o) s = .next t ∧ s.Lanes t e o []
      (fun c => if e.x.poison then PVal.poisoned else PVal.clean (rng h.ctx e.x.val (BitVec.ofNat 64 c))) 0 false) ∧
    (let pops := if o.vs2 = 49 then [o.vs1, o.vs2] else [o.vs1]
     let landing := fun (c : Nat) => (((s.core (coreOf s.cur)).landing.map (fun f => f.at c)).getD PVal.poisoned)
     s.Ready e o pops →
     (o.vs2 = 48 → (s.core (coreOf s.cur)).landing.isSome = true) → ∃ t, exec (.vsel o) s = .next t ∧
      t = (s.popped e o pops).completed { h with v := t.me.v } ∧ (∀ v c, v ≠ o.vd.toNat → t.me.getV v c = h.getV v c) ∧
      ∀ c, (¬(e.start ≤ c ∧ c < h.vl) → t.me.getV o.vd.toNat c = h.getV o.vd.toNat c) ∧
        (e.start ≤ c → c < h.vl → h.active o c = true → some (t.me.getV o.vd.toNat c) = s.gives e o o.vs1 c) ∧
        (e.start ≤ c → c < h.vl → h.active o c = false → o.vs2 ≠ 49 →
          t.me.getV o.vd.toNat c = if o.vs2 = 48 then landing c else h.getV o.vs2.toNat c))

/-! ### Vector memory (R115 to R122) -/

/-- What one element of a load gives from the locations of its bytes: their little-endian number, or one nibble of it (R118). -/
abbrev Sys2Proof.Machine.elementAt (m : Mem) (ls : List Nat) (nib : Option Nat) : Nat :=
  match nib with
  | some n => m.numAt ls / 16 ^ n % 16
  | none => m.numAt ls

/-- A vector load whose elements are aligned and reachable gives each active container the elements at its addresses, poisoned when any
byte lies in a marked word; an inactive container is zeroed under `z`; memory, every other register and container, and everything but the
caches stay, and it completes. With `vl` 0 it completes and changes nothing. A load that would overwrite indexes of its own that it has yet to read is the model's choice
of log entry 121 and not stated here (R115 to R119). Model's choices: log entries 12, 106 and 121. -/
def Obligations.VectorLoads : Prop :=
  ∀ (o : VOp) (e : Entry) (s : State) (L : Nat → Nat → List Nat),
    ∀ p ∈ ([(Instr.vld o, .unit), (.vlds o, .strided), (.vldx o, .indexed o.vs1)] : List (Instr × Form)),
    s.Ready e o [] → s.Sole e → ¬(p.2 = .strided ∧ o.ty = .e2m1 ∧ o.low.toInt % 2 ≠ 0) →
    (s.me.vl = 0 → exec p.1 s = .next (s.completed s.me)) ∧
    (s.me.vl ≠ 0 → e.x.poison = false → s.Spread e { o := o, form := p.2, load := true } L →
      (p.2 = .indexed o.vs1 → o.vs1 ≠ o.vd ∨ (o.indexTy.getD .s64).elems ≤ (if o.lowBits 4 4 = 1 then 1 else o.ty.elems)) →
      ∃ t, exec p.1 s = .next t ∧ t.mem = s.mem ∧
        s.SameBut t { s.me with v := t.me.v, queue := removeEntry s.entry s.me.queue } ∧
        (∀ v c, v ≠ o.vd.toNat → t.me.getV v c = s.me.getV v c) ∧
        ∀ c, t.me.getV o.vd.toNat c =
          if e.start ≤ c ∧ c < s.me.vl then
            (if s.me.active o c then
              (if (List.range o.ty.elems).any (fun i => (L c i).any s.mem.marked) then PVal.poisoned
                else PVal.clean (packElems o.ty ((List.range o.ty.elems).map (fun i =>
                  elementAt s.mem (L c i) (memElem s.me o p.2 e.x.val c i).nib))))
            else if o.z then PVal.clean 0 else s.me.getV o.vd.toNat c)
          else s.me.getV o.vd.toNat c)

/-- A vector store whose elements are aligned and reachable, and whose data are there, stores to the locations of its elements and to
no other: every other byte, and the marker of every word it does not touch, stay; a byte that one element alone covers holds that
element's byte, and of E2M1 a half of a byte that one element alone covers that element, while a half that no element covers stays; an element of a poisoned container marks the words it touches, an unpoisoned one unmarks a word that it writes whole, and
an unpoisoned one that writes less leaves the marker, each in the order of the containers; and it completes with no register changed
(R77, R115 to R119). Model's choices: log entries 12 and 106. -/
def Obligations.VectorStores : Prop :=
  ∀ (o : VOp) (e : Entry) (s : State) (L : Nat → Nat → List Nat),
    ∀ p ∈ ([(Instr.vst o, .unit), (.vsts o, .strided), (.vstx o, .indexed o.vs2)] : List (Instr × Form)),
    s.Ready e o [o.vs1] → s.Sole e → ¬(p.2 = .strided ∧ o.ty = .e2m1 ∧ o.low.toInt % 2 ≠ 0) →
    (s.me.vl = 0 → exec p.1 s = .next (s.completed s.me)) ∧
    (s.me.vl ≠ 0 → e.x.poison = false → s.Spread e { o := o, form := p.2, load := false } L →
      let data := fun (c : Nat) => lget (PVal.clean 0) (s.operands e o [o.vs1] c) 0
      let covers := fun (c i l : Nat) => c ∈ s.activeOf e o ∧ i < o.ty.elems ∧ l ∈ L c i
      let half := fun (c i : Nat) => (memElem s.me o p.2 e.x.val c i).nib
      ∃ t, exec p.1 s = .next t ∧
        (s.popped e o [o.vs1]).SameBut t { s.me with queue := removeEntry s.entry s.me.queue } ∧
        (∀ l, (∀ c i, ¬ covers c i l) → t.mem.byte l = s.mem.byte l) ∧
        (∀ l, let decides := fun (c : Nat) => ∃ i, (∃ k, covers c i k ∧ k / 8 = l / 8) ∧
            ((data c).poison = true ∨ ∀ j : Fin 8, l / 8 * 8 + j.val ∈ L c i)
          ((∀ c, ¬ decides c) → t.mem.marked l = s.mem.marked l) ∧
          (∀ c, decides c → (∀ d, c < d → ¬ decides d) → t.mem.marked l = (data c).poison)) ∧
        (∀ c i j l, c ∈ s.activeOf e o → i < o.ty.elems → (L c i)[j]? = some l → (∀ k, j < k → (L c i)[k]? ≠ some l) →
          (o.ty ≠ .e2m1 → (∀ c' i', covers c' i' l → c' = c ∧ i' = i) →
            t.mem.byte l = BitVec.ofNat 8 (elemOf o.ty (data c).val i / 256 ^ j)) ∧
          (o.ty = .e2m1 → ∀ n, half c i = some n → n < 2 →
            ((∀ c' i', covers c' i' l → half c' i' = some n → c' = c ∧ i' = i) →
              (t.mem.byte l).toNat / 16 ^ n % 16 = elemOf o.ty (data c).val i) ∧
            ((∀ c' i', covers c' i' l → half c' i' = some n) →
              (t.mem.byte l).toNat / 16 ^ (1 - n) % 16 = (s.mem.byte l).toNat / 16 ^ (1 - n) % 16))))

/-- The lane tables. `vldt` reads and `vstt` writes the table of each container's lane at the index of each element plus the base
offset; an element beyond the table reads zero or is dropped, and sets `TBLOOR`. `vldp` reads the tables of the harts that its indexes
name, and sets a bit of `md` where an element names no live, unspeculative hart of the context or lies beyond the table (R121, R122). That an
index beyond the table sets `TBLOOR` in a container that comes out poisoned too is the model's choice, log entry 122. -/
def Obligations.LaneTables : Prop :=
  ∀ (o : VOp) (e : Entry) (s : State),
    let n := o.ty.width / 8
    let offset := fun (j : Nat) => o.low.toNat % 1024 + j * n
    let inside := fun (j : Nat) => decide (offset j + n ≤ 1024)
    let place := fun (c j : Nat) => (List.range n).map (fun i => c % 16 * 1024 + offset j + i)
    let indexes := fun (r : VReg) (c : Nat) => (List.range o.ty.elems).map (elemOf o.ty (s.me.getV r.toNat c).val)
    let oor := fun (r : VReg) => (s.activeOf e o).any (fun c => (indexes r c).any (fun j => !inside j))
    let read := fun (m : Mem) (c j : Nat) => if inside j then (m.numAt (place c j), (place c j).any m.marked) else (0, false)
    let made := fun (rs : List (Nat × Bool)) => if rs.any (·.2) then PVal.poisoned else PVal.clean (packElems o.ty (rs.map (·.1)))
    let loaded := fun (t : State) (f : Nat → PVal) => (∀ v c, v ≠ o.vd.toNat → t.me.getV v c = s.me.getV v c) ∧
      ∀ c, t.me.getV o.vd.toNat c =
        if e.start ≤ c ∧ c < s.me.vl then
          (if s.me.active o c then f c else if o.z then PVal.clean 0 else s.me.getV o.vd.toNat c)
        else s.me.getV o.vd.toNat c
    (s.Ready e o [] → (∀ c ∈ s.activeOf e o, (s.me.getV o.vs1.toNat c).poison = false) →
      ∃ t, exec (.vldt o) s = .next t ∧ loaded t (fun c => made ((indexes o.vs1 c).map (read s.me.lanes c))) ∧
        t = s.completed { s.me with v := t.me.v, vstat := s.me.vstat ||| (if oor o.vs1 then 2 else 0) }) ∧
    (s.Ready e o [o.vs1] → 8 ≤ o.ty.width → (∀ c ∈ s.activeOf e o, (s.me.getV o.vs2.toNat c).poison = false) →
      ∃ t, exec (.vstt o) s = .next t ∧
        t = (s.popped e o [o.vs1]).completed { s.me with
          lanes := t.me.lanes, vstat := s.me.vstat ||| (if oor o.vs2 then 2 else 0) } ∧
        (∀ l, (∀ c ∈ s.activeOf e o, ∀ j ∈ indexes o.vs2 c, inside j = true → l ∉ place c j) → t.me.lanes.byte l = s.me.lanes.byte l) ∧
        (∀ c ∈ s.activeOf e o, ∀ i, i < o.ty.elems →
          let at_ := fun (d k : Nat) => place d (elemOf o.ty (s.me.getV o.vs2.toNat d).val k)
          inside (elemOf o.ty (s.me.getV o.vs2.toNat c).val i) = true →
          (∀ d k, d ∈ s.activeOf e o → k < o.ty.elems → (d, k) ≠ (c, i) → ∀ l ∈ at_ c i, l ∉ at_ d k) →
          t.me.lanes.numAt (at_ c i) = elemOf o.ty (lget (PVal.clean 0) (s.operands e o [o.vs1] c) 0).val i)) ∧
    (s.Ready e o [] → s.me.spec = false → 8 ≤ o.ty.width → (∀ c ∈ s.activeOf e o, (s.me.getV o.vs1.toNat c).poison = false) →
      let core := fun (j : Nat) => ringOf s.cur * 8 + j / 2 ^ (o.ty.width - 3) % 8
      let peer := fun (j : Nat) => s.hart (core j * 8 + j / 2 ^ (o.ty.width - 5) % 4)
      let off := fun (j : Nat) => j % 2 ^ (o.ty.width - 5)
      let good := fun (j : Nat) => !(s.core (core j)).fused && (peer j).live && (peer j).ctx == s.me.ctx && !(peer j).spec && inside (off j)
      ∃ t, exec (.vldp o) s = .next t ∧
        loaded t (fun c => made ((indexes o.vs1 c).map (fun j => if good j then read (peer j).lanes c (off j) else (0, false)))) ∧
        t = s.completed { s.me with v := t.me.v, m := t.me.m, vstat := s.me.vstat |||
          (if (s.activeOf e o).any (fun c => (indexes o.vs1 c).any (fun j => !inside (off j))) then 2 else 0) } ∧
        (∀ k, k ≠ o.vs2.toNat → t.me.getM k = s.me.getM k) ∧
        ∀ c, c < 128 → (t.me.getM o.vs2.toNat).getLsbD c =
          if c ∈ s.activeOf e o then (indexes o.vs1 c).any (fun j => !good j) else (s.me.getM o.vs2.toNat).getLsbD c)

/-! ### Permutations, reductions and scans (R36, R37, R124 to R132) -/

/-- The permutations read the source whole before they write. Each active container of `vd` below `vl` holds the elements that the
instruction's rule names, poisoned where one comes from a poisoned container; an inactive one is zeroed under `z`; `vcompr` packs the
active containers from 0 on. Everything else stays (R124 to R128). -/
def Obligations.Permutations : Prop :=
  ∀ (o : VOp) (e : Entry) (s u : State) (src : List PVal), s.Ready e o [] →
    let h := s.me
    let n := o.low.toNat % 2048
    let total := h.vl * o.ty.elems
    let whole := fun (c : Nat) => lget (PVal.clean 0) src c
    let elem := fun (q : Nat) => (elemOf o.ty (whole (q / o.ty.elems)).val (q % o.ty.elems), (whole (q / o.ty.elems)).poison)
    let made := fun (g : Nat → Nat × Bool) (c : Nat) =>
      let es := (List.range o.ty.elems).map (fun i => g (c * o.ty.elems + i))
      if es.any (·.2) then PVal.poisoned else PVal.clean (packElems o.ty (es.map (·.1)))
    let fill := (e.x.val.toNat % 2 ^ o.ty.width, e.x.poison)
    let active := (List.range h.vl).filter (h.active o)
    let table : List (Instr × (Nat → PVal)) :=
      [(.vslup o, made (fun q => if q < n then fill else elem (q - n))),
       (.vsldn o, made (fun q => if q + n < total then elem (q + n) else fill)),
       (.vgathr o, fun c =>
        let ix := h.getV o.vs2.toNat c
        if ix.poison then PVal.poisoned
        else if o.low.toNat % 2 = 1 then (if ix.val.toNat < h.vl then whole ix.val.toNat else PVal.clean 0)
        else made (fun q => if elemOf o.ty ix.val (q % o.ty.elems) < total then elem (elemOf o.ty ix.val (q % o.ty.elems)) else (0, false)) c),
       (.vexpnd o, fun c => whole (active.filter (· < c)).length),
       (.vrev o, made (fun q => elem (total - 1 - q)))]
    (h.vl = 0 → ∀ i ∈ .vcompr o :: table.map (·.1), exec i s = .next (s.completed h)) ∧
    (h.vl ≠ 0 → s.Whole o.vs1 u src →
      (∀ p ∈ table, ∃ t, exec p.1 s = .next t ∧ t = u.completed { h with v := t.me.v } ∧
        (∀ v c, v ≠ o.vd.toNat → t.me.getV v c = h.getV v c) ∧
        ∀ c, t.me.getV o.vd.toNat c =
          if c < h.vl then (if h.active o c then p.2 c else if o.z then PVal.clean 0 else h.getV o.vd.toNat c)
          else h.getV o.vd.toNat c) ∧
      ∃ t, exec (.vcompr o) s = .next t ∧ t = u.completed { h with v := t.me.v } ∧
        (∀ v c, v ≠ o.vd.toNat → t.me.getV v c = h.getV v c) ∧
        ∀ c, t.me.getV o.vd.toNat c = match active[c]? with
          | some a => whole a
          | none => if o.z ∧ c < h.vl then PVal.clean 0 else h.getV o.vd.toNat c)

/-- The operators of reductions and scans on two elements: the result, the flags it raises, and whether `.sat` clipped (R129). -/
abbrev Sys2Proof.Machine.combine (o : VOp) (h : Hart) (e : Entry) (a b : Nat) : Nat × Flags × Bool :=
  let x := intOf o.ty.signed o.ty.width a
  let y := intOf o.ty.signed o.ty.width b
  let m := match o.rm with
    | .dyn => modeOf e.crm
    | .stoch => .rne
    | r => r
  match o.ty.isInt, o.low.toNat % 8 with
  | true, 0 => ((elementOf o.ty (o.lowBits 12 12 == 1) (x + y)).1, 0, (elementOf o.ty (o.lowBits 12 12 == 1) (x + y)).2)
  | true, 1 => (if x ≤ y then a else b, 0, false)
  | true, 2 => (if x ≤ y then b else a, 0, false)
  | true, 3 => (a &&& b, 0, false)
  | true, 4 => (a ||| b, 0, false)
  | true, _ => (a ^^^ b, 0, false)
  | false, 0 => ((fpAdd h.ftz o.ty m (readF h.ftz o.ty a) (readF h.ftz o.ty b)).1,
      (fpAdd h.ftz o.ty m (readF h.ftz o.ty a) (readF h.ftz o.ty b)).2, false)
  | false, 1 => ((fpMinMax false h.ftz o.ty a b).1, (fpMinMax false h.ftz o.ty a b).2, false)
  | false, _ => ((fpMinMax true h.ftz o.ty a b).1, (fpMinMax true h.ftz o.ty a b).2, false)

/-- Two nodes of R36 joined: an absent one leaves the other; the left operand is the one at lower positions. -/
def Sys2Proof.Machine.joined (f : Nat → Nat → Nat × Flags × Bool) (a b : Option Nat × Flags × Bool) : Option Nat × Flags × Bool :=
  match a.1, b.1 with
  | some x, some y => (some (f x y).1, a.2.1 ||| b.2.1 ||| (f x y).2.1, a.2.2 || b.2.2 || (f x y).2.2)
  | some x, none => (some x, a.2.1 ||| b.2.1, a.2.2 || b.2.2)
  | none, y => (y, a.2.1 ||| b.2.1, a.2.2 || b.2.2)

/-- The balanced binary tree of R36 over the 2^level positions from `off` on. -/
def Sys2Proof.Machine.foldTree (f : Nat → Nat → Nat × Flags × Bool) (leaf : Nat → Option Nat) : Nat → Nat → Option Nat × Flags × Bool
  | 0, off => (leaf off, 0, false)
  | level + 1, off => joined f (foldTree f leaf level off) (foldTree f leaf level (off + 2 ^ level))

/-- The left-to-right fold of R37. -/
def Sys2Proof.Machine.foldLeft (f : Nat → Nat → Nat × Flags × Bool) : List Nat → Nat × Flags × Bool
  | [] => (0, 0, false)
  | a :: r => r.foldl (fun acc b => ((f acc.1 b).1, acc.2.1 ||| (f acc.1 b).2.1, acc.2.2 || (f acc.1 b).2.2)) (a, 0, false)

/-- Whether container `k` starts a segment (R129). -/
abbrev Sys2Proof.Machine.startsAt (h : Hart) (o : VOp) (k : Nat) : Bool := k == 0 || (o.lowBits 3 3 == 1 && (h.getM o.vs2.toNat).getLsbD k)

/-- Whether container `c`, at `a` or above it, lies in the segment of `a`: no segment starts above `a` up to it. -/
abbrev Sys2Proof.Machine.sameSegment (h : Hart) (o : VOp) (a c : Nat) : Bool :=
  a ≤ c && (List.range (c + 1)).all (fun k => k ≤ a || !startsAt h o k)

/-- The seed of R129, as the values that stand before the first element. -/
abbrev Sys2Proof.Machine.seedBefore (o : VOp) (e : Entry) : List Nat := if o.x = 0 then [] else [e.x.val.toNat % 2 ^ o.ty.width]

/-- A reduction of unpoisoned values that raises no enabled flag writes, at the container where each segment starts, the seed joined with
the root of the balanced tree over the segment's positions, inactive ones absent; the operator's identity where nothing is; flags, `SAT`
and `EMPTY` of an empty segment are set; nothing else changes (R36, R129, R130). Model's choices: log entries 23 and 25. -/
def Obligations.Reductions : Prop :=
  ∀ (o : VOp) (e : Entry) (s : State), ∀ i ∈ ([.vred o, .vfred o] : List Instr),
    let h := s.me
    let value := fun (c : Nat) => lget (PVal.clean 0) (s.operands e o [o.vs1] c) 0
    let leaf := fun (a p : Nat) =>
      let c := a + p / o.ty.elems
      if c < h.vl ∧ h.active o c = true ∧ sameSegment h o a c = true then some (elemOf o.ty (value c).val (p % o.ty.elems)) else none
    let root := fun (a : Nat) => foldTree (combine o h e) (leaf a) 12 0
    let result := fun (a : Nat) => joined (combine o h e) ((seedBefore o e).head?, 0, false) (root a)
    let starts := (List.range h.vl).filter (startsAt h o)
    let flags := starts.foldl (fun f a => f ||| (result a).2.1) (0 : Flags)
    let identity := match o.ty.isInt, o.low.toNat % 8 with
      | true, 1 => (if o.ty.signed then 2 ^ (o.ty.width - 1) - 1 else 2 ^ o.ty.width - 1)
      | true, 2 => (if o.ty.signed then 2 ^ (o.ty.width - 1) else 0)
      | true, 3 => 2 ^ o.ty.width - 1
      | false, 1 => infBits o.ty false
      | false, 2 => infBits o.ty true
      | _, _ => 0
    s.Ready e o [o.vs1] → s.Sole e → e.start = 0 → h.vl ≤ 128 → (o.ty.isInt = true ∨ o.low.toNat % 8 ≤ 2) →
    (∀ c ∈ s.activeOf e o, (value c).poison = false) → (o.x ≠ 0 → e.x.poison = false) → flags &&& h.ten = 0 →
    ∃ t, exec i s = .next t ∧
      (∀ v c, v ≠ o.vd.toNat → t.me.getV v c = h.getV v c) ∧
      (∀ c, t.me.getV o.vd.toNat c =
        if c ∈ starts then PVal.clean (packElems o.ty [((result c).1).getD identity]) else h.getV o.vd.toNat c) ∧
      t = (s.popped e o [o.vs1]).completed { h with
        v := t.me.v, fstat := h.fstat ||| flags.zeroExtend 64,
        vstat := h.vstat ||| (if starts.any (fun a => (result a).2.2) then 16 else 0) |||
          (if starts.any (fun a => (root a).1.isNone) then 1 else 0) }

/-- A scan of unpoisoned values that raises no enabled flag gives each element of an active container the left-to-right fold of its
segment's seed and elements up to itself; an inactive container is zeroed under `z`; flags, `SAT` and `EMPTY` of an empty segment are
set; nothing else changes (R37, R129, R131). -/
def Obligations.Scans : Prop :=
  ∀ (o : VOp) (e : Entry) (s : State), ∀ i ∈ ([.vscan o, .vfscan o] : List Instr),
    let h := s.me
    let value := fun (c : Nat) => lget (PVal.clean 0) (s.operands e o [o.vs1] c) 0
    let elems := fun (c : Nat) => (List.range o.ty.elems).map (elemOf o.ty (value c).val)
    let before := fun (c : Nat) => ((List.range c).filter (fun a => h.active o a && sameSegment h o a c)).flatMap elems
    let fold := fun (c i : Nat) => foldLeft (combine o h e) (seedBefore o e ++ before c ++ (elems c).take (i + 1))
    let act := s.activeOf e o
    let flags := act.foldl (fun f c => f ||| (fold c o.ty.elems).2.1) (0 : Flags)
    s.Ready e o [o.vs1] → e.start = 0 → h.vl ≤ 128 → (o.ty.isInt = true ∨ o.low.toNat % 8 ≤ 2) →
    (∀ c ∈ act, (value c).poison = false) → (o.x ≠ 0 → e.x.poison = false) → flags &&& h.ten = 0 →
    ∃ t, exec i s = .next t ∧
      (∀ v c, v ≠ o.vd.toNat → t.me.getV v c = h.getV v c) ∧
      (∀ c, t.me.getV o.vd.toNat c =
        if c < h.vl then (if h.active o c then PVal.clean (packElems o.ty ((List.range o.ty.elems).map (fun j => (fold c j).1)))
          else if o.z then PVal.clean 0 else h.getV o.vd.toNat c)
        else h.getV o.vd.toNat c) ∧
      t = (s.popped e o [o.vs1]).completed { h with
        v := t.me.v, fstat := h.fstat ||| flags.zeroExtend 64,
        vstat := h.vstat ||| (if act.any (fun c => (fold c o.ty.elems).2.2) then 16 else 0) |||
          (if ((List.range h.vl).filter (startsAt h o)).any (fun a => act.all (fun c => !sameSegment h o a c)) then 1 else 0) }

/-! ### The matrix unit, the special-function units (R38, R113, R184 to R196, R239) -/

/-- Claiming and releasing the unit, moving lines and passing fragments. `msetml` of a free unit, or its own, claims it with its type and
length, with tiles zero on a fresh claim; an owned one is waited for. On the hart that owns the unit `mend` frees it, `mzero` clears a
tile, `mxin` fills one line of a tile and `mxout` reads one, `rpass` puts a fragment into the empty buffer, `rpass.fr` once no delivery
into its landing is due (R264); on another hart they trap `ILLEGAL` (R186 to R194). Model's choices: log entry 132. -/
def Obligations.MatrixLines : Prop :=
  ∀ (o : VOp) (e : Entry) (s : State), s.entry? = some e → e.runs = true → s.me.spec = false →
    let k := coreOf s.cur
    let c := s.core k
    let n := min (max e.x.val.toNat 1) 64
    let mine := c.mxOwner = some s.cur
    let tile := fun (x : Core) (a i j : Nat) => tget (PVal.clean 0) x.mxTiles (4096 * a + 64 * i + j)
    let line := fun (q : Nat) => if o.lowBits 6 6 = 1 then (q, o.low.toNat % 64) else (o.low.toNat % 64, q)
    let typed := if 9 ≤ c.mxType.toNat then o.ty = .f32 else o.ty = .s32
    let there := o.vs1.toNat < 48 ∨ c.landing.isSome = true
    let frag := fun (i : Nat) => if o.vs1.toNat < 48 then s.me.getV o.vs1.toNat i else (c.landing.map (fun f => f.at i)).getD PVal.poisoned
    (e.x.poison = true → exec (.msetml o) s = .next ((s.waitAt 0).vtrap s.cur s.entryPos 0 cPoison 0 5)) ∧
    (e.x.poison = false →
      (mine → exec (.msetml o) s = .next ((s.modCore k (fun x => { x with mxMvl := n, mxType := o.ty.code })).completed s.me)) ∧
      (c.mxOwner = none → (∀ j, c.mxWait.head? = some j → j = s.cur) →
        exec (.msetml o) s = .next ((s.modCore k (fun x => { x with
          mxMvl := n, mxType := o.ty.code, mxOwner := some s.cur, mxTiles := [], mxWait := x.mxWait.filter (· != s.cur) })).completed s.me)) ∧
      (∀ j, c.mxOwner = some j → j ≠ s.cur → exec (.msetml o) s = .next (s.modCore k (fun x => { x with
        mxWait := joinLast s.cur x.mxWait })))) ∧
    (¬ mine → ∀ i ∈ ([.mend o, .mzero o, .mxin o, .mxout o, .rpass o, .mxacc o, .mxdec o, .mlu o, .mtrs o] : List Instr),
      exec i s = .next (s.vtrap s.cur s.entryPos 0 cIllegal 0 ((e.insn.extractLsb' 0 32).zeroExtend 64))) ∧
    (mine →
      exec (.mend o) s = .next ((s.modCore k (fun x => { x with mxOwner := none, mxTiles := [] })).completed s.me) ∧
      (∃ t, exec (.mzero o) s = .next t ∧ t = (s.modCore k (fun x => { x with mxTiles := (t.core k).mxTiles })).completed s.me ∧
        ∀ a i j, i < 64 → j < 64 → tile (t.core k) a i j = if a = o.vd.toNat then PVal.clean 0 else tile c a i j) ∧
      (typed → there → ∃ t, exec (.mxin o) s = .next t ∧
        t = (s.modCore k (fun x => { x with mxTiles := (t.core k).mxTiles })).completed s.me ∧
        (∀ q, q < 64 → tile (t.core k) o.vd.toNat (line q).1 (line q).2 =
          if (frag (q / 2)).poison then PVal.poisoned else PVal.clean (BitVec.ofNat 64 (elemOf .n32 (frag (q / 2)).val (q % 2)))) ∧
        ∀ a i j, i < 64 → j < 64 → (a ≠ o.vd.toNat ∨ ∀ q, q < 64 → line q ≠ (i, j)) → tile (t.core k) a i j = tile c a i j) ∧
      (typed → ∃ t, exec (.mxout o) s = .next t ∧ t = s.completed { s.me with v := t.me.v } ∧
        (∀ v c, v ≠ o.vd.toNat ∨ 32 ≤ c → t.me.getV v c = s.me.getV v c) ∧
        ∀ i, i < 32 →
          let a := tile c o.vs3.toNat (line (2 * i)).1 (line (2 * i)).2
          let b := tile c o.vs3.toNat (line (2 * i + 1)).1 (line (2 * i + 1)).2
          t.me.getV o.vd.toNat i = if a.poison ∨ b.poison then PVal.poisoned else
            PVal.clean (BitVec.ofNat 64 (a.val.toNat % 2 ^ 32 + 2 ^ 32 * (b.val.toNat % 2 ^ 32)))) ∧
      (c.outBuf = none → (o.lowBits 0 0 = 1 → s.fragmentDue k = false) → there → ∃ t f, exec (.rpass o) s = .next t ∧ f.len = s.me.vl ∧ (∀ i, i < s.me.vl → f.at i = frag i) ∧
        t = (s.modCore k (fun x => { x with
          outBuf := some f, landing := if o.lowBits 0 0 = 1 then none else x.landing })).completed s.me) ∧
      (o.lowBits 0 0 = 1 → s.fragmentDue k = true → exec (.rpass o) s = .next s) ∧
      (∀ f, c.outBuf = some f → exec (.rpass o) s = .next s))

/-- One step of a floating-point outer product on a tile element: the old value and every product under its scales, exactly, and their sum
rounded once to nearest. A NaN, infinities of both signs or an infinity times a zero give the canonical NaN with `NV`; an exact zero is
negative where every addend is; and poison of the element, of either container or of a scale that it reads enters it and raises nothing
(R38, R191). -/
abbrev Sys2Proof.Machine.floatStep (ftz : Bool) (t : Ty) (dec : Bool) (old a b : PVal) (sa sb : Nat × Bool) : PVal × Flags :=
  let scale := fun (s : Nat) => if s = 255 then FVal.nan false else .fin false 1 ((s : Int) - 127)
  let product := fun (q : Nat) =>
    let v := mulExact (mulExact (readF ftz t (elemOf t a.val q)) (readF ftz t (elemOf t b.val q)))
      (if t = .e2m1 then mulExact (scale sa.1) (scale sb.1) else .fin false 1 0)
    if dec then v.negate else v
  let xs := readF ftz .f32 (old.val.toNat % 2 ^ 32) :: (List.range t.elems).map product
  let sum : Int := (xs.map (fun x => match x with
    | .fin n m e => scaled n m e (-600)
    | _ => 0)).sum
  let rounded : Nat × Flags :=
    if xs.any FVal.isNan ∨ (.inf true ∈ xs ∧ .inf false ∈ xs) then (canonNaN .f32, fNV)
    else if .inf true ∈ xs then (infBits .f32 true, 0)
    else if .inf false ∈ xs then (infBits .f32 false, 0)
    else roundFin ftz .f32 .rne (if sum = 0 then xs.all FVal.isNeg else decide (sum < 0)) sum.natAbs (-600)
  if old.poison ∨ a.poison ∨ b.poison ∨ sa.2 ∨ sb.2 then (PVal.poisoned, 0) else (PVal.clean (BitVec.ofNat 64 rounded.1), rounded.2)

/-- Floating-point `mxacc` and `mxdec`. Each step in its order gives every element of the tile that an active position of A and a position of
B below `vl` reach its `floatStep`, and keeps the others; the flags of the steps are raised. The first step that raises an enabled flag
traps `FP_ENABLED` at its first position, with the tile as the steps before it left it (R38, R188, R191, R192). A NaN or an infinity that
the accumulator already holds counts as an addend: the model's choice of log entry 135. -/
abbrev Sys2Proof.Machine.FloatingOuterProducts : Prop :=
  ∀ (o : VOp) (e : Entry) (s : State), s.entry? = some e → e.runs = true → s.me.spec = false →
    let k := coreOf s.cur
    let c := s.core k
    let m := c.mxMvl
    let h := s.me
    let tile := fun (x : Core) (a i j : Nat) => tget (PVal.clean 0) x.mxTiles (4096 * a + 64 * i + j)
    let there := fun (r : VReg) => r.toNat < 48 ∨ c.landing.isSome = true
    let frag := fun (r : VReg) (i : Nat) =>
      if r.toNat < 48 then h.getV r.toNat i else (c.landing.map (fun f => f.at i)).getD PVal.poisoned
    let scaleOf := fun (first pos : Nat) =>
      if o.ty = .e2m1 then
        ((frag o.vs3 (first + pos / 16)).val.toNat / 256 ^ (pos / 2 % 8) % 256, (frag o.vs3 (first + pos / 16)).poison)
      else (0, false)
    let steps := (h.vl + m - 1) / m
    c.mxOwner = some s.cur → 0 < m → m ≤ 64 → c.mxType = o.ty.code → o.ty.isInt = false → h.vl ≤ 128 →
    there o.vs1 → there o.vs2 → there o.vs3 →
    ∀ p ∈ ([(Instr.mxacc o, false), (.mxdec o, true)] : List (Instr × Bool)),
      let one := fun (st i j : Nat) (old : PVal) =>
        let a := st * m + i
        let b := st * m + j
        if a < h.vl ∧ h.active o a = true ∧ b < h.vl then
          floatStep h.ftz o.ty p.2 old (frag o.vs1 a) (frag o.vs2 b) (scaleOf 0 a) (scaleOf 8 b)
        else (old, (0 : Flags))
      let before := fun (st i j : Nat) => (containers (e.start / m) st).foldl (fun v q => (one q i j v).1) (tile c o.vd.toNat i j)
      let raised := fun (st : Nat) => (List.range m).foldl (fun f i => (List.range m).foldl (fun f' j => f' ||| (one st i j (before st i j)).2) f) 0
      let flags := fun (st : Nat) => (containers (e.start / m) st).foldl (fun f q => f ||| raised q) (0 : Flags)
      let tiles := fun (t : State) (st : Nat) => ∀ a i j, i < 64 → j < 64 →
        tile (t.core k) a i j = if a = o.vd.toNat ∧ i < m ∧ j < m then before st i j else tile c a i j
      ((∀ st, e.start / m ≤ st → st < steps → raised st &&& h.ten = 0) →
        ∃ t, exec p.1 s = .next t ∧ tiles t steps ∧ t = (s.modCore k (fun x => { x with mxTiles := (t.core k).mxTiles })).completed
          { h with fstat := h.fstat ||| (flags steps).zeroExtend 64 }) ∧
      ∀ st, e.start / m ≤ st → st < steps → (∀ q, e.start / m ≤ q → q < st → raised q &&& h.ten = 0) → raised st &&& h.ten ≠ 0 →
        ∃ u : State, tiles u st ∧
          u = (s.modCore k (fun x => { x with mxTiles := (u.core k).mxTiles })).setHart s.cur
            { h with fstat := h.fstat ||| (flags (st + 1)).zeroExtend 64 } ∧
          exec p.1 s = .next (u.trapAt (st * m) cFp 0 ((raised st &&& h.ten).zeroExtend 64))

/-- One column of a factorisation. `p` is the lowest row from `k` on whose magnitude is largest, or `k` where the column is poisoned from its
diagonal on; rows `k` and `p` change places; under a zero pivot that is not poisoned the column below it becomes zero; else it becomes the
quotients by the pivot, poisoned with the column, and from every element right of it and below the row the product of its quotient and
the pivot row's element is taken with one rounding; `fl` are the flags of these operations (R195). -/
abbrev Sys2Proof.Machine.LuColumn (h : Hart) (m k p : Nat) (w w' : Nat → Nat → PVal) (bad zero : Bool) (fl : Flags) : Prop :=
  let real := fun (v : PVal) => readF h.ftz .f32 (v.val.toNat % 2 ^ 32)
  let x := fun (i j : Nat) =>
    let v := if i = k then w p j else if i = p then w k j else w i j
    if (i = k ∨ i = p) ∧ v.poison = true then PVal.poisoned else v
  let l := fun (i : Nat) => if bad then (PVal.poisoned, 0) else f32Div h (x i k) (x k k)
  let u := fun (i j : Nat) => f32Nms h (x i j) (l i).1 (x k j)
  bad = decide (∃ i, i < m ∧ k ≤ i ∧ (w i k).poison = true) ∧
  (bad = true → p = k) ∧
  (bad = false → k ≤ p ∧ p < m ∧ (∀ i, k ≤ i → i < m → magAbove (real (w i k)) (real (w p k)) = false) ∧
    ∀ i, k ≤ i → i < p → magAbove (real (w p k)) (real (w i k)) = true) ∧
  zero = (!bad && (real (x k k)).isZero) ∧
  (∀ i j, i < m → j < m → w' i j =
    if i ≤ k ∨ j < k then x i j
    else if j = k then (if zero then PVal.clean 0 else (l i).1)
    else if zero then x i j else (u i j).1) ∧
  fl = if zero then 0 else (containers (k + 1) m).foldl (fun f i => f ||| (l i).2 |||
    (containers (k + 1) m).foldl (fun f' j => f' ||| (u i j).2) 0) 0

/-- `mlu` and `mlu.st` from column 0 on: the columns in their order give L and U with the pivots in `vd`; `SING` is set at a zero pivot and
the column of the first named. A zero pivot under `.st` and an enabled flag trap `FP_ENABLED` at their column, with the tile and the pivots as
the columns before it left them (R195). Model's choices: log entry 32. -/
abbrev Sys2Proof.Machine.Factorisations : Prop :=
  ∀ (o : VOp) (e : Entry) (s : State), s.entry? = some e → e.runs = true → s.me.spec = false → e.start = 0 →
    let k := coreOf s.cur
    let c := s.core k
    let m := c.mxMvl
    let h := s.me
    let tile := fun (x : Core) (a i j : Nat) => tget (PVal.clean 0) x.mxTiles (4096 * a + 64 * i + j)
    c.mxOwner = some s.cur → 0 < m → m ≤ 64 → 9 ≤ c.mxType.toNat →
    ∃ (w : Nat → Nat → Nat → PVal) (p : Nat → Nat) (bad zero : Nat → Bool) (fl : Nat → Flags),
      (∀ i j, i < m → j < m → w 0 i j = tile c o.vs3.toNat i j) ∧
      (∀ q, q < m → LuColumn h m q (p q) (w q) (w (q + 1)) (bad q) (zero q) (fl q)) ∧
      let stops := fun (q : Nat) => (zero q = true ∧ o.lowBits 0 0 = 1) ∨ fl q &&& h.ten ≠ 0
      let raised := fun (n : Nat) => (List.range n).foldl (fun f q => f ||| fl q) (0 : Flags)
      let sing := fun (n : Nat) => match (List.range n).find? zero with
        | some q => (h.vstat &&& 0xFFFFFFFFFFFFC0FF) ||| 4 ||| BitVec.ofNat 64 (256 * (q % 64))
        | none => h.vstat
      let left := fun (t : State) (g : Hart) (n : Nat) =>
        (∀ a i j, i < 64 → j < 64 → tile (t.core k) a i j = if a = o.vs3.toNat ∧ i < m ∧ j < m then w n i j else tile c a i j) ∧
        ∀ v i, g.getV v i = if v = o.vd.toNat ∧ 64 ≤ i ∧ i < 64 + n then
            (if bad (i - 64) then PVal.poisoned else PVal.clean (BitVec.ofNat 64 (p (i - 64)))) else h.getV v i
      ((∀ q, q < m → ¬ stops q) → ∃ t, exec (.mlu o) s = .next t ∧ left t t.me m ∧
        t = (s.modCore k (fun x => { x with mxTiles := (t.core k).mxTiles })).completed
          { h with v := t.me.v, fstat := h.fstat ||| (raised m).zeroExtend 64, vstat := sing m }) ∧
      ∀ q, q < m → stops q → (∀ q', q' < q → ¬ stops q') → ∃ (u : State) (g : Hart), left u g q ∧
        g = { h with v := g.v, fstat := h.fstat ||| (raised (q + 1)).zeroExtend 64, vstat := sing (q + 1) } ∧
        u = (s.modCore k (fun x => { x with mxTiles := (u.core k).mxTiles })).setHart s.cur g ∧
        exec (.mlu o) s = .next (u.trapAt q cFp 0 (if zero q = true then 0x20 else (fl q &&& h.ten).zeroExtend 64))

/-- The outer product and the tile solvers. `mxacc` and `mxdec` of an integer type add to, or take from, each element of the tile the sums
of products that its steps select, modulo 2^32, poison spreading. `mlu` without traps completes for every tile, chooses for column 0 the
lowest row of the largest magnitude, whose row becomes the tile's first, and gives pivots in range. `mtrs` without traps gives the
solution of the two triangular systems (R38, R191, R195, R196). -/
abbrev Sys2Proof.Machine.OuterAndTileSolversPart : Prop :=
  ∀ (o : VOp) (e : Entry) (s : State), s.entry? = some e → e.runs = true → s.me.spec = false → e.start = 0 →
    let k := coreOf s.cur
    let c := s.core k
    let m := c.mxMvl
    let h := s.me
    let tile := fun (x : Core) (a i j : Nat) => tget (PVal.clean 0) x.mxTiles (4096 * a + 64 * i + j)
    let there := fun (r : VReg) => r.toNat < 48 ∨ c.landing.isSome = true
    let frag := fun (r : VReg) (i : Nat) =>
      if r.toNat < 48 then h.getV r.toNat i else (c.landing.map (fun f => f.at i)).getD PVal.poisoned
    let real := fun (p : PVal) => readF h.ftz .f32 (p.val.toNat % 2 ^ 32)
    c.mxOwner = some s.cur → 0 < m → m ≤ 64 →
    (∀ p ∈ ([(Instr.mxacc o, 1), (.mxdec o, -1)] : List (Instr × Int)),
      c.mxType = o.ty.code → (h.vl = 0 → exec p.1 s = .next (s.completed h)) ∧
      (o.ty.isInt = true → h.vl ≠ 0 → there o.vs1 → there o.vs2 → there o.vs3 →
      ∃ t, exec p.1 s = .next t ∧ t = (s.modCore k (fun x => { x with mxTiles := (t.core k).mxTiles })).completed h ∧
        ∀ a i j, i < 64 → j < 64 → tile (t.core k) a i j =
          let steps := (List.range ((h.vl + m - 1) / m)).filter (fun st =>
            st * m + i < h.vl && h.active o (st * m + i) && decide (st * m + j < h.vl))
          let old := tile c a i j
          if a ≠ o.vd.toNat ∨ m ≤ i ∨ m ≤ j ∨ steps = [] then old
          else if old.poison || steps.any (fun st => (frag o.vs1 (st * m + i)).poison || (frag o.vs2 (st * m + j)).poison)
            then PVal.poisoned
          else
            let sum := steps.map (fun st => ((List.range o.ty.elems).map (fun q =>
              intOf o.ty.signed o.ty.width (elemOf o.ty (frag o.vs1 (st * m + i)).val q) *
              intOf o.ty.signed o.ty.width (elemOf o.ty (frag o.vs2 (st * m + j)).val q))).sum)
            PVal.clean (BitVec.ofNat 64 (((old.val.toNat : Int) + p.2 * sum.sum) % 2 ^ 32).toNat))) ∧
    (9 ≤ c.mxType.toNat → h.ten = 0 → o.lowBits 0 0 = 0 →
      (∀ i j, i < m → j < m → (tile c o.vs3.toNat i j).poison = false) →
      ∃ t, exec (.mlu o) s = .next t ∧
        t = (s.modCore k (fun x => { x with mxTiles := (t.core k).mxTiles })).completed
          { h with v := t.me.v, fstat := t.me.fstat, vstat := t.me.vstat } ∧
        (∀ v i, v ≠ o.vd.toNat ∨ i < 64 ∨ 64 + m ≤ i → t.me.getV v i = h.getV v i) ∧
        (∀ a i j, i < 64 → j < 64 → (a ≠ o.vs3.toNat ∨ m ≤ i ∨ m ≤ j) → tile (t.core k) a i j = tile c a i j) ∧
        (∀ q, q < m → ∃ p, q ≤ p ∧ p < m ∧ t.me.getV o.vd.toNat (64 + q) = PVal.clean (BitVec.ofNat 64 p)) ∧
        ∃ p, p < m ∧ t.me.getV o.vd.toNat 64 = PVal.clean (BitVec.ofNat 64 p) ∧
          (∀ i, i < m → magAbove (real (tile c o.vs3.toNat i 0)) (real (tile c o.vs3.toNat p 0)) = false) ∧
          (∀ i, i < p → magAbove (real (tile c o.vs3.toNat p 0)) (real (tile c o.vs3.toNat i 0)) = true) ∧
          ∀ j, j < m → tile (t.core k) o.vs3.toNat 0 j = tile c o.vs3.toNat p j) ∧
    (9 ≤ c.mxType.toNat → h.ten = 0 → there o.vs1 →
      ∃ (t : State) (y x : List PVal), exec (.mtrs o) s = .next t ∧ t = s.completed { h with v := t.me.v, fstat := t.me.fstat } ∧
        (∀ v i, v ≠ o.vd.toNat ∨ (m + 1) / 2 ≤ i → t.me.getV v i = h.getV v i) ∧
        y.length = m ∧ x.length = m ∧
        (∀ i, i < m → lget PVal.poisoned y i = (List.range i).foldl (fun acc j =>
          (f32Nms h acc (tile c o.vs3.toNat i j) (lget PVal.poisoned y j)).1)
          (lget PVal.poisoned (permuted ((List.range 128).map (frag o.vs1)) m) i)) ∧
        (∀ i, i < m → lget PVal.poisoned x i = (f32Div h ((containers (i + 1) m).foldl (fun acc j =>
          (f32Nms h acc (tile c o.vs3.toNat i j) (lget PVal.poisoned x j)).1) (lget PVal.poisoned y i)) (tile c o.vs3.toNat i i)).1) ∧
        ∀ q, q + 1 < m ∧ q % 2 = 0 →
          t.me.getV o.vd.toNat (q / 2) =
            if (lget PVal.poisoned x q).poison ∨ (lget PVal.poisoned x (q + 1)).poison then PVal.poisoned
            else PVal.clean (packElems .n32 [(lget PVal.poisoned x q).val.toNat, (lget PVal.poisoned x (q + 1)).val.toNat]))

/-- The outer products and the tile solvers (R38, R188, R191, R192, R195, R196). Model's choices: log entries 23, 32 and 135. -/
def Obligations.OuterAndTileSolvers : Prop := OuterAndTileSolversPart ∧ FloatingOuterProducts ∧ Factorisations

/-- `vsfu` sends one request to the unit of its half-ring, or to the other one where that is fused off, and parks its entry, with the active
containers of the landing where it reads that; of the receive queue the entry joins the waiting pops, and the request goes out once a word
can be popped. The unit's return writes each active container's function of its elements, of the queue popping a word for each, raises
their flags and completes the entry (R93, R113, R236, R239). -/
abbrev Sys2Proof.Machine.FunctionsRequested : Prop :=
  ∀ (o : VOp) (e : Entry) (s : State),
    let half := posOf (coreOf s.cur) / 4
    let unit := if half ∈ (s.ring (ringOf s.cur)).sfuFused then 1 - half else half
    let func := fun (u : State) (p : PVal) => (List.range o.ty.elems).map (fun i =>
      sfuElem u.me.ftz o.ty (o.low.toNat % 8) (elemOf o.ty p.val i))
    let raised := fun (u : State) (p : PVal) => if p.poison then (0 : Flags) else (func u p).foldl (fun f q => f ||| q.2) 0
    let made := fun (u : State) (p : PVal) => if p.poison then PVal.poisoned else PVal.clean (packElems o.ty ((func u p).map (·.1)))
    let parked := fun (u : State) (kept : Tab PVal → Tab PVal) => (u.modRing (ringOf s.cur) (fun r => { r with
        sfu := tput r.sfu unit (tget [] r.sfu unit ++ [(s.cur, e.id)]) })).setHart s.cur { s.me with
          queue := s.me.queue.map (fun x => if x.id = s.entry then { x with parked := true, pend := kept x.pend } else x) }
    let core := s.core (coreOf s.cur)
    let pop := vectorPop s.cur
    let joined := s.modCore (coreOf s.cur) (fun c => { c with recvWait := joinLast pop c.recvWait })
    (s.entry? = some e → e.runs = true → (s.me.spec = true → readsLanding o = false ∧ readsQueue o = false) →
      (o.vs1.toNat < 48 → exec (.vsfu o) s = .next (parked s (fun p => p))) ∧
      (∀ f, o.vs1 = 48 → core.landing = some f → exec (.vsfu o) s = .next (parked s (fun p =>
        (s.activeOf e o).foldl (fun m c => tput m (1024 + c) (f.at c)) p))) ∧
      (o.vs1 = 49 →
        let served := core.recvQ ≠ [] ∧ ∀ k, core.recvWait.head? = some k → k = pop
        (s.activeOf e o = [] → exec (.vsfu o) s = .next (parked s (fun p => p))) ∧
        (s.activeOf e o ≠ [] → served → exec (.vsfu o) s = .next (parked joined (fun p => p))) ∧
        (s.activeOf e o ≠ [] → ¬ served → exec (.vsfu o) s = .next joined))) ∧
    (∀ (ring n hart id : Nat) (rest : List (Nat × Nat)), ringExists ring = true → n < 2 →
      tget [] (s.ring ring).sfu n = (hart, id) :: rest →
      let u : State := { s.modRing ring (fun r => { r with sfu := tput r.sfu n rest }) with cur := hart, entry := id }
      let rs : List VReg := if o.vs1 = 49 then [49] else []
      let value := fun (c : Nat) => if o.vs1 = 48 then tget (PVal.clean 0) e.pend (1024 + c) else (u.gives e o o.vs1 c).getD PVal.poisoned
      u.me.queue.filter (fun x => x.id == u.entry) = [e] → fieldsOf e.instr = some o →
      (o.vs1 = 49 → (∀ c ∈ u.activeOf e o, (u.gives e o o.vs1 c).isSome = true) ∧
        ∀ k ∈ (u.core (coreOf u.cur)).recvWait, k = vectorPop u.cur) →
      (∀ c ∈ u.activeOf e o, raised u (value c) &&& u.me.ten = 0) →
      ∃ t, exec (.sfuReturn ring n) s = .next t ∧ u.Lanes t e o rs (fun c => made u (value c))
        ((u.activeOf e o).foldl (fun f c => f ||| raised u (value c)) 0) false)

/-- The special cases of the eight functions, in every floating-point type that `VSFU` takes: zeros, infinities and NaNs, negative
operands, and the operands whose results are exact (R41). Operands and results are compared as bits; the flags are those that the row names. -/
abbrev Sys2Proof.Machine.FunctionSpecialCases : Prop :=
  ∀ (t : Ty), t ∈ ([.f64, .f32, .f16, .bf16] : List Ty) → ∀ (ftz : Bool) (bits : Nat), bits < 2 ^ t.width →
    let f := fun (fn : Nat) => sfuElem ftz t fn bits
    let sign := fun (neg : Bool) => if neg then 2 ^ (t.width - 1) else 0
    let inf := fun (neg : Bool) => infBits t neg
    let value := fun (neg : Bool) (m : Nat) (e : Int) => (roundFin ftz t .rne neg m e).1
    let x := readF ftz t bits
    (∀ q, x = .nan q → ∀ fn < 8, f fn = (canonNaN t, if q then fNV else 0)) ∧
    (∀ neg, x = .inf neg →
      f 0 = (if neg then 0 else inf false, 0) ∧ f 1 = (if neg then (canonNaN t, fNV) else (inf false, 0)) ∧ f 2 = (sign neg, 0) ∧
      f 3 = (if neg then (canonNaN t, fNV) else (0, 0)) ∧ f 4 = (canonNaN t, fNV) ∧ f 5 = (canonNaN t, fNV) ∧
      f 6 = (value neg 1 0, 0) ∧ f 7 = (value neg 1 0, 0)) ∧
    (∀ neg e, x = .fin neg 0 e →
      f 0 = (value false 1 0, 0) ∧ f 1 = (inf true, fDZ) ∧ f 2 = (inf neg, fDZ) ∧ f 3 = (inf neg, fDZ) ∧ f 4 = (sign neg, 0) ∧
      f 5 = (value false 1 0, 0) ∧ f 6 = (sign neg, 0) ∧ f 7 = (sign neg, 0)) ∧
    (∀ m e, m ≠ 0 → x = .fin true m e → f 1 = (canonNaN t, fNV) ∧ f 3 = (canonNaN t, fNV)) ∧
    (∀ neg m (e : Int) (n : Nat), m ≠ 0 → x = .fin neg m e → m * 2 ^ (e + 2000).toNat = n * 2 ^ 2000 → n ≤ 14 →
      f 0 = (value false 1 (if neg then -(n : Int) else n), 0) ∧ f 4 = (sign neg, 0) ∧ f 5 = (value (n % 2 = 1) 1 0, 0)) ∧
    (∀ neg m (e : Int) (n : Nat), m ≠ 0 → x = .fin neg m e → 2 * (m * 2 ^ (e + 2000).toNat) = (2 * n + 1) * 2 ^ 2000 → f 5 = (0, 0)) ∧
    (∀ (k : Nat) (e : Int), x = .fin false (2 ^ k) e → f 1 = (value (decide (k + e < 0)) (k + e).natAbs 0, 0))

/-- `vsfu` and what its eight functions give (R41, R93, R113, R236, R239). Model's choices: log entries 22 and 31. -/
def Obligations.SpecialFunctions : Prop := FunctionsRequested ∧ FunctionSpecialCases

/-! ### Events -/

/-- What comes about at a hart. A pending event of lowest code is taken at the boundary of a user hart, an `ORPHAN` right after the
`MACHINE_CHECK` of its die failure where both are pending, once an element group under way has ended; the watchdog traps at a blocked
`recv` or at the entry that waits for the receive queue; a retirement frees the slot once the hart has drained; a stalled `wfe` ends;
firmware frees a stopped hart's slot; and a fragment goes from a core's buffer to the landing of its clockwise neighbour (R24, R86, R138,
R144, R147, R193, R316). Model's choices: log entries 15, 16, 55, 107 and 110. -/
def Obligations.HartEvents : Prop :=
  ∀ (k : Nat) (s : State), ringExists (ringOf k) = true →
    let h := s.hart k
    let first := fun (e : Event) =>
      if e.code = 0x22 ∧ ∃ m ∈ h.events, m.code = 0x23 ∧ m.addr = 0 ∧ m.val = e.addr then 0x24 else e.code
    (∀ e l r, h.live = true → h.stopped = false → h.priv = 0 → h.spec = false → s.midAccess k = false → s.idleInFork k = false →
      h.events = l ++ e :: r → (∀ f ∈ l, first e < first f) → (∀ f ∈ r, first e ≤ first f) →
      (s.groupAbroad k = true → exec (.eventEntry k) s = .next (s.setHart k { h with wait := .stopping })) ∧
      (∀ entry, s.groupAbroad k = false → s.entryPc k = some entry →
        ∃ t, exec (.eventEntry k) s = .next t ∧ (t.hart k).pc = entry ∧ (t.hart k).priv = 1 ∧ (t.hart k).ppriv = 0 ∧
          (t.hart k).tcause = BitVec.ofNat 64 (e.code + 2 ^ 63) &&& 0xC0000000000000FF ∧
          (t.hart k).tpc = h.pc &&& 0x0000FFFFFFFFFFFC ∧ (t.hart k).taddr = e.addr ∧ (t.hart k).tval = e.val ∧
          (t.hart k).events = l ++ r ∧ (t.hart k).queue = freezeQueue h.queue ∧ (t.hart k).x = h.x ∧ (t.hart k).v = h.v ∧
          t.mem = s.mem ∧ ∀ j, j ≠ k → t.hart j = s.hart j)) ∧
    (∀ entry, h.live = true → h.stopped = false → h.spec = false → h.rxwdog ≠ 0 → h.rxwdog.toNat ≤ h.rxCount → s.entryPc k = some entry →
      s.groupAbroad k = false →
      (h.wait = .recv → ∃ t, exec (.watchdog k) s = .next t ∧ (t.hart k).pc = entry ∧ (t.hart k).tcause = 0x0D ∧
        (t.hart k).tpc = h.pc &&& 0x0000FFFFFFFFFFFC ∧ (t.hart k).tval = h.rxwdog ∧ (t.hart k).x = h.x ∧ t.mem = s.mem) ∧
      (∀ e, h.wait ≠ .recv → s.midAccess k = false → (s.core (coreOf k)).recvQ = [] → vectorPop k ∈ (s.core (coreOf k)).recvWait →
        h.poppingEntry = some e →
        ∃ t, exec (.watchdog k) s = .next t ∧ (t.hart k).pc = entry ∧ (t.hart k).tcause = 0x400000000000000D ∧
          (t.hart k).tpc = h.pc &&& 0x0000FFFFFFFFFFFC ∧ (t.hart k).tqpos = BitVec.ofNat 64 (h.posOfEntry e.id % 16) ∧
          (t.hart k).telem = BitVec.ofNat 64 (e.start % 128) ∧ (t.hart k).taddr = 0 ∧ (t.hart k).tval = h.rxwdog ∧
          (t.hart k).x = h.x ∧ t.mem = s.mem)) ∧
    (h.live = true → h.retiring = true → h.stopped = false → (∀ e ∈ h.queue, e.frozen = true) → s.midAccess k = false →
      s.groupAbroad k = false →
      ∃ t, exec (.retirement k) s = .next t ∧ t.hart k = Hart.empty ∧ (t.core (coreOf k)).mxOwner ≠ some k ∧ t.mem = s.mem ∧
        (∀ j, j ≠ k → t.hart j = s.hart j) ∧ ∀ p, (s.ring (ringOf k)).prog = some p → p.hart = k → (t.ring (ringOf k)).prog = none) ∧
    (h.live = true → h.stopped = false → h.wait = .wfe → h.latch = false →
      exec (.stalledWfeEnd k) s = .next (s.setHart k { h with pc := h.pc + 4, wait := .none })) ∧
    (h.live = true → h.stopped = true →
      ∃ t, exec (.stoppedHartSlotFree k) s = .next t ∧ t.hart k = Hart.empty ∧ t.mem = s.mem ∧ ∀ j, j ≠ k → t.hart j = s.hart j) ∧
    (let c := coreOf k
      let next := c / 8 * 8 + s.nextLive (c / 8) (c % 8)
      ∀ f, (s.core c).fused = false → (s.core c).outBuf = some f → (s.core next).landing = none →
        ∃ t, exec (.fragmentDelivery c) s = .next t ∧ (t.core c).outBuf = none ∧ (t.core next).landing = some f ∧
          t.harts = s.harts ∧ t.mem = s.mem ∧ ∀ j, j ≠ c → j ≠ next → t.core j = s.core j)

/-- A hart on which chunk `j` of a fork has started with the start values `starts`: the forking hart's context and ring index, its privilege
at the fork, `HSTAT` as of a speculative chunk, `TVEC` 0, the pc at the body, flags and `VSTAT` clear, vector registers only where
declared live, carried registers from `starts`, induction registers at its first iteration, and every other register as at the fork
(R22, R23, R203, R217). -/
structure Sys2Proof.Machine.StartedAs (h : Hart) (f : Fork) (parent : Hart) (starts : Tab PVal) (j : Nat) : Prop where
  slot : h.live = true ∧ h.spec = true ∧ h.route = 1 ∧ h.ctx = parent.ctx ∧ h.ringidx = parent.ringidx ∧ h.priv = f.saved.priv
  body : h.pc = BitVec.ofNat 64 f.body ∧ h.chunkno = j ∧ h.tvec = 0 ∧ h.queue = [] ∧ h.decls = [] ∧ h.forks = [] ∧ h.events = []
  controls : h.fstat = f.saved.fstat &&& 0xFFFFFFFFFFFFFFE0 ∧ h.vstat = 0 ∧ h.hctl = f.saved.hctl
  vectors : h.vl = f.saved.vl ∧ h.m = f.saved.m ∧ h.lanes = { cells := [], marks := [] } ∧
    ∀ v e, h.getV v e = if ∃ r : VReg, r.toNat = v ∧ .vlive r ∈ f.decls then tget (PVal.clean 0) (tget [] f.saved.v v) e else PVal.clean 0
  carry : Distinct f.decls → ∀ r : Reg, .carry r ∈ f.decls → tget (PVal.clean 0) h.x r.toNat = tget (PVal.clean 0) starts r.toNat
  induct : Distinct f.decls → ∀ (r : Reg) (imm : BitVec 13), .indImm r imm ∈ f.decls → tget (PVal.clean 0) h.x r.toNat =
    addP (tget (PVal.clean 0) f.x0 r.toNat) (PVal.clean (BitVec.ofNat 64 (j * f.c) * imm.signExtend 64))
  inductReg : Distinct f.decls → ∀ r q : Reg, .indReg r q ∈ f.decls →
    let st := if q = 0 then PVal.clean 0 else tget (PVal.clean 0) f.x0 q.toNat
    tget (PVal.clean 0) h.x r.toNat = addP (tget (PVal.clean 0) f.x0 r.toNat) { val := BitVec.ofNat 64 (j * f.c) * st.val, poison := st.poison }
  others : ∀ r : Reg, (∀ d ∈ f.decls, d.reg? = some r → ∃ op, d = .red r op) →
    tget (PVal.clean 0) h.x r.toNat = tget (PVal.clean 0) f.x0 r.toNat

/-- A chunk as a squash leaves it: it holds its slot, nothing of what it did, and new start values (R210, R216). -/
abbrev Sys2Proof.Machine.Chunk.again (d : Chunk) (f : Fork) (starts : Tab PVal) (verified : Bool) : Chunk :=
  { d with
    state := .spec, i := d.num * f.c, starts := starts, verified := verified, ends := none, bytes := [], marks := [], clears := [],
    reads := [], parts := startParts f.decls, exited := false, fenced := false, vvOpen := false, noRoom := false }

/-- A chunk that waits for a slot (R216). -/
abbrev Sys2Proof.Machine.Fork.waiting (f : Fork) (j : Nat) : Chunk :=
  { num := j, state := .waiting, hart := noHart, i := j * f.c, starts := [], verified := false, ends := none, bytes := [], marks := [],
    clears := [], reads := [], parts := startParts f.decls, exited := false, fenced := false, vvOpen := false, noRoom := false }

/-- The predicted value of a carried register: linear from the start values of the two chunks before (R208). -/
abbrev Sys2Proof.Machine.onward (a b : PVal) : PVal :=
  if a.poison || b.poison then PVal.poisoned else PVal.clean (a.val + (a.val - b.val))

/-- Chunk j is created once chunk j − 1 holds a hart, and waits (R207, R216). -/
abbrev Sys2Proof.Machine.ChunkCreated : Prop :=
  ∀ (r : Nat) (s : State) (f : Fork) (c : Chunk), ringExists r = true → (s.ring r).fork = some f → f.last = none →
    f.created + 1 < f.count → c ∈ f.chunks → c.num = f.created → c.state ≠ .waiting →
    exec (.chunkCreate r) s = .next (s.modRing r (fun x => { x with
      fork := some { f with created := f.created + 1, chunks := f.chunks ++ [f.waiting (f.created + 1)] } }))

/-- A waiting chunk claims the lowest free vector slot of the core at its position and starts there, with the end values of the chunk
before it where that has ended, else with predicted ones: the start values of chunk 0, or linear from those of the two chunks before
(R22, R207, R208). -/
abbrev Sys2Proof.Machine.ChunkStarted : Prop :=
  ∀ (r : Nat) (s : State) (f : Fork) (j : Nat) (c : Chunk), ringExists r = true → (s.ring r).fork = some f → f.chunk? j = some c →
    c.state = .waiting → j ≠ f.oldest →
    ∀ k, k / 8 = s.chunkCore r f j → k % 8 < 4 → (s.hart k).live = false → (∀ i, i < k % 8 → (s.hart (k / 8 * 8 + i)).live = true) →
      let before := (f.chunk? (j - 1)).bind (·.ends)
      ∃ t starts, exec (.chunkStart r j) s = .next t ∧ StartedAs (t.hart k) f (s.hart f.hart) starts j ∧
        (t.ring r).fork = some (f.modChunk j (fun d =>
          { d with state := .spec, hart := k, starts := starts, verified := before.isSome })) ∧
        (∀ ends, before = some ends → starts = ends) ∧
        (before = none → ∀ a, f.startsOf (j - 1) = some a → (j = 1 → starts = a) ∧
          ∀ b, 1 < j → f.startsOf (j - 2) = some b → starts = a.map (fun e => (e.1, onward e.2 (tget (PVal.clean 0) b e.1)))) ∧
        t.mem = s.mem ∧ ∀ i, i ≠ k → t.hart i = s.hart i

/-- The end values of chunk j − 1 reach chunk j. If it started with them it is verified. Otherwise it is squashed with every younger
chunk: nothing it did is kept, and it starts again on its slot with the delivered values, as the younger ones do with values
predicted anew; memory keeps its contents (R208, R210). -/
abbrev Sys2Proof.Machine.CarriedValuesDelivered : Prop :=
  ∀ (r : Nat) (s : State) (f : Fork) (j : Nat) (c : Chunk) (ends : Tab PVal), ringExists r = true → (s.ring r).fork = some f →
    f.chunk? j = some c → c.state ≠ .waiting → c.verified = false → j ≠ 0 → (f.chunk? (j - 1)).bind (·.ends) = some ends →
    (c.starts = ends → exec (.carriedValueDelivery r j) s = .next (s.modRing r (fun x => { x with fork := some { f with
      chunks := f.chunks.map (fun d => if d.num = j then { d with verified := true } else d) } }))) ∧
    (c.starts ≠ ends → ∃ t, exec (.carriedValueDelivery r j) s = .next t ∧ t.mem = s.mem ∧
      (c.state = .spec ∨ c.state = .ended → j ≠ f.oldest → f.chunks.Pairwise (fun d e => d.num < e.num) →
        (∀ d ∈ f.chunks, ∀ e ∈ f.chunks, d.hart = e.hart → d.num = e.num ∨ d.hart = noHart) → c.hart ≠ noHart →
        ∃ g, (t.ring r).fork = some g ∧
          g.chunk? j = some (c.again f ends true) ∧
          StartedAs (t.hart c.hart) f (s.hart f.hart) ends j ∧
          (∀ d ∈ f.chunks, j < d.num → d.state = .spec ∨ d.state = .ended → d.num ≠ f.oldest → d.hart ≠ noHart →
            ∃ starts v, g.chunk? d.num = some (d.again f starts v) ∧
              StartedAs (t.hart d.hart) f (s.hart f.hart) starts d.num ∧
              (d.num = j + 1 → ∀ b, f.startsOf (j - 1) = some b →
                starts = ends.map (fun e => (e.1, onward e.2 (tget (PVal.clean 0) b e.1))))) ∧
          ∀ d ∈ f.chunks, d.num < j → d ∈ g.chunks))

/-- `m'` is `m` with the versions of a chunk drained into it: each byte it wrote last, the marker of each word it poisoned, and none on a
word that it stored whole and clean (R77, R209, R211). -/
structure Sys2Proof.Machine.DrainedInto (m m' : Mem) (c : Chunk) : Prop where
  written : ∀ l a b r, c.bytes = l ++ (a, b) :: r → (∀ e ∈ r, e.1 ≠ a) → m'.byte a = b
  kept : ∀ a, (∀ e ∈ c.bytes, e.1 ≠ a) → m'.byte a = m.byte a
  unmarked : ∀ a, (∀ e ∈ c.bytes, e.1 / 8 ≠ a / 8) → m'.marked a = m.marked a
  marked : ∀ a, (∃ e ∈ c.bytes, e.1 / 8 = a / 8) → m'.marked a =
    if a / 8 ∈ c.marks then true
    else if a / 8 ∈ c.clears ∧ ∀ i : Fin 8, ∃ e ∈ c.bytes, e.1 = a / 8 * 8 + i.val then false else m.marked a

/-- Nothing stands between a chunk's versions and memory: none lies in the memory of a failed die (R315), no sector of theirs has an error
that nobody has found, and no chunk of another fork has exposed-read a word of them. -/
abbrev Sys2Proof.Machine.State.DrainsQuietly (s : State) (r created : Nat) (c : Chunk) : Prop :=
  ∀ b ∈ c.bytes, s.deadLoc b.1 = false ∧ (isDev b.1 = true → b.1 % 2 ^ 52 / 32 ∉ (s.pkg (b.1 / 2 ^ 52)).badSectors) ∧
    ∀ e ∈ s.rings, ∀ g, e.2.fork = some g → ∀ d ∈ g.chunks, (e.1 = r → created < d.num) → b.1 / 8 ∉ d.reads

/-- The oldest chunk commits once it has ended: its versions drain, its partials and flags are added to those of the fork, its hart retires
unless it is the forking one, and the next chunk becomes the oldest. With the last chunk the fork is over and its hart joins: the
registers as that chunk left them, the folds rounded once, the flags of every chunk and of the folds, and at an enabled flag of a fold
the trap at the join target (R39, R203, R211, R216). -/
abbrev Sys2Proof.Machine.ChunkCommitted : Prop :=
  ∀ (r : Nat) (s : State) (f : Fork) (c : Chunk), ringExists r = true → (s.ring r).fork = some f → f.chunk? f.oldest = some c →
    c.state = .commit → s.drainBusy r c.num = false →
    let ftz := f.saved.fstat.getLsbD 8
    let joined := fun (q : Reg) (op : RedOp) =>
      Partial.join op ftz (tget (Partial.start op) f.folds q.toNat) (tget (Partial.start op) c.parts q.toNat)
    let h := s.hart c.hart
    let sing := if h.vstat.getLsbD 2 then some (h.vstat.extractLsb' 8 6) else f.singcol
    let k := s.hart f.hart
    let own := if f.parked then { f.forker with events := k.events, latch := k.latch, queue := k.queue, yielded := k.yielded } else k
    let raised := (f.decls.filterMap (fun d => match d with
      | .red q op => some ((joined q op).result op ftz).2
      | _ => none)).foldl (· ||| ·) 0 &&& f.saved.fstat.extractLsb' 9 5
    (f.isLast c.num = true → ∃ t, exec (.chunkCommit r) s = .next t ∧ (t.ring r).fork = none ∧
      (Distinct f.decls → s.DrainsQuietly r f.created c → DrainedInto s.mem t.mem c ∧
        (c.hart ≠ f.hart → t.hart c.hart = Hart.empty) ∧
        ∃ g : Hart, JoinedAs g f.decls f.saved h.x (fun q op => (joined q op).result op ftz) (f.fflags ||| h.fstat.extractLsb' 0 5)
            (f.vflags ||| h.vstat.extractLsb' 0 5) sing f.chunkno f.target ∧
          g = { own with x := g.x, v := g.v, m := g.m, vl := g.vl, lanes := g.lanes, hctl := g.hctl, fstat := g.fstat, vstat := g.vstat,
                         chunkno := g.chunkno, pc := g.pc, wait := .none } ∧
          (raised = 0 → t.hart f.hart = g) ∧
          (raised ≠ 0 → ∀ entry, entry ≠ 0 → entry = (if g.tvec = 0 then s.ctxTvec (dieOf f.hart) g.ctx else g.tvec) →
            t.hart f.hart = g.enter { cause := 0x0A, tpc := BitVec.ofNat 64 f.target, tqpos := 0, telem := 0, addr := 0,
                                      val := raised.zeroExtend 64 } entry))) ∧
    (∀ d, f.isLast c.num = false → f.chunk? (c.num + 1) = some d →
      (d.state = .waiting ∨ d.verified = true ∨ ∀ q, .carry q ∉ f.decls) → (d.fenced = true → s.drainBusy r d.num = false) →
      ∃ t, exec (.chunkCommit r) s = .next t ∧ ((t.ring r).fork.map (·.oldest)) = some (c.num + 1) ∧
        (Distinct f.decls → s.DrainsQuietly r f.created c → s.DrainsQuietly r f.created d →
          (c.hart ≠ f.hart → t.hart c.hart = Hart.empty) ∧
          (d.fenced = false ∨ d.state = .waiting → DrainedInto s.mem t.mem c) ∧
          (d.fenced = true → d.state ≠ .waiting → ∃ m, DrainedInto s.mem m c ∧ DrainedInto m t.mem d) ∧
          ∃ g, (t.ring r).fork = some g ∧ g.oldest = c.num + 1 ∧ (∀ x ∈ g.chunks, x.num ≠ c.num) ∧ g.prev = c.starts ∧
            (∀ q op, .red q op ∈ f.decls → tget (Partial.start op) g.folds q.toNat = joined q op) ∧
            g.fflags = f.fflags ||| h.fstat.extractLsb' 0 5 ∧ g.vflags = f.vflags ||| h.vstat.extractLsb' 0 5 ∧ g.singcol = sing ∧
            (d.state = .waiting → ∃ x, g.chunk? d.num = some x ∧ x.state = .oldest ∧ x.hart = f.hart ∧ some x.starts = some (c.ends.getD []) ∧
              x.verified = true ∧ (t.hart f.hart).pc = BitVec.ofNat 64 f.body ∧ (t.hart f.hart).chunkno = d.num ∧
              (t.hart f.hart).tvec = 0 ∧
              ∀ q : Reg, .carry q ∈ f.decls → tget (PVal.clean 0) (t.hart f.hart).x q.toNat = tget (PVal.clean 0) (c.ends.getD []) q.toNat) ∧
            (d.state ≠ .waiting → (t.hart d.hart).spec = false ∧ ∃ x, g.chunk? d.num = some x ∧
              x.state = (if d.state = .ended then .commit else .oldest) ∧ x.fenced = false ∧ x.bytes = (if d.fenced then [] else d.bytes))))

/-- What a ring sequencer does with the chunks of a fork: it creates, starts, verifies or squashes, and commits them (R203, R207, R208, R210,
R211, R216). -/
abbrev Sys2Proof.Machine.SequencerEvents : Prop := ChunkCreated ∧ ChunkStarted ∧ CarriedValuesDelivered ∧ ChunkCommitted

/-- Where a flit may go: into the ejection buffer at the end of its leg or off the escape channel; else into the next stop's input, on a
shared slot where one is free, else on the reserved slot of its channel, VC1 once it has crossed the dateline; a head flit that
finds neither takes the escape channel, whose flits its packet follows with (R223, R224). -/
abbrev Sys2Proof.Machine.HopRule : Prop :=
  ∀ (r dir pos : Nat) (ring : Ring), ∀ h ∈ ring.hops r dir pos,
    let st := ring.stop dir pos
    let next := ring.stop dir (nextStop dir pos)
    let p := ring.packet h.pkt
    let used := (next.input.filter (·.shared)).length
    let taken := fun (ch : Nat) => next.input.any (fun f => f.chan = ch && !f.shared)
    (∀ ch, h.src = some ch → ∃ f, st.input.find? (fun f => f.chan = ch) = some f ∧ f.pkt = h.pkt ∧ f.seq = h.seq) ∧
    (h.src = none → st.inj.head? = some h.pkt ∧ st.injSent = h.seq) ∧
    (h.dst = .eject → (h.src = some 2 ∨ (h.src = none ∧ p.vc = 2) ∨ legEnd r p.dest = pos) ∧ (st.eject = none ∧ h.seq = 0 ∨ st.eject = some h.pkt) ∧
      (h.seq = 0 → st.eject = none → h.src ≠ some 2 → st.escapeWaits = false)) ∧
    (∀ ch shared, h.dst = .next ch shared → legEnd r p.dest ≠ pos ∧
      (shared = true → used < 8) ∧ (shared = false → taken ch = false) ∧
      (h.seq = 0 → ch ≠ 2 → ch = if h.src = some 1 ∨ (h.src = none ∧ p.vc = 1) ∨ crossesDateline dir pos = true then 1 else 0) ∧
      (shared = false → ch ≠ 2 → 8 ≤ used) ∧
      (h.seq = 0 → ch = 2 → 8 ≤ used ∧ taken (if h.src = some 1 ∨ (h.src = none ∧ p.vc = 1) ∨ crossesDateline dir pos = true then 1 else 0) = true))

/-- A flit that can move hops: it leaves its channel, or its injection, and enters the next input last, or the ejection buffer, where the
last flit of a packet makes it whole. A packet that took the escape channel is injected again ahead of every packet not yet
injected, on VC1 if it has crossed the dateline (R220, R223, R224). -/
abbrev Sys2Proof.Machine.FlitsHop : Prop :=
  ∀ (r dir pos : Nat) (s : State), ringExists r = true → dir < 2 → pos < 8 →
    let ring := s.ring r
    let st := ring.stop dir pos
    (ring.hops r dir pos ≠ [] → ∃ h ∈ ring.hops r dir pos, ∃ t, exec (.flitHop r dir pos) s = .next t ∧ t.mem = s.mem ∧
      let p := ring.packet h.pkt
      let st' := (t.ring r).stop dir pos
      (∀ ch shared, h.dst = .next ch shared → t.harts = s.harts ∧
        (∀ c, h.src = some c → st' = { st with input := dropFirst c st.input }) ∧
        (h.src = none → st' = if h.seq + 1 = p.flits then { st with inj := st.inj.drop 1, injSent := 0 } else { st with injSent := st.injSent + 1 }) ∧
        ((t.ring r).stop dir (nextStop dir pos)).input = (ring.stop dir (nextStop dir pos)).input ++
          [{ pkt := h.pkt, seq := h.seq, chan := ch, shared := shared }] ∧
        ((t.ring r).packet h.pkt).crossed = (p.crossed || (h.seq = 0 && crossesDateline dir pos))) ∧
      (h.dst = .eject → h.seq + 1 ≠ p.flits ∨ legEnd r p.dest ≠ pos ∨ (destCore p.dest / 8 = r ∧ (s.core (coreKey r pos)).fused = false) →
        t.harts = s.harts ∧ st'.eject = some h.pkt ∧ st'.ejected = h.seq + 1 ∧ (∀ c, h.src = some c → st'.input = dropFirst c st.input) ∧
        (h.seq + 1 = p.flits → legEnd r p.dest = pos → st'.arrived = ring.arrivalSeq + 1))) ∧
    (∀ id, st.eject = some id → st.ejected = (ring.packet id).flits → legEnd r (ring.packet id).dest ≠ pos →
      ∃ t, exec (.packetReinject r dir pos) s = .next t ∧ ((t.ring r).stop dir pos).eject = none ∧
        (st.injSent = 0 → ((t.ring r).stop dir pos).inj = id :: st.inj) ∧
        (st.injSent ≠ 0 → ((t.ring r).stop dir pos).inj = st.inj.take 1 ++ id :: st.inj.drop 1) ∧
        ((t.ring r).packet id).vc = (if (ring.packet id).crossed then 1 else 0) ∧ t.harts = s.harts ∧ t.mem = s.mem)

/-- A stop resolves a message that waits whole at its destination, drops one that no entry accepts, and sets the latches of the core's
harts for a handler; a resolved message starts a message hart in the lowest free scalar slot, with header and payload in its registers,
or joins the receive queue, which sets the latches too (R22, R23, R86, R229, R231, R232, R235). -/
abbrev Sys2Proof.Machine.MessagesArrive : Prop :=
  ∀ (r pos dir : Nat) (s : State) (p : Packet) (st : Stop), ringExists r = true → pos < 8 → (s.ring r).arrivals r pos = [(dir, p, st)] →
    let c := r * 8 + pos
    (st.resolved = none →
      (∀ d, (s.core c).resolve p = some d → ∃ t, exec (.messageResolution r pos) s = .next t ∧ t.mem = s.mem ∧
        ((t.ring r).stop dir pos).resolved = some d ∧ (d = .queue → t.harts = s.harts) ∧
        (d ≠ .queue → ∀ k, k / 8 = c → (t.hart k) = { s.hart k with latch := (s.hart k).live || (s.hart k).latch })) ∧
      ((s.core c).resolve p = none → ∃ t, exec (.messageResolution r pos) s = .next t ∧ t.mem = s.mem ∧
        (p.notice = false → (t.core c).msgdrop = min ((s.core c).msgdrop + 1) 0xFFFFFFFF))) ∧
    (∀ pc sup ctx cause k, st.resolved = some (.handler pc sup ctx cause) → k / 8 = c → 4 ≤ k % 8 → (s.hart k).live = false →
      (∀ i, 4 ≤ i → i < k % 8 → (s.hart (k / 8 * 8 + i)).live = true) →
      ∃ t, exec (.messageHartStart c) s = .next t ∧ (t.hart k).live = true ∧ (t.hart k).pc = pc ∧ (t.hart k).route = 2 ∧
        (t.hart k).ctx = ctx ∧ (t.hart k).priv = (if sup then 1 else 0) ∧ ((t.hart k).getX 9).poison = false ∧
        ((t.hart k).getX 9).val = (p.header &&& 0xFFFFFFE7FFFFFFFF) ||| BitVec.ofNat 64 (cause * 2 ^ 35) ∧
        (∀ i w, p.payload[i]? = some w → i < 14 → p.payload.length ≤ 14 → (t.hart k).getX (BitVec.ofNat 5 (10 + i)) = PVal.clean w) ∧
        t.mem = s.mem ∧ ∀ i, i ≠ k → t.hart i = s.hart i) ∧
    (st.resolved = some .queue → (s.core c).recvQ.length + p.payload.length ≤ 256 →
      ∃ t, exec (.receiveQueueAppend c) s = .next t ∧ t.mem = s.mem ∧
        (t.core c).recvQ = (s.core c).recvQ ++ p.payload.map (fun w => (w, p.header.toNat / 2 ^ 32 % 8)) ∧
        ∀ k, k / 8 = c → (t.hart k) = { s.hart k with latch := (s.hart k).live || (s.hart k).latch })

/-- What a ring does. Its sequencer creates, starts, verifies, squashes and commits chunks; flits hop and packets re-enter from the escape
channel; a stop resolves a message, which starts a handler hart or joins the receive queue; when every live hart is blocked in a
receive and no flit is under way, `RINGSTALL` goes to the ring program with `TADDR` 0 and `TVAL` the live harts, bit 8 · position +
slot; and a message enters the ring from the die network (R203 to R242). Model's choices: log entries 50, 51, 53, 64 to 68, 107 and 127. -/
def Obligations.RingEvents : Prop :=
  SequencerEvents ∧ HopRule ∧ FlitsHop ∧ MessagesArrive ∧
  ∀ (r : Nat) (s : State), ringExists r = true →
    let ring := s.ring r
    (∀ p, ring.prog = some p → ring.stalled = [] → ring.quiet = true → s.quietGate r = true → s.allBlocked r = true →
      ∃ t e, exec (.ringstall r) s = .next t ∧ (t.hart p.hart).events = (s.hart p.hart).events ++ [e] ∧ e.code = 0x20 ∧ e.addr = 0 ∧
        (∀ i, i < 64 → e.val.getLsbD i = (s.hart (64 * r + i)).live) ∧ (t.hart p.hart).latch = true ∧
        (t.ring r).stalled = s.ringHarts r ∧ t.mem = s.mem ∧ ∀ i, i ≠ p.hart → t.hart i = s.hart i) ∧
    (∀ p, (s.pkg (r / 4096)).dieNet.find? (fun q => destCore q.dest / 8 = r) = some p →
      (ring.stop (ringDir 0 0 (destCore p.dest % 8)) 0).inj = [] →
      ∃ t, exec (.dieNetworkTransfer r) s = .next t ∧ (t.pkg (r / 4096)).dieNet = (s.pkg (r / 4096)).dieNet.erase p ∧
        ((t.ring r).stop (ringDir 0 0 (destCore p.dest % 8)) 0).inj = [ring.packetSeq] ∧
        (t.ring r).packet ring.packetSeq = { p with
          id := ring.packetSeq, dir := ringDir 0 0 (destCore p.dest % 8), crossed := false, vc := 0, esc := none } ∧
        t.harts = s.harts ∧ t.mem = s.mem)

/-- The `n` bytes at an address of an engine lie at the locations `ls` of its own reach: they translate without an error in a page table, none
of their sectors has an error that nobody has found, no ring runs a parallel fork, and the engine has nothing under way. -/
structure Sys2Proof.Machine.State.EngineReaches (s : State) (w : Who) (ag : Agent) (held : List Pin) (va n kind : Nat) (ls : List Nat) : Prop where
  places : ∃ h : Nat → Holder, (s.places ag held kind va n).ans = .ok (ls.map (fun l => Place.at l (h l))) ∧ ∀ l, h l ≠ Holder.other
  calm : s.Translated (s.places ag held kind va n).st
  sound : ∀ l ∈ ls, isDev l = true → l % 2 ^ 52 / 32 ∉ (s.pkg (l / 2 ^ 52)).badSectors
  alone : s.NoForks
  fresh : s.txnOf w = none

/-- The dwords at some locations, each poisoned where its word is marked. -/
abbrev Sys2Proof.Machine.Mem.dwordsAt (m : Mem) (n : Nat) (ls : List Nat) : List PVal :=
  (List.range n).map (fun i => { val := BitVec.ofNat 64 (m.numAt ((ls.drop (8 * i)).take 8)), poison := ((ls.drop (8 * i)).take 8).any m.marked })

/-- A copy reads its descriptor once. One that no engine may perform ends with `BADDESC` and its address, a refused acceptance with `REMOTE`;
any other starts at `START` (R169 to R172, R338). -/
abbrev Sys2Proof.Machine.CopyReadsDescriptor : Prop :=
  ∀ (core id : Nat) (s : State) (c : Copy), ringExists (core / 8) = true → s.copy? core id = some c → c.phase = .kicked →
    let reads := s.engineRead (.copy core c.id 0) (c.agent core) [] false c.addr 64
    let after := fun (d : List PVal) =>
      let c1 := { c with desc := d }
      let w := fun (i : Nat) => (lget (PVal.clean 0) d i).val.toNat
      let total := w 3 % 2 ^ 32 * (w 3 / 2 ^ 32 % 2 ^ 16) * (w 3 / 2 ^ 48 % 2 ^ 15)
      let start := w 0 / 2 ^ 8 % 2 ^ 40
      let bad := total = 0 ∨ 2 ^ 40 ≤ total ∨ total ≤ start ∨ w 0 / 2 ^ 3 % 4 = 3 ∨ w 0 / 2 % 4 = 3 ∨ 6 ≤ w 0 / 2 ^ 5 % 8 ∨
        w 6 % 16 ≠ 0 ∨ w 7 % 16 ≠ 0 ∨ ∃ p ∈ d, p.poison = true
      if bad then { c1 with phase := .record, status := 5, stAddr := c.addr }
      else { c1 with phase := .moving, pos := start, counted := start }
    (∀ u, reads = .wait u → exec (.copyDescriptorRead core id) s = .next u) ∧
    (∀ u k a, reads = .fault u k a true →
      exec (.copyDescriptorRead core id) s = .next (u.putCopy core { c with phase := .record, status := 7, stAddr := a })) ∧
    (∀ u k a, reads = .fault u k a false →
      exec (.copyDescriptorRead core id) s = .next (u.putCopy core { c with phase := .record, status := 5, stAddr := c.addr })) ∧
    (∀ ls, s.EngineReaches (.copy core c.id 0) (c.agent core) [] c.addr 64 kLoad ls →
      exec (.copyDescriptorRead core id) s = .next ((s.places (c.agent core) [] kLoad c.addr 64).st.putCopy core (after (s.mem.dwordsAt 8 ls))))

/-- The next bytes of a copy, from its position on in one row. Where both sides lie in the engine's reach each byte of the source goes to the
byte of the destination at the same position, poison with it, the granules that the copy has written to the end become full unless
`FEK` is 1, and the copy moves on; at T it has ended with status 1. Where a side does not translate it stops before the piece, with status 2 for an
absent page and 3 for any other fault and the lowest faulting byte; where a host link is down with status 6 (R165, R170 to R173). -/
abbrev Sys2Proof.Machine.CopyMovesBytes : Prop :=
  ∀ (core id : Nat) (s : State) (c : Copy), ringExists (core / 8) = true → s.copy? core id = some c → c.phase = .moving →
    let n := c.pieceLen
    let x := s.copySide core c c.ssp kLoad (c.addrAt 1 c.pos) n
    let y := x.st.copySide core x.copy c.dsp kStore (c.addrAt 2 c.pos) n
    let stopped := fun (u : State) (e : CopyStop) => ∃ t c', exec (.copyTransfer core id) s = .next t ∧ t.copy? core id = some c' ∧
      c'.pos = c.pos ∧ c'.status = e.status ∧ c'.stAddr = e.addr ∧ c'.phase ≠ .moving ∧ t.mem = u.mem
    (∀ base p, base = 1 ∨ base = 2 → c.addrAt base p =
      (c.dword base + p / c.len0 / c.cnt1 * ((BitVec.ofNat 64 (c.dword (3 + base))).extractLsb' 32 32 |>.signExtend 64 : Word).toNat +
        p / c.len0 % c.cnt1 * ((BitVec.ofNat 64 (c.dword (3 + base))).extractLsb' 0 32 |>.signExtend 64 : Word).toNat + p % c.len0) % 2 ^ 64) ∧
    (s.copyUnderWay core c = none →
      (∃ t c', exec (.copyTransfer core id) s = .next t ∧ t.copy? core id = some c' ∧ c.pos ≤ c'.pos ∧ c'.pos ≤ c.pos + n ∧ c'.desc = c.desc ∧
        c'.ctx = c.ctx ∧ c'.counted = c.counted) ∧
      (∀ e, x.ans = .error e → stopped x.st e) ∧ (∀ e src, x.ans = .ok src → y.ans = .error e → stopped y.st e) ∧
      (∀ f, c.ssp = 0 → lowestOf (s.spread (c.agent core) c.pins false kLoad (byteAddrs (c.addrAt 1 c.pos) n)).bytes = some f →
        x.ans = .error { status := if f.cause = 5 then 2 else 3, addr := f.addr }) ∧
      (c.ssp ≠ 0 → tget false (s.pkg (core / 32768)).links (c.ssp - 1) = false → x.ans = .error { status := 6, addr := c.addrAt 1 c.pos }) ∧
      ∀ (sl dl : List Nat) (hs hd : Nat → Holder), c.ssp = 0 → c.dsp = 0 → sl.length = n → dl.length = n →
        x.ans = .ok (.device (sl.map (fun l => Place.at l (hs l)))) → y.ans = .ok (.device (dl.map (fun l => Place.at l (hd l)))) →
        s.Translated x.st → s.Translated y.st → (∀ l, hs l ≠ Holder.other ∧ hd l ≠ Holder.other) → s.NoForks →
        (∀ l ∈ sl ++ dl, isDev l = true → l % 2 ^ 52 / 32 ∉ (s.pkg (l / 2 ^ 52)).badSectors) →
        s.txnOf (.copy core c.id 1) = none → s.txnOf (.copy core c.id 2) = none →
        ∃ t c', exec (.copyTransfer core id) s = .next t ∧ t.copy? core id = some c' ∧ c'.pos = c.pos + n ∧
          (c.pos + n ≠ c.total → c'.phase = .moving) ∧
          (c.pos + n = c.total → c'.status = 1 ∧ c'.phase = if c.bar ≠ 0 ∧ (c.pos + n ≠ c.counted ∨ c.arvf = true) then .adding else .record) ∧
          ((∀ l ∈ sl, s.mem.marked l = false) → t.mem = s.mem.write dl (sl.map s.mem.byte) false) ∧
          (∀ a, a ∉ dl → t.mem.byte a = s.mem.byte a) ∧
          (dl.Nodup → ∀ (i l d : Nat), sl[i]? = some l → dl[i]? = some d → t.mem.byte d = s.mem.byte l ∧
            (s.mem.marked l = true → t.mem.marked d = true)) ∧
          (c.fek = true → t.full = s.full) ∧
          (c.fek = false → ∀ (i d : Nat), dl[i]? = some d → isTcm d = true ∨ isStore d = true →
            c.laterInGranule (c.addrAt 2 (c.pos + i)) (c.pos + i) = false → d / 16 ∈ t.full))

/-- A barrier word after an arrival of `w`, low and high dwords (R177). -/
abbrev Sys2Proof.Machine.arrivedWord (lo hi w : Nat) : Nat × Nat :=
  let arv := lo / 2 ^ 48 % 2 ^ 15 + w / 2 ^ 48 % 2 ^ 15
  let bytes := lo % 2 ^ 48 + w % 2 ^ 48
  let ovf := if hi / 2 ^ 48 % 2 ^ 15 < arv ∨ hi % 2 ^ 48 < bytes then 1 else lo / 2 ^ 63
  if hi / 2 ^ 48 % 2 ^ 15 ≤ arv ∧ hi % 2 ^ 48 ≤ bytes then (ovf * 2 ^ 63, (hi + 2 ^ 63) % 2 ^ 64)
  else (ovf * 2 ^ 63 + min arv (hi / 2 ^ 48 % 2 ^ 15) * 2 ^ 48 + min bytes (hi % 2 ^ 48), hi)

/-- A copy with a barrier word adds the bytes performed and not yet counted to it as one arrival, with an arrival of its own in the last addition
of a completed copy with `ARVF`, and sets the latches of its core; a poisoned word ends the copy with status 8 and a word that does
not translate with 2 or 3, its position the bytes counted (R174 to R177). -/
abbrev Sys2Proof.Machine.CopyAddsToBarrier : Prop :=
  ∀ (core id : Nat) (s : State) (c : Copy), ringExists (core / 8) = true → s.copy? core id = some c → c.bar ≠ 0 →
    c.phase = .adding ∨ (c.phase = .moving ∧ c.counted < c.pos) →
    let x := s.places (c.agent core) (s.heldPins (.copy core c.id 3) ++ c.pins) kAtomic c.bar 16
    let bytes := (c.pos - c.counted) % 2 ^ 48
    let failed := fun (status : Nat) => ∃ t c', exec (.barrierAddition core id) s = .next t ∧ t.copy? core id = some c' ∧ c'.status = status ∧
      c'.stAddr = c.bar ∧ c'.pos = c.counted ∧ c'.phase = .record
    (∃ t c', exec (.barrierAddition core id) s = .next t ∧ t.copy? core id = some c') ∧
    (∀ f, x.ans = .error f → failed (if f.cause = 5 then 2 else 3)) ∧
    (∀ ls, ls.length = 16 → s.EngineReaches (.copy core c.id 3) (c.agent core) c.pins c.bar 16 kAtomic ls →
      (ls.any s.mem.marked = true → failed 8) ∧
      (ls.any s.mem.marked = false → c.counted ≤ c.pos → c.pos - c.counted < 2 ^ 48 →
        let w := bytes + if c.phase = .adding ∧ c.status = 1 ∧ c.arvf = true then 2 ^ 48 else 0
        let v := arrivedWord (s.mem.numAt (ls.take 8)) (s.mem.numAt (ls.drop 8)) w
        ∃ t c', exec (.barrierAddition core id) s = .next t ∧ t.copy? core id = some c' ∧ c'.counted = c.pos ∧ c'.pos = c.pos ∧
          c'.phase = (if c.phase = .adding then .record else .moving) ∧
          t.mem = s.mem.write ls ((List.range 16).map (fun i => BitVec.ofNat 8 ((v.1 + v.2 * 2 ^ 64) / 256 ^ i))) false ∧
          ∀ k, k / 8 = core → (s.hart k).live = true → (t.hart k).latch = true))

/-- A copy leaves the engine with its record: status, tag, position and address in a granule at its mailbox, after which the latches of its
core are set; without a mailbox a copy that did not complete, and with one that cannot be written any copy, raises `MACHINE_CHECK`
(R145, R172, R173). -/
abbrev Sys2Proof.Machine.CopyWritesRecord : Prop :=
  ∀ (core id : Nat) (s : State) (c : Copy), ringExists (core / 8) = true → s.copy? core id = some c → c.phase = .record →
    (lget (PVal.clean 0) c.desc 7).poison = false →
    let check := fun (t : State) (bit : Nat) => ∀ k, s.taker (core / 8) c.ctx = some k →
      (t.hart k).events = (s.hart k).events ++ [{ code := 0x23, addr := BitVec.ofNat 64 c.addr, val := BitVec.ofNat 64 (c.status + bit) }]
    (c.mbox = 0 → ∃ t, exec (.completionRecord core id) s = .next t ∧ t.copy? core id = none ∧ t.mem = s.mem ∧
      (c.status = 1 → t.harts = s.harts) ∧ (c.status ≠ 1 → check t 0)) ∧
    (c.mbox % 16 ≠ 0 → ∃ t, exec (.completionRecord core id) s = .next t ∧ t.copy? core id = none ∧ t.mem = s.mem ∧ check t 256) ∧
    (∀ ls, c.mbox ≠ 0 → c.mbox % 16 = 0 → s.EngineReaches (.copy core c.id 4) (c.agent core) [] c.mbox 16 kStore ls →
      let record := c.status * 2 ^ 56 + c.dword 0 / 2 ^ 48 * 2 ^ 40 + c.pos % 2 ^ 40 + c.stAddr * 2 ^ 64
      c.status < 256 →
      ∃ t, exec (.completionRecord core id) s = .next t ∧ t.copy? core id = none ∧
        t.mem = s.mem.write ls ((List.range 16).map (fun i => BitVec.ofNat 8 (record / 256 ^ i))) false ∧
        ∀ k, k / 8 = core → (s.hart k).live = true → (t.hart k).latch = true)

/-- The writes of a merge network lie in its own reach, nothing stands between them and memory, and the network has nothing under way: `locs`
lists the locations of each. -/
structure Sys2Proof.Machine.State.MergeReaches (s v : State) (r base : Nat) (ag : Agent) (ws : List MergeWrite) (locs : List (List Nat)) : Prop where
  tried : s.tryWrites r ag base ws = .ok v ((ws.zip locs).map (fun e => (e.1, .ok (e.2.map (fun l => Place.at l .home)))))
  all : locs.length = ws.length
  alone : v.NoForks
  sound : ∀ ls ∈ locs, ∀ l ∈ ls, isDev l = true → l % 2 ^ 52 / 32 ∉ (v.pkg (l / 2 ^ 52)).badSectors
  fresh : ∀ x ∈ (v.pkg (r / 4096)).txns, x.who.runOf r = false

/-- Memory after some writes in order. -/
abbrev Sys2Proof.Machine.Mem.wrote (m : Mem) (ws : List MergeWrite) (locs : List (List Nat)) : Mem :=
  (ws.zip locs).foldl (fun a e => a.write e.2 ((List.range e.1.n).map (fun i => BitVec.ofNat 8 (e.1.val / 256 ^ i))) e.1.poison) m

/-- The oldest command starts when none runs, with the header as read: it is rejected with `BADCMD` and the address of what is wrong, or with
`BADRESUME` and the address of the spill record, or it begins at line 0 with no entries, or where the spill record left off
(R248, R249, R253). -/
abbrev Sys2Proof.Machine.MergeStarts : Prop :=
  ∀ (r : Nat) (s u : State) (c : MergeCmd) (rest : List MergeCmd), ringExists r = true → (s.ring r).mergeRun = none →
    (s.ring r).mergeQ = c :: rest →
    (s.mergeHeader r c = .wait u → exec (.mergeCommandStart r) s = .next u) ∧
    (∀ hdr bad, s.mergeHeader r c = .ok u hdr bad →
      let begins := fun (v : State) (m : MergeRun) => ∃ t, exec (.mergeCommandStart r) s = .next t ∧ (t.ring r).mergeRun = some m ∧
        (t.ring r).mergeQ = rest ∧ t.harts = v.harts ∧ t.mem = v.mem
      let fresh : MergeRun := { cmd := c, hdr := hdr, line := 0, entries := 0, cursors := List.replicate 16 0, flags := 0, begun := false, done := none }
      let rejected := fun (v : State) (status detail : Nat) =>
        begins v { fresh with done := some { status := status, flags := 0, rows := 0, detail := BitVec.ofNat 64 detail } }
      (∀ a, firstBad (mergeConds c hdr bad) = some a → rejected u 9 a) ∧
      (firstBad (mergeConds c hdr bad) = none → c.resume = false → begins u fresh) ∧
      (firstBad (mergeConds c hdr bad) = none → c.resume = true → ∀ v d,
        (∀ f, u.mergeBlock (.merge r (2 ^ 40 + 1)) c (c.dword 6) 192 = .ok v d (some f) → rejected v 10 (c.dword 6)) ∧
        (u.mergeBlock (.merge r (2 ^ 40 + 1)) c (c.dword 6) 192 = .ok v d none →
          (badSpill c fresh.nmaj d = true → rejected v 10 (c.dword 6)) ∧
          (badSpill c fresh.nmaj d = false → begins v { fresh with
            line := blockDword d 3, entries := blockDword d 4, flags := BitVec.ofNat 3 (blockDword d 5),
            cursors := (List.range 16).map (fun i => blockDword d (8 + i)) }))))

/-- The entries of a line: one for each minor index in ascending order, its value the sum of the tuples of that index in the order of stream
and position, each addition rounded to nearest even, poisoned where one of them is poisoned, the canonical NaN for a NaN; a zero is
left out under `DROPZ`. Each goes to its slots of the index and value arrays, and the pointer after the line to its slot
(R40, R243, R246, R249). -/
abbrev Sys2Proof.Machine.MergeEntries : Prop :=
  ∀ (m : MergeRun) (ts : List Tuple),
    let c := m.cmd
    let es := c.entriesOf ts
    let sum := fun (l : List PVal) => match l.map (fun (p : PVal) => widen c.vin p.val) with
      | [] => 0
      | a :: r => r.foldl (fun acc v => (fpAdd false c.ty .rne (unpack c.ty acc) (unpack c.ty v)).1) a
    es.Pairwise (fun a b => a.minor < b.minor) ∧
    (∀ e ∈ es, let vs := (ts.filter (fun t => t.minor = e.minor)).map (·.value)
      vs ≠ [] ∧
      ((∃ p ∈ vs, p.poison = true) → e.poison = true ∧ e.bits = 0 ∧ e.flags.getLsbD 2 = true) ∧
      ((∀ p ∈ vs, p.poison = false) → e.poison = false ∧
        e.bits = (if (unpack c.ty (sum vs)).isNan then canonNaN c.ty else sum vs) ∧ e.flags.getLsbD 2 = false ∧
        (e.flags.getLsbD 1 = true ↔ (unpack c.ty (sum vs)).isNan = true) ∧ (c.dropz = true → e.bits % 2 ^ (c.ty.width - 1) ≠ 0))) ∧
    (∀ t ∈ ts, c.dropz = false → ∃ e ∈ es, e.minor = t.minor) ∧
    (∀ (j : Nat) (e : OutEntry), es[j]? = some e →
      let slot := m.entries + j - c.dword 5
      let ib := if m.wideIndex then 4 else 2
      let vb := if c.vin = 0 then 8 else 4
      { va := m.h 4 + slot * ib, n := ib, val := e.minor, poison := false } ∈ m.lineWrites es ∧
      { va := m.h 5 + slot * vb, n := vb, val := e.bits, poison := e.poison } ∈ m.lineWrites es) ∧
    let pb := if m.widePtr then 8 else 4
    { va := m.h 3 + (m.line + 1 - c.dword 4) * pb, n := pb, val := m.entries + es.length, poison := false } ∈ m.lineWrites es

/-- A running command. It first writes its first pointer, then goes on line by line: a line without a stop condition has its entries and the
pointer after it written, after the last line `NNZ` is written and the command has ended with status 1; at a stop condition `NNZ` and the
spill record are written, and the command has ended with the status and detail of the condition (R249 to R252). -/
abbrev Sys2Proof.Machine.MergeRuns : Prop :=
  ∀ (r : Nat) (s : State) (m : MergeRun), ringExists r = true → (s.ring r).mergeRun = some m → m.done = none →
    let ag := m.cmd.agent
    let nnz : MergeWrite := { va := m.cmd.dword 2 + 16, n := 8, val := m.entries, poison := false }
    let pb := if m.widePtr then 8 else 4
    let ends := fun (t : State) (status rows detail : Nat) => (t.ring r).mergeRun =
      some { m with done := some { status := status, flags := m.flags, rows := rows, detail := BitVec.ofNat 64 detail } }
    (∃ t, exec (.mergeRun r) s = .next t) ∧
    (m.begun = false → m.widePtr = true ∨ m.entries < 2 ^ 32 → ∀ v locs,
      let ws : List MergeWrite := [{ va := m.h 3 + (m.line - m.cmd.dword 4) * pb, n := pb, val := m.entries, poison := false }]
      s.MergeReaches v r 0 ag ws locs → ∃ t, exec (.mergeRun r) s = .next t ∧ t.mem = v.mem.wrote ws locs ∧
        (t.ring r).mergeRun = some { m with begun := true }) ∧
    (m.begun = true → ∀ u scans, m.scanAll r (List.range m.cmd.ns) s = (u, scans) → (∀ x ∈ scans, x.wait = false) →
      let es := m.cmd.entriesOf (scans.flatMap (·.tuples))
      ((∀ x ∈ scans, x.stops = []) →
        (m.line < m.nmaj → m.entryStops es = [] → ∀ v locs, u.MergeReaches v r 0 ag (m.lineWrites es) locs →
          ∃ t m', exec (.mergeRun r) s = .next t ∧ t.mem = v.mem.wrote (m.lineWrites es) locs ∧ (t.ring r).mergeRun = some m' ∧
            m'.line = m.line + 1 ∧ m'.entries = m.entries + es.length ∧ m'.cmd = m.cmd ∧ m'.hdr = m.hdr ∧ m'.done = none ∧
            m'.flags = es.foldl (fun a e => a ||| e.flags) m.flags ∧
            ∀ (n : Nat) (x : Scan), scans[n]? = some x → lget 0 m'.cursors n = x.cursor) ∧
        (m.nmaj ≤ m.line → ∀ v locs, u.MergeReaches v r 0 ag [nnz] locs →
          ∃ t, exec (.mergeRun r) s = .next t ∧ t.mem = v.mem.wrote [nnz] locs ∧ ends t 1 m.nmaj m.entries)) ∧
      (∀ k, firstStop (scans.flatMap (·.stops)) = some k → ∀ v locs,
        let words := [k.status * 2 ^ 56 + 2 ^ 48 + m.cmd.ns * 2 ^ 40, m.cmd.dword 1, m.line * 2 ^ 32, m.line, m.entries, m.flags.toNat, 0, 0] ++
          (List.range 16).map (fun i => if i < m.cmd.ns then lget 0 m.cursors i else 0)
        let spill := words.zipIdx.map (fun w => ({ va := m.cmd.dword 6 + 8 * w.2, n := 8, val := w.1, poison := false } : MergeWrite))
        u.MergeReaches v r (2 ^ 45) ag (nnz :: spill) locs →
          ∃ t, exec (.mergeRun r) s = .next t ∧ t.mem = v.mem.wrote (nnz :: spill) locs ∧ ends t k.status m.line k.detail))

/-- An ended command leaves the network with its mailbox: status, flags, tag, rows and detail in one granule, after which the latches of the
kicking core are set; without a mailbox, or with one that it cannot write, `MACHINE_CHECK` tells of a command that did not complete or was
not reported (R145, R254). -/
abbrev Sys2Proof.Machine.MergeReports : Prop :=
  ∀ (r : Nat) (s : State) (m : MergeRun) (e : MergeEnd), ringExists r = true → (s.ring r).mergeRun = some m → m.done = some e →
    let c := m.cmd
    let check := fun (t : State) (bit : Nat) => ∀ k, s.taker r c.ctx = some k →
      (t.hart k).events = (s.hart k).events ++ [{ code := 0x23, addr := BitVec.ofNat 64 c.addr, val := BitVec.ofNat 64 (e.status + bit) }]
    (c.block ≠ [] → c.poisoned 7 = false →
      (c.dword 7 = 0 → ∃ t, exec (.mergeMailbox r) s = .next t ∧ (t.ring r).mergeRun = none ∧ t.mem = s.mem ∧
        (e.status = 1 → t.harts = s.harts) ∧ (e.status ≠ 1 → check t 0)) ∧
      (∀ v locs, c.dword 7 ≠ 0 → c.dword 7 % 16 = 0 →
        let record := e.status * 2 ^ 56 + e.flags.toNat * 2 ^ 48 + c.dword 0 / 2 ^ 48 * 2 ^ 32 + e.rows % 2 ^ 32 + e.detail.toNat * 2 ^ 64
        let w : MergeWrite := { va := c.dword 7, n := 16, val := record, poison := false }
        s.MergeReaches v r 0 c.agent [w] locs →
          ∃ t, exec (.mergeMailbox r) s = .next t ∧ (t.ring r).mergeRun = none ∧ t.mem = v.mem.wrote [w] locs ∧
            ∀ k, k / 8 = c.core → (v.hart k).live = true → (t.hart k).latch = true)) ∧
    (c.block = [] ∨ c.poisoned 7 = true ∨ c.dword 7 % 16 ≠ 0 →
      ∃ t, exec (.mergeMailbox r) s = .next t ∧ (t.ring r).mergeRun = none ∧ t.mem = s.mem ∧ check t 256)

/-- What the engines do: a copy reads its descriptor, moves its bytes, adds to its barrier word and leaves with its record; a merge command
starts, runs line by line, and leaves with its mailbox (R165, R169 to R177, R243 to R254). Model's choices: log entries 57 to 62, 90, 107 and
139 to 141. -/
def Obligations.EngineEvents : Prop :=
  CopyReadsDescriptor ∧ CopyMovesBytes ∧ CopyAddsToBarrier ∧ CopyWritesRecord ∧ MergeStarts ∧ MergeEntries ∧ MergeRuns ∧ MergeReports

/-- Tokens, the scrubber, and errors. A read request moves one token of the owner where it can spare one, a write request all of a core's,
an eviction sends them home, and the persistent request of a hart with none joins its line's and, as the first, draws every token to its
core; the scrubber changes memory only where the sector is bad and no cache holds it; an uncorrectable error of an x register poisons
it and is counted (R266, R268, R269, R272, R274). -/
abbrev Sys2Proof.Machine.TokensAndErrors : Prop :=
  ∀ (s : State),
    (∀ a b line, ringExists (a / 8) = true → ringExists (b / 8) = true → a ≠ b → a / 2048 = b / 2048 →
      (s.die (a / 2048)).failed = false → (s.line (a / 2048) line).persistent = [] →
      ((s.line (a / 2048) line).owner ≠ some a ∨ (s.line (a / 2048) line).of a < 2 → exec (.readRequest a line b) s = .next s) ∧
      ((s.line (a / 2048) line).owner = some a → 2 ≤ (s.line (a / 2048) line).of a →
        ∃ t, exec (.readRequest a line b) s = .next t ∧ t.mem = s.mem ∧ t.harts = s.harts ∧
          (t.line (a / 2048) line).of a = (s.line (a / 2048) line).of a - 1 ∧
          (t.line (a / 2048) line).of b = (s.line (a / 2048) line).of b + 1 ∧ (t.line (a / 2048) line).owner = some a) ∧
      ∃ t, exec (.writeRequest a line b) s = .next t ∧ t.mem = s.mem ∧ t.harts = s.harts ∧ (t.line (a / 2048) line).of a = 0 ∧
        (t.line (a / 2048) line).of b = (s.line (a / 2048) line).of b + (s.line (a / 2048) line).of a ∧
        ((s.line (a / 2048) line).owner = some a → (t.line (a / 2048) line).owner = some b)) ∧
    (∀ a line, ringExists (a / 8) = true → (s.die (a / 2048)).failed = false → (s.line (a / 2048) line).of a ≠ 0 →
      ∃ t, exec (.eviction a line) s = .next t ∧ (t.line (a / 2048) line).of a = 0 ∧ (t.line (a / 2048) line).owner ≠ some a ∧
        t.mem = s.mem ∧ t.harts = s.harts) ∧
    (∀ a line, ringExists (a / 8) = true → dieExists (a / 2048) = true → (s.die (a / 2048)).failed = false →
      (∀ g, s.requester a line = some g →
        g / 2 / 8 = a ∧ (∃ n, 2 ≤ n ∧ (g, n) ∈ (s.line (a / 2048) line).unserved) ∧ (∀ e ∈ (s.die (a / 2048)).lines, g ∉ e.2.persistent) ∧
        ∃ t, exec (.persistentRequest (a / 2048) line a) s = .next t ∧ t.mem = s.mem ∧ t.harts = s.harts ∧
          (t.line (a / 2048) line).persistent = (s.line (a / 2048) line).persistent ++ [g] ∧
          ((s.line (a / 2048) line).persistent = [] → (t.line (a / 2048) line).of a = 129 ∧ (t.line (a / 2048) line).owner = some a ∧
            ∀ b, b ≠ a → (t.line (a / 2048) line).of b = 0)) ∧
      (s.requester a line = none → exec (.persistentRequest (a / 2048) line a) s = .next s)) ∧
    (∀ pkg sector d c, s.homeOf pkg (32 * sector) = some (d, c) → pkg < 128 → (s.die (16 * pkg + d)).failed = false →
      let bad := s.badAt (locDev pkg (32 * sector))
      (sector ∉ (s.pkg pkg).badSectors → bad = false ∧ exec (.patrolScrub pkg sector) s = .next s) ∧
      (bad = false → sector ∈ (s.pkg pkg).badSectors → ∃ t, exec (.patrolScrub pkg sector) s = .next t ∧ t.mem = s.mem ∧ t.harts = s.harts ∧
        sector ∈ (t.pkg pkg).scrubbed ∧ (t.die (16 * pkg + d)).eccue =
          if sector ∈ (s.pkg pkg).scrubbed then (s.die (16 * pkg + d)).eccue else min ((s.die (16 * pkg + d)).eccue + 1) 0xFFFFFFFF) ∧
      (bad = true → ∃ t, exec (.patrolScrub pkg sector) s = .next t ∧ t.mem = s.mem.poisonRange (locDev pkg (32 * sector)) 32 ∧
        t.harts = s.harts)) ∧
    (∀ k r, dieExists (dieOf k) = true → (s.die (dieOf k)).failed = false → (s.hart k).live = true →
      ∃ t, exec (.sramError (.xRegister k r)) s = .next t ∧ t.hart k = (s.hart k).setX r PVal.poisoned ∧ t.mem = s.mem ∧
        (t.die (dieOf k)).sramue = min ((s.die (dieOf k)).sramue + 1) 0xFFFFFFFF)

/-- A die fails. Its harts and ring programs are gone; the modified lines of its memory in the caches of another die of the package become
that die's orphan lines; every launch with a ring program on it is completed or, while its record is under way, has status `DIEFAIL`, and
places no more, while the other launches and records stay; every live ring program on another die takes `MACHINE_CHECK` with the die
number, and `ORPHAN` with the count where its die holds orphan lines; and the package sends its alert (R315, R316). -/
abbrev Sys2Proof.Machine.DieFails : Prop :=
  ∀ (die : Nat) (s : State), dieExists die = true → (s.die die).failed = false → (s.pkg (die / 16)).state = 1 →
    let pkg := die / 16
    let lost := fun (id : Nat) => ∃ ring q, (ring, q) ∈ s.rings ∧ dieOfRing ring = die ∧ ∃ g, q.prog = some g ∧ g.launch = id
    ∃ t, exec (.dieFailure die) s = .next t ∧ (t.die die).failed = true ∧
      (∀ k, dieOf k = die → isLeaseAgent k = false → (t.hart k).live = false) ∧ (∀ ring, dieOfRing ring = die → (t.ring ring).prog = none) ∧
      (∀ d x, d / 16 = pkg → d ≠ die → dieExists d = true → (s.die d).lines.filter (fun y => y.1 = x.1) = [x] → x.2.dirty ≠ 0 →
        x.1 / 2 ^ 45 = pkg → x.1 * 128 % 2 ^ 52 / 0x4000000000 = die % 16 → die % 16 < 4 →
        ∃ o, (x.1 % 2 ^ 45, o) ∈ (t.die d).orphans ∧ o.sectors = x.2.valid) ∧
      (∀ l ∈ (t.pkg pkg).launches, lost l.id → l.status = 3 ∧ l.unplaced = 0 ∧ l.running = []) ∧
      (∀ r ∈ (t.pkg pkg).vestibule, ¬ lost r.id) ∧
      (∀ l ∈ (s.pkg pkg).launches, ¬ lost l.id → l ∈ (t.pkg pkg).launches) ∧
      (∀ r ∈ (s.pkg pkg).vestibule, ¬ lost r.id → r ∈ (t.pkg pkg).vestibule) ∧
      (∀ ring q, (s.ring ring).prog = some q → dieOfRing ring ≠ die → dieOfRing ring / 16 = pkg → dieOf q.hart ≠ die → (s.hart q.hart).live = true →
        (⟨cMachineCheck, 0, BitVec.ofNat 64 (die % 16)⟩ : Event) ∈ (t.hart q.hart).events ∧ (t.hart q.hart).latch = true ∧
        ((t.die (dieOfRing ring)).orphans ≠ [] →
          (⟨cOrphan, BitVec.ofNat 64 (die % 16), BitVec.ofNat 64 (t.die (dieOfRing ring)).orphans.length⟩ : Event) ∈ (t.hart q.hart).events)) ∧
      (let a := (s.pkg pkg).alertctl
       let vec := 64 * (a.extractLsb' 8 1).toNat + (a.extractLsb' 0 6).toNat
       a.getLsbD 63 = true →
        if ((s.pkg pkg).msixDword (2 * vec + 1)).getLsbD 32 then vec ∈ (t.pkg pkg).msixPending
        else .msix (a.extractLsb' 8 1).toNat (a.extractLsb' 0 6).toNat ∈ (t.pkg pkg).hostOut)

/-- Tokens, errors and the failure of a die (R266, R268, R269, R272, R274, R315, R316). Model's choices: log entries 37 to 40, 79, 80 and
107. -/
def Obligations.CacheAndDieEvents : Prop := TokensAndErrors ∧ DieFails

/-- Records and ring programs. One write of 64 aligned bytes places a record; the head record is checked once, and a bad one ends its launch;
its ring programs start one after the other on free rings; a program of lower priority is saved where the head finds no ring, and comes
back (R291 to R301). -/
abbrev Sys2Proof.Machine.LaunchesPlaced : Prop :=
  ∀ (k : Nat) (s : State), k < 128 →
    let p := s.pkg k
    (∀ port offset bs, port < 2 → p.state = 1 → tget false p.links port = true →
      (bs.length ≠ 64 ∨ offset % 64 ≠ 0 → exec (.vestibuleWrite k port offset bs) s =
        .next (s.modPkg k (fun x => { x with vestdrop := min (x.vestdrop + 1) 0xFFFFFFFF }))) ∧
      (bs.length = 64 → offset % 64 = 0 → p.vestibule.length < 1024 → exec (.vestibuleWrite k port offset bs) s =
        .next (s.modPkg k (fun x => { x with
          vestibule := x.vestibule ++ [{ id := x.recordSeq, words := dwordsOf bs, placed := 0, map := none }],
          recordSeq := x.recordSeq + 1 })))) ∧
    (p.state = 1 → ∀ r, p.head = some (.record r) →
      (r.map = none → ∀ t, let q := t.pkg k
        (s.checkRecord k r.words = .wait t → exec (.dispatch k) s = .next t) ∧
        (s.checkRecord k r.words = .bad t → exec (.dispatch k) s = .next (t.modPkg k (fun _ => { q with
          vestibule := q.vestibule.filter (fun x => x.id != r.id),
          launches := q.launches ++ [{ id := r.id, words := r.words, unplaced := 0, running := [], status := 2 }] }))) ∧
        (∀ m, s.checkRecord k r.words = .ok t m → exec (.dispatch k) s = .next (t.modPkg k (fun _ => { q with
          vestibule := q.vestibule.map (fun x => if x.id = r.id then { x with map := some m } else x) }))) ∧
        (recReserved r.words = true ∨ recCount r.words = 0 ∨ (s.liveRings k).length < recCount r.words ∨ (dw r.words 3).toNat % 16 ≠ 0 →
          s.checkRecord k r.words = .bad s)) ∧
      (∀ m ring, r.map = some m → s.headRing k (.record r) = some ring →
        let j := s.homeCore ring * 8
        ∃ t q, exec (.dispatch k) s = .next t ∧ (t.ring ring).prog = some q ∧ q.hart = j ∧ q.ctx = recCtx r.words ∧
          q.ringidx = r.placed ∧ (t.hart j).live = true ∧ (t.hart j).pc = dw r.words 0 &&& 0x0000FFFFFFFFFFFC ∧
          (t.hart j).getX 10 = PVal.clean (dw r.words 1) ∧ (t.hart j).getX 11 = PVal.clean (BitVec.ofNat 64 (recCount r.words)) ∧
          (t.hart j).priv = 0 ∧ ∀ i, i ≠ j → t.hart i = s.hart i)) ∧
    (p.state = 1 → ∀ h ring q, p.head = some h → h.checked = true → ringExists ring = true → ring / 4096 = k → (s.ring ring).prog = some q →
      s.headRing k h = none → s.victim k h = some ring → s.ringAbroad ring = false → s.copiesInto ring = false →
      s.deliveryDue ring = false → s.quiesceBusy ring = false →
      ∃ t x, exec (.preemption ring) s = .next t ∧ (t.ring ring).prog = none ∧ x.launch = q.launch ∧ x.ctx = q.ctx ∧
        x.ringidx = q.ringidx ∧ x.addr = recSave q.record + q.ringidx * slotBytes ∧ ∃ l, (t.pkg k).saved = l ++ [x]) ∧
    (p.state = 1 → ∀ q ring, p.head = some (.saved q) → s.headRing k (.saved q) = some ring →
      ∃ t g, exec (.restore k) s = .next t ∧ (t.ring ring).prog = some g ∧ g.launch = q.launch ∧ g.ctx = q.ctx ∧
        g.ringidx = q.ringidx ∧ (t.pkg k).saved = p.saved.erase q)

/-- A launch whose ring programs have all halted, or that failed, completes: its record, status and count with its tag, is written as one
granule at its mailbox, or is counted in `RECDROP` where it cannot be; then, where the record asks for it, its MSI-X vector goes to its
port (R302, R309, R311). -/
abbrev Sys2Proof.Machine.LaunchesComplete : Prop :=
  ∀ (k : Nat) (s : State) (l : Launch), k < 128 → (s.pkg k).state = 1 →
    (s.pkg k).launches.find? (fun x => x.id = l.id) = some l → l.unplaced = 0 → l.running = [] →
    let mbox := (dw l.words 3).toNat
    let status := if l.status = 0 then 1 else l.status
    let record := dwordBytes [BitVec.ofNat 64 (status * 2 ^ 56 + recCount l.words), dw l.words 5]
    let gone := fun (t : State) => (t.pkg k).launches.filter (fun x => x.id != l.id)
    (∃ t, exec (.launchCompletion k l.id) s = .next t) ∧
    (mbox = 0 → ∃ t, exec (.launchCompletion k l.id) s = .next t ∧ (t.pkg k).launches = gone s ∧ t.mem = s.mem ∧ t.harts = s.harts ∧
      (t.pkg k).recdrop = (s.pkg k).recdrop) ∧
    (mbox % 16 ≠ 0 → ∃ t, exec (.launchCompletion k l.id) s = .next t ∧ (t.pkg k).launches = gone s ∧ t.mem = s.mem ∧
      (t.pkg k).recdrop = min ((s.pkg k).recdrop + 1) 0xFFFFFFFF) ∧
    (∀ u ps, mbox ≠ 0 → mbox % 16 = 0 → s.dispatcherAccess k (17 + l.id) (recCtx l.words) mbox 16 kStore record = .ok u ps →
      ∃ t, exec (.launchCompletion k l.id) s = .next t ∧ (t.pkg k).launches = gone (u.enginePut ps record false) ∧
        t.mem = (u.enginePut ps record false).mem ∧
        ((dw l.words 2).getLsbD 17 = false → (t.pkg k).hostOut = ((u.enginePut ps record false).pkg k).hostOut))

/-- A package is reset with what its boot finds: where the firmware and every microcode image are accepted it is READY, device memory is
zero and unpoisoned, and every engine hart has started with firmware privilege; else it is in RECOVERY. No other hart is live. Any other
value in `PKGRESET`, and every write while a die is hot, is ignored; `CTXTAB` is written only while no hart of a context is live
(R18, R21, R22, R279, R311, R318, R319, R323). -/
abbrev Sys2Proof.Machine.PackagesReset : Prop :=
  ∀ (k : Nat) (s : State), k < 128 →
    let p := s.pkg k
    (∀ found, edgeBits found ≠ 0 → ∀ i ∈ ([.packageReset k found, .pkgreset k 0x0FEF0001 found] : List Instr),
      (i = .pkgreset k 0x0FEF0001 found → p.hot = false) →
      ∃ t, exec i s = .next t ∧ (∀ j, j < 2 ^ 26 → j / 2 ^ 18 = k → t.hart j = Hart.empty) ∧
        ((t.pkg k).state = 1 ∨ (t.pkg k).state = 2) ∧
        ((t.pkg k).state = 1 ↔ imageAccepted (p.nextFirmware.getD p.firmware) p.rollback = true ∧
          ∀ n, n < 5 → imageAccepted (Config.microcode n) p.rollback = true) ∧
        ((t.pkg k).state = 1 → (∀ a, a / 2 ^ 52 = k → isDev a = true → t.mem.byte a = 0 ∧ t.mem.marked a = false) ∧
          ∀ j ∈ t.engineKeys k, (t.hart j).live = true ∧ (t.hart j).engine = true ∧ (t.hart j).priv = 3 ∧ (t.hart j).route = 3)) ∧
    (∀ found v, v % 2 ^ 64 ≠ 0x0FEF0001 ∨ p.hot = true → exec (.pkgreset k v found) s = .next s) ∧
    (∀ v, ((∀ e ∈ s.harts, pkgOf e.1 = k → e.2.live = true → e.2.engine = true) → exec (.ctxtab k v) s =
        .next (s.modPkg k (fun x => { x with ctxtab := BitVec.ofNat 64 v &&& 0x000FFFFFFFFF0000 }))) ∧
      ((∃ e ∈ s.harts, pkgOf e.1 = k ∧ e.2.live = true ∧ e.2.engine = false) → exec (.ctxtab k v) s = .next s))

/-- An image is accepted when the digest it carries is the SHA3-256 of its body, its key is the fused one, its signature verifies, and its
rollback number is not below the fused counter (R319). -/
abbrev Sys2Proof.Machine.ImagesAccepted : Prop :=
  ∀ image counter, imageAccepted image counter = true ↔
    Config.imageDigest image = sha3 (Config.imageBody image) ∧ sha3 (Config.imageKey image) = Config.keyDigest ∧
    mldsaVerifies (Config.imageKey image) (Config.imageSignature image) (Config.imageDigest image) = true ∧
    counter ≤ Config.imageRollback image

/-- A host's accesses: to the registers of BAR 0, to a link, and to memory through the window, where poisoned data never leaves: the read is
answered with Completer Abort, logged at the port and counted (R311, R312, R322, R324). -/
abbrev Sys2Proof.Machine.HostsAccess : Prop :=
  ∀ (k port : Nat) (s : State), k < 128 → port < 2 →
    let p := s.pkg k
    let host := fun (o : HostOut) => s.modPkg k (fun x => { x with hostOut := x.hostOut ++ [o] })
    (∀ v, exec (.hostRegisterWrite ⟨k, port⟩ 0x40 8 v) s = .next (s.modPkg k (fun x => { x with
        pwrlim := max 1200 (min 2800 (v % 2 ^ 16)) })) ∧
      exec (.hostRegisterWrite ⟨k, port⟩ 0x48 8 v) s = .next (s.modPkg k (fun x => { x with
        alertctl := BitVec.ofNat 64 v &&& 0x800000000000013F })) ∧
      exec (.hostRegisterWrite ⟨k, port⟩ 0x38 8 v) s = .next s ∧ exec (.hostRegisterWrite ⟨k, port⟩ 0x40 4 v) s = .next (s.hostErr k)) ∧
    exec (.hostRegisterRead ⟨k, port⟩ 0x38 8) s = .next (host (.registerValue p.health)) ∧
    (∃ t, exec (.hostRegisterRead ⟨k, port⟩ 0x38 4) s = .next t ∧ (t.pkg k).hosterr = min (p.hosterr + 1) 0xFFFFFFFF) ∧
    (p.edge.getLsbD port = true → exec (.hostLinkReset k port) s =
      .next (s.modPkg k (fun x => { x with links := tput x.links port (decide (x.state = 1)) }))) ∧
    (p.state = 1 → tget false p.links port = true → ∀ addr bs, addr + bs.length ≤ 2 ^ 36 →
      (s.hostPlaces k addr bs.length = none →
        (∃ t, exec (.hostMemoryRead ⟨k, port⟩ addr bs.length) s = .next t ∧ t.mem = s.mem ∧
          (t.pkg k).hosterr = min (p.hosterr + 1) 0xFFFFFFFF ∧ HostOut.readUnsupported ∈ (t.pkg k).hostOut) ∧
        exec (.hostMemoryWrite ⟨k, port⟩ addr bs) s = .next (s.hostErr k)) ∧
      (∀ ls : List Nat, s.hostPlaces k addr bs.length = some (ls.map (fun l => Place.at l .home)) → s.NoForks →
        (∀ l ∈ ls, isDev l = true → l % 2 ^ 52 / 32 ∉ (s.pkg (l / 2 ^ 52)).badSectors) →
        ((∀ l ∈ ls, s.mem.marked l = false) →
          exec (.hostMemoryRead ⟨k, port⟩ addr bs.length) s = .next (host (.readData (ls.map s.mem.byte)))) ∧
        ((∃ l ∈ ls, s.mem.marked l = true) → ∃ t, exec (.hostMemoryRead ⟨k, port⟩ addr bs.length) s = .next t ∧ t.mem = s.mem ∧
          (t.pkg k).hosterr = min (p.hosterr + 1) 0xFFFFFFFF ∧ HostOut.readAbort ∈ (t.pkg k).hostOut ∧
          (tget 0 (t.pkg k).aer port).testBit 26 = true) ∧
        ∃ t, exec (.hostMemoryWrite ⟨k, port⟩ addr bs) s = .next t ∧ t.mem = s.mem.write ls bs false))

/-- The DOE mailbox, heat and health: a nonce is answered with a report, the certificate chain with the chain, a firmware image in RECOVERY
only, any other object with an error; the package throttles, stops for heat with device memory lost, and reports its health
(R319 to R324). -/
abbrev Sys2Proof.Machine.MailboxAndHeat : Prop :=
  ∀ (k : Nat) (s : State), k < 128 →
    let p := s.pkg k
    let host := fun (o : HostOut) => s.modPkg k (fun x => { x with hostOut := x.hostOut ++ [o] })
    (∀ nonce, nonce.length = 32 → ∃ report, exec (.doeNonce k nonce) s = .next (host (.doeResponse report)) ∧ report.length = 4468 ∧
      (report.drop 32).take 32 = nonce ∧ (report.drop 64).take 32 = sha3 (Config.imageBody p.firmware)) ∧
    exec (.doeCertificateChain k) s = .next (host (.doeResponse (Config.certificateChain k))) ∧
    (∀ image, (p.state ≠ 2 → exec (.doeFirmwareImage k image) s = .next (host .doeError)) ∧
      (p.state = 2 → ∃ t, exec (.doeFirmwareImage k image) s = .next t ∧
        (t.pkg k).nextFirmware = if imageAccepted image p.rollback then some image else p.nextFirmware)) ∧
    (∀ n, n < 1 ∨ 3 < n → exec (.doeOtherObject k n) s = .next (host .doeError)) ∧
    (p.state = 1 → exec (.thermalThrottle k) s = .next (s.modPkg k (fun x => { x with throttled := true })) ∧
      ∃ t, exec (.thermalStop k) s = .next t ∧ (t.pkg k).state = 3 ∧ (t.pkg k).hot = true ∧ t.harts = s.harts ∧
        ∀ a, a / 2 ^ 52 = k → isDev a = true → t.mem.byte a = 0 ∧ t.mem.marked a = false) ∧
    (∀ v, v < 2 ^ 18 → exec (.healthUpdate k v) s = .next (s.modPkg k (fun x => { x with health := BitVec.ofNat 64 v })))

/-- What hosts and the package do. A record reaches the Vestibule; the dispatchers check it, start its ring programs, stop and resume
them; a launch completes; a package is reset, and its registers, its memory window and its mailbox answer (R291 to R302, R309 to R324).
Model's choices: log entries 70 to 72, 81, 82, 84, 107, 128 and 142. That device memory reads zero and unmarked after a thermal stop is the
model's choice of log entry 83, and that a firmware image outside RECOVERY is answered with an error that of log entry 86. -/
def Obligations.PackageEvents : Prop := LaunchesPlaced ∧ LaunchesComplete ∧ PackagesReset ∧ ImagesAccepted ∧ HostsAccess ∧ MailboxAndHeat

/-- The answer to a request is on its way: one RESPONSE with these flits, on the channel of its kind (R329, R333). -/
abbrev Sys2Proof.Machine.State.Answers (t : State) (k : Nat) (w : FabPacket) (flits : List (Word × Word)) : Prop :=
  ∃ a, (a ∈ t.wires ∨ a ∈ (t.pkg k).outbox) ∧ a.type = 6 ∧ a.src = k ∧ a.dst = w.src ∧ a.ch = 32 + w.ch % 32 ∧ a.txn = w.txn ∧
    a.payload = flits

/-- `n` bytes at a local address of a package are served to the source of a request at their own home: it holds their acceptances, they back
no lodging frame that has migrated, their dies are live, and no sector of theirs has an error that nobody has found (R338, R347, R272). -/
structure Sys2Proof.Machine.State.ServesElement (s : State) (k : Nat) (w : FabPacket) (la n : Nat) : Prop where
  held : ∀ i < n, { requester := w.src, txn := w.txn / 65536, unit := (la + i) / 2 ^ 30 } ∈ (s.pkg k).accepts
  direct : s.migrations = [] ∧ ∀ i < n, (s.pkg w.src).lodging k (la + i) = none
  home : ∀ i < n, ∃ d x, s.homeOf k (la + i) = some (d, x) ∧ (s.die (dieKey k d)).failed = false
  sound : ∀ i < n, (la + i) / 32 ∉ (s.pkg k).badSectors

/-- The second word of an answer: `POISON` and the status (R329). -/
abbrev Sys2Proof.Machine.answerWord (poison : Bool) (status : Nat) : Word := BitVec.ofNat 64 (poison.toNat + status * 256)

/-- A switch output takes the oldest packet for it that heads its source's channel and for which its package has room; its slices travel in
lock step, with the bit errors they pick up (R330, R332, R334). -/
abbrev Sys2Proof.Machine.SwitchForwards : Prop :=
  ∀ (k : Nat) (s : State) (errs : SliceErrors) (before : List FabPacket) (w : FabPacket) (after : List FabPacket), k < 128 →
    s.wires = before ++ w :: after → w.dst = k → (∀ q ∈ before, ¬ (q.src = w.src ∧ q.ch = w.ch)) →
    let room := fun (q : FabPacket) => q.type = 6 ∨ sharedUse ((q.ch, 8 + q.payload.length) :: (s.pkg k).portUse) ≤ 960
    room w → (∀ b q c, before = b ++ q :: c → q.dst = k → (∃ x ∈ b, x.src = q.src ∧ x.ch = q.ch) ∨ ¬ room q) →
    ∃ t, exec (.switchForward k errs) s = .next t ∧
      (t.pkg k).fabIn = (s.pkg k).fabIn ++ [{ w with errors := mergeErrors w.errors errs }] ∧
      (∃ sent, t.wires = before ++ after ++ sent ∧ ∀ q ∈ sent, q ∈ (s.pkg w.src).outbox) ∧ t.mem = s.mem ∧ t.harts = s.harts

/-- A package takes the packet at the head of its receive port. Its header is what more than half of the live slices carry, its payload is
decoded, and it joins the packets that wait to be served; a slice that disagrees is isolated, from the third on with `DOWN`; a header
without a majority, or of type 7, is discarded with `DOWN` (R328 to R330). -/
abbrev Sys2Proof.Machine.PacketsReceived : Prop :=
  ∀ (k : Nat) (s : State) (errs : SliceErrors) (w0 : FabPacket) (r : List FabPacket), k < 128 →
    let p := s.pkg k
    p.state = 1 → p.fabIn = w0 :: r →
    let w := { w0 with errors := mergeErrors w0.errors errs }
    ∃ t, exec (.fabricPacketReceive k errs) s = .next t ∧ (t.pkg k).fabIn = r ∧ t.harts = s.harts ∧ t.mem = s.mem ∧ t.wires = s.wires ∧
      (w.voted p.liveSlices = none → (t.pkg k).down = true ∧ (t.pkg k).rx = p.rx) ∧
      (∀ c, w.voted p.liveSlices = some c →
        (∀ i ∈ p.liveSlices, w.copyOf i ≠ c → i ∈ (t.pkg k).isolated) ∧
        (∀ i ∈ (t.pkg k).isolated, i ∈ p.isolated ∨ (i ∈ p.liveSlices ∧ w.copyOf i ≠ c)) ∧
        (3 ≤ (t.pkg k).isolated.length → (t.pkg k).down = true) ∧
        (c / 2 ^ 9 % 8 = 7 → (t.pkg k).down = true ∧ (t.pkg k).rx = p.rx) ∧
        (c / 2 ^ 9 % 8 ≠ 7 →
          let d := w.decoded (t.pkg k).liveSlices (c / 2 ^ 4 % 32)
          (t.pkg k).rx = p.rx ++ [{ dst := c / 2 ^ 25 % 128, src := c / 2 ^ 18 % 128, ch := c / 2 ^ 12 % 64, type := c / 2 ^ 9 % 8,
                                    seq := c % 16, txn := w.txn, payload := d.1, errors := d.2.1.map (fun i => (i, 1)) }] ∧
          (t.pkg k).fabCorrected = p.fabCorrected + d.2.2)) ∧
      (w.errors = [] → p.liveSlices ≠ [] → w.voted p.liveSlices = some (w.dst % 128 * 2 ^ 25 + w.src % 128 * 2 ^ 18 + w.ch % 64 * 2 ^ 12 +
        w.type % 8 * 2 ^ 9 + w.payload.length % 32 * 2 ^ 4 + w.seq % 16))

/-- The elements of a packet perform one after the other, each by `one`; an uncorrectable flit performs nothing and is answered with cause 5 (R339, R341). -/
abbrev Sys2Proof.Machine.State.Serves (s t : State) (k : Nat) (w : FabPacket)
    (one : State → Word × Word → State × Word × Bool → Prop) : Prop :=
  ∃ (v : Nat → State) (fs : List (Word × Word)), v 0 = s ∧ fs.length = w.payload.length ∧ t.mem = (v w.payload.length).mem ∧
    t.harts = (v w.payload.length).harts ∧ t.rings = (v w.payload.length).rings ∧ t.Answers k w fs ∧
    ∀ i f, w.payload[i]? = some f →
      (w.badFlit i = true → v (i + 1) = v i ∧ fs[i]? = some (0, answerWord false 5)) ∧
      (w.badFlit i = false → ∃ val pois, one (v i) f (v (i + 1), val, pois) ∧
        fs[i]? = some (if pois then 0 else val, answerWord pois 0))

/-- The requests of a READ, a WRITE and an ATOMIC at their target. Each element of a READ is a demand read that answers its data, or zero with
`POISON`; each of a WRITE performs at the home, a sub-byte element by merging there; an ATOMIC is one indivisible step that
answers the old value, and of a poisoned word stores nothing (R78, R339, R340). -/
abbrev Sys2Proof.Machine.AccessesServed : Prop :=
  ∀ (k : Nat) (s : State), k < 128 →
    let p := s.pkg k
    p.state = 1 →
    ∀ w, let u := s.modPkg k (fun q => { q with rx := q.rx.erase w })
    let n := fun (f : Word × Word) => 2 ^ (f.1.toNat / 2 ^ 48 % 8)
    let at' := fun (v : State) (f : Word × Word) => v.elemPlaces k w f.1 (n f)
    let la := fun (f : Word × Word) => f.1.toNat % 2 ^ 43
    let ls := fun (f : Word × Word) => (List.range (n f)).map (fun i => locDev k (la f + i))
    (nextOf 0 [] p.rx = some w → ∃ t, exec (.fabRead k) s = .next t ∧ (t.pkg k).rx = p.rx.erase w ∧ (t.pkg k).accepts = p.accepts ∧
      u.Serves t k w (fun v f r => r.1 = v.demandAll (at' v f) ∧ r.2.1 = BitVec.ofNat 64 (r.1.readPlaces none (at' v f)) ∧
        r.2.2 = r.1.anyPoison none (at' v f)) ∧
      ∀ f, w.payload = [f] → w.badFlit 0 = false → s.ServesElement k w (la f) (n f) → t.mem = s.mem ∧
        t.Answers k w [if (ls f).any s.mem.marked then (0, answerWord true 0) else (BitVec.ofNat 64 (s.mem.numAt (ls f)), answerWord false 0)]) ∧
    (nextOf 1 [] p.rx = some w → ∃ t, exec (.fabWrite k) s = .next t ∧ (t.pkg k).rx = p.rx.erase w ∧ (t.pkg k).accepts = p.accepts ∧
      u.Serves t k w (fun v f r => r.2.1 = 0 ∧ r.2.2 = false ∧
        (n f = 1 → r.1 = v.enginePut (at' v f) [(BitVec.ofNat 8 (v.readPlaces none (at' v f)) &&& f.2.extractLsb' 8 8) |||
          (f.2.extractLsb' 0 8 &&& ~~~ f.2.extractLsb' 8 8)] false) ∧
        (n f ≠ 1 → r.1 = v.enginePut (at' v f) (natToBytes (n f) f.2.toNat) false)) ∧
      ∀ f, w.payload = [f] → w.badFlit 0 = false → s.ServesElement k w (la f) (n f) → n f ≠ 1 →
        t.mem = s.mem.write (ls f) (natToBytes (n f) f.2.toNat) false ∧ t.Answers k w [(0, 0)]) ∧
    (nextOf 2 [] p.rx = some w → ∃ t, exec (.fabAtomic k) s = .next t ∧ (t.pkg k).rx = p.rx.erase w ∧ (t.pkg k).accepts = p.accepts ∧
      ∀ f rest, w.payload = f :: rest → f.1.toNat / 2 ^ 51 % 32 < 16 →
        let op := f.1.toNat / 2 ^ 51 % 32
        let cmp := (lget (0, 0) rest 0).1.toNat % 2 ^ (8 * n f)
        ((w.badFlit 0 = true ∨ (op = 9 ∧ w.badFlit 1 = true)) → t.mem = s.mem ∧ t.Answers k w [(0, answerWord false 5)]) ∧
        (w.badFlit 0 = false → (op = 9 → w.badFlit 1 = false) → s.ServesElement k w (la f) (n f) →
          ((ls f).any s.mem.marked = true → t.mem = s.mem ∧ t.Answers k w [(0, answerWord true 0)]) ∧
          ((ls f).any s.mem.marked = false →
            t.Answers k w [(BitVec.ofNat 64 (s.mem.numAt (ls f)), answerWord false 0)] ∧
            (∀ new, amoNew op (n f) (s.mem.numAt (ls f)) (f.2.toNat % 2 ^ (8 * n f)) cmp = some new →
              t.mem = s.mem.write (ls f) (natToBytes (n f) new) false) ∧
            (amoNew op (n f) (s.mem.numAt (ls f)) (f.2.toNat % 2 ^ (8 * n f)) cmp = none → t.mem = s.mem))))

/-- The cause of an acceptance (R338): address bit 43 or an unpopulated byte 3; no valid window that covers the byte for the package, or a
unit that is lent or in an Escrow, 1; no such window that permits the access 2; else accepted. The units of a lease belong to its borrower. -/
abbrev Sys2Proof.Machine.AcceptanceOrder : Prop :=
  ∀ (s : State) (k from' la kind : Nat), kind ≤ 3 →
    let p := s.pkg k
    let win := fun (i : Nat) => (tget 0 p.expw i).toNat
    let covers := fun (i : Nat) => i < 16 ∧ win i / 2 ^ 63 = 1 ∧ (win i / 2 ^ 59 % 2 = 1 ∨ win i / 2 ^ 52 % 128 = from') ∧
      win i / 2 ^ 30 % 2 ^ 13 ≤ la / 2 ^ 30 ∧ la / 2 ^ 30 < win i / 2 ^ 30 % 2 ^ 13 + win i / 2 ^ 16 % 2 ^ 14
    let permits := fun (i : Nat) => win i / 2 ^ (if kind = 1 then 61 else if kind = 3 then 60 else 62) % 2 = 1
    let lent := ∃ l ∈ p.lends, l.base ≤ la ∧ la < l.base + l.units * 2 ^ 30
    let escrow := ∃ b ∈ p.borrows, b.escrow ≤ la ∧ la < b.escrow + b.units * 2 ^ 30
    let granted := ∃ l ∈ p.lends, l.base ≤ la ∧ la < l.base + l.units * 2 ^ 30 ∧ l.marked = false ∧ l.borrower = from' ∧
      ∃ b ∈ (s.pkg from').borrows, b.lender = k ∧ b.name = l.reqno ∧ b.state ≠ .requested
    let none' := la / 2 ^ 43 % 2 = 1 ∨ s.homeOf k la = none
    (none' → s.acceptance k from' la kind = 3) ∧
    (¬ none' → granted → s.acceptance k from' la kind = 0) ∧
    (¬ none' → ¬ granted → (lent ∨ escrow ∨ ∀ i, ¬ covers i) → s.acceptance k from' la kind = 1) ∧
    (¬ none' → ¬ granted → ¬ lent → ¬ escrow → (∃ i, covers i) → (∀ i, covers i → ¬ permits i) → s.acceptance k from' la kind = 2) ∧
    (¬ none' → ¬ granted → ¬ lent → ¬ escrow → (∃ i, covers i ∧ permits i) → s.acceptance k from' la kind = 0)

/-- The other requests: ACCEPT answers the cause of each element and holds the acceptances it gives; UNPIN releases those of its access, or is
answered with cause 5 where its flit is uncorrectable; a
MESSAGE enters its ring by stop 0, or is answered `DROPPED` where a flit of it is uncorrectable or the ring does not exist (R338, R342). -/
abbrev Sys2Proof.Machine.AcceptancesAndMessages : Prop :=
  ∀ (k : Nat) (s : State), k < 128 →
    let p := s.pkg k
    p.state = 1 →
    ∀ w,
    (nextOf 4 [] p.rx = some w → ∃ t fs, exec (.fabAccept k) s = .next t ∧ (t.pkg k).rx = p.rx.erase w ∧ t.mem = s.mem ∧
      t.harts = s.harts ∧ t.Answers k w fs ∧ fs.length = w.payload.length ∧
      let kind := ((s.pkg w.src).txns.find? (fun x => x.id = w.txn / 65536)).map (·.kind)
      let cause := fun (i : Nat) (f : Word × Word) => if w.badFlit i then 5 else
        kind.elim 0 (fun d => s.acceptance k w.src (f.1.toNat % 2 ^ 44) d)
      (∀ i f, w.payload[i]? = some f → fs[i]? = some (0, answerWord false (cause i f))) ∧
      ∀ a, a ∈ (t.pkg k).accepts ↔ a ∈ p.accepts ∨ ∃ i f, w.payload[i]? = some f ∧ cause i f = 0 ∧ kind ≠ none ∧
        a = { requester := w.src, txn := w.txn / 65536, unit := f.1.toNat % 2 ^ 43 / 2 ^ 30 }) ∧
    (nextOf 5 [] p.rx = some w → ∃ t, exec (.fabUnpin k) s = .next t ∧ (t.pkg k).rx = p.rx.erase w ∧ t.mem = s.mem ∧ t.harts = s.harts ∧
      (w.badFlit 0 = true → t.Answers k w [(0, answerWord false 5)] ∧ (t.pkg k).accepts = p.accepts) ∧
      (w.badFlit 0 = false → t.Answers k w [(0, 0)] ∧ ∀ a, a ∈ (t.pkg k).accepts ↔ a ∈ p.accepts ∧
        ¬ (a.requester = w.src ∧ a.txn = w.txn / 65536 ∧ ∃ f ∈ w.payload, f.1.toNat % 2 ^ 43 / 2 ^ 30 = a.unit))) ∧
    (nextOf 3 [] p.rx = some w → ∃ t, exec (.fabMessage k) s = .next t ∧ (t.pkg k).rx = p.rx.erase w ∧ t.mem = s.mem ∧ t.harts = s.harts ∧
      let f := lget (0, 0) w.payload 0
      let ring := destCore f.1 / 8
      let deliverable := w.errors = [] ∧ ring / 4096 = k ∧ ringExists ring = true ∧ (s.die (ring / 256)).failed = false
      (deliverable → t.Answers k w [(0, 0)] ∧ (t.pkg k).dieNet = p.dieNet ++
        [{ id := 0, dest := f.1, header := f.2, payload := (w.payload.drop 1).flatMap (fun g => [g.1, g.2]), dir := 0, crossed := false,
           vc := 0, esc := none, notice := false }]) ∧
      (¬ deliverable → t.Answers k w [(0, answerWord false 7)] ∧ (t.pkg k).dieNet = p.dieNet))

/-- The value that `FABLOG` takes of a remote failure (R341). -/
abbrev Sys2Proof.Machine.failureLog (cause target la : Nat) : Word :=
  BitVec.ofNat 64 (2 ^ 63 + cause % 16 * 2 ^ 56 + target % 128 * 2 ^ 49 + la % 2 ^ 43)

/-- What a failure in transit of an agent's parts leaves: the last one in the log, and of a hart `MACHINE_CHECK` for each, in order, on the
ring program of its ring (R341). Each part stands with its target, local address and cause. -/
abbrev Sys2Proof.Machine.State.Failed (s t : State) (k : Nat) (who : Who) (lost : List ((Nat × Nat) × Nat)) : Prop :=
  (t.pkg k).fablog = (match lost.getLast? with
    | some l => failureLog l.2 l.1.1 l.1.2
    | none => (s.pkg k).fablog) ∧
  (lost = [] → t.harts = s.harts) ∧
  (who.isHart = true → ∀ pr, (s.ring who.ring).prog = some pr → (t.hart pr.hart).events = (s.hart pr.hart).events ++
    lost.map (fun l => { code := 0x23, addr := BitVec.ofNat 64 (2 ^ 51 + l.1.1 * 2 ^ 44 + l.1.2), val := BitVec.ofNat 64 l.2 }))

/-- No request and no message leaves a package that is `DOWN`, and what leaves one has its room for the response reserved (R330, R334). -/
abbrev Sys2Proof.Machine.PacketsInjected : Prop :=
  ∀ (k : Nat) (q : FabPacket) (s : State),
    let t := s.sendPacket k q
    ((s.pkg k).down = true → ∀ r ∈ t.wires, r ∈ s.wires ∨ r.type = 6) ∧
    ∀ r ∈ t.wires, r ∉ s.wires → r.type ≠ 6 → (r.txn, 32 + r.ch, r.answerFlits) ∈ (t.pkg k).rooms

/-- A RESPONSE ends its packet, and the room reserved for it is free. Of an access, the causes of its frames or the data, poison and status of
its elements are taken, an element that failed as zero with poison, and at a package that is `DOWN` every one fails with cause 4; each
failure in transit is logged and raises `MACHINE_CHECK` on the ring program. Of an UNPIN, a failure is reported so too, and it is sent again
while the fabric can be used. Of a message, status 0 is the end of it; any other counts a drop, raised to the sender's context
(R330, R334, R338 to R342). -/
abbrev Sys2Proof.Machine.ResponsesTaken : Prop :=
  ∀ (k : Nat) (s : State), k < 128 →
    let p := s.pkg k
    p.state = 1 →
    ∀ w, nextOf 6 [] p.rx = some w →
    let answer := fun (message : Bool) (i : Nat) (f : Word × Word) =>
      if p.down = true ∧ message = false then ((0 : Word), true, 4)
      else if w.badFlit i then (0, true, 5) else (f.1, f.2.getLsbD 0, f.2.toNat / 2 ^ 8 % 16)
    (∃ t, exec (.fabResponse k) s = .next t ∧ (t.pkg k).rx = p.rx.erase w ∧ t.mem = s.mem) ∧
    (∀ n, p.unpins.find? (fun n => n.num = w.txn) = some n → n.who.pkg = k → ∀ f rest, w.payload = f :: rest →
      ∃ t, exec (.fabResponse k) s = .next t ∧
        let c := (answer false 0 f).2.2
        s.Failed t k n.who (if c = 0 then [] else [((n.target, n.la), c)]) ∧
        (t.pkg k).unpins = p.unpins.filter (fun x => x.num != n.num) ++ (if c = 0 ∨ s.cutOff k = true then [] else [n])) ∧
    ∀ x y, (∀ n ∈ p.unpins, n.num ≠ w.txn) → p.txns.find? (fun x => x.id = w.txn / 65536) = some x → x.who.pkg = k →
      x.sent.find? (fun y => y.num = w.txn && (x.goal y).1 = w.src) = some y →
      (x.kind ≠ 4 → y.idx.Nodup → y.idx.length = w.payload.length →
        ∃ t x', exec (.fabResponse k) s = .next t ∧ (t.pkg k).txns.find? (fun z => z.id = x.id) = some x' ∧
          x'.sent = x.sent.filter (fun z => z.num != w.txn) ∧ x'.elems = x.elems ∧ x'.frames = x.frames ∧
          (∀ j i f, y.idx[j]? = some i → w.payload[j]? = some f →
            (y.accept = true → tget 0 x'.answers i = (answer false j f).2.2) ∧
            (y.accept = false → tget (0, false, 0) x'.resps i =
              if (answer false j f).2.2 = 0 then answer false j f else (0, true, (answer false j f).2.2))) ∧
          s.Failed t k x.who ((y.idx.zip w.payload.zipIdx).filterMap (fun e =>
            let c := (answer false e.2.2 e.2.1).2.2
            if c = 0 ∨ (y.accept = true ∧ c ≤ 3) then none else some (x.goal { y with idx := [e.1] }, c)))) ∧
      (x.kind = 4 → ∀ f rest, w.payload = f :: rest →
        ∃ t, exec (.fabResponse k) s = .next t ∧ (t.pkg k).txns = p.txns.filter (fun z => z.id != x.id) ∧
          let c := (answer true 0 f).2.2
          let core := t.core (8 * x.who.ring)
          let old := s.core (8 * x.who.ring)
          (c = 0 → core = old ∧ t.harts = s.harts ∧ (t.pkg k).fablog = p.fablog) ∧
          (c = 7 → core.msgdrop = min (old.msgdrop + 1) 0xFFFFFFFF ∧ (t.pkg k).fablog = p.fablog) ∧
          (c ≠ 0 → c ≠ 7 → core.msgdrop = min (old.msgdrop + 1) 0xFFFFFFFF ∧ (t.pkg k).fablog = failureLog c (x.goal y).1 0))

/-- The packets of an access whose target cannot be reached, or that are lost, fail with cause 4: their parts read as zero with poison, each
is logged and raises `MACHINE_CHECK`; a message that has not reached its destination is never delivered, and counts as
dropped. The leases of a lender that cannot be reached are revoked (R341, R342, R361). -/
abbrev Sys2Proof.Machine.FailuresInTransit : Prop :=
  ∀ (k : Nat) (s : State), k < 128 →
    let p := s.pkg k
    let revoked := fun (t : State) (l : Nat) => ∀ b ∈ (t.pkg k).borrows, b.lender = l → b.state ≠ .granted ∧ b.state ≠ .reclaiming
    (∀ x, p.txns.find? (fun z => z.id = x.id) = some x → x.id < 2 ^ 32 → x.who.pkg = k →
      let fails := fun (y : Sent) => s.unreachable k (x.goal y).1 = true ∨ s.carried k (x.goal y).1 y.num = false
      (∀ y ∈ x.sent, fails y → ∃ t, exec (.transitFailure k x.id) s = .next t ∧
        (s.unreachable k (x.goal y).1 = true → revoked t (x.goal y).1) ∧
        (x.kind ≠ 4 → s.NoForks → ∃ x', (t.pkg k).txns.find? (fun z => z.id = x.id) = some x' ∧
          (∀ z ∈ x'.sent, z ∈ x.sent ∧ ¬ fails z) ∧
          ∀ i ∈ y.idx, if y.accept then tget 0 x'.answers i = 4 else tget (0, false, 0) x'.resps i = (0, true, 4))) ∧
      ∀ y, x.sent = [y] → fails y →
        (∀ b ∈ p.borrows, b.lender = (x.goal y).1 → b.state ≠ .granted ∧ b.state ≠ .reclaiming) →
        (x.kind ≠ 4 → ∃ t, exec (.transitFailure k x.id) s = .next t ∧ t.mem = s.mem ∧
          s.Failed t k x.who (y.idx.map (fun i => (x.goal { y with idx := [i] }, 4)))) ∧
        (x.kind = 4 → ∃ t, exec (.transitFailure k x.id) s = .next t ∧ t.mem = s.mem ∧
          (t.pkg k).txns = p.txns.filter (fun z => z.id != x.id) ∧
          let core := t.core (8 * x.who.ring)
          let old := s.core (8 * x.who.ring)
          let undelivered := s.undelivered k (x.goal y).1 y.num
          ((undelivered = true ∨ s.carried k (x.goal y).1 y.num = false) → core.msgdrop = min (old.msgdrop + 1) 0xFFFFFFFF ∧
            (t.pkg k).fablog = failureLog 4 (x.goal y).1 0 ∧
            ∀ q ∈ t.wires ++ (t.pkg (x.goal y).1).fabIn ++ (t.pkg (x.goal y).1).rx, ¬ (q.txn = y.num ∧ q.src = k ∧ q.type ≠ 6)) ∧
          (undelivered = false → s.carried k (x.goal y).1 y.num = true → core = old ∧ t.harts = s.harts))) ∧
    (∀ n b, p.borrow? n = some b → s.unreachable k b.lender = true → b.state = .granted ∨ b.state = .reclaiming →
      ∃ t, exec (.transitFailure k (2 ^ 32 + n)) s = .next t ∧ revoked t b.lender)

/-- What the lease agents do with the messages of the other end, in order of arrival (R351 to R361). -/
abbrev Sys2Proof.Machine.LeaseMessagesApplied : Prop :=
  ∀ (k : Nat) (s : State), k < 128 →
    let p := s.pkg k
    p.state = 1 → ∀ m rest, p.leaseIn = m :: rest →
      let u := s.modPkg k (fun x => { x with leaseIn := rest })
      (∀ b name units wmin, m = .request b name units wmin → ∃ t, exec (.leaseRequest k) s = .next t ∧ t.mem = s.mem ∧
        (p.noticesOn = true → lowestFree (p.lends.map (·.id)) ≠ none →
          (t.pkg k).requests = p.requests ++ [{ borrower := b, reqno := name, units := units, wmin := wmin }]) ∧
        (p.noticesOn = false ∨ lowestFree (p.lends.map (·.id)) = none → t = u.leaseSend b (.refuse k name))) ∧
      (∀ l name lease base wfin, m = .grant l name lease base wfin → ∃ t, exec (.leaseGrant k) s = .next t ∧
        (p.named? name = none → t = u.leaseSend l (.giveBack k name)) ∧
        ∀ b, p.named? name = some b → b.state = .requested → b.lender = l →
          (t.pkg k).borrows = p.borrows.map (fun x => if x.handle = b.handle then
            { b with state := .granted, lease := lease, base := base, wfin := wfin } else x)) ∧
      (∀ l name, m = .refuse l name → ∃ t, exec (.leaseRefuse k) s = .next t ∧
        ∀ b, p.named? name = some b → b.state = .requested → b.lender = l →
          (t.pkg k).borrows = p.borrows.filter (fun x => x.handle != b.handle)) ∧
      (∀ b name, m = .cancel b name →
        ((∀ l ∈ p.lends, ¬ (l.marked = true ∧ l.borrower = b ∧ l.reqno = name)) → exec (.leaseCancellation k) s = .next
          (u.modPkg k (fun x => { x with requests := x.requests.filter (fun r => !(r.borrower = b && r.reqno = name)) }))) ∧
        ((∃ l ∈ p.lends, l.marked = true ∧ l.borrower = b ∧ l.reqno = name) → exec (.leaseCancellation k) s = .next u)) ∧
      (∀ l name, m = .reclaim l name → ∃ t, exec (.leaseReclaim k) s = .next t ∧
        ∀ b, p.named? name = some b → b.state = .granted → b.lender = l →
          (t.pkg k).borrow? b.handle = (p.borrow? b.handle).map (fun x => { x with
            state := .reclaiming, deadline := (p.timebase + b.wfin) % 2 ^ 64 })) ∧
      (∀ b name, m = .done b name → ∃ t, exec (.leaseDone k) s = .next t ∧
        ∀ l d, p.lends.find? (fun x => x.borrower = b && x.reqno = name) = some l → l.deadline = some d →
          (p.timebase < d → (t.pkg k).lends = p.lends.filter (fun x => x.id != l.id)) ∧ (d ≤ p.timebase → t = u)) ∧
      (∀ b name, m = .giveBack b name → ∃ t, exec (.leaseReturn k) s = .next t ∧
        ∀ l, p.lends.find? (fun x => x.borrower = b && x.reqno = name && !x.marked) = some l →
          (t.pkg k).lends = p.lends.filter (fun x => x.id != l.id))

/-- A revocation of a lease that is RECLAIMING: if every frame has migrated it is DEMOTED; else it is LOST, the Escrow of the frames that
have not migrated is zero with poison, the mailbox record has status 5 with their number, and every live ring program of the context gets
`LEASE_LOST`, then `MACHINE_CHECK` (R357). -/
abbrev Sys2Proof.Machine.LeasesRevoked : Prop :=
  ∀ (k : Nat) (s : State), k < 128 →
    let p := s.pkg k
    p.state = 1 → ∀ l name rest, p.leaseIn = .revoke l name :: rest →
      ((p.named? name = none ∨ ∃ b, p.named? name = some b ∧ (b.state ≠ .reclaiming ∨ b.lender ≠ l)) →
        exec (.leaseRevoke k) s = .next (s.modPkg k (fun x => { x with leaseIn := rest }))) ∧
      ∀ b, p.named? name = some b → b.state = .reclaiming → b.lender = l → p.borrow? b.handle = some b →
        ∃ t, exec (.leaseRevoke k) s = .next t ∧
          (b.migrated = b.units * 2 ^ 18 → (t.pkg k).borrow? b.handle = some { b with state := .demoted }) ∧
          (b.migrated ≠ b.units * 2 ^ 18 →
            (t.pkg k).borrow? b.handle = some { b with state := .lost, migrated := b.units * 2 ^ 18 } ∧
            (s.NoForks → ∀ e ∈ s.programs k, e.2.ctx = b.ctx → ∃ more, (t.hart e.2.hart).events = (s.hart e.2.hart).events ++
              [{ code := 0x21, addr := BitVec.ofNat 64 (2 ^ 51 + b.lender % 128 * 2 ^ 44 + b.base), val := BitVec.ofNat 64 b.handle },
               { code := 0x23, addr := BitVec.ofNat 64 (2 ^ 51 + b.lender % 128 * 2 ^ 44 + b.base), val := BitVec.ofNat 64 b.handle }] ++ more) ∧
            (s.Canonical → s.migrations = [] → b.mbox + 16 ≤ b.escrow ∨ b.escrow + b.units * 2 ^ 30 ≤ b.mbox → b.mbox + 16 ≤ 2 ^ 51 →
              b.escrow + b.units * 2 ^ 30 ≤ 2 ^ 51 → b.escrow % 2 ^ 30 = 0 → b.mbox % 16 = 0 →
              (∀ i, b.migrated * 4096 ≤ i → i < b.units * 2 ^ 30 →
                t.mem.byte (locDev k (b.escrow + i)) = 0 ∧ t.mem.marked (locDev k (b.escrow + i)) = true) ∧
              ((∀ i < 16, ∃ h, s.agentPlace k (b.mbox + i) = some (.at (locDev k (b.mbox + i)) h)) →
                t.mem.numAt ((List.range 16).map (fun i => locDev k (b.mbox + i))) =
                  (5 * 2 ^ 56 + b.lease % 2 ^ 16 * 2 ^ 40 + b.lender % 128 * 2 ^ 32 + b.tag % 2 ^ 16) % 2 ^ 64 +
                    (b.units * 2 ^ 18 - b.migrated) % 2 ^ 64 * 2 ^ 64)))

/-- Frames migrate one by one while the lender serves the lease, each with its bytes and markers, until the last ends the reclaim; at
the deadline the lender takes the units back (R355, R356). -/
abbrev Sys2Proof.Machine.ReclaimsGoOn : Prop :=
  ∀ (k : Nat) (s : State), k < 128 →
    let p := s.pkg k
    p.state = 1 →
    (∀ b, p.borrow? b.handle = some b → b.state = .reclaiming → s.served k b = true →
      (b.migrated + 1 = b.units * 2 ^ 18 → ∃ t, exec (.lodgingFrameMigrate k b.handle b.migrated) s = .next t ∧
        (t.pkg k).borrow? b.handle = some { b with state := .demoted, migrated := b.migrated + 1 }) ∧
      (b.migrated + 1 < b.units * 2 ^ 18 → ∃ t, exec (.lodgingFrameMigrate k b.handle b.migrated) s = .next t ∧
        (t.pkg k).borrow? b.handle = some { b with migrated := b.migrated + 1 } ∧
        let old := b.base + b.migrated * 4096
        let new := b.escrow + b.migrated * 4096
        (s.Canonical → b.lender ≠ k → old + 4096 ≤ 2 ^ 51 → new + 4096 ≤ 2 ^ 51 → old % 32 = 0 → new % 32 = 0 →
          s.homeFailed k new = false → s.homeFailed b.lender old = false →
          (∀ i < 4096, (old + i) / 32 ∉ (s.pkg b.lender).badSectors) →
          (∀ i < 4096, t.mem.byte (locDev k (new + i)) = s.mem.byte (locDev b.lender (old + i)) ∧
            t.mem.marked (locDev k (new + i)) = s.mem.marked (locDev b.lender (old + i))) ∧
          ∀ a, (a < locDev k new ∨ locDev k new + 4096 ≤ a) → t.mem.byte a = s.mem.byte a))) ∧
    (∀ l d, p.lend? l.id = some l → l.deadline = some d → d ≤ p.timebase →
      ∃ t, exec (.reclaimDeadline k l.id) s = .next t ∧ (t.pkg k).lends = p.lends.filter (fun x => x.id != l.id))

/-- What the fabric and the lease agents do. Nothing leaves a package that is `DOWN` but its responses; a switch forwards the oldest packet for
a port; a package receives the packet at the head of
its port and serves requests, each answered with one RESPONSE; a transaction whose other end cannot be reached fails; and an agent applies
the messages of the other end in order of arrival (R329 to R342, R351 to R361). Model's choices: log entries 89 to 95, 97, 98, 99, 107 and 120, the last for
the byte mask under which a WRITE of one element merges, to which R329 gives no place. -/
def Obligations.FabricAndLeaseEvents : Prop :=
  PacketsInjected ∧ SwitchForwards ∧ PacketsReceived ∧ AccessesServed ∧ AcceptanceOrder ∧ AcceptancesAndMessages ∧ ResponsesTaken ∧ FailuresInTransit ∧
    LeaseMessagesApplied ∧ LeasesRevoked ∧ ReclaimsGoOn

/-! ### The whole machine -/

/-- Time passes before each move: the time bases never go back, the watchdogs count, and the move that was fixed is taken from the agenda (R14, R147). -/
abbrev Sys2Proof.Machine.TimePasses : Prop :=
  ∀ s : State,
    let u := s.elapse
    u.mem = s.mem ∧ u.cores = s.cores ∧ u.rings = s.rings ∧ u.dies = s.dies ∧ u.full = s.full ∧ u.wires = s.wires ∧
      u.migrations = s.migrations ∧ u.cur = s.cur ∧ u.agenda = s.agenda.drop 1 ∧ u.free = s.free + 1 ∧
      ∀ k, (∃ n, u.hart k = { s.hart k with rxCount := n } ∧ (n = 0 ∨ (s.recvBlocked k = true ∧ (s.hart k).rxCount ≤ n))) ∧
        ∃ n, u.pkg k = { s.pkg k with timebase := n } ∧ ((s.pkg k).timebase < 2 ^ 64 → (s.pkg k).timebase ≤ n ∧ n < 2 ^ 64)

/-- What every step adds after its move, where no lease agent has a record left to write in another package: ready convoys reserve
units, persistent requests and redirects of migrations end, and ring sequencers look whether a deadlock has ended; nothing else changes
(R157, R242, R269, R288). -/
abbrev Sys2Proof.Machine.MovesSettle : Prop :=
  ∀ (t : State), (∀ k, (t.pkg k).agentWrites = []) →
    let r := t.settle
    r.harts = t.harts ∧ r.mem = t.mem ∧ r.pkgs = t.pkgs ∧ r.full = t.full ∧ r.feWait = t.feWait ∧ r.wires = t.wires ∧ r.dropped = t.dropped ∧
      r.agenda = t.agenda ∧ r.cur = t.cur ∧ r.free = t.free ∧ (∀ c, ∃ b, r.core c = { t.core c with reserved := b }) ∧
      (∀ q, ∃ b, r.ring q = { t.ring q with stalled := b }) ∧ (∀ d, ∃ l, r.die d = { t.die d with lines := l }) ∧
      ∀ m ∈ r.migrations, m ∈ t.migrations

/-- The fetch of four bytes at home in memory gives them, whatever they hold, unless a word of theirs is marked (R43, R57, R136). -/
abbrev Sys2Proof.Machine.WordsFetched : Prop :=
  ∀ (v : State) (k pc : Nat) (ls : List Nat),
    let x := v.places (v.agentOf k) [] kFetch pc 4
    (∃ h : Nat → Holder, x.ans = .ok (ls.map (fun l => Place.at l (h l))) ∧ ∀ l, h l ≠ Holder.other) →
    v.Translated x.st → v.NoForks → v.txnOf (.fetch k 0) = none →
    (∀ l ∈ ls, isDev l = true → l % 2 ^ 52 / 32 ∉ (v.pkg (l / 2 ^ 52)).badSectors) →
    ((∀ l ∈ ls, v.mem.marked l = false) → v.fetch k 0 pc 4 = .ok x.st (ls.map v.mem.byte)) ∧
    ∀ (i l : Nat), ls[i]? = some l → v.mem.marked l = true → (∀ (j m : Nat), j < i → ls[j]? = some m → v.mem.marked m = false) →
      v.fetch k 0 pc 4 = .stop x.st { cause := 7, addr := (pc + i) % 2 ^ 64, val := 13 }

/-- What is added to what an agent did: of the attempts that it made in vain at lines of its die it keeps those of lines that it has asked for
once more, and loses the others (R269). -/
abbrev Sys2Proof.Machine.AttemptsKept : Prop :=
  ∀ (s t : State) (a : Nat),
    let r := s.afterAttempt t a
    let d := dieOf (a / 2)
    r = { t with dies := r.dies } ∧ (∀ e, e ≠ d → r.die e = t.die e) ∧ (∃ l, r.die d = { t.die d with lines := l }) ∧
    ∀ line, (r.line d line) = { t.line d line with unserved := (r.line d line).unserved } ∧
      ∀ b, tget 0 (r.line d line).unserved b =
        if b = a ∧ tget 0 (t.line d line).unserved a = tget 0 (s.line d line).unserved a then 0 else tget 0 (t.line d line).unserved b

/-- A step runs the decoded instruction. With the issue opportunity of a core fixed as the next move, the first hart in turn that may issue
takes a pending event, or executes the instruction that the four bytes fetched at its pc decode to, or the row for a word that names none; a
fetch that stops traps, and one that must wait stalls. With a queue entry fixed, the member of that entry, as a whole or for one element group,
after which a hart that popped a word counts its watchdog anew; with an
event fixed, that event. Around it a step lets time pass, keeps the lines for which the agent still asks, and settles what every move may have
brought about (R44, R136, R144, R147, R150 to R152, R269). Model's choices: log entries 1, 3, 5, 11, 12 and 38. -/
def Obligations.StepRunsDecoded : Prop :=
  TimePasses ∧ MovesSettle ∧ AttemptsKept ∧ WordsFetched ∧
  ∀ (s : State),
    let u := s.elapse
    (∀ core rest before k after, s.agenda = .issue core :: rest → ringExists (core / 8) = true →
      let c := s.core core
      (if c.strict then [core * 8 + c.opp % 8] else (List.range 8).map (fun i => core * 8 + (c.last + 1 + i) % 8)) = before ++ k :: after →
      (∀ j ∈ before, u.mayIssue j = false) → u.mayIssue k = true → (s.hart k).wait = .none →
      let c' : Core := if c.strict then { c with opp := c.opp + 1 } else c
      let cores := tput u.cores core { c' with last := k % 8 }
      (u.eventReady k = true → step s = settled (.next ({ u with cores := cores, cur := k }.enterEvent k))) ∧
      (u.eventReady k = false →
        let v : State := { u with cores := cores, cur := k, harts := tput u.harts k { u.hart k with wait := .none } }
        let after' := fun (o : Out) => step s = settled (attempted v (2 * k) o)
        let fetched := v.fetch k 0 (s.hart k).pc.toNat 4
        (∀ t bs, fetched = .ok t bs →
          let w : IWord := BitVec.ofNat 32 (bytesToNat bs)
          (∀ i, decodeWord w = .ok i → after' (exec i t)) ∧ (∀ e, decodeWord w = .error e → after' (exec (.undefinedWord w) t))) ∧
        (∀ t f, fetched = .stop t f → after' (.next (t.trap f.cause (BitVec.ofNat 64 f.addr) (BitVec.ofNat 64 f.val)))) ∧
        (∀ t w, fetched = .wait t w → after' (.next (t.stall w))))) ∧
    (∀ k pos rest e t, s.agenda = .vector k pos :: rest → { u with byGroup := false }.workable k pos = some e →
      let v : State := { u with byGroup := false, cur := k, entry := e.id }
      exec e.instr v = .next t →
      let r := v.afterAttempt t (2 * k + 1)
      step s = settled (.next (if (r.core (coreOf k)).recvQ.length < (u.core (coreOf k)).recvQ.length then
        r.setHart k { r.hart k with rxCount := 0 } else r))) ∧
    (∀ k pos rest e t, s.agenda = .group k pos :: rest → { u with byGroup := true }.workable k pos = some e →
      let v : State := { u with byGroup := true, cur := k, entry := e.id }
      exec e.instr v = .next t →
      let r := v.afterAttempt t (2 * k + 1)
      let r' := if (r.core (coreOf k)).recvQ.length < (u.core (coreOf k)).recvQ.length then r.setHart k { r.hart k with rxCount := 0 } else r
      step s = settled (.next { r' with byGroup := false })) ∧
    (∀ i rest, s.agenda = .event i :: rest → (∀ p, eventPkg i = some p → (s.pkg p).state = 1) → step s = settled (exec i u))

/-- Decoding and encoding agree in both directions: the word of every well-formed instruction that has one decodes to it, with every
operand at every value that the encoding admits; and every word that decodes is the word of the well-formed instruction it decodes to, so
that no two words mean the same (R44 to R54). -/
def Obligations.DecodeEncodeAgree : Prop :=
  (∀ (i : Instr) (w : IWord), i.wf = true → (∀ u, i ≠ .undefinedWord u) → encodeWord i = some w → decodeWord w = .ok i) ∧
  (∀ (i : Instr) (w : Word), i.wf = true → encodeMember i = some w → decodeMember w = .ok i) ∧
  (∀ (i : Instr) (w : IWord), decodeWord w = .ok i → i.wf = true ∧ encodeWord i = some w) ∧
  (∀ (i : Instr) (w : Word), decodeMember w = .ok i → i.wf = true ∧ encodeMember i = some w)

/-- Every step keeps memory in its canonical form: whatever instruction or event it carries out, from every canonical state. Model's choices: log entry 8. -/
def Obligations.StepKeepsCanonicalMemory : Prop := ∀ s t : State, s.Canonical → step s = .next t → t.Canonical

/-- The machine right after reset. What the spec gives: every slot is FREE, every package in BOOT with `HEALTH` 0xFFFF and `PWRLIM` 2800,
the trap record and the status registers zero (R13, R24, R311). What the model chooses: a byte of memory that nothing has written reads
zero and unmarked, every full/empty bit is empty, and no move is fixed (the assumption log says so). The state is canonical. Model's choices: log entries 1, 8 and 9. -/
def Obligations.ResetState : Prop :=
  State.reset.Canonical ∧ (∀ a, State.reset.mem.byte a = 0 ∧ State.reset.mem.marked a = false) ∧ State.reset.full = [] ∧
  State.reset.agenda = [] ∧
  (∀ k, let h := State.reset.hart k; h.live = false ∧ h.priv = 0 ∧ h.fstat = 0 ∧ h.vstat = 0 ∧ h.tcause = 0 ∧ h.tpc = 0 ∧ h.taddr = 0 ∧
    h.tval = 0 ∧ h.tvec = 0 ∧ h.queue = [] ∧ (∀ r, h.getX r = PVal.clean 0) ∧ ∀ v e, h.getV v e = PVal.clean 0) ∧
  (∀ k, let p := State.reset.pkg k; p.state = 0 ∧ p.health = 0xFFFF ∧ p.pwrlim = 2800 ∧ p.alertctl = 0 ∧ p.ctxtab = 0 ∧ p.hosterr = 0 ∧
    p.vestibule = [] ∧ p.launches = [] ∧ p.lends = [] ∧ p.borrows = [])

/-- Words worked out in the spec, with what they decode to, and words that it calls illegal. -/
def Obligations.DecodedWords : Prop :=
  decodeWord 0x04A63800 = .ok (.add 5 6 7) ∧ decodeWord 0x28826010 = .ok (.ld 4 2 16) ∧ decodeWord 0x1D29023F = .ok (.srai 9 9 63) ∧
  decodeWord 0x34649FF0 = .ok (.bltu 3 4 0x1FF0) ∧ decodeWord 0x30A732B3 = .ok (.amoadd 5 7 6 .aq .g .d) ∧
  decodeWord 0x40221990 = .ok (.fadd 1 2 3 .rtz .f32) ∧ decodeWord 0x44A00008 = .ok (.sysr 5 8) ∧ decodeWord 0x4400FF05 = .ok .halt ∧
  decodeWord 0x4C055130 = .ok (.send 5 10 .g 3) ∧ decodeWord 0x4CE00001 = .ok (.recv 7) ∧ decodeWord 0x4C053002 = .ok (.htset 5 6) ∧
  decodeWord 0x580A5800 = .ok (.svbegin 10 11 0) ∧ decodeWord 0x58A63822 = .ok (.svchk 5 6 7 2) ∧
  decodeWord 0xFD060000 = .ok (.convoy 2 0x03000 0 false) ∧
  decodeMember 0x00040000F9020000 = .ok
    (.vld { vd := 1, vs1 := 0, vs2 := 0, vs3 := 0, mask := 15, ty := .f32, z := false, rm := .rne, x := 4, low := 0 }) ∧
  decodeMember 0x600C108029F00000 = .ok
    (.vfadd { vd := 3, vs1 := 1, vs2 := 2, vs3 := 0, mask := 2, ty := .f32, z := true, rm := .dyn, x := 0, low := 0 }) ∧
  decodeMember 0x4B044000F403A200 = .ok
    (.vcmp { vd := 1, vs1 := 4, vs2 := 0, vs3 := 0, mask := 15, ty := .s32, z := false, rm := .rne, x := 7, low := 0x2200 }) ∧
  decodeMember 0xA71C0002F9000001 = .ok
    (.mlu { vd := 7, vs1 := 0, vs2 := 0, vs3 := 2, mask := 15, ty := .f32, z := false, rm := .rne, x := 0, low := 1 }) ∧
  (∀ w ∈ ([0x30A73293, 0x40221C90, 0x58A63862, 0x4CE10001] : List IWord), ∃ e, decodeWord w = .error e) ∧
  ∀ w ∈ ([0x67182000FA040109, 0x4B044000F403E200, 0x4B044000F403A600, 0xA3042C00FA700000, 0xA71C0002FA000001] : List Word),
    ∃ e, decodeMember w = .error e
end

