-- ==== Sys2Proof/Laws/Tables.lean ====
section
/-! SUPPORT. The laws of finite tables and of rising lists: what a read answers after a write, and that every operation keeps
keys rising. -/

namespace Sys2Proof.Machine

variable {α : Type}

/-! ### Reading after writing -/

@[simp] theorem tget_tput_same (d : α) (m : Tab α) (k : Nat) (v : α) : tget d (tput m k v) k = v := by
  induction m with
  | nil => simp [tput, tget]
  | cons e r ih =>
    obtain ⟨a, w⟩ := e
    simp only [tput]
    split
    · simp [tget]
    · split
      · simp [tget]
      · simp [tget, *]

theorem tget_tput_ne (d : α) (m : Tab α) (k j : Nat) (v : α) (h : j ≠ k) : tget d (tput m k v) j = tget d m j := by
  induction m with
  | nil => simp [tput, tget, Ne.symm h]
  | cons e r ih =>
    obtain ⟨a, w⟩ := e
    simp only [tput]
    split
    · subst_vars; simp [tget, Ne.symm h]
    · split
      · simp [tget, Ne.symm h]
      · simp [tget, ih]

@[simp] theorem tput_tput (m : Tab α) (k : Nat) (v w : α) : tput (tput m k v) k w = tput m k w := by
  induction m with
  | nil => simp [tput]
  | cons e r ih =>
    obtain ⟨a, x⟩ := e
    simp only [tput]
    split
    · simp [tput]
    · split
      · simp [tput]
      · rename_i h1 h2; simp [tput, h1, h2, ih]

theorem tget_tdel_same (d : α) (m : Tab α) (k : Nat) : tget d (tdel m k) k = d := by
  induction m with
  | nil => simp [tdel, tget]
  | cons e r ih =>
    obtain ⟨a, w⟩ := e
    simp only [tdel, List.filter_cons] at ih ⊢
    by_cases h : a = k
    · simp [h, ih]
    · simp [h, tget, ih]

theorem tget_tdel_ne (d : α) (m : Tab α) (k j : Nat) (h : j ≠ k) : tget d (tdel m k) j = tget d m j := by
  induction m with
  | nil => simp [tdel, tget]
  | cons e r ih =>
    obtain ⟨a, w⟩ := e
    simp only [tdel, List.filter_cons] at ih ⊢
    by_cases ha : a = k
    · have hj : a ≠ j := by omega
      simp [ha, tget, ih]; intro hk; omega
    · simp [ha, tget, ih]

@[simp] theorem tget_tset_same [DecidableEq α] (d : α) (m : Tab α) (k : Nat) (v : α) : tget d (tset d m k v) k = v := by
  unfold tset; split
  · rename_i h; rw [tget_tdel_same, h]
  · exact tget_tput_same d m k v

theorem tget_tset_ne [DecidableEq α] (d : α) (m : Tab α) (k j : Nat) (v : α) (h : j ≠ k) :
    tget d (tset d m k v) j = tget d m j := by
  unfold tset; split
  · exact tget_tdel_ne d m k j h
  · exact tget_tput_ne d m k j v h

/-! ### Membership -/

theorem mem_tput {m : Tab α} {k : Nat} {v : α} {e : Nat × α} (h : e ∈ tput m k v) : e = (k, v) ∨ e ∈ m := by
  induction m with
  | nil => simpa [tput] using h
  | cons x r ih =>
    obtain ⟨a, w⟩ := x
    simp only [tput] at h
    split at h
    · rcases List.mem_cons.1 h with h | h
      · exact .inl h
      · exact .inr (List.mem_cons_of_mem _ h)
    · split at h
      · rcases List.mem_cons.1 h with h | h
        · exact .inl h
        · exact .inr h
      · rcases List.mem_cons.1 h with h | h
        · exact .inr (h ▸ List.mem_cons_self ..)
        · rcases ih h with h | h
          · exact .inl h
          · exact .inr (List.mem_cons_of_mem _ h)

theorem mem_tset [DecidableEq α] {d : α} {m : Tab α} {k : Nat} {v : α} {e : Nat × α} (h : e ∈ tset d m k v) :
    (e = (k, v) ∧ v ≠ d) ∨ e ∈ m := by
  unfold tset at h; split at h
  · exact .inr ((List.mem_filter.1 h).1)
  · rename_i hv
    rcases mem_tput h with h | h
    · exact .inl ⟨h, hv⟩
    · exact .inr h

theorem mem_sins {k x : Nat} {l : List Nat} (h : x ∈ sins k l) : x = k ∨ x ∈ l := by
  induction l with
  | nil => simpa [sins] using h
  | cons a r ih =>
    simp only [sins] at h
    split at h
    · exact .inr h
    · split at h
      · simpa using h
      · rcases List.mem_cons.1 h with h | h
        · exact .inr (h ▸ List.mem_cons_self ..)
        · rcases ih h with h | h
          · exact .inl h
          · exact .inr (List.mem_cons_of_mem _ h)

/-! ### Rising lists -/

theorem rising_iff (l : List Nat) : rising l = true ↔ l.Pairwise (· < ·) := by
  induction l with
  | nil => simp [rising]
  | cons a r ih =>
    cases r with
    | nil => simp [rising]
    | cons b t =>
      simp only [rising, Bool.and_eq_true, decide_eq_true_eq, ih, List.pairwise_cons]
      constructor
      · rintro ⟨hab, hb, ht⟩
        refine ⟨?_, hb, ht⟩
        intro x hx
        rcases List.mem_cons.1 hx with hx | hx
        · omega
        · have := hb x hx; omega
      · rintro ⟨ha, hb, ht⟩
        exact ⟨ha b (List.mem_cons_self ..), hb, ht⟩

theorem rising_filter {l : List Nat} (p : Nat → Bool) (h : rising l = true) : rising (l.filter p) = true := by
  rw [rising_iff] at *; exact h.filter p

theorem rising_sins {l : List Nat} (k : Nat) (h : rising l = true) : rising (sins k l) = true := by
  rw [rising_iff] at *
  induction l with
  | nil => simp [sins]
  | cons a r ih =>
    obtain ⟨ha, hr⟩ := List.pairwise_cons.1 h
    simp only [sins]
    split
    · exact h
    · split
      · rename_i hk
        refine List.pairwise_cons.2 ⟨?_, h⟩
        intro x hx
        rcases List.mem_cons.1 hx with hx | hx
        · omega
        · have := ha x hx; omega
      · refine List.pairwise_cons.2 ⟨?_, ih hr⟩
        intro x hx
        rcases mem_sins hx with hx | hx
        · omega
        · exact ha x hx

theorem rising_sdel {l : List Nat} (k : Nat) (h : rising l = true) : rising (sdel k l) = true := rising_filter _ h

theorem rising_keys_filter {m : Tab α} (p : Nat × α → Bool) (h : rising (m.map (·.1)) = true) :
    rising ((m.filter p).map (·.1)) = true := by
  rw [rising_iff] at *
  exact h.sublist ((List.filter_sublist (p := p)).map _)

theorem rising_keys_tput {m : Tab α} (k : Nat) (v : α) (h : rising (m.map (·.1)) = true) :
    rising ((tput m k v).map (·.1)) = true := by
  rw [rising_iff] at *
  induction m with
  | nil => simp [tput]
  | cons e r ih =>
    obtain ⟨a, w⟩ := e
    obtain ⟨ha, hr⟩ := List.pairwise_cons.1 h
    simp only [tput]
    split
    · subst_vars; exact List.pairwise_cons.2 ⟨ha, hr⟩
    · split
      · rename_i hk
        refine List.pairwise_cons.2 ⟨?_, h⟩
        intro x hx
        rcases List.mem_cons.1 hx with hx | hx
        · have hx' : x = a := hx
          show k < x; omega
        · have h1 : a < x := ha x hx
          show k < x; omega
      · refine List.pairwise_cons.2 ⟨?_, ih hr⟩
        intro x hx
        obtain ⟨y, hy, rfl⟩ := List.mem_map.1 hx
        rcases mem_tput hy with hy | hy
        · subst hy; show a < k; omega
        · exact ha _ (List.mem_map_of_mem hy)

theorem rising_keys_tset [DecidableEq α] {d : α} {m : Tab α} (k : Nat) (v : α) (h : rising (m.map (·.1)) = true) :
    rising ((tset d m k v).map (·.1)) = true := by
  unfold tset; split
  · exact rising_keys_filter _ h
  · exact rising_keys_tput k v h

end Sys2Proof.Machine
end

