-- ==== Sys2Proof/Laws/Memory.lean ====
section
/-! SUPPORT. The laws of memory: a read after a write, and that every operation on memory keeps its canonical form. -/

namespace Sys2Proof.Machine

/-! ### Reading after writing -/

@[simp] theorem byte_setByte_same (m : Mem) (a : Nat) (b : Byte) : (m.setByte a b).byte a = b := by
  simp [Mem.byte, Mem.setByte]

theorem byte_setByte_ne (m : Mem) (a c : Nat) (b : Byte) (h : c ≠ a) : (m.setByte a b).byte c = m.byte c := by
  simp [Mem.byte, Mem.setByte, tget_tset_ne _ _ _ _ _ h]

@[simp] theorem byte_mark (m : Mem) (a c : Nat) : (m.mark a).byte c = m.byte c := rfl
@[simp] theorem byte_unmark (m : Mem) (a c : Nat) : (m.unmark a).byte c = m.byte c := rfl
@[simp] theorem marked_setByte (m : Mem) (a c : Nat) (b : Byte) : (m.setByte a b).marked c = m.marked c := rfl

/-! ### The canonical form -/

theorem wf_iff (m : Mem) : m.wf = true ↔ rising (m.cells.map (·.1)) = true ∧ (∀ c ∈ m.cells, c.2 ≠ 0) ∧ rising m.marks = true := by
  simp [Mem.wf, and_assoc]

/-- A fold of operations that each keep a property keeps it. -/
theorem foldl_keeps {α β : Type} (P : α → Prop) (f : α → β → α) (hf : ∀ a b, P a → P (f a b)) (l : List β) (a : α) (h : P a) :
    P (l.foldl f a) := by
  induction l generalizing a with
  | nil => exact h
  | cons b r ih => exact ih _ (hf a b h)

/-- The canonical form of the cells alone. -/
def CellsOk (c : List Host.Cell) : Prop := rising (c.map (·.1)) = true ∧ ∀ e ∈ c, e.2 ≠ 0

theorem cellsOk_tset {c : List Host.Cell} (h : CellsOk c) (a : Nat) (b : Byte) : CellsOk (tset 0 c a b) := by
  refine ⟨rising_keys_tset a b h.1, ?_⟩
  intro e he
  rcases mem_tset he with ⟨rfl, hb⟩ | he
  · exact hb
  · exact h.2 e he

theorem cellsOk_filter {c : List Host.Cell} (h : CellsOk c) (p : Host.Cell → Bool) : CellsOk (c.filter p) :=
  ⟨rising_keys_filter p h.1, fun e he => h.2 e (List.mem_filter.1 he).1⟩

theorem wf_of (m : Mem) (hc : CellsOk m.cells) (hm : rising m.marks = true) : m.wf = true := (wf_iff m).2 ⟨hc.1, hc.2, hm⟩
theorem wf_cells {m : Mem} (h : m.wf = true) : CellsOk m.cells := ⟨((wf_iff m).1 h).1, ((wf_iff m).1 h).2.1⟩
theorem wf_marks {m : Mem} (h : m.wf = true) : rising m.marks = true := ((wf_iff m).1 h).2.2

theorem setByte_wf {m : Mem} (a : Nat) (b : Byte) (h : m.wf = true) : (m.setByte a b).wf = true :=
  wf_of _ (cellsOk_tset (wf_cells h) a b) (wf_marks (m := m) h)

theorem mark_wf {m : Mem} (a : Nat) (h : m.wf = true) : (m.mark a).wf = true := wf_of _ (wf_cells (m := m) h) (rising_sins _ (wf_marks h))

theorem unmark_wf {m : Mem} (a : Nat) (h : m.wf = true) : (m.unmark a).wf = true := wf_of _ (wf_cells (m := m) h) (rising_sdel _ (wf_marks h))

theorem clear_wf {m : Mem} (a n : Nat) (h : m.wf = true) : (m.clear a n).wf = true :=
  wf_of _ (cellsOk_filter (wf_cells h) _) (rising_filter _ (wf_marks h))

theorem poisonRange_wf {m : Mem} (a n : Nat) (h : m.wf = true) : (m.poisonRange a n).wf = true :=
  foldl_keeps (fun r : Mem => r.wf = true) _ (fun _ _ hr => mark_wf _ hr) _ _ (clear_wf a n h)

theorem move_wf {m : Mem} (src dst n : Nat) (h : m.wf = true) : (m.move src dst n).wf = true :=
  wf_of _ (foldl_keeps CellsOk _ (fun _ _ hr => cellsOk_tset hr _ _) _ _ (wf_cells (clear_wf dst n h)))
    (foldl_keeps (fun l => rising l = true) _ (fun _ _ hr => rising_sins _ hr) _ _ (wf_marks (clear_wf dst n h)))

theorem setNum_wf (n : Nat) : ∀ {m : Mem} (a v : Nat), m.wf = true → (m.setNum a n v).wf = true := by
  induction n with
  | zero => intro m a v h; exact h
  | succ n ih => intro m a v h; exact ih _ _ (setByte_wf _ _ h)

theorem write_wf {m : Mem} (locs : List Nat) (bytes : List Byte) (poison : Bool) (h : m.wf = true) :
    (m.write locs bytes poison).wf = true := by
  have h1 : ((locs.zip bytes).foldl (fun r e => r.setByte e.1 e.2) m).wf = true :=
    foldl_keeps (fun r : Mem => r.wf = true) _ (fun _ _ hr => setByte_wf _ _ hr) _ _ h
  unfold Mem.write
  cases poison
  · refine foldl_keeps (fun r : Mem => r.wf = true) _ (fun r l hr => ?_) _ _ h1
    split
    · exact unmark_wf _ hr
    · exact hr
  · exact foldl_keeps (fun r : Mem => r.wf = true) _ (fun _ _ hr => mark_wf _ hr) _ _ h1

/-! ### The operations of the save slot -/

theorem writePieces_wf {α : Type} (ps : List (Piece α)) (a : α) (base : Nat) {m : Mem} (h : m.wf = true) :
    (writePieces ps a base m).wf = true :=
  foldl_keeps (fun r : Mem => r.wf = true) _ (fun _ _ hr => setNum_wf _ _ _ hr) _ _ h

theorem copyPlain_wf {m : Mem} (src dst n : Nat) (h : m.wf = true) : (m.copyPlain src dst n).wf = true :=
  wf_of _ (foldl_keeps CellsOk _ (fun _ _ hr => cellsOk_tset hr _ _) _ _ (wf_cells h)) (wf_marks (m := m) h)

theorem setBit_wf {m : Mem} (base i : Nat) (h : m.wf = true) : (m.setBit base i).wf = true := setByte_wf _ _ h

theorem saveLocal_wf {m : Mem} (src dst bits n : Nat) (h : m.wf = true) : (m.saveLocal src dst bits n).wf = true :=
  foldl_keeps (fun r : Mem => r.wf = true) _ (fun _ _ hr => setBit_wf _ _ hr) _ _ (copyPlain_wf src dst n h)

theorem loadLocal_wf {m : Mem} (image : Mem) (loc src bits n : Nat) (h : m.wf = true) : (m.loadLocal image loc src bits n).wf = true :=
  foldl_keeps (fun r : Mem => r.wf = true) _ (fun _ _ hr => mark_wf _ hr) _ _
    (wf_of _ (foldl_keeps CellsOk _ (fun _ _ hr => cellsOk_tset hr _ _) _ _ (wf_cells (clear_wf loc n h)))
      (wf_marks (m := m.clear loc n) (clear_wf loc n h)))

theorem saveCore_wf (s : State) (core ctx base : Nat) {m : Mem} (h : m.wf = true) : (s.saveCore core ctx base m).wf = true := by
  unfold State.saveCore
  refine foldl_keeps (fun r : Mem => r.wf = true) _ (fun r i hr => ?_) _ _
    (writePieces_wf _ _ _ (foldl_keeps (fun r : Mem => r.wf = true) _ (fun _ _ hr => setBit_wf _ _ hr) _ _ (saveLocal_wf _ _ _ _ h)))
  split
  · exact writePieces_wf _ _ _ hr
  · exact hr

theorem slotImage_wf (s : State) (ring base : Nat) (p : Program) (h : s.mem.wf = true) : (s.slotImage ring base p).wf = true := by
  unfold State.slotImage
  have h2 : (List.foldl (fun (m : Mem) (w : Word × Nat) => m.setNum (base + 0x40 + 8 * w.2) 8 w.1.toNat)
      (((s.mem.clear base slotBytes).setNum base 8
        (slotHead p.ctx (s.livePositions ring) ((s.ring ring).fork).isSome p.ringidx)).setNum (base + 8) 8 p.seq)
      p.record.zipIdx).wf = true :=
    foldl_keeps (fun r : Mem => r.wf = true) _ (fun _ _ hr => setNum_wf _ _ _ hr) _ _
      (setNum_wf _ _ _ (setNum_wf _ _ _ (clear_wf _ _ h)))
  refine saveLocal_wf _ _ _ _ (foldl_keeps (fun r : Mem => r.wf = true) _ (fun _ _ hr => saveCore_wf s _ _ _ hr) _ _ ?_)
  split
  · exact h2
  · exact writePieces_wf _ _ _ (writePieces_wf _ _ _ h2)

theorem writeTable_wf {m : Mem} (o : VOp) (e off v : Nat) (poison : Bool) (h : m.wf = true) : (writeTable m o e off v poison).wf = true :=
  write_wf _ _ _ h

/-- Reset memory is canonical. -/
theorem reset_wf : State.reset.mem.wf = true := by decide

end Sys2Proof.Machine
end

