-- ==== Sys2Proof/Laws/State.lean ====
section
/-! SUPPORT. What each update of the state leaves as it was: one lemma per field per update, so that no proof unfolds a record
update. -/

namespace Sys2Proof.Machine

/-! ### Components -/

@[simp] theorem hart_setHart_same (s : State) (k : Nat) (h : Hart) : (s.setHart k h).hart k = h := tget_tput_same _ _ _ _
theorem hart_setHart_ne (s : State) (k j : Nat) (h : Hart) (hj : j ≠ k) : (s.setHart k h).hart j = s.hart j :=
  tget_tput_ne _ _ _ _ _ hj
@[simp] theorem setHart_setHart (s : State) (k : Nat) (g h : Hart) : (s.setHart k g).setHart k h = s.setHart k h := by
  simp only [State.setHart, tput_tput]
@[simp] theorem core_modCore_same (s : State) (k : Nat) (f : Core → Core) : (s.modCore k f).core k = f (s.core k) := tget_tput_same _ _ _ _
theorem core_modCore_ne (s : State) (k j : Nat) (f : Core → Core) (hj : j ≠ k) : (s.modCore k f).core j = s.core j :=
  tget_tput_ne _ _ _ _ _ hj
@[simp] theorem ring_modRing_same (s : State) (k : Nat) (f : Ring → Ring) : (s.modRing k f).ring k = f (s.ring k) := tget_tput_same _ _ _ _
theorem ring_modRing_ne (s : State) (k j : Nat) (f : Ring → Ring) (hj : j ≠ k) : (s.modRing k f).ring j = s.ring j :=
  tget_tput_ne _ _ _ _ _ hj
@[simp] theorem die_modDie_same (s : State) (k : Nat) (f : Die → Die) : (s.modDie k f).die k = f (s.die k) := tget_tput_same _ _ _ _
theorem die_modDie_ne (s : State) (k j : Nat) (f : Die → Die) (hj : j ≠ k) : (s.modDie k f).die j = s.die j :=
  tget_tput_ne _ _ _ _ _ hj
@[simp] theorem pkg_modPkg_same (s : State) (k : Nat) (f : Pkg → Pkg) : (s.modPkg k f).pkg k = f (s.pkg k) := tget_tput_same _ _ _ _
theorem pkg_modPkg_ne (s : State) (k j : Nat) (f : Pkg → Pkg) (hj : j ≠ k) : (s.modPkg k f).pkg j = s.pkg j :=
  tget_tput_ne _ _ _ _ _ hj

/-! ### Registers -/

@[simp] theorem getX_zero (h : Hart) : h.getX 0 = PVal.clean 0 := by simp [Hart.getX]
@[simp] theorem setX_zero (h : Hart) (p : PVal) : h.setX 0 p = h := by simp [Hart.setX]
theorem getX_setX_same (h : Hart) (r : Reg) (p : PVal) (hr : r ≠ 0) : (h.setX r p).getX r = p := by
  rw [Hart.getX, if_neg hr, Hart.setX, if_neg hr, tget_tset_same]
theorem getX_setX_ne (h : Hart) (r q : Reg) (p : PVal) (hq : q ≠ r) : (h.setX r p).getX q = h.getX q := by
  unfold Hart.setX
  split
  · rfl
  · simp only [Hart.getX]
    split
    · rfl
    · exact tget_tset_ne _ _ _ _ _ (fun e => hq (BitVec.eq_of_toNat_eq e))
@[simp] theorem getM_setM_same (h : Hart) (n : Nat) (b : BitVec 128) : (h.setM n b).getM n = b := by simp [Hart.getM, Hart.setM]
theorem getM_setM_ne (h : Hart) (n j : Nat) (b : BitVec 128) (hj : j ≠ n) : (h.setM n b).getM j = h.getM j :=
  tget_tset_ne _ _ _ _ _ hj
@[simp] theorem getV_setV_same (h : Hart) (n e : Nat) (p : PVal) : (h.setV n e p).getV n e = p := by
  simp [Hart.getV, Hart.setV]
theorem getV_setV_ne (h : Hart) (n j e c : Nat) (p : PVal) (hj : j ≠ n ∨ c ≠ e) : (h.setV n e p).getV j c = h.getV j c := by
  simp only [Hart.getV, Hart.setV]
  by_cases hn : j = n
  · subst hn
    rw [tget_tset_same]
    exact tget_tset_ne _ _ _ _ _ (hj.resolve_left (by simp))
  · rw [tget_tset_ne _ _ _ _ _ hn]

/-! ### Fields of a hart -/

@[simp] theorem setX_live (h : Hart) (r : Reg) (p : PVal) : (h.setX r p).live = h.live := by unfold Hart.setX; split <;> rfl
@[simp] theorem setX_engine (h : Hart) (r : Reg) (p : PVal) : (h.setX r p).engine = h.engine := by unfold Hart.setX; split <;> rfl
@[simp] theorem setX_vecRole (h : Hart) (r : Reg) (p : PVal) : (h.setX r p).vecRole = h.vecRole := by unfold Hart.setX; split <;> rfl
@[simp] theorem setX_stopped (h : Hart) (r : Reg) (p : PVal) : (h.setX r p).stopped = h.stopped := by unfold Hart.setX; split <;> rfl
@[simp] theorem setX_retiring (h : Hart) (r : Reg) (p : PVal) : (h.setX r p).retiring = h.retiring := by unfold Hart.setX; split <;> rfl
@[simp] theorem setX_pc (h : Hart) (r : Reg) (p : PVal) : (h.setX r p).pc = h.pc := by unfold Hart.setX; split <;> rfl
@[simp] theorem setX_v (h : Hart) (r : Reg) (p : PVal) : (h.setX r p).v = h.v := by unfold Hart.setX; split <;> rfl
@[simp] theorem setX_m (h : Hart) (r : Reg) (p : PVal) : (h.setX r p).m = h.m := by unfold Hart.setX; split <;> rfl
@[simp] theorem setX_vl (h : Hart) (r : Reg) (p : PVal) : (h.setX r p).vl = h.vl := by unfold Hart.setX; split <;> rfl
@[simp] theorem setX_lanes (h : Hart) (r : Reg) (p : PVal) : (h.setX r p).lanes = h.lanes := by unfold Hart.setX; split <;> rfl
@[simp] theorem setX_queue (h : Hart) (r : Reg) (p : PVal) : (h.setX r p).queue = h.queue := by unfold Hart.setX; split <;> rfl
@[simp] theorem setX_pendConvoy (h : Hart) (r : Reg) (p : PVal) : (h.setX r p).pendConvoy = h.pendConvoy := by unfold Hart.setX; split <;> rfl
@[simp] theorem setX_fstat (h : Hart) (r : Reg) (p : PVal) : (h.setX r p).fstat = h.fstat := by unfold Hart.setX; split <;> rfl
@[simp] theorem setX_vstat (h : Hart) (r : Reg) (p : PVal) : (h.setX r p).vstat = h.vstat := by unfold Hart.setX; split <;> rfl
@[simp] theorem setX_hctl (h : Hart) (r : Reg) (p : PVal) : (h.setX r p).hctl = h.hctl := by unfold Hart.setX; split <;> rfl
@[simp] theorem setX_rxwdog (h : Hart) (r : Reg) (p : PVal) : (h.setX r p).rxwdog = h.rxwdog := by unfold Hart.setX; split <;> rfl
@[simp] theorem setX_rxCount (h : Hart) (r : Reg) (p : PVal) : (h.setX r p).rxCount = h.rxCount := by unfold Hart.setX; split <;> rfl
@[simp] theorem setX_tcause (h : Hart) (r : Reg) (p : PVal) : (h.setX r p).tcause = h.tcause := by unfold Hart.setX; split <;> rfl
@[simp] theorem setX_tpc (h : Hart) (r : Reg) (p : PVal) : (h.setX r p).tpc = h.tpc := by unfold Hart.setX; split <;> rfl
@[simp] theorem setX_tqpos (h : Hart) (r : Reg) (p : PVal) : (h.setX r p).tqpos = h.tqpos := by unfold Hart.setX; split <;> rfl
@[simp] theorem setX_telem (h : Hart) (r : Reg) (p : PVal) : (h.setX r p).telem = h.telem := by unfold Hart.setX; split <;> rfl
@[simp] theorem setX_taddr (h : Hart) (r : Reg) (p : PVal) : (h.setX r p).taddr = h.taddr := by unfold Hart.setX; split <;> rfl
@[simp] theorem setX_tval (h : Hart) (r : Reg) (p : PVal) : (h.setX r p).tval = h.tval := by unfold Hart.setX; split <;> rfl
@[simp] theorem setX_tvec (h : Hart) (r : Reg) (p : PVal) : (h.setX r p).tvec = h.tvec := by unfold Hart.setX; split <;> rfl
@[simp] theorem setX_priv (h : Hart) (r : Reg) (p : PVal) : (h.setX r p).priv = h.priv := by unfold Hart.setX; split <;> rfl
@[simp] theorem setX_ppriv (h : Hart) (r : Reg) (p : PVal) : (h.setX r p).ppriv = h.ppriv := by unfold Hart.setX; split <;> rfl
@[simp] theorem setX_route (h : Hart) (r : Reg) (p : PVal) : (h.setX r p).route = h.route := by unfold Hart.setX; split <;> rfl
@[simp] theorem setX_spec (h : Hart) (r : Reg) (p : PVal) : (h.setX r p).spec = h.spec := by unfold Hart.setX; split <;> rfl
@[simp] theorem setX_ctx (h : Hart) (r : Reg) (p : PVal) : (h.setX r p).ctx = h.ctx := by unfold Hart.setX; split <;> rfl
@[simp] theorem setX_ringidx (h : Hart) (r : Reg) (p : PVal) : (h.setX r p).ringidx = h.ringidx := by unfold Hart.setX; split <;> rfl
@[simp] theorem setX_chunkno (h : Hart) (r : Reg) (p : PVal) : (h.setX r p).chunkno = h.chunkno := by unfold Hart.setX; split <;> rfl
@[simp] theorem setX_latch (h : Hart) (r : Reg) (p : PVal) : (h.setX r p).latch = h.latch := by unfold Hart.setX; split <;> rfl
@[simp] theorem setX_wait (h : Hart) (r : Reg) (p : PVal) : (h.setX r p).wait = h.wait := by unfold Hart.setX; split <;> rfl
@[simp] theorem setX_yielded (h : Hart) (r : Reg) (p : PVal) : (h.setX r p).yielded = h.yielded := by unfold Hart.setX; split <;> rfl
@[simp] theorem setX_events (h : Hart) (r : Reg) (p : PVal) : (h.setX r p).events = h.events := by unfold Hart.setX; split <;> rfl
@[simp] theorem setX_decls (h : Hart) (r : Reg) (p : PVal) : (h.setX r p).decls = h.decls := by unfold Hart.setX; split <;> rfl
@[simp] theorem setX_forks (h : Hart) (r : Reg) (p : PVal) : (h.setX r p).forks = h.forks := by unfold Hart.setX; split <;> rfl
@[simp] theorem setV_live (h : Hart) (n e : Nat) (p : PVal) : (h.setV n e p).live = h.live := rfl
@[simp] theorem setV_engine (h : Hart) (n e : Nat) (p : PVal) : (h.setV n e p).engine = h.engine := rfl
@[simp] theorem setV_vecRole (h : Hart) (n e : Nat) (p : PVal) : (h.setV n e p).vecRole = h.vecRole := rfl
@[simp] theorem setV_stopped (h : Hart) (n e : Nat) (p : PVal) : (h.setV n e p).stopped = h.stopped := rfl
@[simp] theorem setV_retiring (h : Hart) (n e : Nat) (p : PVal) : (h.setV n e p).retiring = h.retiring := rfl
@[simp] theorem setV_pc (h : Hart) (n e : Nat) (p : PVal) : (h.setV n e p).pc = h.pc := rfl
@[simp] theorem setV_x (h : Hart) (n e : Nat) (p : PVal) : (h.setV n e p).x = h.x := rfl
@[simp] theorem setV_m (h : Hart) (n e : Nat) (p : PVal) : (h.setV n e p).m = h.m := rfl
@[simp] theorem setV_vl (h : Hart) (n e : Nat) (p : PVal) : (h.setV n e p).vl = h.vl := rfl
@[simp] theorem setV_lanes (h : Hart) (n e : Nat) (p : PVal) : (h.setV n e p).lanes = h.lanes := rfl
@[simp] theorem setV_queue (h : Hart) (n e : Nat) (p : PVal) : (h.setV n e p).queue = h.queue := rfl
@[simp] theorem setV_pendConvoy (h : Hart) (n e : Nat) (p : PVal) : (h.setV n e p).pendConvoy = h.pendConvoy := rfl
@[simp] theorem setV_fstat (h : Hart) (n e : Nat) (p : PVal) : (h.setV n e p).fstat = h.fstat := rfl
@[simp] theorem setV_vstat (h : Hart) (n e : Nat) (p : PVal) : (h.setV n e p).vstat = h.vstat := rfl
@[simp] theorem setV_hctl (h : Hart) (n e : Nat) (p : PVal) : (h.setV n e p).hctl = h.hctl := rfl
@[simp] theorem setV_rxwdog (h : Hart) (n e : Nat) (p : PVal) : (h.setV n e p).rxwdog = h.rxwdog := rfl
@[simp] theorem setV_rxCount (h : Hart) (n e : Nat) (p : PVal) : (h.setV n e p).rxCount = h.rxCount := rfl
@[simp] theorem setV_tcause (h : Hart) (n e : Nat) (p : PVal) : (h.setV n e p).tcause = h.tcause := rfl
@[simp] theorem setV_tpc (h : Hart) (n e : Nat) (p : PVal) : (h.setV n e p).tpc = h.tpc := rfl
@[simp] theorem setV_tqpos (h : Hart) (n e : Nat) (p : PVal) : (h.setV n e p).tqpos = h.tqpos := rfl
@[simp] theorem setV_telem (h : Hart) (n e : Nat) (p : PVal) : (h.setV n e p).telem = h.telem := rfl
@[simp] theorem setV_taddr (h : Hart) (n e : Nat) (p : PVal) : (h.setV n e p).taddr = h.taddr := rfl
@[simp] theorem setV_tval (h : Hart) (n e : Nat) (p : PVal) : (h.setV n e p).tval = h.tval := rfl
@[simp] theorem setV_tvec (h : Hart) (n e : Nat) (p : PVal) : (h.setV n e p).tvec = h.tvec := rfl
@[simp] theorem setV_priv (h : Hart) (n e : Nat) (p : PVal) : (h.setV n e p).priv = h.priv := rfl
@[simp] theorem setV_ppriv (h : Hart) (n e : Nat) (p : PVal) : (h.setV n e p).ppriv = h.ppriv := rfl
@[simp] theorem setV_route (h : Hart) (n e : Nat) (p : PVal) : (h.setV n e p).route = h.route := rfl
@[simp] theorem setV_spec (h : Hart) (n e : Nat) (p : PVal) : (h.setV n e p).spec = h.spec := rfl
@[simp] theorem setV_ctx (h : Hart) (n e : Nat) (p : PVal) : (h.setV n e p).ctx = h.ctx := rfl
@[simp] theorem setV_ringidx (h : Hart) (n e : Nat) (p : PVal) : (h.setV n e p).ringidx = h.ringidx := rfl
@[simp] theorem setV_chunkno (h : Hart) (n e : Nat) (p : PVal) : (h.setV n e p).chunkno = h.chunkno := rfl
@[simp] theorem setV_latch (h : Hart) (n e : Nat) (p : PVal) : (h.setV n e p).latch = h.latch := rfl
@[simp] theorem setV_wait (h : Hart) (n e : Nat) (p : PVal) : (h.setV n e p).wait = h.wait := rfl
@[simp] theorem setV_yielded (h : Hart) (n e : Nat) (p : PVal) : (h.setV n e p).yielded = h.yielded := rfl
@[simp] theorem setV_events (h : Hart) (n e : Nat) (p : PVal) : (h.setV n e p).events = h.events := rfl
@[simp] theorem setV_decls (h : Hart) (n e : Nat) (p : PVal) : (h.setV n e p).decls = h.decls := rfl
@[simp] theorem setV_forks (h : Hart) (n e : Nat) (p : PVal) : (h.setV n e p).forks = h.forks := rfl
@[simp] theorem setM_live (h : Hart) (n : Nat) (b : BitVec 128) : (h.setM n b).live = h.live := rfl
@[simp] theorem setM_engine (h : Hart) (n : Nat) (b : BitVec 128) : (h.setM n b).engine = h.engine := rfl
@[simp] theorem setM_vecRole (h : Hart) (n : Nat) (b : BitVec 128) : (h.setM n b).vecRole = h.vecRole := rfl
@[simp] theorem setM_stopped (h : Hart) (n : Nat) (b : BitVec 128) : (h.setM n b).stopped = h.stopped := rfl
@[simp] theorem setM_retiring (h : Hart) (n : Nat) (b : BitVec 128) : (h.setM n b).retiring = h.retiring := rfl
@[simp] theorem setM_pc (h : Hart) (n : Nat) (b : BitVec 128) : (h.setM n b).pc = h.pc := rfl
@[simp] theorem setM_x (h : Hart) (n : Nat) (b : BitVec 128) : (h.setM n b).x = h.x := rfl
@[simp] theorem setM_v (h : Hart) (n : Nat) (b : BitVec 128) : (h.setM n b).v = h.v := rfl
@[simp] theorem setM_vl (h : Hart) (n : Nat) (b : BitVec 128) : (h.setM n b).vl = h.vl := rfl
@[simp] theorem setM_lanes (h : Hart) (n : Nat) (b : BitVec 128) : (h.setM n b).lanes = h.lanes := rfl
@[simp] theorem setM_queue (h : Hart) (n : Nat) (b : BitVec 128) : (h.setM n b).queue = h.queue := rfl
@[simp] theorem setM_pendConvoy (h : Hart) (n : Nat) (b : BitVec 128) : (h.setM n b).pendConvoy = h.pendConvoy := rfl
@[simp] theorem setM_fstat (h : Hart) (n : Nat) (b : BitVec 128) : (h.setM n b).fstat = h.fstat := rfl
@[simp] theorem setM_vstat (h : Hart) (n : Nat) (b : BitVec 128) : (h.setM n b).vstat = h.vstat := rfl
@[simp] theorem setM_hctl (h : Hart) (n : Nat) (b : BitVec 128) : (h.setM n b).hctl = h.hctl := rfl
@[simp] theorem setM_rxwdog (h : Hart) (n : Nat) (b : BitVec 128) : (h.setM n b).rxwdog = h.rxwdog := rfl
@[simp] theorem setM_rxCount (h : Hart) (n : Nat) (b : BitVec 128) : (h.setM n b).rxCount = h.rxCount := rfl
@[simp] theorem setM_tcause (h : Hart) (n : Nat) (b : BitVec 128) : (h.setM n b).tcause = h.tcause := rfl
@[simp] theorem setM_tpc (h : Hart) (n : Nat) (b : BitVec 128) : (h.setM n b).tpc = h.tpc := rfl
@[simp] theorem setM_tqpos (h : Hart) (n : Nat) (b : BitVec 128) : (h.setM n b).tqpos = h.tqpos := rfl
@[simp] theorem setM_telem (h : Hart) (n : Nat) (b : BitVec 128) : (h.setM n b).telem = h.telem := rfl
@[simp] theorem setM_taddr (h : Hart) (n : Nat) (b : BitVec 128) : (h.setM n b).taddr = h.taddr := rfl
@[simp] theorem setM_tval (h : Hart) (n : Nat) (b : BitVec 128) : (h.setM n b).tval = h.tval := rfl
@[simp] theorem setM_tvec (h : Hart) (n : Nat) (b : BitVec 128) : (h.setM n b).tvec = h.tvec := rfl
@[simp] theorem setM_priv (h : Hart) (n : Nat) (b : BitVec 128) : (h.setM n b).priv = h.priv := rfl
@[simp] theorem setM_ppriv (h : Hart) (n : Nat) (b : BitVec 128) : (h.setM n b).ppriv = h.ppriv := rfl
@[simp] theorem setM_route (h : Hart) (n : Nat) (b : BitVec 128) : (h.setM n b).route = h.route := rfl
@[simp] theorem setM_spec (h : Hart) (n : Nat) (b : BitVec 128) : (h.setM n b).spec = h.spec := rfl
@[simp] theorem setM_ctx (h : Hart) (n : Nat) (b : BitVec 128) : (h.setM n b).ctx = h.ctx := rfl
@[simp] theorem setM_ringidx (h : Hart) (n : Nat) (b : BitVec 128) : (h.setM n b).ringidx = h.ringidx := rfl
@[simp] theorem setM_chunkno (h : Hart) (n : Nat) (b : BitVec 128) : (h.setM n b).chunkno = h.chunkno := rfl
@[simp] theorem setM_latch (h : Hart) (n : Nat) (b : BitVec 128) : (h.setM n b).latch = h.latch := rfl
@[simp] theorem setM_wait (h : Hart) (n : Nat) (b : BitVec 128) : (h.setM n b).wait = h.wait := rfl
@[simp] theorem setM_yielded (h : Hart) (n : Nat) (b : BitVec 128) : (h.setM n b).yielded = h.yielded := rfl
@[simp] theorem setM_events (h : Hart) (n : Nat) (b : BitVec 128) : (h.setM n b).events = h.events := rfl
@[simp] theorem setM_decls (h : Hart) (n : Nat) (b : BitVec 128) : (h.setM n b).decls = h.decls := rfl
@[simp] theorem setM_forks (h : Hart) (n : Nat) (b : BitVec 128) : (h.setM n b).forks = h.forks := rfl
@[simp] theorem raiseFlags_live (h : Hart) (f : Flags) : (h.raiseFlags f).live = h.live := rfl
@[simp] theorem raiseFlags_engine (h : Hart) (f : Flags) : (h.raiseFlags f).engine = h.engine := rfl
@[simp] theorem raiseFlags_vecRole (h : Hart) (f : Flags) : (h.raiseFlags f).vecRole = h.vecRole := rfl
@[simp] theorem raiseFlags_stopped (h : Hart) (f : Flags) : (h.raiseFlags f).stopped = h.stopped := rfl
@[simp] theorem raiseFlags_retiring (h : Hart) (f : Flags) : (h.raiseFlags f).retiring = h.retiring := rfl
@[simp] theorem raiseFlags_pc (h : Hart) (f : Flags) : (h.raiseFlags f).pc = h.pc := rfl
@[simp] theorem raiseFlags_x (h : Hart) (f : Flags) : (h.raiseFlags f).x = h.x := rfl
@[simp] theorem raiseFlags_v (h : Hart) (f : Flags) : (h.raiseFlags f).v = h.v := rfl
@[simp] theorem raiseFlags_m (h : Hart) (f : Flags) : (h.raiseFlags f).m = h.m := rfl
@[simp] theorem raiseFlags_vl (h : Hart) (f : Flags) : (h.raiseFlags f).vl = h.vl := rfl
@[simp] theorem raiseFlags_lanes (h : Hart) (f : Flags) : (h.raiseFlags f).lanes = h.lanes := rfl
@[simp] theorem raiseFlags_queue (h : Hart) (f : Flags) : (h.raiseFlags f).queue = h.queue := rfl
@[simp] theorem raiseFlags_pendConvoy (h : Hart) (f : Flags) : (h.raiseFlags f).pendConvoy = h.pendConvoy := rfl
@[simp] theorem raiseFlags_vstat (h : Hart) (f : Flags) : (h.raiseFlags f).vstat = h.vstat := rfl
@[simp] theorem raiseFlags_hctl (h : Hart) (f : Flags) : (h.raiseFlags f).hctl = h.hctl := rfl
@[simp] theorem raiseFlags_rxwdog (h : Hart) (f : Flags) : (h.raiseFlags f).rxwdog = h.rxwdog := rfl
@[simp] theorem raiseFlags_rxCount (h : Hart) (f : Flags) : (h.raiseFlags f).rxCount = h.rxCount := rfl
@[simp] theorem raiseFlags_tcause (h : Hart) (f : Flags) : (h.raiseFlags f).tcause = h.tcause := rfl
@[simp] theorem raiseFlags_tpc (h : Hart) (f : Flags) : (h.raiseFlags f).tpc = h.tpc := rfl
@[simp] theorem raiseFlags_tqpos (h : Hart) (f : Flags) : (h.raiseFlags f).tqpos = h.tqpos := rfl
@[simp] theorem raiseFlags_telem (h : Hart) (f : Flags) : (h.raiseFlags f).telem = h.telem := rfl
@[simp] theorem raiseFlags_taddr (h : Hart) (f : Flags) : (h.raiseFlags f).taddr = h.taddr := rfl
@[simp] theorem raiseFlags_tval (h : Hart) (f : Flags) : (h.raiseFlags f).tval = h.tval := rfl
@[simp] theorem raiseFlags_tvec (h : Hart) (f : Flags) : (h.raiseFlags f).tvec = h.tvec := rfl
@[simp] theorem raiseFlags_priv (h : Hart) (f : Flags) : (h.raiseFlags f).priv = h.priv := rfl
@[simp] theorem raiseFlags_ppriv (h : Hart) (f : Flags) : (h.raiseFlags f).ppriv = h.ppriv := rfl
@[simp] theorem raiseFlags_route (h : Hart) (f : Flags) : (h.raiseFlags f).route = h.route := rfl
@[simp] theorem raiseFlags_spec (h : Hart) (f : Flags) : (h.raiseFlags f).spec = h.spec := rfl
@[simp] theorem raiseFlags_ctx (h : Hart) (f : Flags) : (h.raiseFlags f).ctx = h.ctx := rfl
@[simp] theorem raiseFlags_ringidx (h : Hart) (f : Flags) : (h.raiseFlags f).ringidx = h.ringidx := rfl
@[simp] theorem raiseFlags_chunkno (h : Hart) (f : Flags) : (h.raiseFlags f).chunkno = h.chunkno := rfl
@[simp] theorem raiseFlags_latch (h : Hart) (f : Flags) : (h.raiseFlags f).latch = h.latch := rfl
@[simp] theorem raiseFlags_wait (h : Hart) (f : Flags) : (h.raiseFlags f).wait = h.wait := rfl
@[simp] theorem raiseFlags_yielded (h : Hart) (f : Flags) : (h.raiseFlags f).yielded = h.yielded := rfl
@[simp] theorem raiseFlags_events (h : Hart) (f : Flags) : (h.raiseFlags f).events = h.events := rfl
@[simp] theorem raiseFlags_decls (h : Hart) (f : Flags) : (h.raiseFlags f).decls = h.decls := rfl
@[simp] theorem raiseFlags_forks (h : Hart) (f : Flags) : (h.raiseFlags f).forks = h.forks := rfl
@[simp] theorem raiseV_live (h : Hart) (w : Word) : (h.raiseV w).live = h.live := rfl
@[simp] theorem raiseV_engine (h : Hart) (w : Word) : (h.raiseV w).engine = h.engine := rfl
@[simp] theorem raiseV_vecRole (h : Hart) (w : Word) : (h.raiseV w).vecRole = h.vecRole := rfl
@[simp] theorem raiseV_stopped (h : Hart) (w : Word) : (h.raiseV w).stopped = h.stopped := rfl
@[simp] theorem raiseV_retiring (h : Hart) (w : Word) : (h.raiseV w).retiring = h.retiring := rfl
@[simp] theorem raiseV_pc (h : Hart) (w : Word) : (h.raiseV w).pc = h.pc := rfl
@[simp] theorem raiseV_x (h : Hart) (w : Word) : (h.raiseV w).x = h.x := rfl
@[simp] theorem raiseV_v (h : Hart) (w : Word) : (h.raiseV w).v = h.v := rfl
@[simp] theorem raiseV_m (h : Hart) (w : Word) : (h.raiseV w).m = h.m := rfl
@[simp] theorem raiseV_vl (h : Hart) (w : Word) : (h.raiseV w).vl = h.vl := rfl
@[simp] theorem raiseV_lanes (h : Hart) (w : Word) : (h.raiseV w).lanes = h.lanes := rfl
@[simp] theorem raiseV_queue (h : Hart) (w : Word) : (h.raiseV w).queue = h.queue := rfl
@[simp] theorem raiseV_pendConvoy (h : Hart) (w : Word) : (h.raiseV w).pendConvoy = h.pendConvoy := rfl
@[simp] theorem raiseV_fstat (h : Hart) (w : Word) : (h.raiseV w).fstat = h.fstat := rfl
@[simp] theorem raiseV_hctl (h : Hart) (w : Word) : (h.raiseV w).hctl = h.hctl := rfl
@[simp] theorem raiseV_rxwdog (h : Hart) (w : Word) : (h.raiseV w).rxwdog = h.rxwdog := rfl
@[simp] theorem raiseV_rxCount (h : Hart) (w : Word) : (h.raiseV w).rxCount = h.rxCount := rfl
@[simp] theorem raiseV_tcause (h : Hart) (w : Word) : (h.raiseV w).tcause = h.tcause := rfl
@[simp] theorem raiseV_tpc (h : Hart) (w : Word) : (h.raiseV w).tpc = h.tpc := rfl
@[simp] theorem raiseV_tqpos (h : Hart) (w : Word) : (h.raiseV w).tqpos = h.tqpos := rfl
@[simp] theorem raiseV_telem (h : Hart) (w : Word) : (h.raiseV w).telem = h.telem := rfl
@[simp] theorem raiseV_taddr (h : Hart) (w : Word) : (h.raiseV w).taddr = h.taddr := rfl
@[simp] theorem raiseV_tval (h : Hart) (w : Word) : (h.raiseV w).tval = h.tval := rfl
@[simp] theorem raiseV_tvec (h : Hart) (w : Word) : (h.raiseV w).tvec = h.tvec := rfl
@[simp] theorem raiseV_priv (h : Hart) (w : Word) : (h.raiseV w).priv = h.priv := rfl
@[simp] theorem raiseV_ppriv (h : Hart) (w : Word) : (h.raiseV w).ppriv = h.ppriv := rfl
@[simp] theorem raiseV_route (h : Hart) (w : Word) : (h.raiseV w).route = h.route := rfl
@[simp] theorem raiseV_spec (h : Hart) (w : Word) : (h.raiseV w).spec = h.spec := rfl
@[simp] theorem raiseV_ctx (h : Hart) (w : Word) : (h.raiseV w).ctx = h.ctx := rfl
@[simp] theorem raiseV_ringidx (h : Hart) (w : Word) : (h.raiseV w).ringidx = h.ringidx := rfl
@[simp] theorem raiseV_chunkno (h : Hart) (w : Word) : (h.raiseV w).chunkno = h.chunkno := rfl
@[simp] theorem raiseV_latch (h : Hart) (w : Word) : (h.raiseV w).latch = h.latch := rfl
@[simp] theorem raiseV_wait (h : Hart) (w : Word) : (h.raiseV w).wait = h.wait := rfl
@[simp] theorem raiseV_yielded (h : Hart) (w : Word) : (h.raiseV w).yielded = h.yielded := rfl
@[simp] theorem raiseV_events (h : Hart) (w : Word) : (h.raiseV w).events = h.events := rfl
@[simp] theorem raiseV_decls (h : Hart) (w : Word) : (h.raiseV w).decls = h.decls := rfl
@[simp] theorem raiseV_forks (h : Hart) (w : Word) : (h.raiseV w).forks = h.forks := rfl

/-! ### Fields of the state -/

@[simp] theorem advance_pkgs (s : State) : (s.advance).pkgs = s.pkgs := rfl
@[simp] theorem advance_dies (s : State) : (s.advance).dies = s.dies := rfl
@[simp] theorem advance_rings (s : State) : (s.advance).rings = s.rings := rfl
@[simp] theorem advance_cores (s : State) : (s.advance).cores = s.cores := rfl
@[simp] theorem advance_mem (s : State) : (s.advance).mem = s.mem := rfl
@[simp] theorem advance_full (s : State) : (s.advance).full = s.full := rfl
@[simp] theorem advance_feWait (s : State) : (s.advance).feWait = s.feWait := rfl
@[simp] theorem advance_wires (s : State) : (s.advance).wires = s.wires := rfl
@[simp] theorem advance_migrations (s : State) : (s.advance).migrations = s.migrations := rfl
@[simp] theorem advance_dropped (s : State) : (s.advance).dropped = s.dropped := rfl
@[simp] theorem advance_cur (s : State) : (s.advance).cur = s.cur := rfl
@[simp] theorem advance_entry (s : State) : (s.advance).entry = s.entry := rfl
@[simp] theorem advance_byGroup (s : State) : (s.advance).byGroup = s.byGroup := rfl
@[simp] theorem advance_agenda (s : State) : (s.advance).agenda = s.agenda := rfl
@[simp] theorem advance_free (s : State) : (s.advance).free = s.free := rfl
@[simp] theorem stall_pkgs (s : State) (w : Wait) : (s.stall w).pkgs = s.pkgs := rfl
@[simp] theorem stall_dies (s : State) (w : Wait) : (s.stall w).dies = s.dies := rfl
@[simp] theorem stall_rings (s : State) (w : Wait) : (s.stall w).rings = s.rings := rfl
@[simp] theorem stall_cores (s : State) (w : Wait) : (s.stall w).cores = s.cores := rfl
@[simp] theorem stall_mem (s : State) (w : Wait) : (s.stall w).mem = s.mem := rfl
@[simp] theorem stall_full (s : State) (w : Wait) : (s.stall w).full = s.full := rfl
@[simp] theorem stall_feWait (s : State) (w : Wait) : (s.stall w).feWait = s.feWait := rfl
@[simp] theorem stall_wires (s : State) (w : Wait) : (s.stall w).wires = s.wires := rfl
@[simp] theorem stall_migrations (s : State) (w : Wait) : (s.stall w).migrations = s.migrations := rfl
@[simp] theorem stall_dropped (s : State) (w : Wait) : (s.stall w).dropped = s.dropped := rfl
@[simp] theorem stall_cur (s : State) (w : Wait) : (s.stall w).cur = s.cur := rfl
@[simp] theorem stall_entry (s : State) (w : Wait) : (s.stall w).entry = s.entry := rfl
@[simp] theorem stall_byGroup (s : State) (w : Wait) : (s.stall w).byGroup = s.byGroup := rfl
@[simp] theorem stall_agenda (s : State) (w : Wait) : (s.stall w).agenda = s.agenda := rfl
@[simp] theorem stall_free (s : State) (w : Wait) : (s.stall w).free = s.free := rfl
@[simp] theorem modEntry_pkgs (s : State) (f : Entry → Entry) : (s.modEntry f).pkgs = s.pkgs := rfl
@[simp] theorem modEntry_dies (s : State) (f : Entry → Entry) : (s.modEntry f).dies = s.dies := rfl
@[simp] theorem modEntry_rings (s : State) (f : Entry → Entry) : (s.modEntry f).rings = s.rings := rfl
@[simp] theorem modEntry_cores (s : State) (f : Entry → Entry) : (s.modEntry f).cores = s.cores := rfl
@[simp] theorem modEntry_mem (s : State) (f : Entry → Entry) : (s.modEntry f).mem = s.mem := rfl
@[simp] theorem modEntry_full (s : State) (f : Entry → Entry) : (s.modEntry f).full = s.full := rfl
@[simp] theorem modEntry_feWait (s : State) (f : Entry → Entry) : (s.modEntry f).feWait = s.feWait := rfl
@[simp] theorem modEntry_wires (s : State) (f : Entry → Entry) : (s.modEntry f).wires = s.wires := rfl
@[simp] theorem modEntry_migrations (s : State) (f : Entry → Entry) : (s.modEntry f).migrations = s.migrations := rfl
@[simp] theorem modEntry_dropped (s : State) (f : Entry → Entry) : (s.modEntry f).dropped = s.dropped := rfl
@[simp] theorem modEntry_cur (s : State) (f : Entry → Entry) : (s.modEntry f).cur = s.cur := rfl
@[simp] theorem modEntry_entry (s : State) (f : Entry → Entry) : (s.modEntry f).entry = s.entry := rfl
@[simp] theorem modEntry_byGroup (s : State) (f : Entry → Entry) : (s.modEntry f).byGroup = s.byGroup := rfl
@[simp] theorem modEntry_agenda (s : State) (f : Entry → Entry) : (s.modEntry f).agenda = s.agenda := rfl
@[simp] theorem modEntry_free (s : State) (f : Entry → Entry) : (s.modEntry f).free = s.free := rfl
@[simp] theorem complete_pkgs (s : State) : (s.complete).pkgs = s.pkgs := rfl
@[simp] theorem complete_dies (s : State) : (s.complete).dies = s.dies := rfl
@[simp] theorem complete_rings (s : State) : (s.complete).rings = s.rings := rfl
@[simp] theorem complete_cores (s : State) : (s.complete).cores = s.cores := rfl
@[simp] theorem complete_mem (s : State) : (s.complete).mem = s.mem := rfl
@[simp] theorem complete_full (s : State) : (s.complete).full = s.full := rfl
@[simp] theorem complete_feWait (s : State) : (s.complete).feWait = s.feWait := rfl
@[simp] theorem complete_wires (s : State) : (s.complete).wires = s.wires := rfl
@[simp] theorem complete_migrations (s : State) : (s.complete).migrations = s.migrations := rfl
@[simp] theorem complete_dropped (s : State) : (s.complete).dropped = s.dropped := rfl
@[simp] theorem complete_cur (s : State) : (s.complete).cur = s.cur := rfl
@[simp] theorem complete_entry (s : State) : (s.complete).entry = s.entry := rfl
@[simp] theorem complete_byGroup (s : State) : (s.complete).byGroup = s.byGroup := rfl
@[simp] theorem complete_agenda (s : State) : (s.complete).agenda = s.agenda := rfl
@[simp] theorem complete_free (s : State) : (s.complete).free = s.free := rfl
@[simp] theorem waitAt_pkgs (s : State) (e : Nat) : (s.waitAt e).pkgs = s.pkgs := rfl
@[simp] theorem waitAt_dies (s : State) (e : Nat) : (s.waitAt e).dies = s.dies := rfl
@[simp] theorem waitAt_rings (s : State) (e : Nat) : (s.waitAt e).rings = s.rings := rfl
@[simp] theorem waitAt_cores (s : State) (e : Nat) : (s.waitAt e).cores = s.cores := rfl
@[simp] theorem waitAt_mem (s : State) (e : Nat) : (s.waitAt e).mem = s.mem := rfl
@[simp] theorem waitAt_full (s : State) (e : Nat) : (s.waitAt e).full = s.full := rfl
@[simp] theorem waitAt_feWait (s : State) (e : Nat) : (s.waitAt e).feWait = s.feWait := rfl
@[simp] theorem waitAt_wires (s : State) (e : Nat) : (s.waitAt e).wires = s.wires := rfl
@[simp] theorem waitAt_migrations (s : State) (e : Nat) : (s.waitAt e).migrations = s.migrations := rfl
@[simp] theorem waitAt_dropped (s : State) (e : Nat) : (s.waitAt e).dropped = s.dropped := rfl
@[simp] theorem waitAt_cur (s : State) (e : Nat) : (s.waitAt e).cur = s.cur := rfl
@[simp] theorem waitAt_entry (s : State) (e : Nat) : (s.waitAt e).entry = s.entry := rfl
@[simp] theorem waitAt_byGroup (s : State) (e : Nat) : (s.waitAt e).byGroup = s.byGroup := rfl
@[simp] theorem waitAt_agenda (s : State) (e : Nat) : (s.waitAt e).agenda = s.agenda := rfl
@[simp] theorem waitAt_free (s : State) (e : Nat) : (s.waitAt e).free = s.free := rfl
@[simp] theorem retire_pkgs (s : State) : (s.retire).pkgs = s.pkgs := rfl
@[simp] theorem retire_dies (s : State) : (s.retire).dies = s.dies := rfl
@[simp] theorem retire_rings (s : State) : (s.retire).rings = s.rings := rfl
@[simp] theorem retire_cores (s : State) : (s.retire).cores = s.cores := rfl
@[simp] theorem retire_mem (s : State) : (s.retire).mem = s.mem := rfl
@[simp] theorem retire_full (s : State) : (s.retire).full = s.full := rfl
@[simp] theorem retire_feWait (s : State) : (s.retire).feWait = s.feWait := rfl
@[simp] theorem retire_wires (s : State) : (s.retire).wires = s.wires := rfl
@[simp] theorem retire_migrations (s : State) : (s.retire).migrations = s.migrations := rfl
@[simp] theorem retire_dropped (s : State) : (s.retire).dropped = s.dropped := rfl
@[simp] theorem retire_cur (s : State) : (s.retire).cur = s.cur := rfl
@[simp] theorem retire_entry (s : State) : (s.retire).entry = s.entry := rfl
@[simp] theorem retire_byGroup (s : State) : (s.retire).byGroup = s.byGroup := rfl
@[simp] theorem retire_agenda (s : State) : (s.retire).agenda = s.agenda := rfl
@[simp] theorem retire_free (s : State) : (s.retire).free = s.free := rfl
@[simp] theorem result_pkgs (s : State) (d : Reg) (p : PVal) : (s.result d p).pkgs = s.pkgs := rfl
@[simp] theorem result_dies (s : State) (d : Reg) (p : PVal) : (s.result d p).dies = s.dies := rfl
@[simp] theorem result_rings (s : State) (d : Reg) (p : PVal) : (s.result d p).rings = s.rings := rfl
@[simp] theorem result_cores (s : State) (d : Reg) (p : PVal) : (s.result d p).cores = s.cores := rfl
@[simp] theorem result_mem (s : State) (d : Reg) (p : PVal) : (s.result d p).mem = s.mem := rfl
@[simp] theorem result_full (s : State) (d : Reg) (p : PVal) : (s.result d p).full = s.full := rfl
@[simp] theorem result_feWait (s : State) (d : Reg) (p : PVal) : (s.result d p).feWait = s.feWait := rfl
@[simp] theorem result_wires (s : State) (d : Reg) (p : PVal) : (s.result d p).wires = s.wires := rfl
@[simp] theorem result_migrations (s : State) (d : Reg) (p : PVal) : (s.result d p).migrations = s.migrations := rfl
@[simp] theorem result_dropped (s : State) (d : Reg) (p : PVal) : (s.result d p).dropped = s.dropped := rfl
@[simp] theorem result_cur (s : State) (d : Reg) (p : PVal) : (s.result d p).cur = s.cur := rfl
@[simp] theorem result_entry (s : State) (d : Reg) (p : PVal) : (s.result d p).entry = s.entry := rfl
@[simp] theorem result_byGroup (s : State) (d : Reg) (p : PVal) : (s.result d p).byGroup = s.byGroup := rfl
@[simp] theorem result_agenda (s : State) (d : Reg) (p : PVal) : (s.result d p).agenda = s.agenda := rfl
@[simp] theorem result_free (s : State) (d : Reg) (p : PVal) : (s.result d p).free = s.free := rfl
@[simp] theorem completeX_pkgs (s : State) (d : VReg) (p : PVal) : (s.completeX d p).pkgs = s.pkgs := rfl
@[simp] theorem completeX_dies (s : State) (d : VReg) (p : PVal) : (s.completeX d p).dies = s.dies := rfl
@[simp] theorem completeX_rings (s : State) (d : VReg) (p : PVal) : (s.completeX d p).rings = s.rings := rfl
@[simp] theorem completeX_cores (s : State) (d : VReg) (p : PVal) : (s.completeX d p).cores = s.cores := rfl
@[simp] theorem completeX_mem (s : State) (d : VReg) (p : PVal) : (s.completeX d p).mem = s.mem := rfl
@[simp] theorem completeX_full (s : State) (d : VReg) (p : PVal) : (s.completeX d p).full = s.full := rfl
@[simp] theorem completeX_feWait (s : State) (d : VReg) (p : PVal) : (s.completeX d p).feWait = s.feWait := rfl
@[simp] theorem completeX_wires (s : State) (d : VReg) (p : PVal) : (s.completeX d p).wires = s.wires := rfl
@[simp] theorem completeX_migrations (s : State) (d : VReg) (p : PVal) : (s.completeX d p).migrations = s.migrations := rfl
@[simp] theorem completeX_dropped (s : State) (d : VReg) (p : PVal) : (s.completeX d p).dropped = s.dropped := rfl
@[simp] theorem completeX_cur (s : State) (d : VReg) (p : PVal) : (s.completeX d p).cur = s.cur := rfl
@[simp] theorem completeX_entry (s : State) (d : VReg) (p : PVal) : (s.completeX d p).entry = s.entry := rfl
@[simp] theorem completeX_byGroup (s : State) (d : VReg) (p : PVal) : (s.completeX d p).byGroup = s.byGroup := rfl
@[simp] theorem completeX_agenda (s : State) (d : VReg) (p : PVal) : (s.completeX d p).agenda = s.agenda := rfl
@[simp] theorem completeX_free (s : State) (d : VReg) (p : PVal) : (s.completeX d p).free = s.free := rfl

end Sys2Proof.Machine
end

