-- ==== Sys2Proof/Tests/Slice0.lean ====
section
/-! SUPPORT. The model's own tests. The decoding tests take their words from the spec: its worked encodings, and words written out
from its layouts (R44 to R51), major or operation first. Then ill-formed terms, one for each check of well-formedness; single
steps whose results the spec states; and, for the hypotheses of the statements, states and operands that meet them. -/

namespace Sys2Proof.Tests

open Sys2Proof.Machine

/-! ### Decoding -/

/-- What the decoder reads in a scalar word. -/
abbrev word (w : IWord) : Option Instr := (decodeWord w).toOption
/-- What the decoder reads in a member. -/
abbrev member (w : Word) : Option Instr := (decodeMember w).toOption

/-- Words worked out in the spec (R45, R46, R54). -/
theorem test_decode_integer :
    word 0x04A63800 = some (.add 5 6 7) ∧ word 0x28826010 = some (.ld 4 2 16) ∧
    word 0x1D29023F = some (.srai 9 9 63) ∧ word 0x34649FF0 = some (.bltu 3 4 0x1FF0) := by decide

/-- Register-register and bit counts: major 0x01, code in bits 10:0 (R70). -/
theorem test_decode_register :
    word (1#6 ++ 1#5 ++ 2#5 ++ 3#5 ++ 13#11) = some (.div 1 2 3) ∧
    word (1#6 ++ 1#5 ++ 2#5 ++ 0#5 ++ 23#11) = some (.popc 1 2) ∧
    word (1#6 ++ 1#5 ++ 2#5 ++ 3#5 ++ 23#11) = none ∧
    word (1#6 ++ 1#5 ++ 2#5 ++ 3#5 ++ 24#11) = none := by decide

/-- Immediates, upper immediates and jumps (R72, R74). -/
theorem test_decode_immediate :
    word (2#6 ++ 1#5 ++ 2#5 ++ 0x8001#16) = some (.addi 1 2 0x8001) ∧
    word (8#6 ++ 1#5 ++ 0x100002#21) = some (.lui 1 0x100002) ∧
    word (14#6 ++ 1#5 ++ 3#21) = some (.jal 1 3) ∧
    word (15#6 ++ 1#5 ++ 2#5 ++ 4#16) = some (.jalr 1 2 4) := by decide

/-- Loads, stores, atomics, full/empty (R75, R78, R167). -/
theorem test_decode_memory :
    word (10#6 ++ 1#5 ++ 2#5 ++ 6#3 ++ 5#13) = some (.lwu 1 2 5) ∧
    word (11#6 ++ 1#5 ++ 2#5 ++ 1#3 ++ 5#13) = some (.sh 1 2 5) ∧
    word 0x30A732B3 = some (.amoadd 5 7 6 .aq .g .d) ∧ word 0x48A62010 = some (.ldfeKeep 5 6 16) ∧
    word 0x48A64010 = some (.ldfeClr 5 6 16) ∧ word 0x48E67FF8 = some (.stfe 7 6 0x1FF8) := by decide

/-- Scalar floating point, system registers and functions (R46, R48, R79). -/
theorem test_decode_system :
    word 0x40221990 = some (.fadd 1 2 3 .rtz .f32) ∧ word 0x44A00008 = some (.sysr 5 8) ∧
    word 0x4400FF00 = some .ecall ∧ word 0x4400FF02 = some .tret ∧ word 0x4400FF05 = some .halt := by decide

/-- Fences, messages, engines and solver words (R169, R176, R182, R198, R227). -/
theorem test_decode_engines :
    word 0x48000002 = some (.fence .sv .g) ∧ word 0x4800000B = some (.fence .vs .d) ∧
    word 0x4800001C = some (.fence .all .p) ∧ word 0x4C055130 = some (.send 5 10 .g 3) ∧
    word 0x4CE00001 = some (.recv 7) ∧ word 0x4C053002 = some (.htset 5 6) ∧ word 0x4C000003 = some .msgret ∧
    word 0x54084801 = some (.barinit 8 9) ∧ word 0x54085003 = some (.barwt 8 10) ∧ word 0x540A0000 = some (.cpy 10) ∧
    word 0x54E00005 = some (.mgstat 7) ∧ word 0x580A5800 = some (.svbegin 10 11 0) ∧
    word 0x58A63822 = some (.svchk 5 6 7 2) ∧ word 0x60A60002 = some (.odrain 5 6) := by decide

/-- Words the spec calls illegal (R54, R169, R198, R236, R317). -/
theorem test_decode_refuses :
    word 0 = none ∧ word 0x68000000 = none ∧ word 0x5428_5003 = none ∧ word 0x58A63862 = none ∧ word 0x4CE10001 = none ∧ word 0x60A60802 = none ∧ word 0x4400FF09 = none := by decide

/-- Headers and members (R49, R50; the worked encodings of vector arithmetic, vector memory and the matrix unit). -/
theorem test_decode_members :
    word 0xFD060000 = some (.convoy 2 0x03000 0 false) ∧
    member 0x00040000F9020000 = some
      (.vld { vd := 1, vs1 := 0, vs2 := 0, vs3 := 0, mask := 15, ty := .f32, z := false, rm := .rne, x := 4, low := 0 }) ∧
    member 0x01080000_1902FFFD = some
      (.vlds { vd := 2, vs1 := 0, vs2 := 0, vs3 := 0, mask := 1, ty := .f32, z := false, rm := .rne, x := 5, low := 0x7FFD }) ∧
    member 0x600C108029F00000 = some
      (.vfadd { vd := 3, vs1 := 1, vs2 := 2, vs3 := 0, mask := 2, ty := .f32, z := true, rm := .dyn, x := 0, low := 0 }) ∧
    member 0x67182000FA440109 = some
      (.vcvts { vd := 6, vs1 := 2, vs2 := 0, vs3 := 0, mask := 15, ty := .bf16, z := false, rm := .stoch, x := 8, low := 0x109 }) ∧
    member 0xA304_2C00_FA00_0000 = some
      (.mxacc { vd := 1, vs1 := 2, vs2 := 48, vs3 := 0, mask := 15, ty := .bf16, z := false, rm := .rne, x := 0, low := 0 }) ∧
    member 0xA60C_0001_F900_0045 = some
      (.mxout { vd := 3, vs1 := 0, vs2 := 0, vs3 := 1, mask := 15, ty := .f32, z := false, rm := .rne, x := 0, low := 0x45 }) := by
  decide

/-- Members the spec calls illegal. -/
theorem test_decode_member_refuses :
    member 0x67182000FA040109 = none ∧ member 0x4B044000F403E200 = none ∧ member 0x4B044000F403A600 = none ∧ member 0xA3042C00FA700000 = none ∧ member 0xA71C0002FA000001 = none := by decide

/-! ### Well-formedness -/

/-- A legal `vadd`-shaped operand record. -/
abbrev opV : VOp := { vd := 1, vs1 := 2, vs2 := 3, vs3 := 0, mask := 15, ty := .s64, z := false, rm := .rne, x := 0, low := 0 }

/-- The checks of the scalar instructions refuse an ill-formed term each. -/
theorem test_wf_scalar :
    Instr.wf (.fadd 1 2 3 .rne .s32) = false ∧ Instr.wf (.fadd 1 2 3 .stoch .f32) = false ∧ Instr.wf (.fcmp 1 2 3 .eq .n8) = false ∧
    Instr.wf (.fcvt 1 2 .e2m1 .rne .f32) = false ∧ Instr.wf (.fcvt 1 2 .s32 .rtz .s64) = false ∧ Instr.wf (.sysr 0 8) = false ∧
    Instr.wf (.sysw 1 0xFF01) = false ∧ Instr.wf (.sysw 1 0x30) = false ∧ Instr.wf (.sysx 1 0 0x14) = false ∧
    Instr.wf (.ctxctlWrite 1 0) = false ∧ Instr.wf (.fdeclVlive 48) = false ∧ Instr.wf (.hintNoOp 0) = false := by decide

/-- The checks of register fields and of fields an instruction does not use. -/
theorem test_wf_fields :
    Instr.wf (.vadd opV) = true ∧ Instr.wf (.vadd { opV with vd := 48 }) = false ∧ Instr.wf (.vadd { opV with vs1 := 50 }) = false ∧
    Instr.wf (.vadd { opV with vs3 := 1 }) = false ∧ Instr.wf (.vadd { opV with x := 1 }) = false ∧
    Instr.wf (.vadd { opV with ty := .f32 }) = false ∧ Instr.wf (.vadd { opV with mask := 12 }) = false ∧
    Instr.wf (.vadd { opV with z := true }) = false ∧ Instr.wf (.vadd { opV with rm := .rtz }) = false ∧
    Instr.wf (.vadd { opV with low := 0x6000 }) = false ∧ Instr.wf (.vadd { opV with low := 1 }) = false ∧
    Instr.wf (.vadd { opV with vs1 := 49, vs2 := 49 }) = false ∧ Instr.wf (.vand { opV with low := 0x1000 }) = false ∧
    Instr.wf (.vst { opV with vd := 1 }) = false ∧ Instr.wf (.vldx { opV with vs1 := 48, vs2 := 0, low := 6 }) = false ∧
    Instr.wf (.mand { opV with vs1 := 12, ty := .s8 }) = false ∧ Instr.wf (.mpop { opV with vd := 32, vs2 := 0, ty := .s8 }) = false ∧
    Instr.wf (.mzero { opV with vd := 4, vs1 := 0, vs2 := 0, ty := .s8 }) = false ∧
    Instr.wf (.mxin { opV with vs1 := 49, vs2 := 0, ty := .f32 }) = false := by decide

/-- The checks of types, forms and low fields. -/
theorem test_wf_forms :
    Instr.wf (.vabs { opV with vs2 := 0, ty := .n8 }) = false ∧ Instr.wf (.vcmp { opV with low := 0x700 }) = false ∧
    Instr.wf (.vcmp { opV with low := 0x600 }) = false ∧ Instr.wf (.vfadd { opV with ty := .f32, rm := .stoch }) = false ∧
    Instr.wf (.vfadd { opV with ty := .f32, low := 0x4000, vs2 := 0 }) = false ∧ Instr.wf (.vfma { opV with ty := .f32, low := 1 }) = false ∧
    Instr.wf (.vcvt { opV with vs2 := 0, low := 15 }) = false ∧ Instr.wf (.vcvt { opV with ty := .e2m1, low := 6 }) = false ∧
    Instr.wf (.vcvt { opV with ty := .f32, vs2 := 0, low := 0x208 }) = false ∧
    Instr.wf (.vcvts { opV with ty := .f64, rm := .stoch, vs2 := 0, low := 9 }) = false ∧
    Instr.wf (.vmvxs { opV with vs2 := 0, low := 128 }) = false ∧ Instr.wf (.vldt { opV with vs2 := 0, low := 4 }) = false ∧
    Instr.wf (.vldt { opV with vs2 := 0, ty := .e2m1 }) = false ∧ Instr.wf (.vldx { opV with vs2 := 0, low := 8 }) = false ∧
    Instr.wf (.vsfu { opV with vs2 := 0, ty := .f32, low := 8 }) = false ∧ Instr.wf (.setvl { opV with vs1 := 0, vs2 := 0 }) = false ∧
    Instr.wf (.msetml { opV with vd := 0, vs1 := 0, vs2 := 0, ty := .n16 }) = false ∧
    Instr.wf (.mxout { opV with vs1 := 0, vs2 := 0, ty := .s64 }) = false := by decide

/-! ### States for the hypotheses -/

/-- A live user hart with a few registers: x1 = 5, x2 = 7, x3 poisoned, x4 = 2^63, x5 all ones, x6 a TCM address, x7 outside every page. -/
abbrev someHart : Hart :=
  { Hart.empty with
    live := true, pc := 0x1000, tvec := 0x2000
    x := [(1, PVal.clean 5), (2, PVal.clean 7), (3, PVal.poisoned), (4, PVal.clean 0x8000000000000000),
      (5, PVal.clean 0xFFFFFFFFFFFFFFFF), (6, PVal.clean 0xFF0000000100), (7, PVal.clean 0x10000)] }

/-- The machine with one hart in slot 0 of core 0, and nothing else. -/
abbrev on0 (h : Hart) : State := { State.reset with harts := [(0, h)] }

/-- The machine with the hart above. -/
abbrev s0 : State := on0 someHart

/-- The locations of `n` bytes of core 0's TCM from 0x100 on. -/
abbrev tcmBytes (n : Nat) : List Nat := (List.range n).map (fun i => 2 ^ 60 + 0x100 + i)

theorem noForks_reset (h : Hart) : (on0 h).NoForks := fun _ => rfl

set_option maxRecDepth 20000 in
/-- TCM bytes are reached at once. -/
theorem reaches_tcm (n kind : Nat) (hn : n ∈ [1, 2, 4, 8, 16, 64, 128, 192, 256]) (hk : kind ∈ [0, 1, 3]) :
    s0.Reaches 0xFF0000000100 n kind (tcmBytes n) := by
  simp only [List.mem_cons, List.not_mem_nil, or_false] at hn hk
  rcases hn with rfl | rfl | rfl | rfl | rfl | rfl | rfl | rfl | rfl <;> rcases hk with rfl | rfl | rfl <;>
    exact ⟨⟨fun _ => .home, rfl, fun _ => Holder.noConfusion⟩, ⟨rfl, fun _ => ⟨_, rfl⟩⟩, by decide, by decide, ⟨noForks_reset _, rfl⟩, fun _ => rfl⟩

/-! ### Hypotheses: scalar instructions -/

theorem test_hyp_integer : (∀ p ∈ registerTable, s0.Unheld (p.1 1 2 5)) ∧ ∀ p ∈ divisionTable, s0.Unheld (p.1 1 4 5) := by
  unfold State.Unheld; decide

theorem test_hyp_bitCount : s0.Unheld (.clz 1 4) ∧ s0.Unheld (.ctz 1 4) ∧ s0.Unheld (.popc 0 5) := by
  unfold State.Unheld; decide

theorem test_hyp_immediate :
    s0.Unheld (.addi 1 2 0x8000) ∧ s0.Unheld (.andi 1 2 0xFFFF) ∧ s0.Unheld (.ori 0 2 1) ∧ s0.Unheld (.xori 1 3 1) ∧
    s0.Unheld (.slti 1 2 7) ∧ s0.Unheld (.slli 1 2 63) ∧ s0.Unheld (.srli 1 2 63) ∧ s0.Unheld (.srai 1 4 63) ∧
    s0.Unheld (.lui 1 0x100000) ∧ s0.Unheld (.auipc 1 0x1FFFFF) := by
  unfold State.Unheld; decide

/-- A branch taken, one not taken, one with a poisoned operand, one whose target passes bit 47, and one at a pc that is no multiple of 4. -/
theorem test_hyp_branch :
    (∀ p ∈ branchTable, s0.hold (p.1 1 2 4) = none) ∧ (s0.getX 1).poison = false ∧ (s0.getX 3).poison = true ∧
    (s0.getX 1).val = (s0.getX 1).val ∧ (s0.getX 1).val ≠ (s0.getX 2).val ∧
    (s0.me.pc + BitVec.ofInt 64 ((0x1FFF : BitVec 13).toInt * 4)).toNat = 0xFFC ∧
    (let t := on0 { someHart with pc := 0xFFFFFFFFFFFC }
     t.hold (.beq 1 1 1) = none ∧ (t.me.pc + BitVec.ofInt 64 ((1 : BitVec 13).toInt * 4)).toNat = 2 ^ 48) ∧
    (let t := on0 { someHart with pc := 0x1001 }
     t.hold (.beq 1 1 1) = none ∧ (t.me.pc + BitVec.ofInt 64 ((1 : BitVec 13).toInt * 4)).toNat % 4 = 1) ∧
    ((0x34000000#32 ||| 0xC000#32).extractLsb' 26 6).toNat = 0x0D ∧ 6 ≤ ((0x34000000#32 ||| 0xC000#32).extractLsb' 13 3).toNat := by
  decide

theorem test_hyp_jump :
    s0.hold (.jal 1 3) = none ∧ (s0.me.pc + BitVec.ofInt 64 ((3 : BitVec 21).toInt * 4)).toNat = 0x100C ∧
    s0.hold (.jalr 7 7 0) = none ∧ (s0.getX 7).poison = false ∧ ((s0.getX 7).val + (0 : BitVec 16).signExtend 64).toNat % 4 = 0 ∧
    ((s0.getX 7).val + (0xFFFF : BitVec 16).signExtend 64).toNat % 4 = 3 ∧
    2 ^ 48 ≤ ((s0.getX 4).val + (0 : BitVec 16).signExtend 64).toNat ∧ s0.hold (.jalr 7 3 0) = none ∧ (s0.getX 3).poison = true := by
  decide

theorem test_hyp_load : ∀ p ∈ loadTable, s0.hold (p.1 1 6 0) = none ∧ (s0.getX 6).poison = false ∧
    s0.Reaches ((s0.getX 6).val + (0 : BitVec 13).signExtend 64).toNat p.2.1 kLoad (tcmBytes p.2.1) := by
  intro p hp
  simp only [loadTable, List.mem_cons, List.not_mem_nil, or_false] at hp
  rcases hp with rfl | rfl | rfl | rfl | rfl | rfl | rfl <;> exact ⟨by decide, by decide, reaches_tcm _ 0 (by decide) (by decide)⟩

theorem test_hyp_store : ∀ p ∈ storeTable, s0.hold (p.1 3 6 0) = none ∧ (s0.getX 6).poison = false ∧
    s0.Reaches ((s0.getX 6).val + (0 : BitVec 13).signExtend 64).toNat p.2 kStore (tcmBytes p.2) := by
  intro p hp
  simp only [storeTable, List.mem_cons, List.not_mem_nil, or_false] at hp
  rcases hp with rfl | rfl | rfl | rfl <;> exact ⟨by decide, by decide, reaches_tcm _ 1 (by decide) (by decide)⟩

/-- A load from a page of no resident context, and a store through a poisoned base. -/
theorem test_hyp_fault :
    (∀ p ∈ loadTable, s0.hold (p.1 1 7 0) = none ∧ s0.hold (p.1 1 3 0) = none) ∧ (s0.getX 3).poison = true ∧ (s0.getX 7).poison = false ∧
    (s0.places (s0.agentOf 0) (s0.heldPins (.scalar 0 0)) kLoad 0x10000 8).ans = .error { cause := cPageAbsent, addr := 0x10000 } ∧
    (∀ p ∈ storeTable, s0.hold (p.1 1 7 0) = none) ∧
    (s0.places (s0.agentOf 0) (s0.heldPins (.scalar 0 0)) kStore 0x10000 8).ans = .error { cause := cPageAbsent, addr := 0x10000 } := by
  exact ⟨by decide, by decide, by decide, rfl, by decide, rfl⟩

/-- An atomic on an aligned doubleword: empty, and with its word marked; a `cas` that finds its value and one that does not. -/
theorem test_hyp_atomic :
    (∀ p ∈ atomicTable, s0.hold (p.1 1 6 2 .relaxed .s .d) = none) ∧ s0.hold (.cas 0 6 2 .ar .c .w) = none ∧
    s0.hold (.ldaq 1 6 .g .d) = none ∧ s0.hold (.strl 6 2 .g .w) = none ∧ (s0.getX 6).poison = false ∧
    (s0.getX 6).val.toNat % amoBytes .d = 0 ∧ s0.Reaches (s0.getX 6).val.toNat 8 kAtomic (tcmBytes 8) ∧
    s0.Reaches (s0.getX 6).val.toNat 4 kAtomic (tcmBytes 4) ∧ (tcmBytes 8).any s0.mem.marked = false ∧
    s0.mem.numAt (tcmBytes 4) = (s0.getX 0).val.toNat % 2 ^ 32 ∧ s0.mem.numAt (tcmBytes 4) ≠ (s0.getX 1).val.toNat % 2 ^ 32 ∧
    (tcmBytes 8).any ({ s0 with mem := { cells := [], marks := [(2 ^ 60 + 0x100) / 8] } } : State).mem.marked = true := by
  exact ⟨by decide, by decide, by decide, by decide, by decide, by decide, reaches_tcm 8 3 (by decide) (by decide),
    reaches_tcm 4 3 (by decide) (by decide), by decide, by decide, by decide, by decide⟩

theorem test_hyp_atomicChecks :
    s0.hold (.cas 3 6 2 .ar .c .w) = none ∧ (s0.getX 3).poison = true ∧ s0.hold (.ldaq 1 3 .g .d) = none ∧
    s0.hold (.strl 2 1 .g .w) = none ∧ (s0.getX 2).val.toNat % amoBytes .w ≠ 0 ∧ (s0.getX 6).val.toNat % amoBytes .w = 0 := by
  decide

set_option maxRecDepth 20000 in
/-- FP32 operands 1.0 and 2.0: an exact sum, a quotient that is inexact with NX enabled and with nothing enabled, and a poisoned operand. -/
theorem test_hyp_floatingPoint :
    let s := on0 { someHart with x := [(1, PVal.clean 0x3F800000), (2, PVal.clean 0x40000000), (3, PVal.poisoned), (4, PVal.clean 0x40400000)] }
    let t := on0 { s.me with fstat := 0x200 }
    (∀ p ∈ fpTable s 1 1 2 .rne .f32 .f32 .eq, s.Unheld p.1 ∧ p.2.1.any (·.poison) = false ∧ p.2.2.2 &&& s.me.ten = 0) ∧
    (∃ p ∈ fpTable t 1 1 4 .rne .f32 .f32 .eq, t.Unheld p.1 ∧ p.2.1.any (·.poison) = false ∧ p.2.2.2 &&& t.me.ten ≠ 0) ∧
    (∀ p ∈ fpTable s 1 3 2 .rne .f32 .f32 .eq, s.Unheld p.1 ∧ p.2.1.any (·.poison) = true) := by
  unfold State.Unheld; decide

theorem test_hyp_rounding : Ty.isInt .e4m3 = false ∧ 0x81 < 2 ^ Ty.width .e4m3 ∧ unpack .e4m3 0x81 = .fin true 1 (-9) := by decide

/-! ### Hypotheses: the system -/

theorem test_hyp_systemAccess :
    s0.hold (.sysr 1 8) = none ∧ s0.mayNow 8 true ∧ s0.sysRead 0 8 = some 0 ∧ s0.mayNow 0x10 true ∧ s0.mayNow 0x60 true ∧
    s0.sysRead 0 0x60 = some 0 ∧ s0.hold (.svbufWrite 1 2 0) = none ∧ (s0.getX 2).poison = false ∧ s0.mayWrite 0x60 7 ∧
    s0.mayWrite 0x13 16 ∧ ¬ s0.mayWrite 0x13 15 ∧ ¬ s0.mayWrite 0x50 1 := by
  refine ⟨?_, ?_, ?_, ?_, ?_, ?_, ?_, ?_, ?_, ?_, ?_, ?_⟩ <;> decide

theorem test_hyp_systemAccessSupervisor :
    (let t := on0 { someHart with priv := 1 }
     t.hold (.sysx 1 2 0x20) = none ∧ t.mayNow 0x20 true ∧ t.hold (.ctxctlWrite 1 2) = none ∧ t.mayNow 0x30 false ∧
     t.sysRead 0 0x30 = some 0 ∧ t.hold (.corectlWrite 1 2) = none ∧ t.mayNow 0x50 false ∧ t.sysRead 0 0x50 = some 0) := by
  decide

theorem test_hyp_systemWritten :
    s0.sysRead 0 0x13 = some 0x10 ∧ s0.sysRead 0 0x92 = some 0 ∧ s0.sysRead 0 0xCF = some 0 ∧ s0.othersOfContext 0 = false ∧
    ({ State.reset with harts := [(0, someHart), (1, someHart)] } : State).othersOfContext 0 = true ∧
    ((s0.core 0).slot 3).owner = s0.me.ctx ∧ (((on0 { someHart with ctx := 1 }).core 0).slot 3).owner ≠ 1 := by decide

theorem test_hyp_systemChecks :
    s0.hold (.sysr 1 6) = none ∧ 6 ∉ systemNumbers ∧ s0.hold (.sysr 1 0x20) = none ∧ 0x20 ∈ supervisorNumbers ∧ s0.me.priv = 0 ∧
    0x51 ∈ vectorNumbers ∧ 4 ≤ ({ State.reset with cur := 4, harts := [(4, someHart)] } : State).cur % 8 ∧
    s0.hold (.sysw 3 0x14) = none ∧ s0.mayNow 0x14 false ∧ (s0.getX 3).poison = true ∧ ¬ s0.mayWrite 0x14 (s0.getX 1).val := by
  decide

theorem test_hyp_traps :
    s0.hold .ecall = none ∧ s0.hold .ebreak = none ∧ s0.me.spec = false ∧ s0.me.tvec ≠ 0 ∧
    (on0 { someHart with spec := true }).hold .halt = some .oldest ∧ (on0 { someHart with spec := true }).me.spec = true ∧
    (on0 { someHart with tvec := 0 }).ctxTvec 0 0 = 0 ∧ s0.hold .tret = none ∧
    (on0 { someHart with priv := 1 }).me.priv ≠ 0 ∧ (on0 { someHart with priv := 1, ppriv := 3 }).me.ppriv = 3 := by decide

theorem test_hyp_waits :
    s0.hold .wfe = none ∧ s0.me.latch = false ∧ s0.me.priv = 0 ∧ (on0 { someHart with latch := true }).me.latch = true ∧
    (on0 { someHart with spec := true }).hold .wfe = none ∧ s0.hold .yield = none ∧ s0.hold .fencei = none ∧
    s0.groupAbroad 0 = false ∧ s0.NoForks ∧ s0.hold (.fence .all .s) = none ∧ s0.hold (.fence .vs .h) = none ∧ (∀ e ∈ s0.me.queue, e.frozen = true) ∧
    (∃ e ∈ (on0 (vectorHart 0)).me.queue, e.frozen = false) := by
  refine ⟨?_, ?_, ?_, ?_, ?_, ?_, ?_, ?_, fun _ => rfl, ?_, ?_, ?_, ?_⟩ <;> decide

theorem test_hyp_hints :
    (s0.getX 3).poison = true ∧ (∃ f, (s0.xlate (s0.agentOf 0) [] false 0x10000 kLoad).ans = .error f) ∧
    ∃ p, (s0.xlate (s0.agentOf 0) [] false 0xFF0000000100 kLoad).ans = .ok p := ⟨by decide, ⟨_, rfl⟩, ⟨_, rfl⟩⟩

theorem test_hyp_distinct : Distinct [.indImm 1 8, .red 2 .addF64] := by
  intro d hd r hr
  simp only [List.mem_cons, List.not_mem_nil, or_false] at hd
  rcases hd with rfl | rfl <;> cases hr <;> rfl

/-- A sequential fork of two iterations, at its first. -/
abbrev someFork : SeqFork :=
  { n := 2, i := 0, body := 0x1004, target := 0x1100, decls := [.indImm 1 8], x0 := [], parts := [], chunkno := 0
    saved := { v := [], m := [], vl := 0, lanes := { cells := [], marks := [] }, fstat := 0, vstat := 0, hctl := 0x10, priv := 0 } }

theorem test_hyp_retire :
    s0.hold .halt = none ∧ s0.openForks 0 = 0 ∧ s0.hold .msgret = none ∧ s0.me.route ≠ 2 ∧ (on0 { someHart with route := 2 }).me.route = 2 ∧
    (on0 { someHart with forks := [someFork] }).openForks 0 ≠ 0 := by decide

/-! ### Hypotheses: local memory, messages, forks -/

/-- An empty granule and a full one at 0x100 of the TCM, and one for which an older waiter stands. -/
theorem test_hyp_fullEmpty :
    (s0.getX 6).poison = false ∧ 0xFF0000000100 % 8 = 0 ∧ 0xFF0000000100 / 2 ^ 40 = 0xFF ∧ isTcm (2 ^ 60 + 0x100) = true ∧ s0.NoForks ∧
    (s0.places (s0.agentOf 0) [] kAtomic 0xFF0000000100 8).ans = .ok ((tcmBytes 8).map (fun b => Place.at b .home)) ∧
    s0.hold (.ldfeKeep 1 6 0) = none ∧ s0.hold (.ldfeClr 0 6 0) = none ∧ s0.hold (.stfe 3 6 0) = none ∧
    (2 ^ 60 + 0x100) / 16 ∉ s0.full ∧ s0.olderServed 0 ((2 ^ 60 + 0x100) / 16) = false ∧
    (let t : State := { s0 with full := [(2 ^ 60 + 0x100) / 16] }
     (2 ^ 60 + 0x100) / 16 ∈ t.full ∧ t.olderServed 0 ((2 ^ 60 + 0x100) / 16) = false) ∧
    (let t : State := { s0 with feWait := [{ granule := (2 ^ 60 + 0x100) / 16, hart := 1, full := false }] }
     t.olderServed 0 ((2 ^ 60 + 0x100) / 16) = true) := by
  exact ⟨by decide, by decide, by decide, by decide, noForks_reset _, rfl, by decide, by decide, by decide, by decide, by decide,
    by decide, by decide⟩

theorem test_hyp_fullEmptyChecks :
    s0.hold (.stfe 1 3 0) = none ∧ (s0.getX 3).poison = true ∧ s0.hold (.ldfeKeep 1 6 7) = none ∧ s0.hold (.ldfeClr 1 7 8) = none ∧
    ((s0.getX 6).val + (7 : BitVec 13).signExtend 64).toNat % 8 ≠ 0 ∧ ((s0.getX 7).val + (8 : BitVec 13).signExtend 64).toNat % 8 = 0 ∧
    ((s0.getX 7).val + (8 : BitVec 13).signExtend 64).toNat / 2 ^ 40 ≠ 0xFF := by decide

/-- A barrier word with nothing expected: `PHASE` 0, so that a wait for 0 goes on and one for 1 waits; and a marked one. -/
theorem test_hyp_barrier :
    (s0.getX 6).poison = false ∧ (s0.getX 6).val.toNat % 16 = 0 ∧ s0.Reaches (s0.getX 6).val.toNat 16 kAtomic (tcmBytes 16) ∧
    s0.hold (.barinit 6 2) = none ∧ s0.hold (.bararv 6 2) = none ∧ s0.hold (.barwt 6 0) = none ∧ s0.hold (.barwt 6 1) = none ∧
    (s0.getX 2).poison = false ∧ (tcmBytes 16).any s0.mem.marked = false ∧
    s0.mem.numAt ((tcmBytes 16).drop 8) / 2 ^ 63 = (s0.getX 0).val.toNat % 2 ∧
    s0.mem.numAt ((tcmBytes 16).drop 8) / 2 ^ 63 ≠ (s0.getX 1).val.toNat % 2 ∧ s0.hold (.bararv 6 3) = none ∧ (s0.getX 3).poison = true ∧
    (tcmBytes 16).any (Mem.marked { cells := [], marks := [(2 ^ 60 + 0x100) / 8] }) = true := by
  exact ⟨by decide, by decide, reaches_tcm 16 3 (by decide) (by decide), by decide, by decide, by decide, by decide, by decide, by decide,
    by decide, by decide, by decide, by decide, by decide⟩

/-- A message to the own core: `x1` = 0 names core 0; with payload up to x31 allowed, and beyond it not; a second packet finds the injection
taken. -/
theorem test_hyp_send :
    let t := on0 { someHart with x := [(1, PVal.clean 0), (2, PVal.clean 7), (3, PVal.poisoned)] }
    t.hold (.send 1 30 .g 1) = none ∧ (t.getX 1).poison = false ∧ coreInScope 0 0 .g = true ∧ (30 : Reg).toNat + 2 * 1 ≤ 32 ∧
    (t.getX 30).poison = false ∧ (t.getX 31).poison = false ∧ ((t.ring 0).stop 0 0).inj = [] ∧ t.hold (.send 1 0 .c 0) = none ∧
    (let u := t.modRing 0 (fun r => r.modStop 0 0 (fun x => { x with inj := [9] }))
     ((u.ring 0).stop 0 0).inj ≠ []) ∧
    t.hold (.send 3 2 .g 1) = none ∧ (t.getX 3).poison = true ∧ t.hold (.send 1 3 .g 1) = none ∧ t.hold (.send 1 31 .g 1) = none ∧
    ¬ (31 : Reg).toNat + 2 * 1 ≤ 32 ∧ t.hold (.send 1 2 .h 1) = none := by decide

theorem test_hyp_recv :
    s0.hold (.recv 1) = none ∧ (s0.core 0).recvQ = [] ∧
    (let t : State := { s0 with cores := [(0, { Core.initial with recvQ := [(5, 1)] })] }
     (t.core 0).recvQ = (5, 1) :: [] ∧ ∀ k ∈ (t.core 0).recvWait.head?, k = t.cur) ∧
    (let t : State := { s0 with cores := [(0, { Core.initial with recvQ := [(5, 1)], recvWait := [1] })] }
     ¬ ∀ k ∈ (t.core 0).recvWait.head?, k = t.cur) := by decide

/-- A table entry of zeros, read from the TCM; a marked one; one with a reserved field; one of supervisor privilege. -/
theorem test_hyp_htset :
    s0.hold (.htset 1 6) = none ∧ (s0.getX 1).poison = false ∧ (s0.getX 6).val.toNat % 16 = 0 ∧ s0.hold (.htset 1 2) = none ∧
    (s0.getX 2).val.toNat % 16 ≠ 0 ∧ s0.Reaches (s0.getX 6).val.toNat 16 kLoad (tcmBytes 16) ∧ (tcmBytes 16).any s0.mem.marked = false ∧
    (BitVec.ofNat 64 (s0.mem.numAt ((tcmBytes 16).drop 8)) : Word).getLsbD 61 = false ∧ s0.me.priv = 0 ∧
    (BitVec.ofNat 64 (Mem.numAt { cells := [(2 ^ 60 + 0x100, 1)], marks := [] } ((tcmBytes 16).take 8)) : Word).extractLsb' 0 2 ≠ 0 ∧
    (BitVec.ofNat 64 (Mem.numAt { cells := [(2 ^ 60 + 0x10F, 0x20)], marks := [] } ((tcmBytes 16).drop 8)) : Word).getLsbD 61 = true := by
  exact ⟨by decide, by decide, by decide, by decide, by decide, reaches_tcm 16 0 (by decide) (by decide), by decide, by decide, by decide,
    by decide, by decide⟩

theorem test_hyp_declare :
    (∀ p ∈ declTable 1 2 8 .addF64 3, s0.hold p.1 = none) ∧ s0.me.decls = [] ∧ s0.cur % 8 < 4 ∧ (1 : Reg) ≠ 0 ∧
    (let t := on0 { someHart with decls := [.carry 1, .vlive 3] }
     (∃ d ∈ t.me.decls, d.reg? = some 1) ∧ .vlive 3 ∈ t.me.decls ∧ ∀ p ∈ declTable 1 2 8 .addF64 3, t.hold p.1 = none) := by decide

/-- The machine of the hart above as the ring program of ring 0. -/
abbrev sProg (h : Hart) : State :=
  { on0 h with rings := [(0, { Ring.initial with
      prog := some { hart := 0, launch := 0, ctx := 0, prio := 0, ringidx := 0, seq := 0, record := [], want := 0 } })] }

/-- A ring program's first fork, a fork of no iterations, a strip fork with a carried register, and a fork on a hart with a fork open. -/
theorem test_hyp_fork :
    (∀ p ∈ ([.forkS 1 0 4, .forkD 1 0 4, .forkS 0 1 4, .forkS 3 0 4] : List Instr), s0.hold p = none) ∧
    (∀ e ∈ s0.me.queue, e.frozen = true) ∧ (s0.getX 1).poison = false ∧ (s0.getX 1).val.toNat ≠ 0 ∧ (s0.getX 0).val.toNat = 0 ∧
    (s0.getX 3).poison = true ∧ s0.openForks 0 < 4 ∧ (¬ ∃ r, DeclItem.carry r ∈ s0.me.decls) ∧ (sProg someHart).forkParallel = true ∧
    (∃ r, DeclItem.carry r ∈ (on0 { someHart with decls := [.carry 1] }).me.decls) ∧
    (sProg { someHart with forks := [someFork] }).forkParallel = false ∧
    4 ≤ (on0 { someHart with forks := [someFork, someFork, someFork, someFork] }).openForks 0 := by
  exact ⟨by decide, by decide, by decide, by decide, by decide, by decide, by decide, (fun ⟨_, h⟩ => by cases h), by decide,
    Exists.intro 1 (by decide), by decide, by decide⟩

/-- A parallel fork of four iterations in chunks of two, whose chunk 0 runs on hart 0. -/
abbrev someChunks : Fork :=
  { hart := 0, strip := false, n := 4, c := 2, body := 0x1004, target := 0x1100, decls := [.indImm 1 8], x0 := [], saved := someFork.saved
    chunks := [{ num := 0, state := .oldest, hart := 0, i := 0, starts := [], verified := true, ends := none, bytes := [], marks := []
                 clears := [], reads := [], parts := [], exited := false, fenced := false, vvOpen := false, noRoom := false }]
    oldest := 0, created := 1, last := none, folds := [], fflags := 0, vflags := 0, singcol := none, chunkno := 0, prev := []
    forker := someHart, parked := false }

/-- The hart above in that fork, after `i` iterations of its chunk. -/
abbrev inChunk (i : Nat) : State :=
  { s0 with rings := [(0, { Ring.initial with fork := some { someChunks with chunks := someChunks.chunks.map (fun c => { c with i := i }) } })] }

theorem test_hyp_iteration :
    (let t := on0 { someHart with forks := [someFork] }
     t.hold .cend = none ∧ someFork.i + 1 ≠ someFork.n ∧ t.hold .exitl = none) ∧
    (let t := on0 { someHart with forks := [{ someFork with i := 1 }] }
     t.hold .cend = none ∧ someFork.saved.fstat.extractLsb' 9 5 = 0 ∧ ∀ e ∈ t.me.queue, e.frozen = true) ∧
    ((inChunk 0).hold .cend = none ∧ (inChunk 0).me.forks = [] ∧ ((inChunk 0).chunkOf 0).isSome = true ∧ 0 + 1 ≠ (0 + 1) * someChunks.c) ∧
    ((inChunk 1).hold .cend = none ∧ ((inChunk 1).chunkOf 0).isSome = true ∧ 1 + 1 = (0 + 1) * someChunks.c) ∧
    ((inChunk 1).hold .exitl = none ∧ ∀ d ∈ someChunks.chunks, 0 < d.num → d.hart ≠ 0) ∧
    (s0.me.forks = [] ∧ s0.chunkOf 0 = none ∧ s0.hold .cend = none ∧ s0.hold .exitl = none) := by decide

/-! ### Hypotheses: engines, solver, die, leases, the queue -/

/-- Local bytes that translate are reached at once. -/
theorem reaches_local {s : State} {va n kind : Nat} {ls : List Nat}
    (hp : (s.places (s.agentOf s.cur) [] kind va n).ans = .ok (ls.map (fun l => Place.at l .home)))
    (hc : s.Translated (s.places (s.agentOf s.cur) [] kind va n).st)
    (hl : ls.all (fun l => !isDev l) = true) (hf : s.NoForks) (hs : s.me.spec = false) (ht : ∀ phase, s.txnOf (.scalar s.cur phase) = none) :
    s.Reaches va n kind ls where
  places := ⟨fun _ => .home, hp, fun _ => Holder.noConfusion⟩
  calm := hc
  idle := fun l h => by
    have h1 := List.all_eq_true.mp hl l h
    simp only [Bool.not_eq_true', isDev] at h1
    simp only [State.lineBusy, isDev, h1, Bool.false_and]
  sound := fun l h hd => by
    have h1 := List.all_eq_true.mp hl l h
    simp_all
  alone := ⟨hf, hs⟩
  fresh := ht

/-- A state is one that translating leaves as it is. -/
theorem translated_refl (s : State) : s.Translated s := ⟨rfl, fun d => ⟨(s.die d).tlb, rfl⟩⟩

theorem test_hyp_kicks :
    s0.hold (.cpy 6) = none ∧ s0.hold (.mgkick 6) = none ∧ (s0.getX 6).val.toNat % 64 = 0 ∧ (s0.getX 6).poison = false ∧
    s0.hold (.cpy 3) = none ∧ (s0.getX 3).poison = true ∧ s0.hold (.mgkick 2) = none ∧ (s0.getX 2).val.toNat % 64 ≠ 0 ∧
    (∃ ps, (s0.places (s0.agentOf 0) [] kLoad 0xFF0000000100 64).ans = .ok ps) ∧ s0.NoForks ∧
    (∃ v cmd, s0.mergeCommand 0 0xFF0000000100 = (v, some cmd)) ∧
    (s0.core 0).copies.length < 32 ∧ (s0.core 0).copyWait = [] ∧ (s0.ring 0).mergeQ.length < 4 ∧ (s0.ring 0).mergeWait = [] ∧
    (s0.core 0).copies.length + 32 = (List.replicate 32 (newCopy 0 0 0 0)).length ∧ s0.hold (.mgstat 1) = none ∧
    (s0.ring 0).mergeRun = none := by
  exact ⟨by decide, by decide, by decide, by decide, by decide, by decide, by decide, by decide, ⟨_, rfl⟩, noForks_reset _,
    ⟨_, _, rfl⟩, by decide, by decide, by decide, by decide, by decide, by decide, by decide⟩

/-- A solve slot that is active for context 0. -/
abbrev someSlot (dl : Nat) : SolveSlot :=
  { len := 2, base := 0xFF0000000200, cur := 9, hash := 9, dl := dl, iter := 0, svalid := true, active := true, owner := 0 }

/-- The machine with it as slot 1 of core 0, and x6, x8 at two regions of the TCM. -/
abbrev solving (dl : Nat) : State :=
  { on0 { someHart with x := (8, PVal.clean 0xFF0000000200) :: someHart.x } with
    cores := [(0, { Core.initial with solve := [(1, someSlot dl)] })] }

theorem test_hyp_solver :
    s0.hold (.svbegin 1 2 0) = none ∧ s0.cur % 8 < 4 ∧ (s0.getX 1).poison = false ∧ s0.hold (.svbegin 1 3 0) = none ∧
    (s0.getX 3).poison = true ∧ s0.hold (.svchk 1 2 2 3) = none ∧ (s0.solveSlot 3).active = false ∧
    (solving 0).hold (.svchk 1 2 2 1) = none ∧ ((solving 0).solveSlot 1).owner = (solving 0).me.ctx ∧ ((solving 0).solveSlot 1).active = true ∧
    ((solving 1).solveSlot 1).dl = 1 ∧ ((solving 1).pkg 0).timebase < 1 ∧
    (let t : State := { solving 1 with pkgs := [(0, { Pkg.initial with timebase := 1 })] }
     (t.solveSlot 1).dl ≠ 0 ∧ (t.solveSlot 1).dl ≤ (t.pkg 0).timebase ∧
     (fpCompare 2 (readF true .f64 (t.getX 5).val.toNat) (readF true .f64 (t.getX 1).val.toNat)).1 = false) ∧
    (solving 0).hold (.svwarm 6 1) = none ∧ (solving 0).hold (.svend 6 1) = none ∧ 32 = 16 * ((solving 0).solveSlot 1).len ∧
    ((solving 0).getX 6).val.toNat = 0xFF00 * 2 ^ 32 + 0x100 ∧ ((solving 0).solveSlot 1).base = 0xFF00 * 2 ^ 32 + 0x200 ∧
    0x100 + 32 ≤ 0x200 ∧ ((solving 0).solveSlot 1).svalid = true ∧ ((solving 0).solveSlot 1).hash = ((solving 0).solveSlot 1).cur ∧
    ¬(((solving 0).solveSlot 2).svalid = true) := by decide

/-- A supervisor hart with the context of the word placement on die 0: its aperture maps address 0 up. -/
abbrev boss : Hart := { someHart with priv := 1, x := (9, PVal.clean 0x4000000) :: (10, PVal.clean 0x0) :: someHart.x }
/-- The machine with it. -/
abbrev sBoss : State := { on0 boss with dies := [(0, { Die.initial with resident := [some wordContext] })] }

set_option maxRecDepth 20000 in
theorem test_hyp_die :
    (∀ i ∈ ([.tlbinv 1 2, .pgmig 1 2, .odrain 1 2] : List Instr), s0.hold i = none) ∧ s0.me.priv = 0 ∧
    sBoss.hold (.tlbinv 9 9) = none ∧ sBoss.me.priv ≠ 0 ∧ (sBoss.getX 9).poison = false ∧ (sBoss.getX 9).val.extractLsb' 40 22 = 0 ∧
    (∀ e ∈ sBoss.me.queue, e.frozen = true) ∧ sBoss.NoForks ∧ sBoss.pins 0 = [] ∧ (sBoss.pkg 0).badSectors = [] ∧ 0 ∉ sBoss.dropped ∧ (sBoss.pkg 0).txns = [] ∧ (sBoss.pkg 0).accepts = [] ∧
    sBoss.hold (.pgmig 10 9) = none ∧ (sBoss.xlate (sBoss.agentOf 0) [] false 0 kStore).ans = .ok (.at 0 .home) ∧
    sBoss.Translated (sBoss.xlate (sBoss.agentOf 0) [] false 0 kStore).st ∧ 0 / 2 ^ 40 ≠ 0xFF ∧
    (∃ g, sBoss.pageOf 0 = (sBoss, .ok g) ∧ (sBoss.getX 9).val.toNat % g.size = 0 ∧ sBoss.deviceRange 0 g.pa g.size = true ∧
      sBoss.deviceRange 0 (sBoss.getX 9).val.toNat g.size = true ∧ g.pa ≠ (sBoss.getX 9).val.toNat ∧ sBoss.migrating 0 0 g = false) ∧
    sBoss.hold (.odrain 1 6) = none ∧ sBoss.Reaches 0xFF0000000100 192 kStore (tcmBytes 192) ∧ (sBoss.die 0).orphans = [] ∧
    sBoss.hold (.launch 6) = none ∧ sBoss.Reaches 0xFF0000000100 64 kLoad (tcmBytes 64) ∧ (tcmBytes 64).any sBoss.mem.marked = false ∧
    (sBoss.pkg 0).vestibule.length < 1024 := by
  refine ⟨by decide, by decide, by decide, by decide, by decide, by decide, by decide, fun _ => rfl, by decide, by decide, by decide, by decide, by decide, by decide,
    rfl, translated_refl _, by decide, ⟨_, rfl, by decide, by decide, by decide, by decide, by decide⟩, by decide,
    reaches_local rfl (translated_refl _) (by decide) (fun _ => rfl) rfl (fun _ => rfl), by decide, by decide,
    reaches_local rfl (translated_refl _) (by decide) (fun _ => rfl) rfl (fun _ => rfl), by decide, by decide⟩

/-- The boss in slot 0, with a package whose links are trained, and memory at 0x100 of the TCM. -/
abbrev leasing (p : Pkg) (m : List Host.Cell) : State :=
  { on0 { boss with x := (11, PVal.clean 0x10000000000) :: boss.x } with
    pkgs := [(0, p), (1, { Pkg.initial with sliceLive := [0] })], mem := { cells := m, marks := [] } }

/-- A lease at the lender, one at the borrower, and a request at the lender. -/
abbrev someLend : Lend :=
  { id := 5, borrower := 1, reqno := 0, base := 0, units := 1, wfin := 100, mbox := 0, marked := false, deadline := none }
/-- The borrower's side. -/
abbrev someBorrow (st : BorrowState) : Borrow :=
  { handle := 5, serial := 0, state := st, ctx := 0, lender := 1, units := 1, escrow := 0x40000000000, mbox := 0, tag := 0, lease := 0, base := 0,
    wfin := 0, deadline := 0, migrated := 0 }
/-- A request that the lender holds. -/
abbrev someReq : LeaseReq := { borrower := 1, reqno := 0, units := 1, wmin := 0 }
/-- The dwords of the block at 0x100. -/
abbrev blockOf (s : State) : List Word :=
  (List.range 8).map (fun i => BitVec.ofNat 64 (s.mem.numAt (((tcmBytes 64).drop (8 * i)).take 8)))

set_option maxRecDepth 20000 in
theorem test_hyp_lease :
    (∀ i ∈ ([.lreq 1 6, .lgrant 1 6, .lreclaim 1, .ldone 1, .lrelease 1] : List Instr), s0.hold i = none) ∧ s0.me.priv = 0 ∧
    (let s := leasing Pkg.initial [(2 ^ 60 + 0x100, 1), (2 ^ 60 + 0x102, 1), (2 ^ 60 + 0x10D, 4)]
     s.hold (.lreq 1 6) = none ∧ s.me.priv ≠ 0 ∧ 0xFF0000000100 % 64 = 0 ∧ (tcmBytes 64).any s.mem.marked = false ∧
     requestBad (blockOf s) = false ∧ (dw (blockOf s) 1).toNat % 2 ^ 30 = 0 ∧
     s.unitsPopulated 0 (dw (blockOf s) 1).toNat ((dw (blockOf s) 0).toNat % 2 ^ 16) true = true ∧
     (s.pkg 0).unitsTaken (dw (blockOf s) 1).toNat ((dw (blockOf s) 0).toNat % 2 ^ 16 * 2 ^ 30) = false ∧ s.pins 0 = [] ∧ (s.pkg 0).accepts = [] ∧
     (dw (blockOf s) 0).toNat / 2 ^ 16 % 128 = 1 ∧ s.hasPort 1 = true ∧ lowestFree ((s.pkg 0).borrows.map (·.handle)) = some 0) ∧
    (let s := leasing { Pkg.initial with requests := [someReq] } []
     s.hold (.lgrant 11 6) = none ∧ (s.getX 6).poison = false ∧ grantBad (blockOf s) = false ∧
     (s.pkg 0).requests.find? (fun r => r.borrower = (s.getX 11).val.toNat / 2 ^ 40 % 128 &&
       r.reqno % 2 ^ 16 = (s.getX 11).val.toNat / 2 ^ 24 % 2 ^ 16) = some someReq ∧
     (s.pkg 0).lends = [] ∧ (dw (blockOf s) 0).getLsbD 0 = false ∧ s.unitsPopulated 0 0 someReq.units false = true ∧
     (s.pkg 0).unitsTaken 0 (someReq.units * 2 ^ 30) = false ∧ lowestFree ((s.pkg 0).lends.map (·.id)) = some 0) ∧
    (dw (blockOf (leasing Pkg.initial [(2 ^ 60 + 0x100, 1)])) 0).getLsbD 0 = true ∧
    (let s := leasing { Pkg.initial with lends := [someLend], borrows := [someBorrow .reclaiming] } []
     s.hold (.lreclaim 1) = none ∧ (s.pkg 0).lend? ((s.getX 1).val.toNat % 2 ^ 16) = some someLend ∧ someLend.deadline = none ∧
     s.hold (.ldone 1) = none ∧ (s.pkg 0).borrow? ((s.getX 1).val.toNat % 2 ^ 16) = some (someBorrow .reclaiming) ∧
     s.hold (.lrelease 1) = none ∧ (someBorrow .reclaiming).ctx = s.me.ctx) := by decide

/-- The scalar front end of hart 0 has nothing under way where its package has nothing. -/
theorem fresh_of_empty {s : State} (hc : s.cur = 0) (h : (s.pkg 0).txns = []) : ∀ phase, s.txnOf (.scalar s.cur phase) = none := by
  intro phase
  have hp : (Who.scalar 0 phase).pkg = 0 := by show ringOf 0 / 4096 = 0; decide
  rw [hc, State.txnOf, hp, h]
  rfl

theorem test_hyp_leaseBlock : (leasing Pkg.initial []).Reaches 0xFF0000000100 64 kLoad (tcmBytes 64) :=
  reaches_local rfl (translated_refl _) (by decide) (fun _ => rfl) rfl (fresh_of_empty rfl rfl)

/-- The image of a queue of one `vld`. -/
abbrev imageCells : List Host.Cell :=
  [(2 ^ 60 + 0x100, 1), (2 ^ 60 + 0x101, 1), (2 ^ 60 + 0x182, 2), (2 ^ 60 + 0x183, 0xF9), (2 ^ 60 + 0x186, 4), (2 ^ 60 + 0x189, 0x49)]

set_option maxRecDepth 8000 in
theorem test_hyp_image :
    sBoss.cur % 8 < 4 ∧ sBoss.me.priv ≠ 0 ∧ (sBoss.getX 6).poison = false ∧ 0xFF0000000100 % 128 = 0 ∧ sBoss.hold (.vqsave 6) = none ∧
    sBoss.Reaches 0xFF0000000100 (128 + 128 * sBoss.me.queue.length) kStore (tcmBytes 128) ∧ (sBoss.pkg 0).txns = [] ∧
    sBoss.hold (.vqload 6) = none ∧ sBoss.me.queue = [] ∧
    (let s := leasing Pkg.initial imageCells
     let words := (List.range 32).map (fun i => PVal.clean (BitVec.ofNat 64 (s.mem.numAt (((tcmBytes 256).drop (8 * i)).take 8))))
     s.Reaches 0xFF0000000100 256 kLoad (tcmBytes 256) ∧ s.Reaches 0xFF0000000100 128 kLoad ((tcmBytes 256).take 128) ∧
     (tcmBytes 256).any s.mem.marked = false ∧ (lget (PVal.clean 0) words 0).val.toNat % 32 = 1 ∧
     badImageHeader s.me.depth words = none ∧ badRecords s.me (recordsOf 1 (words.drop 16)) 128 none = none ∧ s.queueUse 0 + 1 ≤ 32 ∧ s.olderWaits 0 = false ∧ s.groupAbroad 0 = false) := by
  exact ⟨by decide, by decide, by decide, by decide, by decide, reaches_local rfl (translated_refl _) (by decide) (fun _ => rfl) rfl (fresh_of_empty rfl rfl), by decide,
    by decide, by decide, reaches_local rfl (translated_refl _) (by decide) (fun _ => rfl) rfl (fresh_of_empty rfl rfl),
    reaches_local rfl (translated_refl _) (by decide) (fun _ => rfl) rfl (fresh_of_empty rfl rfl), by decide, by decide, by decide, by decide, by decide, by decide, by decide⟩

/-- A header and its one member at address 0; and a header whose slot names another unit than the member's. -/
abbrev convoyAt (hdr : Nat) : State :=
  State.reset.aroundWord wordHart ((Mem.setNum { cells := [], marks := [] } 0 4 hdr).setNum 4 8 0x00040000F9020000) (.issue 0)

theorem test_hyp_convoy :
    (convoyAt 0xFC800000).cur % 8 < 4 ∧ (∀ e ∈ (convoyAt 0xFC800000).me.queue, e.frozen = false) ∧
    (∃ u bs, (convoyAt 0xFC800000).fetch 0 1 4 8 = .ok u bs ∧
      (∃ ms, checkConvoy ((convoyAt 0xFC800000).memberBreaks 0) 1 0 0 16 (fetchWords bs 1) = .ok ms) ∧
      (∃ bad, checkConvoy ((convoyAt 0xFC800000).memberBreaks 0) 1 0x08000 0 16 (fetchWords bs 1) = .error bad)) ∧
    (∃ e ∈ (on0 { someHart with queue := (vectorHart 0).queue.map (fun e => { e with frozen := true }) }).me.queue, e.frozen = true) ∧
    4 ≤ ({ State.reset with cur := 4 } : State).cur % 8 := by
  exact ⟨by decide, by decide, ⟨_, _, rfl, ⟨_, rfl⟩, ⟨_, rfl⟩⟩, by decide, by decide⟩

theorem test_hyp_convoyRules :
    ([0x00040000F9020000] : List Word).length = (1 : BitVec 3).toNat ∧
    (decodeMember 0x00040000F9020000).toOption.map unitOf = some 0 ∧ (∀ k, (1 : BitVec 3).toNat < k → k ≤ 6 → (0 : BitVec 18).toNat / 2 ^ (18 - 3 * k) % 8 = 0) ∧
    (0x08000 : BitVec 18).toNat / 2 ^ (15 - 3 * 0) % 8 ≠ 0 := by
  refine ⟨by decide, by decide, fun k _ _ => ?_, by decide⟩
  simp

theorem test_hyp_queue :
    (let t := on0 { someHart with pendConvoy := some { addr := 0x1000, db := false, words := [0x00040000F9020000] } }
     ringExists (0 / 64) = true ∧ (t.hart 0).live = true ∧ (t.hart 0).stopped = false ∧ (t.hart 0).queue.length + 1 ≤ (t.hart 0).depth ∧
     t.queueUse 0 + 1 ≤ 32 ∧ t.olderWaits 0 = false) ∧
    (let t := on0 { vectorHart 0x00040000F9020000 with queue := (vectorHart 0x00040000F9020000).queue.map (fun e => { e with started := false }) }
     (∃ e r, (t.hart 0).headConvoy = e :: r ∧ e.started = false ∧ r = []) ∧ t.unitBusy 0 0 0 = false ∧ (t.core 0).reserved = []) := by
  exact ⟨by decide, ⟨_, _, rfl, rfl, rfl⟩, by decide, by decide⟩

/-! ### Hypotheses: vector instructions -/

/-- An entry that works, with a captured TCM address. -/
abbrev ent : Entry :=
  { id := 0, insn := 0x00040000F9020000, x := PVal.clean 0xFF0000000100, crm := 0, db := false, first := true, ccount := 1, slot := 1, start := 0
    pend := [], pins := [], frozen := false, started := true, parked := false }

/-- The machine with a vector hart whose queue is that entry: v2 = (1, 2), v3 = (3, 4), v4 poisoned in container 0. -/
abbrev vecHart (vl : Nat) : Hart :=
  { someHart with
    vl := vl, queue := [ent]
    v := [(2, [(0, PVal.clean 1), (1, PVal.clean 2)]), (3, [(0, PVal.clean 3), (1, PVal.clean 4)]), (4, [(0, PVal.poisoned)])] }
/-- The machine with it. -/
abbrev sv (vl : Nat) : State := on0 (vecHart vl)
/-- The same with words in the receive queue and a fragment in the landing. -/
abbrev svQ : State :=
  { sv 2 with cores := [(0, { Core.initial with recvQ := [(1, 0), (2, 0)], landing := some { len := 1, data := [(0, PVal.clean 7)] } })] }

theorem test_ready : (sv 2).Ready ent opV [2, 3] ∧ (sv 0).Ready ent opV [] ∧ svQ.Ready ent { opV with vs1 := 49, vs2 := 48 } [49, 48] :=
  ⟨⟨by decide, by decide, by decide, by decide, by decide, by decide, by decide⟩, ⟨by decide, by decide, by decide, by decide, by decide, by decide, by decide⟩,
    ⟨by decide, by decide, by decide, by decide, by decide, by decide, by decide⟩⟩

/-- The forms of the integer and floating-point instructions: two registers, a scalar; a poisoned container; nothing enabled. -/
theorem test_hyp_vectorArith :
    (sv 2).Ready ent opV [opV.vs1, opV.vs2] ∧ (sv 2).Ready ent { opV with vs2 := 0, low := 0x2000 } [2] ∧ (sv 2).Ready ent { opV with vs1 := 4 } [4, 3] ∧
    (sv 2).me.ten = 0 ∧ ({ opV with ty := .f32 } : VOp).sel ≤ 1 ∧ ({ opV with vs2 := 0, low := 0x2000 } : VOp).sel = 1 :=
  ⟨⟨by decide, by decide, by decide, by decide, by decide, by decide, by decide⟩, ⟨by decide, by decide, by decide, by decide, by decide, by decide, by decide⟩,
    ⟨by decide, by decide, by decide, by decide, by decide, by decide, by decide⟩, by decide, by decide, by decide⟩

theorem test_hyp_conversion :
    ({ opV with ty := .f64, vs2 := 0, low := 6 } : VOp).srcTy = some .s64 ∧ Ty.elems .s64 = Ty.elems .f64 ∧
    ({ opV with ty := .f64, vs2 := 0, low := 6 } : VOp).part = 0 ∧ (sv 2).Ready ent { opV with ty := .f64, vs2 := 0, low := 6 } [2] ∧
    (sv 2).me.ten = 0 ∧ opV.vs1.toNat < 48 ∧ opV.vs1 ≠ opV.vd :=
  ⟨by decide, by decide, by decide, ⟨by decide, by decide, by decide, by decide, by decide, by decide, by decide⟩, by decide, by decide, by decide⟩

theorem test_hyp_compare :
    (∀ c ∈ (sv 2).activeOf ent opV, (lget (PVal.clean 0) ((sv 2).operands ent opV [2, 3] c) 0).poison = false ∧
      (secondOperand opV ent 0 ((sv 2).operands ent opV [2, 3] c)).poison = false) ∧
    (sv 2).activeOf ent opV = [0, 1] ∧ (lget (PVal.clean 0) ((sv 2).operands ent { opV with vs1 := 4 } [4, 3] 0) 0).poison = true ∧
    (sv 2).me.spec = false := by decide

theorem test_hyp_masksAndMoves :
    (sv 2).entry? = some ent ∧ ent.runs = true ∧ (sv 2).me.vl ≤ 128 ∧ ent.x.poison = false ∧
    ((List.range 2).filter ((sv 2).me.getM 1).getLsbD = []) ∧
    ((List.range 2).filter ((on0 { vecHart 2 with m := [(1, 2)] }).me.getM 1).getLsbD = 1 :: []) ∧
    (on0 { vecHart 2 with queue := [{ ent with x := PVal.poisoned }] }).entry? = some { ent with x := PVal.poisoned } ∧
    (svQ.Ready ent { opV with vs1 := 48, vs2 := 49 } [48, 49]) ∧ (svQ.core 0).landing.isSome = true :=
  ⟨by decide, by decide, by decide, by decide, by decide, by decide, by decide,
    ⟨by decide, by decide, by decide, by decide, by decide, by decide, by decide⟩, by decide⟩

/-- A unit-stride form with one container. -/
abbrev unitForm (load : Bool) : MemForm := { o := { opV with vs2 := 0, low := 0 }, form := .unit, load := load }

/-- Its plan: one element, in the TCM. -/
abbrev unitPlan : ContAt :=
  { cont := 0, badIndex := false, badData := false,
    elems := [{ elem := { addr := 0xFF0000000100, bytes := 8, nib := none },
                bytes := (List.range 8).map (fun i => (0xFF0000000100 + i, .ok (Place.at (2 ^ 60 + 0x100 + i) .home))) }] }

set_option maxRecDepth 20000 in
/-- The elements of a unit-stride form with one container lie in the TCM. -/
theorem test_spread (load : Bool) : (sv 1).Spread ent (unitForm load) (fun _ _ => tcmBytes 8) := by
  have one : ∀ l ∈ tcmBytes 8, isDev l = false := by decide
  refine ⟨by cases load <;> decide, ⟨fun _ => .home, fun _ => Holder.noConfusion, ?_⟩, ?_, ?_, ?_, ⟨fun _ => rfl, rfl⟩, ⟨rfl, rfl⟩⟩
  · intro x hx i y hy
    have hx' : x ∈ [unitPlan] := by cases load <;> exact hx
    obtain rfl := List.mem_singleton.mp hx'
    match i with
    | 0 => cases hy; exact ⟨by decide, rfl⟩
    | n + 1 => cases hy
  · cases load <;> exact translated_refl _
  · intro c _ i l hl
    simp only [State.lineBusy, one l hl, Bool.false_and]
  · intro c _ i l hl hd
    rw [one l hl] at hd
    cases hd

theorem test_hyp_vectorMemory :
    (sv 1).Ready ent opV [] ∧ (sv 1).Ready ent opV [2] ∧ (sv 1).Sole ent ∧ (sv 0).Sole ent ∧ (sv 1).me.vl ≠ 0 ∧ (sv 0).me.vl = 0 ∧
    ent.x.poison = false ∧ ¬(opV.ty = .e2m1) :=
  ⟨⟨by decide, by decide, by decide, by decide, by decide, by decide, by decide⟩, ⟨by decide, by decide, by decide, by decide, by decide, by decide, by decide⟩,
    ⟨by decide, by decide⟩, ⟨by decide, by decide⟩, by decide, by decide, by decide, by decide⟩

/-- An index at the last doubleword of a lane table, one beyond it, and a peer that is live. -/
theorem test_hyp_laneTables :
    (∀ c ∈ (sv 2).activeOf ent opV, ((sv 2).me.getV 2 c).poison = false) ∧ 0 + 127 * 8 + 8 ≤ 1024 ∧ ¬ 0 + 128 * 8 + 8 ≤ 1024 ∧
    8 ≤ opV.ty.width ∧ (sv 2).me.spec = false ∧ ((sv 2).hart 0).live = true ∧ ((sv 2).hart 0).ctx = (sv 2).me.ctx := by decide

theorem test_hyp_permutations :
    (sv 2).me.vl ≠ 0 ∧ (sv 2).Whole 2 (sv 2) ((List.range 2).map ((sv 2).me.getV 2)) ∧
    (∃ u src, svQ.Whole 48 u src) ∧ ∃ u src, svQ.Whole 49 u src :=
  ⟨by decide, .register (by decide), ⟨_, _, .landing _ (by decide) rfl⟩, ⟨_, _, .queue (by decide) (by decide) (by decide) (by decide)⟩⟩

theorem test_hyp_folds :
    (sv 2).Ready ent opV [2] ∧ (sv 2).Sole ent ∧ ent.start = 0 ∧ (sv 2).me.vl ≤ 128 ∧ opV.ty.isInt = true ∧
    (∀ c ∈ (sv 2).activeOf ent opV, (lget (PVal.clean 0) ((sv 2).operands ent opV [2] c) 0).poison = false) ∧ ent.x.poison = false ∧
    (sv 2).me.ten = 0 ∧ (∃ x, ({ opV with x := 1 } : VOp).x = x ∧ x ≠ 0) :=
  ⟨⟨by decide, by decide, by decide, by decide, by decide, by decide, by decide⟩, ⟨by decide, by decide⟩, by decide, by decide, by decide, by decide,
    by decide, by decide, ⟨_, rfl, by decide⟩⟩

/-- The unit owned by the hart, of type FP32 with rows of two; free; and owned by another. -/
abbrev owned (t : BitVec 4) : State := { sv 2 with cores := [(0, { Core.initial with mxOwner := some 0, mxMvl := 2, mxType := t })] }

theorem test_hyp_matrix :
    (owned 9).entry? = some ent ∧ ent.runs = true ∧ (owned 9).me.spec = false ∧ ent.start = 0 ∧ ((owned 9).core 0).mxOwner = some (owned 9).cur ∧
    ((sv 2).core 0).mxOwner = none ∧ ((sv 2).core 0).mxWait = [] ∧ 9 ≤ ((owned 9).core 0).mxType.toNat ∧ 0 < ((owned 9).core 0).mxMvl ∧
    ((owned 0).core 0).mxType = ({ opV with ty := .s8 } : VOp).ty.code ∧ (owned 9).me.ten = 0 ∧ ((owned 9).core 0).outBuf = none ∧
    (∀ i < 2, ∀ j < 2, (tget (PVal.clean 0) ((owned 9).core 0).mxTiles (4096 * 0 + 64 * i + j)).poison = false) ∧
    ({ sv 2 with cores := [(0, { Core.initial with mxOwner := some 1 })] } : State).entry? = some ent := by decide

theorem test_hyp_sfu :
    (sv 2).entry? = some ent ∧ ent.runs = true ∧ opV.vs1.toNat < 48 ∧ ringExists 0 = true ∧
    (let t : State := { sv 2 with rings := [(0, { Ring.initial with sfu := [(0, [(0, 0)])] })] }
     tget [] (t.ring 0).sfu 0 = (0, 0) :: []) ∧
    (let u : State := { (sv 2).modRing 0 (fun r => { r with sfu := [] }) with cur := 0, entry := 0 }
     u.me.queue.filter (fun x => x.id == u.entry) = [ent] ∧ ent.pend = []) ∧
    (fieldsOf (Entry.instr ent)).isSome = true := by decide

/-! ### Hypotheses: events -/

theorem test_hyp_hartEvents :
    ringExists (0 / 64) = true ∧
    (let h : Hart := { someHart with events := [{ code := 0x20, addr := 0, val := 0 }] }
     h.live = true ∧ h.stopped = false ∧ h.priv = 0 ∧ h.spec = false ∧ h.wait ≠ .remote ∧ ((on0 h).pkg 0).txns = [] ∧
     (on0 h).idleInFork 0 = false ∧ h.events = [] ++ { code := 0x20, addr := 0, val := 0 } :: [] ∧ h.tvec ≠ 0) ∧
    (let h : Hart := { someHart with wait := .recv, rxwdog := 5, rxCount := 5 }
     h.live = true ∧ h.wait = .recv ∧ h.rxwdog ≠ 0 ∧ h.rxwdog.toNat ≤ h.rxCount) ∧
    (let h : Hart := { someHart with retiring := true }
     h.retiring = true ∧ h.stopped = false ∧ h.queue = []) ∧
    (let h : Hart := { someHart with wait := .wfe }
     h.wait = .wfe ∧ h.latch = false) ∧
    ({ someHart with stopped := true } : Hart).stopped = true ∧
    (let s : State := { s0 with cores := [(0, { Core.initial with outBuf := some { len := 1, data := [] } })] }
     (s.core 0).fused = false ∧ (s.core 0).outBuf = some { len := 1, data := [] } ∧ (s.core (0 / 8 * 8 + s.nextLive 0 0)).landing = none) := by
  decide

/-- Chunk 1 of the fork above, waiting, and the same started but not verified. -/
abbrev chunk1 (st : ChunkState) : Chunk :=
  { num := 1, state := st, hart := 8, i := 2, starts := [], verified := false, ends := none, bytes := [], marks := [], clears := [], reads := [], parts := []
    exited := false, fenced := false, vvOpen := false, noRoom := false }
/-- Chunk 0 at its end. -/
abbrev chunk0 (st : ChunkState) : Chunk :=
  { num := 0, state := st, hart := 0, i := 2, starts := [], verified := true, ends := some [], bytes := [], marks := [], clears := [], reads := [], parts := []
    exited := false, fenced := false, vvOpen := false, noRoom := false }
/-- A fork with these chunks. -/
abbrev forkOf (cs : List Chunk) (created : Nat) : Fork := { someChunks with chunks := cs, created := created }

theorem test_hyp_chunkEvents :
    (forkOf [chunk0 .oldest] 0).last = none ∧ (forkOf [chunk0 .oldest] 0).created + 1 < (forkOf [chunk0 .oldest] 0).count ∧
    (chunk0 .oldest).num = (forkOf [chunk0 .oldest] 0).created ∧ (chunk0 .oldest).state ≠ .waiting ∧
    (let f := forkOf [chunk0 .oldest, chunk1 .waiting] 1
     let s : State := { s0 with rings := [(0, { Ring.initial with fork := some f })] }
     f.chunk? 1 = some (chunk1 .waiting) ∧ 1 ≠ f.oldest ∧ 8 / 8 = s.chunkCore 0 f 1 ∧ (s.hart 8).live = false) ∧
    ((forkOf [chunk0 .ended, chunk1 .spec] 1).chunk? 1 = some (chunk1 .spec) ∧ (chunk1 .spec).verified = false ∧
      ((forkOf [chunk0 .ended, chunk1 .spec] 1).chunk? 0).bind (·.ends) = some []) ∧
    ((forkOf [chunk0 .commit, chunk1 .waiting] 1).chunk? (forkOf [chunk0 .commit, chunk1 .waiting] 1).oldest = some (chunk0 .commit) ∧
      (forkOf [chunk0 .commit, chunk1 .waiting] 1).isLast 0 = false ∧
      (forkOf [chunk0 .commit, chunk1 .waiting] 1).chunk? 1 = some (chunk1 .waiting)) ∧
    ({ forkOf [chunk0 .commit] 0 with last := some 0 } : Fork).isLast 0 = true := by decide

/-- A packet of one flit for core 0 from its own ring. -/
abbrev pkt : Packet := { id := 5, dest := 0, header := 0, payload := [], dir := 0, crossed := false, vc := 0, esc := none, notice := false }
/-- A ring with that packet at the stop of position 0. -/
abbrev ringAt (st : Stop) (p : Packet) : Ring := { Ring.initial with packets := [(5, p)], packetSeq := 6, stops := [(0, st)] }

theorem test_hyp_messageEvents :
    (let s : State := { s0 with rings := [(0, ringAt { Stop.empty with inj := [5] } { pkt with dest := 8 })] }
     (s.ring 0).hops 0 0 0 ≠ []) ∧
    (let p : Packet := { pkt with dest := 16, esc := some 0 }
     let g := ringAt { Stop.empty with eject := some 5, ejected := 1 } p
     (g.stop 0 0).eject = some 5 ∧ (g.stop 0 0).ejected = (g.packet 5).flits ∧ legEnd 0 (g.packet 5).dest ≠ 0) ∧
    (let st : Stop := { Stop.empty with eject := some 5, ejected := 1 }
     (ringAt st pkt).arrivals 0 0 = [(0, pkt, st)] ∧ st.resolved = none) ∧
    (let st : Stop := { Stop.empty with eject := some 5, ejected := 1, resolved := some (.handler 0x2000 false 0 0) }
     (ringAt st pkt).arrivals 0 0 = [(0, pkt, st)] ∧ 4 / 8 = 0 ∧ (s0.hart 4).live = false) ∧
    (let st : Stop := { Stop.empty with eject := some 5, ejected := 1, resolved := some .queue }
     (ringAt st pkt).arrivals 0 0 = [(0, pkt, st)] ∧ (s0.core 0).recvQ.length + pkt.payload.length ≤ 256) ∧
    (let s := { sProg { someHart with wait := .recv } with cores := [(0, Core.initial)] }
     (s.ring 0).prog.isSome = true ∧ (s.ring 0).stalled = [] ∧ (s.ring 0).quiet = true ∧ s.quietGate 0 = true ∧ s.allBlocked 0 = true) ∧
    (let s : State := { s0 with pkgs := [(0, { Pkg.initial with dieNet := [pkt] })] }
     (s.pkg 0).dieNet.find? (fun q => destCore q.dest / 8 = 0) = some pkt ∧ ((s.ring 0).stop (ringDir 0 0 0) 0).inj = []) := by decide

/-- A copy in a phase. -/
abbrev copyIn (ph : CopyPhase) (d : List PVal) : Copy := { newCopy 3 0xFF0000000100 0 0 with phase := ph, desc := d, status := 1 }
/-- The machine whose core 0 has that copy. -/
abbrev copying (c : Copy) : State := { s0 with cores := [(0, { Core.initial with copies := [c] })] }

theorem test_hyp_engineEvents :
    (copying (copyIn .kicked [])).copy? 0 3 = some (copyIn .kicked []) ∧ (copyIn .kicked []).phase = .kicked ∧
    (copying (copyIn .moving [])).copy? 0 3 = some (copyIn .moving []) ∧
    (copyIn .adding ((List.range 8).map (fun i => PVal.clean (BitVec.ofNat 64 (0x100 * i))))).bar ≠ 0 ∧
    (copyIn .record []).mbox = 0 ∧ (lget (PVal.clean 0) (copyIn .record []).desc 7).poison = false ∧
    (let c : MergeCmd := { addr := 0, ctx := 0, priv := 0, core := 0, block := [PVal.clean 0], table := [], fault := none }
     let m : MergeRun := { cmd := c, hdr := [], line := 0, entries := 0, cursors := [], flags := 0, begun := false, done := none }
     (s0.ring 0).mergeRun = none ∧ c.block ≠ [] ∧ c.poisoned 7 = false ∧ c.dword 7 = 0 ∧ m.done = none ∧
     ({ m with done := some { status := 1, flags := 0, rows := 0, detail := 0 } } : MergeRun).done ≠ none) := by decide

set_option maxRecDepth 20000 in
theorem test_hyp_engineRead :
    (∃ u d, s0.engineRead (.copy 0 3 0) ((copyIn .kicked []).agent 0) [] false 0xFF0000000100 64 = .ok u d) ∧
    ∃ u c a, s0.engineRead (.copy 0 3 0) ((copyIn .kicked []).agent 0) [] false 0x10000 64 = .fault u c a false := ⟨⟨_, _, rfl⟩, ⟨_, _, _, rfl⟩⟩

set_option maxRecDepth 20000 in
theorem test_hyp_cacheEvents :
    ringExists (0 / 8) = true ∧ ringExists (1 / 8) = true ∧ (0 : Nat) / 2048 = 1 / 2048 ∧ (s0.die 0).failed = false ∧
    (s0.line 0 7).persistent = [] ∧ (s0.line 0 7).of 0 < 2 ∧
    (let s : State := { s0 with dies := [(0, { Die.initial with lines := [(7, { held := [(0, 2)], owner := some 0, persistent := [], valid := 1, dirty := 0, unserved := [] })] })] }
     2 ≤ (s.line 0 7).of 0 ∧ (s.line 0 7).owner = some 0 ∧ (s.line 0 7).persistent = []) := by decide

set_option maxRecDepth 20000 in
theorem test_hyp_memoryErrors :
    dieExists 0 = true ∧ 0 ∉ (s0.line 0 7).persistent ∧ (∃ i < 8, (s0.hart (0 * 8 + i)).live = true) ∧
    s0.homeOf 0 (32 * 0) = some (0, true) ∧ 0 ∉ (s0.pkg 0).badSectors ∧
    0 ∈ (({ s0 with pkgs := [(0, { Pkg.initial with badSectors := [0] })] } : State).pkg 0).badSectors ∧ (s0.hart 0).live = true ∧
    (({ s0 with pkgs := [(0, { Pkg.initial with state := 1 })] } : State).pkg 0).state = 1 := by decide

/-- A package that is READY, with a launch record at the head of its Vestibule. -/
abbrev readyPkg (r : Record) : Pkg := { Pkg.initial with state := 1, links := [(0, true)], vestibule := [r] }
/-- A record for one ring program of context 0. -/
abbrev rec0 (m : Option (List Nat)) : Record := { id := 0, words := [0x1000, 5, 0, 0, 0, 0, 0, 0], placed := 0, map := m }

/-- What a boot finds where nothing is fused. -/
abbrev someBoot : BootFindings :=
  { fusedCores := [], halfLaneCores := [], fusedDies := [], fusedSites := [], fusedEdges := [], liveSlices := [0], fusedSlices := [],
    fusedSfus := [] }

theorem test_hyp_packageEvents :
    (0 : Nat) < 128 ∧ (readyPkg (rec0 none)).state = 1 ∧ tget false (readyPkg (rec0 none)).links 0 = true ∧
    (List.replicate 64 (0 : Byte)).length = 64 ∧ ([] : List Byte).length ≠ 64 ∧ (readyPkg (rec0 none)).vestibule.length < 1024 ∧
    (readyPkg (rec0 none)).head = some (.record (rec0 none)) ∧ (rec0 none).map = none ∧
edgeBits someBoot ≠ 0 ∧ Pkg.initial.hot = false ∧ (7 : Nat) % 2 ^ 64 ≠ 0x0FEF0001 ∧
    (∃ e ∈ s0.harts, e.1 / 2 ^ 18 = 0 ∧ e.2.live = true) ∧ ({ Pkg.initial with edge := 1 } : Pkg).edge.getLsbD 0 = true ∧
    (let l : Launch := { id := 4, words := [0, 0, 0, 0], unplaced := 0, running := [], status := 1 }
     [l].find? (fun x => x.id = 4) = some l ∧ dw l.words 3 = 0) := by decide

/-- A record of one ring program at priority 1, and the same as a ring program of priority 0 with save slots. -/
abbrev recHigh (m : Option (List Nat)) : Record := { rec0 m with words := [0x1000, 5, 0x500000000, 0, 0, 0, 0, 0] }
/-- A ring program that a higher record may pre-empt. -/
abbrev lowProg : Program := { hart := 0, launch := 9, ctx := 0, prio := 0, ringidx := 0, seq := 0, record := [0, 0, 0, 0, 0, 0, 0x10000, 0], want := 0 }
/-- What such a pre-emption saved. -/
abbrev savedProg : SavedProgram :=
  { launch := 9, ctx := 0, ringidx := 0, prio := 1, seq := 0, addr := 0x10000, words := lowProg.record, live := [0, 1, 2, 3, 4, 5, 6, 7], want := 0
    harts := [], iter := 0, scopes := [], owned := [], checks := [] }
/-- A package whose only live die has every ring taken, ring 0 by that ring program. -/
abbrev fullDie : State :=
  { s0 with
    pkgs := [(0, readyPkg (recHigh (some [0])))], dies := (List.range 3).map (fun i => (i + 1, { Die.initial with failed := true }))
    rings := (List.range 16).map (fun i => (i, { Ring.initial with
      prog := if i = 0 then some lowProg else none
      mergeQ := if i = 0 then [] else [{ addr := 0, ctx := 0, priv := 0, core := 0, block := [], table := [], fault := none }] })) }

set_option maxRecDepth 20000 in
theorem test_hyp_dispatch :
    (let s : State := { State.reset with pkgs := [(0, readyPkg (recHigh (some [0])))] }
     (s.pkg 0).head = some (.record (recHigh (some [0]))) ∧ s.headRing 0 (.record (recHigh (some [0]))) = some 0 ∧ (recHigh (some [0])).map = some [0]) ∧
    ((fullDie.pkg 0).head = some (.record (recHigh (some [0]))) ∧ (fullDie.ring 0).prog = some lowProg ∧
     fullDie.headRing 0 (.record (recHigh (some [0]))) = none ∧ fullDie.victim 0 (.record (recHigh (some [0]))) = some 0 ∧
     (.record (recHigh (some [0])) : Head).checked = true ∧ fullDie.ringAbroad 0 = false ∧ fullDie.quiesceBusy 0 = false ∧ fullDie.copiesInto 0 = false ∧ fullDie.deliveryDue 0 = false) ∧
    (let s : State := { State.reset with pkgs := [(0, { Pkg.initial with state := 1, saved := [savedProg] })] }
     (s.pkg 0).head = some (.saved savedProg) ∧ s.headRing 0 (.saved savedProg) = some 0) := by decide

/-- A packet on a wire, and a package that has received it. -/
abbrev wirePkt (ty : Nat) : FabPacket := { dst := 0, src := 1, ch := 0, type := ty, seq := 0, txn := 0, payload := [], errors := [] }

/-- A read of package 1 by hart 0 that has sent one packet. -/
abbrev someTxn : Txn :=
  { id := 3, count := 1, who := .scalar 0 0, ctx := 0, kind := 0, amo := 0, pins := [], frames := [(1, 0)], answers := []
    elems := [{ pos := 0, target := 1, la := 8, size := 8, data := 0, cmp := 0 }], resps := []
    sent := [{ num := 65536 * 3 + 1, accept := false, idx := [0] }] }
/-- A message of ring 0 for package 1. -/
abbrev someMessage : Txn := { someTxn with who := .message 0, kind := 4 }
/-- Package 0 READY with that access. -/
abbrev abroad (x : Txn) : State :=
  { State.reset with pkgs := [(0, { Pkg.initial with state := 1, txns := [x], rx := [{ wirePkt 6 with txn := 65536 * 3 + 1, payload := [(5, 0)] }] })] }

theorem test_hyp_fabric :
    (let s : State := { State.reset with wires := [wirePkt 0] }
     s.wires = [] ++ wirePkt 0 :: [] ∧ (wirePkt 0).dst = 0 ∧ sharedUse ((0, 8) :: (s.pkg 0).portUse) ≤ 960) ∧
    (let p : Pkg := { Pkg.initial with state := 1, fabIn := [wirePkt 0], sliceLive := [0, 1, 2] }
     p.state = 1 ∧ p.fabIn = wirePkt 0 :: [] ∧ p.liveSlices ≠ [] ∧ (wirePkt 0).voted p.liveSlices = some (1 * 2 ^ 18) ∧
     (wirePkt 7).voted p.liveSlices = some (1 * 2 ^ 18 + 7 * 2 ^ 9) ∧ (wirePkt 0).voted [] = none) ∧
    (∀ n < 7, nextOf n [] [wirePkt n] = some (wirePkt n)) ∧
    (∀ x ∈ [someTxn, someMessage], ((abroad x).pkg 0).txns.find? (fun z => z.id = x.id) = some x ∧ x.id < 2 ^ 32 ∧ x.who.pkg = 0 ∧
      x.sent = [{ num := 65536 * 3 + 1, accept := false, idx := [0] }] ∧ (abroad x).unreachable 0 (x.goal { num := 65536 * 3 + 1, accept := false, idx := [0] }).1 = true ∧
      ((abroad x).pkg 0).borrows = [] ∧
      nextOf 6 [] ((abroad x).pkg 0).rx = some { wirePkt 6 with txn := 65536 * 3 + 1, payload := [(5, 0)] } ∧
      x.sent.find? (fun y => y.num = 65536 * 3 + 1 && (x.goal y).1 = 1) = some { num := 65536 * 3 + 1, accept := false, idx := [0] }) ∧
    (let s : State := { State.reset with pkgs := [(0, { Pkg.initial with borrows := [someBorrow .granted] })] }
     (s.pkg 0).borrow? 5 = some (someBorrow .granted) ∧ s.unreachable 0 (someBorrow .granted).lender = true) := by decide

/-- A dword at local address 8 of package 0, accepted for package 1's access 0. -/
theorem test_hyp_served :
    ({ State.reset with pkgs := [(0, { Pkg.initial with accepts := [{ requester := 1, txn := 0, unit := 0 }] })] } : State).ServesElement 0
      { wirePkt 0 with payload := [(8 + 3 * 2 ^ 48, 0)] } 8 8 :=
  ⟨by decide, ⟨rfl, by decide⟩, fun i h => by
    have : i = 0 ∨ i = 1 ∨ i = 2 ∨ i = 3 ∨ i = 4 ∨ i = 5 ∨ i = 6 ∨ i = 7 := by omega
    rcases this with rfl | rfl | rfl | rfl | rfl | rfl | rfl | rfl <;> exact ⟨0, true, by decide, by decide⟩, by decide⟩

/-- A window of package 0 for every package, of units 0 and 1, that lets them read; and one that lets nobody. -/
theorem test_hyp_acceptance :
    (let s : State := { State.reset with pkgs := [(0, { Pkg.initial with expw := [(0, 0xC800000000020000)] })] }
     s.homeOf 0 8 ≠ none ∧ (s.pkg 0).isLent 8 = false ∧ (s.pkg 0).isEscrow 8 = false ∧ s.acceptance 0 1 8 0 = 0 ∧ s.acceptance 0 1 8 1 = 2 ∧
     s.acceptance 0 1 (2 ^ 31) 0 = 1 ∧ s.acceptance 0 1 (2 ^ 43) 0 = 3) := by decide

theorem test_hyp_leaseEvents :
    (let p : Pkg := { Pkg.initial with state := 1, lagdest := 0x8000000000000000, leaseIn := [.request 1 5 1 0] }
     p.state = 1 ∧ p.leaseIn = .request 1 5 1 0 :: [] ∧ p.noticesOn = true ∧ lowestFree (p.lends.map (·.id)) ≠ none) ∧
    (let p : Pkg := { Pkg.initial with borrows := [someBorrow .requested] }
     p.named? 5 = some (someBorrow .requested) ∧ (someBorrow .requested).lender = 1 ∧ Pkg.initial.lends = [] ∧ Pkg.initial.named? 5 = none ∧
     (∃ l ∈ ({ Pkg.initial with lends := [{ someLend with marked := true }] } : Pkg).lends, l.marked = true ∧ l.borrower = 1 ∧ l.reqno = 0)) ∧
    ({ Pkg.initial with borrows := [someBorrow .granted] } : Pkg).named? 5 = some (someBorrow .granted) ∧
    (let p : Pkg := { Pkg.initial with lends := [{ someLend with deadline := some 9 }] }
     p.lends.find? (fun x => x.borrower = 1 && x.reqno = 0) = some { someLend with deadline := some 9 } ∧ p.timebase < 9 ∧
     p.lends.find? (fun x => x.borrower = 1 && x.reqno = 0 && !x.marked) = some { someLend with deadline := some 9 } ∧
     Pkg.initial.named? 5 = none) ∧
    (let p : Pkg := { Pkg.initial with borrows := [someBorrow .reclaiming], lends := [{ someLend with deadline := some 0 }] }
     p.borrow? 5 = some (someBorrow .reclaiming) ∧
     ({ State.reset with pkgs := [(1, { Pkg.initial with lends := [{ someLend with borrower := 0, reqno := 5 }] })] } : State).served 0
       (someBorrow .reclaiming) = true ∧ (someBorrow .reclaiming).migrated + 1 < (someBorrow .reclaiming).units * 2 ^ 18 ∧
     p.lend? 5 = some { someLend with deadline := some 0 } ∧ 0 ≤ p.timebase ∧ p.named? 5 = some (someBorrow .reclaiming) ∧
     (someBorrow .reclaiming).migrated ≠ (someBorrow .reclaiming).units * 2 ^ 18 ∧
     ({ someBorrow .reclaiming with migrated := 2 ^ 18 - 1 } : Borrow).migrated + 1 = (someBorrow .reclaiming).units * 2 ^ 18 ∧
     (someBorrow .reclaiming).mbox + 16 ≤ (someBorrow .reclaiming).escrow ∧ (someBorrow .reclaiming).escrow + 2 ^ 30 ≤ 2 ^ 51 ∧
     (someBorrow .reclaiming).escrow % 2 ^ 30 = 0 ∧
     (∀ i < 16, State.reset.agentPlace 0 (0 + i) = some (.at (locDev 0 (0 + i)) .home))) := by decide

/-! ### Hypotheses: forms of one statement, each by itself -/

/-- A sequential fork at its last iteration whose FP64 sum is a NaN, with `NV` enabled. -/
abbrev nanFork : SeqFork :=
  { someFork with
    i := 1, decls := [.red 2 .addF64], parts := [(2, { Partial.start .addF64 with nan := true })]
    saved := { someFork.saved with fstat := 0x3E00 } }

theorem test_hyp_foldTrap :
    let t := on0 { someHart with forks := [nanFork] }
    t.hold .cend = none ∧ nanFork.i + 1 = nanFork.n ∧ (∀ e ∈ t.me.queue, e.frozen = true) ∧ t.me.spec = false ∧
    (foldOf nanFork.saved nanFork.x0 (fun q op => tget (Partial.start op) nanFork.parts q.toNat) 2 .addF64).2 &&&
      nanFork.saved.fstat.extractLsb' 9 5 ≠ 0 ∧
    (on0 { someHart with forks := [nanFork], spec := true }).me.spec = true := by decide

theorem test_hyp_foldDistinct : Distinct [.red 2 .addF64] := by
  intro d hd r hr
  obtain rfl := List.mem_singleton.mp hd
  cases hr
  rfl

/-- A narrowing and a widening conversion, one to E2M1, and `vcvts` with draws; an exact conversion raises nothing that is enabled. -/
theorem test_hyp_conversionForms :
    (let o : VOp := { opV with ty := .f32, vs2 := 0, low := 0x108 }
     o.srcTy = some .f64 ∧ o.part = 1 ∧ o.part * min o.ty.elems Ty.f64.elems < max o.ty.elems Ty.f64.elems) ∧
    (let o : VOp := { opV with ty := .f64, vs2 := 0, low := 0x109 }
     o.srcTy = some .f32 ∧ o.part = 1 ∧ o.part * min o.ty.elems Ty.f32.elems < max o.ty.elems Ty.f32.elems) ∧
    (let o : VOp := { opV with ty := .e2m1, vs2 := 3, low := 0x709 }
     o.srcTy = some .f32 ∧ o.part = 7 ∧ o.part * min o.ty.elems Ty.f32.elems < max o.ty.elems Ty.f32.elems ∧ o.vs2.toNat < 48 ∧ o.vs2 ≠ o.vd) ∧
    ({ opV with ty := .f32, rm := .stoch, vs2 := 0, low := 0x008 } : VOp).rm = .stoch ∧
    (on0 { vecHart 2 with fstat := 0x3E00 }).me.ten ≠ 0 ∧ (sv 2).activeOf ent opV = [0, 1] ∧
    (convert false .s64 .s32 (.mode .rne) false 1).flags = 0 := by decide

/-- A hart of which an element group is under way over the fabric, and one whose entry waits for the receive queue. -/
theorem test_hyp_hartWaits :
    (let h : Hart := { someHart with events := [{ code := 0x20, addr := 0, val := 0 }] }
     let t : Txn := { id := 3, count := 1, who := .vector 0, ctx := 0, kind := 0, amo := 0, pins := [], frames := [(1, 0)], answers := []
                      elems := [{ pos := 0, target := 1, la := 8, size := 8, data := 0, cmp := 0 }], resps := []
                      sent := [{ num := 65536 * 3 + 1, accept := false, idx := [0] }] }
     let s : State := { on0 h with pkgs := [(0, { Pkg.initial with txns := [t] })] }
     s.groupAbroad 0 = true ∧ s.midAccess 0 = false ∧ s.idleInFork 0 = false ∧ (on0 h).groupAbroad 0 = false ∧ (on0 h).entryPc 0 = some 0x2000) ∧
    (let h : Hart := { vecHart 2 with rxwdog := 5, rxCount := 5, queue := [{ ent with insn := 0x400710C0F6000000 }] }
     let s : State := { on0 h with cores := [(0, { Core.initial with recvWait := [vectorPop 0] })] }
     h.rxwdog ≠ 0 ∧ h.rxwdog.toNat ≤ h.rxCount ∧ s.midAccess 0 = false ∧ (s.core 0).recvQ = [] ∧ vectorPop 0 ∈ (s.core 0).recvWait ∧ h.wait ≠ .recv ∧
     h.poppingEntry.isSome = true ∧ s.groupAbroad 0 = false) ∧
    (let h : Hart := { someHart with events := [{ code := 0x23, addr := 0, val := 7 }, { code := 0x22, addr := 9, val := 7 }] }
     h.events = [] ++ { code := 0x23, addr := 0, val := 7 } :: [{ code := 0x22, addr := 9, val := 7 }]) := by decide

/-- Chunk 1 and 2 of a fork with a carried register, started with 0 and 0, where chunk 0 ends with 8: both start again. -/
abbrev carrying : Fork :=
  { forkOf [{ chunk0 .ended with ends := some [(1, PVal.clean 8)], starts := [(1, PVal.clean 0)] },
            { chunk1 .spec with starts := [(1, PVal.clean 0)] },
            { chunk1 .spec with num := 2, hart := 16, i := 4, starts := [(1, PVal.clean 0)] }] 2 with decls := [.carry 1], n := 8 }

theorem test_hyp_delivery :
    (∃ c, carrying.chunk? 1 = some c ∧ c.state = .spec ∧ c.verified = false ∧ c.hart ≠ noHart ∧ c.starts ≠ [(1, PVal.clean 8)]) ∧
    (carrying.chunk? (1 - 1)).bind (·.ends) = some [(1, PVal.clean 8)] ∧ 1 ≠ carrying.oldest ∧
    carrying.chunks.map (·.num) = [0, 1, 2] ∧ carrying.chunks.map (·.hart) = [0, 8, 16] ∧
    carrying.startsOf (1 - 1) = some [(1, PVal.clean 0)] ∧
    ({ carrying with chunks := carrying.chunks.map (fun c => { c with starts := [(1, PVal.clean 8)] }) } : Fork).chunk? 1 =
      some { chunk1 .spec with starts := [(1, PVal.clean 8)] } := by
  refine ⟨⟨{ chunk1 .spec with starts := [(1, PVal.clean 0)] }, ?_⟩, ?_⟩ <;> decide

theorem test_hyp_deliveryDistinct : Distinct carrying.decls ∧ carrying.chunks.Pairwise (fun d e => d.num < e.num) := by
  constructor
  · intro d hd r hr
    obtain rfl := List.mem_singleton.mp hd
    cases hr
    rfl
  · decide

/-- A chunk that has stored a byte of the TCM, with nothing in its way: the last of its fork, and followed by one that waits, by one that is
verified, and by one that has fenced. -/
abbrev stored0 : Chunk := { chunk0 .commit with bytes := [(2 ^ 60 + 0x100, 7)] }
/-- The machine of that fork. -/
abbrev committing (cs : List Chunk) : State :=
  { s0 with rings := [(0, { Ring.initial with fork := some { forkOf (stored0 :: cs) 1 with decls := [.red 2 .addF64] } })] }

theorem test_hyp_commit :
    (∀ cs ∈ ([[], [chunk1 .waiting], [{ chunk1 .spec with verified := true }], [{ chunk1 .ended with verified := true, fenced := true }]] : List (List Chunk)),
      (committing cs).drainBusy 0 0 = false ∧ (committing cs).drainBusy 0 1 = false ∧
      (((committing cs).ring 0).fork.bind (fun f => f.chunk? f.oldest)) = some stored0 ∧ stored0.state = .commit) ∧
    ({ forkOf [stored0] 0 with last := some 0 } : Fork).isLast 0 = true ∧
    (forkOf [stored0, { chunk1 .spec with verified := true }] 1).isLast 0 = false ∧
    (forkOf [stored0, { chunk1 .spec with verified := true }] 1).chunk? (0 + 1) = some { chunk1 .spec with verified := true } := by decide

theorem test_hyp_quiet (cs : List Chunk) (h : ∀ d ∈ cs, d.reads = []) : (committing cs).DrainsQuietly 0 1 stored0 := by
  intro b hb
  obtain rfl := List.mem_singleton.mp hb
  refine ⟨rfl, fun hd => absurd hd (by decide), fun e he g hg d hd _ => ?_⟩
  obtain rfl := List.mem_singleton.mp he
  cases hg
  rcases List.mem_cons.mp hd with rfl | hd
  · exact List.not_mem_nil
  · rw [h d hd]; exact List.not_mem_nil

/-- A copy of 8 bytes of the TCM from 0x100 to 0x200, with a barrier word at 0x100 and a mailbox there. -/
abbrev someDesc : List PVal :=
  [0, 0xFF0000000100, 0xFF0000000200, 0x0001000100000008, 0, 0, 0xFF0000000100, 0xFF0000000100].map PVal.clean

set_option maxRecDepth 20000 in
/-- A copy's descriptor, barrier word and mailbox lie in its own reach. -/
theorem test_hyp_engineReaches (part kind n : Nat) (ph : CopyPhase) (hk : (kind = kLoad ∧ n = 64) ∨ ((kind = kAtomic ∨ kind = kStore) ∧ n = 16)) :
    (copying (copyIn ph someDesc)).EngineReaches (.copy 0 3 part) ((copyIn ph someDesc).agent 0) [] 0xFF0000000100 n kind (tcmBytes n) := by
  rw [show (copyIn ph someDesc).agent 0 = engineAgent 0 0 0 from rfl]
  rcases hk with ⟨rfl, rfl⟩ | ⟨rfl | rfl, rfl⟩ <;>
    exact ⟨⟨fun _ => .home, rfl, fun _ => Holder.noConfusion⟩, translated_refl _, fun l hl hd => absurd hd (by revert hl l; decide), fun _ => rfl, rfl⟩

set_option maxRecDepth 20000 in
theorem test_hyp_copy :
    (let c := copyIn .moving someDesc
     let s := copying c
     s.copyUnderWay 0 c = none ∧ c.ssp = 0 ∧ c.dsp = 0 ∧ c.pieceLen = 8 ∧ c.pos + 8 = c.total ∧ c.fek = false ∧
     (s.copySide 0 c c.ssp kLoad (c.addrAt 1 c.pos) 8).ans = .ok (.device ((tcmBytes 8).map (fun l => Place.at l .home))) ∧
     (s.copySide 0 c c.dsp kStore (c.addrAt 2 c.pos) 8).ans = .ok (.device (((List.range 8).map (fun i => 2 ^ 60 + 0x200 + i)).map (fun l => Place.at l .home))) ∧
     ((List.range 8).map (fun i => 2 ^ 60 + 0x200 + i)).Nodup) ∧
    (let c : Copy := { copyIn .moving someDesc with pos := 4, counted := 0 }
     c.bar ≠ 0 ∧ c.counted < c.pos ∧ c.mbox ≠ 0 ∧ c.mbox % 16 = 0 ∧ (lget (PVal.clean 0) c.desc 7).poison = false) ∧
    (let c := copyIn .moving (someDesc.set 1 (PVal.clean 0x10000))
     (lowestOf ((copying c).spread (c.agent 0) c.pins false kLoad (byteAddrs (c.addrAt 1 c.pos) 8)).bytes).isSome = true) ∧
    (copyIn .record (someDesc.set 7 (PVal.clean 8))).mbox % 16 ≠ 0 ∧
    (let c := copyIn .moving (someDesc.set 0 (PVal.clean 8))
     c.ssp ≠ 0 ∧ tget false ((copying c).pkg 0).links (c.ssp - 1) = false) := by
  refine ⟨⟨by decide, by decide, by decide, by decide, by decide, by decide, rfl, rfl, by decide⟩, ?_, ?_, ?_, ?_⟩ <;> decide

/-- A merge command of one empty stream over one line. -/
abbrev someCmd : MergeCmd :=
  { addr := 0xFF0000000000, ctx := 0, priv := 0, core := 0
    block := [0x100, 0xFF0000000400, 0xFF0000000100, 0, 0, 0, 0xFF0000000200, 0xFF0000000300].map PVal.clean
    table := [0xFF0000000500, 0].map PVal.clean, fault := none }
/-- The header of its output matrix. -/
abbrev someHdr : List PVal := [0x100008000, 0x100000000, 0, 0xFF0000000140, 0xFF0000000180, 0xFF0000000180, 0, 0].map PVal.clean
/-- Its run, at the first pointer. -/
abbrev someMerge : MergeRun :=
  { cmd := someCmd, hdr := someHdr, line := 0, entries := 0, cursors := List.replicate 16 0, flags := 0, begun := false, done := none }
/-- The machine that runs it. -/
abbrev merging (m : MergeRun) : State := { s0 with rings := [(0, { Ring.initial with mergeRun := some m })] }

theorem merging_alone (m : MergeRun) : (merging m).NoForks := by
  intro r
  simp only [State.ring, tget]
  split <;> rfl

set_option maxRecDepth 20000 in
/-- What it writes lies in its own reach: the first pointer, the pointer after the line, `NNZ`, and its mailbox. -/
theorem test_hyp_mergeReaches :
    let reaches := fun (va n val off : Nat) => (merging someMerge).MergeReaches (merging someMerge) 0 0 someCmd.agent
      [{ va := va, n := n, val := val, poison := false }] [(List.range n).map (fun i => 2 ^ 60 + off + i)]
    reaches 0xFF0000000140 4 0 0x140 ∧ reaches 0xFF0000000144 4 0 0x144 ∧ reaches 0xFF0000000110 8 0 0x110 ∧
    reaches 0xFF0000000300 16 (2 ^ 56 + 1) 0x300 :=
  ⟨⟨rfl, rfl, merging_alone _, by decide, by decide⟩, ⟨rfl, rfl, merging_alone _, by decide, by decide⟩,
    ⟨rfl, rfl, merging_alone _, by decide, by decide⟩, ⟨rfl, rfl, merging_alone _, by decide, by decide⟩⟩

set_option maxRecDepth 20000 in
/-- The runs of the statement: a first pointer; a line of no entries, and the end after it; a stream that begins at a poisoned tuple; a command
that starts anew, one that resumes from a record that is none, and one that is rejected; an ended command with a mailbox. -/
theorem test_hyp_mergeRun :
    (someMerge.begun = false ∧ someMerge.entries < 2 ^ 32 ∧ someMerge.widePtr = false ∧ someMerge.nmaj = 1) ∧
    (∃ sc, (someMerge.scanAll 0 (List.range someCmd.ns) (merging someMerge)) = (merging someMerge, [sc]) ∧ sc.wait = false ∧ sc.stops = [] ∧
      sc.tuples = []) ∧
    (someMerge.lineWrites [] = [{ va := 0xFF0000000144, n := 4, val := 0, poison := false }] ∧ someMerge.entryStops [] = []) ∧
    (let c : MergeCmd := { someCmd with table := [0xFF0000000100, 1].map PVal.clean }
     let s : State := { merging someMerge with mem := { cells := [], marks := [(2 ^ 60 + 0x100) / 8] } }
     ∃ sc, (MergeRun.scanAll { someMerge with cmd := c } 0 (List.range c.ns) s).2 = [sc] ∧ (firstStop sc.stops).isSome = true) ∧
    firstBad (mergeConds someCmd someHdr none) = none ∧ someCmd.resume = false ∧
    (firstBad (mergeConds { someCmd with block := someCmd.block.set 6 (PVal.clean 0) } someHdr none)).isSome = true ∧
    (let c : MergeCmd := { someCmd with block := someCmd.block.set 0 (PVal.clean 0x104) }
     c.resume = true ∧ firstBad (mergeConds c someHdr none) = none ∧ (∃ u hdr bad, s0.mergeHeader 0 c = .ok u hdr bad) ∧
     (∃ v d, s0.mergeBlock (.merge 0 (2 ^ 40 + 1)) c (c.dword 6) 192 = .ok v d none ∧ badSpill c 1 d = true)) ∧
    (someCmd.poisoned 7 = false ∧ someCmd.dword 7 ≠ 0 ∧ someCmd.dword 7 % 16 = 0 ∧ someCmd.block ≠ []) := by
  refine ⟨by decide, ⟨_, rfl, rfl, rfl, rfl⟩, ⟨by decide, by decide⟩, ⟨_, rfl, by decide⟩, by decide, by decide, by decide,
    ⟨by decide, by decide, ⟨_, _, _, rfl⟩, ⟨_, _, rfl, by decide⟩⟩, by decide⟩

/-- A line that the vector unit of the hart has asked for in vain twice, one that it has asked for once, and a bad sector that no cache holds. -/
theorem test_hyp_persistent :
    let s := fun (n : Nat) => ({ s0 with dies := [(0, { Die.initial with
      lines := [(7, { held := [], owner := none, persistent := [], unserved := [(1, n)], valid := 0, dirty := 0 })] })] } : State)
    (s 2).requester 0 7 = some 1 ∧ (s 1).requester 0 7 = none ∧
    ({ s0 with pkgs := [(0, { Pkg.initial with badSectors := [0] })],
               dies := [(0, { Die.initial with lines := [(0, { LineTokens.home with valid := 1, dirty := 1 })] })] } : State).badAt
      (locDev 0 (32 * 0)) = false ∧
    ({ s0 with pkgs := [(0, { Pkg.initial with badSectors := [0] })] } : State).badAt (locDev 0 (32 * 0)) = true := by decide

/-- A launch whose programs have halted, with a mailbox that context 0 maps. -/
abbrev someLaunch : Launch := { id := 4, words := [0, 0, 0, 0x100], unplaced := 0, running := [], status := 1 }
/-- The package that holds it, on a die whose context 0 maps address 0 up. -/
abbrev launched : State :=
  { State.reset with
    pkgs := [(0, { Pkg.initial with state := 1, links := [(0, true)], launches := [someLaunch] })]
    dies := [(0, { Die.initial with resident := [some wordContext] })] }

set_option maxRecDepth 20000 in
/-- A launch completes with a record, without one, and with one that cannot be written; a host reaches memory at 0 of the window, and none
beyond the populated memory; a bad record, and one that is checked. -/
theorem test_hyp_launch :
    ((launched.pkg 0).launches.find? (fun x => x.id = someLaunch.id) = some someLaunch ∧ (dw someLaunch.words 3).toNat = 0x100 ∧
     (dw someLaunch.words 2).getLsbD 17 = false) ∧
    (launched.hostPlaces 0 0 8 = some ((List.range 8).map (fun i => Place.at i .home)) ∧ launched.NoForks ∧ (launched.pkg 0).badSectors = []) ∧
    ({ State.reset with pkgs := [(0, { Pkg.initial with memwin := 0xFFFFFF000000000 })] } : State).hostPlaces 0 0 8 = none ∧
    recCount (rec0 none).words = 0 ∧
    (∃ t, launched.checkRecord 0 (rec0 none).words = .bad t) ∧
    (∃ t m, ({ launched with mem := { cells := [(0, 1)], marks := [] } } : State).checkRecord 0 (recHigh none).words = .ok t m) ∧
    (∃ t ps, launched.dispatcherAccess 0 (17 + 4) 0 0x100 16 kStore (List.replicate 16 0) = .ok t ps) := by
  exact ⟨⟨by decide, by decide, by decide⟩, ⟨by decide, fun _ => rfl, by decide⟩, by decide, by decide, ⟨_, rfl⟩, ⟨_, _, rfl⟩, ⟨_, _, rfl⟩⟩
/-- A lease that is granted at both ends; a lender that cannot be reached; a message of which the packet is under way, and one that has
arrived. -/
theorem test_hyp_failures :
    (let s : State := { State.reset with
       pkgs := [(0, { Pkg.initial with lends := [someLend] }), (1, { Pkg.initial with borrows := [{ someBorrow .granted with handle := 0, lender := 0 }] })] }
     s.homeOf 0 8 ≠ none ∧ s.acceptance 0 1 8 1 = 0 ∧ s.acceptance 0 2 8 1 = 1 ∧
     ∃ l ∈ (s.pkg 0).lends, l.base ≤ 8 ∧ 8 < l.base + l.units * 2 ^ 30 ∧ l.marked = false ∧ l.borrower = 1 ∧
       ∃ b ∈ (s.pkg 1).borrows, b.lender = 0 ∧ b.name = l.reqno ∧ b.state ≠ .requested) ∧
    (let q : FabPacket := { dst := 1, src := 0, ch := 0, type := 3, seq := 0, txn := 65536 * 3 + 1, payload := [], errors := [] }
     let s : State := { abroad someMessage with wires := [q] }
     s.undelivered 0 1 (65536 * 3 + 1) = true ∧ s.carried 0 1 (65536 * 3 + 1) = true ∧
     (abroad someMessage).undelivered 0 1 (65536 * 3 + 1) = false ∧ someMessage.kind = 4 ∧ someMessage.sent = [{ num := 65536 * 3 + 1, accept := false, idx := [0] }]) ∧
    (let s : State := { sProg someHart with pkgs := [(0, { Pkg.initial with state := 1, borrows := [someBorrow .reclaiming], leaseIn := [.revoke 1 5] })] }
     (s.programs 0).map (fun e => e.2.ctx) = [(someBorrow .reclaiming).ctx] ∧ (s.pkg 0).leaseIn = .revoke 1 5 :: [] ∧ (s.pkg 0).state = 1) := by decide

/-! ### Hypotheses: accesses that do not translate, forks and rounding -/

/-- A context whose aperture maps its first 64 MiB to a package, so that an access at the end of them goes on into a page with this entry. -/
abbrev straddling (target : Nat) (upper : PVal) : State :=
  { on0 { someHart with x := [(2, PVal.clean 7), (3, PVal.poisoned), (12, PVal.clean 0x3FFFFFC)] } with
    pkgs := [(0, { Pkg.initial with sliceLive := [0] }), (1, { Pkg.initial with sliceLive := [0] })]
    dies := [(0, { Die.initial with resident :=
      [some { wordContext with apLen := 2, vtt := [(0, PVal.clean (BitVec.ofNat 64 (2 ^ 51 + target * 2 ^ 44 + 0x1F))), (1, upper)] }] })] }

set_option maxRecDepth 20000 in
/-- Accesses that do not translate: at their first byte; into a poisoned entry; behind bytes that are refused, that are asked for, and that may not
be sent poisoned. -/
theorem test_hyp_misses :
    let at' := fun (s : State) (kind : Nat) => s.places (s.agentOf 0) (s.heldPins (.scalar 0 0)) kind 0x3FFFFFC 8
    let upper : AccFault := { cause := cPageAbsent, addr := 0x4000000 }
    let below := fun (s : State) (kind : Nat) => okPlaces ((at' s kind).bytes.takeWhile (fun b => b.1 ≠ 0x4000000))
    (∀ kind ∈ [kLoad, kStore, kAtomic], anyRemote (okPlaces ((s0.places (s0.agentOf 0) [] kind 0x10000 8).bytes.takeWhile (fun b => b.1 ≠ 0x10000))) = false) ∧
    (straddling 1 (PVal.clean 0)).hold (.ld 1 12 0) = none ∧ (straddling 1 (PVal.clean 0)).hold (.sd 3 12 0) = none ∧
    (straddling 1 (PVal.clean 0)).me.spec = false ∧ ((straddling 1 (PVal.clean 0)).getX 3).poison = true ∧
    (at' (straddling 1 PVal.poisoned) kLoad).ans = .error { cause := cPoison, addr := 0x3FFFFFC } ∧
    (at' (straddling 1 (PVal.clean 0)) kStore).ans = .error upper ∧ egress (okPlaces (at' (straddling 1 (PVal.clean 0)) kStore).bytes) = true ∧
    anyRemote (below (straddling 1 (PVal.clean 0)) kLoad) = true ∧
    (∃ u, (straddling 1 (PVal.clean 0)).askedBelow (.scalar 0 0) 0 kLoad 0 (at' (straddling 1 (PVal.clean 0)) kLoad) upper = .wait u) ∧
    ∃ u, (straddling 0 (PVal.clean 0)).askedBelow (.scalar 0 0) 0 kLoad 0 (at' (straddling 0 (PVal.clean 0)) kLoad) upper = .refused u 0 6 0 0x3FFFFFC := by
  exact ⟨by decide, by decide, by decide, by decide, by decide, rfl, rfl, by decide, by decide, ⟨_, rfl⟩, ⟨_, rfl⟩⟩

/-- Atomics at an aligned address that no page maps. -/
theorem test_hyp_atomicMisses :
    (∀ p ∈ atomicTable, s0.hold (p.1 1 7 2 .relaxed .s .d) = none) ∧ s0.hold (.cas 0 7 2 .ar .c .w) = none ∧ (s0.getX 7).val.toNat % amoBytes .d = 0 ∧
    (s0.getX 0).poison = false ∧
    (s0.places (s0.agentOf 0) (s0.heldPins (.scalar 0 0)) kAtomic 0x10000 8).ans = .error { cause := cPageAbsent, addr := 0x10000 } :=
  ⟨by decide, by decide, by decide, by decide, rfl⟩

set_option maxRecDepth 20000 in
/-- A line of device memory in which no sector is bad, and one with a bad sector; a fetch of `fencei` on a machine without forks. -/
theorem test_hyp_prefetch :
    (sBoss.xlate (sBoss.agentOf 0) [] false 0 kLoad).ans = .ok (.at 0 .home) ∧ isDev 0 = true ∧ (∀ x ∈ (sBoss.pkg 0).badSectors, x / 4 ≠ 0) ∧
    (∃ x ∈ (({ sBoss with pkgs := [(0, { Pkg.initial with badSectors := [3] })] } : State).pkg 0).badSectors, x / 4 = 0) ∧ sBoss.NoForks ∧
    sBoss.hold .fencei = none := by
  exact ⟨rfl, by decide, by decide, by decide, fun _ => rfl, by decide⟩

/-- A fork nested in a chunk with versions, speculative and not, and in one without; of no iterations, with no fork in the machine. -/
theorem test_hyp_forkInChunk :
    let s := fun (bytes : List (Nat × Byte)) (spec : Bool) => ({ on0 { someHart with spec := spec } with
      rings := [(0, { Ring.initial with fork := some { someChunks with chunks := someChunks.chunks.map (fun c => { c with bytes := bytes }) } })] } : State)
    (s [(2 ^ 60, 1)] true).hold (.forkS 1 0 4) = none ∧ (s [(2 ^ 60, 1)] true).me.spec = true ∧ (s [(2 ^ 60, 1)] true).ownVersions 0 = true ∧
    (s [] false).hold (.forkS 0 1 4) = none ∧ (s [] false).ownVersions 0 = false ∧ s0.ownVersions 0 = false ∧ (s0.getX 0).val.toNat = 0 := by decide

/-- Values between two neighbours: of FP16 between 1 and the next number, above the largest number, and beyond it; a draw below the fraction and one
above it. -/
theorem test_hyp_rounding_neighbours :
    (let unit : Int := min (-12) (eMin .f16 - fracBits .f16)
     let v := scaled false 4097 (-12) unit
     gridAt .f16 unit 0x3C00 < v ∧ v < gridAt .f16 unit 0x3C01 ∧ 0x3C00 ≤ maxMag .f16 ∧
     ((0 : Nat) : Int) < (v - gridAt .f16 unit 0x3C00) * 2 ^ 32 / (gridAt .f16 unit 0x3C01 - gridAt .f16 unit 0x3C00) ∧
     ¬ ((2 ^ 32 - 1 : Nat) : Int) < (v - gridAt .f16 unit 0x3C00) * 2 ^ 32 / (gridAt .f16 unit 0x3C01 - gridAt .f16 unit 0x3C00)) ∧
    (let unit : Int := min 0 (eMin .f16 - fracBits .f16)
     gridAt .f16 unit (maxMag .f16) < scaled false 65505 0 unit ∧ scaled false 65505 0 unit < gridAt .f16 unit (maxMag .f16 + 1) ∧
     gridAt .f16 unit (maxMag .f16 + 1) ≤ scaled false 65536 0 unit) := by decide

/-! ### Hypotheses: updates, traps and stores of the vector unit, dies and the fabric -/

/-- Updates of a reduction register: in a sequential fork, in a chunk, and with the trap for an instruction that is none. -/
theorem test_hyp_updates :
    let f : SeqFork := { someFork with decls := [.red 4 .addS64] }
    let s := on0 { someHart with forks := [f] }
    let c : Chunk := { (chunk0 .oldest) with i := 0 }
    let t : State := { s0 with rings := [(0, { Ring.initial with fork := some { forkOf [c] 0 with decls := [.red 4 .addF64] } })] }
    s.hold (.add 4 4 2) = none ∧ s.hold (.addi 4 4 0xFFFF) = none ∧ s.me.forks = [] ++ f :: [] ∧
    f.decls.find? (fun d => d.reg? == some 4) = some (.red 4 .addS64) ∧
    t.hold (.fadd 4 4 2 .rne .f64) = none ∧ (t.chunkOf 0).isSome = true ∧ (forkOf [c] 0).chunk? c.num = some c ∧
    s.role 0 4 = some (.red 4 .addS64) ∧ s.me.xPending 4 = false ∧
    (∀ q ∈ updateTable s 4 2 0 .rne, RedOp.addS64 ∈ q.2.1 → q.1 ≠ .sub 4 4 2) := by decide

set_option maxRecDepth 20000 in
/-- FP32 sums of two containers, of which the second is inexact in its second element with NX enabled. -/
theorem test_hyp_vectorTrap :
    let s := on0 { vecHart 2 with
      fstat := 0x200
      v := [(2, [(0, PVal.clean 0x3F8000003F800000), (1, PVal.clean 0x3F8000003F800000)]), (3, [(0, PVal.clean 0x3F8000003F800000), (1, PVal.clean 0x000000013F800000)])] }
    let o : VOp := { opV with ty := .f32 }
    let out := fun (c : Nat) => (List.range 2).map (fun i =>
      fpAdd false .f32 .rne (readF false .f32 (elemOf .f32 (s.me.getV 2 c).val i)) (readF false .f32 (elemOf .f32 (s.me.getV 3 c).val i)))
    s.activeOf ent o = [0] ++ 1 :: [] ∧ (∀ y ∈ out 0, y.2 &&& s.me.ten = 0) ∧ out 1 = [lget (0, 0) (out 1) 0] ++ lget (0, 0) (out 1) 1 :: [] ∧ (lget (0, 0) (out 1) 1).2 &&& s.me.ten ≠ 0 ∧
    (lget (0, 0) (out 1) 0).2 &&& s.me.ten = 0 := by
  decide

/-- Its plan with E2M1: 16 elements in 8 bytes. -/
abbrev nibblePlan : ContAt :=
  { cont := 0, badIndex := false, badData := false,
    elems := (List.range 16).map (fun i => ⟨⟨0xFF0000000100 + i / 2, 1, some (i % 2)⟩,
      [(0xFF0000000100 + i / 2, .ok (Place.at (2 ^ 60 + 0x100 + i / 2) .home))]⟩) }

set_option maxRecDepth 20000 in
/-- The elements of a unit-stride store of one container of type E2M1, two to a byte. -/
theorem test_spread_nibbles :
    (sv 1).Spread ent { o := { opV with vs2 := 0, ty := .e2m1 }, form := .unit, load := false } (fun _ i => [2 ^ 60 + 0x100 + i % 16 / 2]) := by
  have one : ∀ i l : Nat, l ∈ [2 ^ 60 + 0x100 + i % 16 / 2] → isDev l = false := by
    intro i l h
    obtain rfl := List.mem_singleton.mp h
    have : ∀ j < 16, isDev (2 ^ 60 + 0x100 + j / 2) = false := by decide
    exact this _ (Nat.mod_lt _ (by decide))
  refine ⟨by decide, ⟨fun _ => .home, fun _ => Holder.noConfusion, ?_⟩, ?_, ?_, ?_, ⟨fun _ => rfl, rfl⟩, ⟨rfl, rfl⟩⟩
  · intro x hx i y hy
    have hx' : x ∈ [nibblePlan] := hx
    obtain rfl := List.mem_singleton.mp hx'
    have hi : i < 16 := (List.getElem?_eq_some_iff.mp hy).1
    have : i = 0 ∨ i = 1 ∨ i = 2 ∨ i = 3 ∨ i = 4 ∨ i = 5 ∨ i = 6 ∨ i = 7 ∨ i = 8 ∨ i = 9 ∨ i = 10 ∨ i = 11 ∨ i = 12 ∨ i = 13 ∨ i = 14 ∨ i = 15 := by omega
    rcases this with rfl | rfl | rfl | rfl | rfl | rfl | rfl | rfl | rfl | rfl | rfl | rfl | rfl | rfl | rfl | rfl <;>
      (cases hy; exact ⟨by decide, rfl⟩)
  · exact translated_refl _
  · intro c _ i l hl
    simp only [State.lineBusy, one i l hl, Bool.false_and]
  · intro c _ i l hl hd
    rw [one i l hl] at hd
    cases hd

/-- An E2M1 store with one half of a byte to each element; a store whose data are poisoned. -/
theorem test_hyp_vectorStoreForms :
    (sv 1).Ready ent { opV with ty := .e2m1 } [2] ∧ (memElem (sv 1).me { opV with vs2 := 0, ty := .e2m1 } .unit 0xFF0000000100 0 3).nib = some 1 ∧
    (memElem (sv 1).me { opV with vs2 := 0, ty := .e2m1 } .strided 0xFF0000000100 0 3).nib = some 0 ∧
    (lget (PVal.clean 0) ((sv 1).operands ent { opV with vs1 := 4 } [4] 0) 0).poison = true ∧
    (∀ j : Fin 8, (2 ^ 60 + 0x100) / 8 * 8 + j.val ∈ tcmBytes 8) :=
  ⟨⟨by decide, by decide, by decide, by decide, by decide, by decide, by decide⟩, by decide, by decide, by decide, by decide⟩

/-- The boss where the context's image lies at 512 MiB and its one page is mapped by an entry there; a die with an orphan line. -/
abbrev sMig : State :=
  { sBoss with
    dies := [(0, { Die.initial with
      resident := [some { wordContext with img := 0x20000000 }]
      orphans := [(5, { sectors := 0b0011, bytes := List.replicate 128 7, marks := 2 })] })]
    mem := { cells := [(0x20000000, 0x1F)], marks := [] } }

set_option maxRecDepth 20000 in
/-- A migration whose one entry lies outside both pages; an orphan line to drain. -/
theorem test_hyp_migration :
    sMig.hold (.pgmig 10 9) = none ∧ (∃ g, sMig.pageOf 0 = (sMig, .ok g) ∧ g.entries = [(0x20000000, 0)] ∧ g.size = 2 ^ 26 ∧ g.pa = 0) ∧
    sMig.physical 0 0 0x20000000 = some (.at 0x20000000 .home) ∧ (∃ p', sMig.pte 0 0 0x20000000 = some p' ∧ p'.poison = false) ∧
    locDev 0 0 + 2 ^ 26 ≤ 0x20000000 ∧ locDev 0 0x4000000 + 2 ^ 26 ≤ 0x20000000 ∧
    (∀ n, (sMig.pkg n).badSectors = []) ∧ (∀ n, (sMig.die n).failed = false) ∧ (∃ line o, (sMig.die 0).orphans = (line, o) :: []) ∧
    sMig.Reaches 0xFF0000000100 192 kStore (tcmBytes 192) := by
  refine ⟨by decide, ⟨_, rfl, by decide, by decide, by decide⟩, by decide, ⟨_, rfl, by decide⟩, by decide, by decide, fun _ => rfl, fun n => ?_, ⟨_, _, rfl⟩,
    reaches_local rfl (translated_refl _) (by decide) (fun _ => rfl) rfl (fresh_of_empty rfl rfl)⟩
  cases n <;> rfl

set_option exponentiation.threshold 3000 in
set_option maxRecDepth 20000 in
/-- A floating-point outer product on FP32 tiles with nothing enabled, and one of an infinity and a zero with `NV` enabled. -/
theorem test_hyp_floatOuter :
    let o : VOp := { opV with ty := .f32 }
    ((owned 9).core 0).mxType = o.ty.code ∧ o.ty.isInt = false ∧ (owned 9).me.vl ≤ 128 ∧ ((owned 9).core 0).mxMvl ≤ 64 ∧ o.vs1.toNat < 48 ∧ o.vs3.toNat < 48 ∧
    (floatStep false .f32 false (PVal.clean 0) (PVal.clean 0x3F800000) (PVal.clean 0x40000000) (0, false) (0, false)) = (PVal.clean 0x40000000, 0) ∧
    (floatStep false .f32 true (PVal.clean 0) (PVal.clean 0x3F800000) (PVal.clean 0x40000000) (0, false) (0, false)).1 = PVal.clean 0xC0000000 ∧
    (floatStep false .f32 false (PVal.clean 0) (PVal.clean 0x7F800000) (PVal.clean 0) (0, false) (0, false)).2 &&&
      (on0 { vecHart 2 with fstat := 0x2000 }).me.ten ≠ 0 := by decide

set_option exponentiation.threshold 3000 in
/-- The first column of a factorisation of zeros: a zero pivot in row 0. -/
theorem test_hyp_lu : LuColumn someHart 2 0 0 (fun _ _ => PVal.clean 0) (fun _ _ => PVal.clean 0) false true 0 ∧ ({ opV with low := 1 } : VOp).lowBits 0 0 = 1 := by
  refine ⟨⟨by simp, by decide, fun _ => ⟨by decide, by decide, fun i _ h => ?_, fun i _ h => absurd h (by omega)⟩, by decide, fun i j hi hj => ?_, rfl⟩, by decide⟩
  · exact (by decide : magAbove (readF someHart.ftz .f32 0) (readF someHart.ftz .f32 0) = false)
  · simp only [ite_self, Bool.false_eq_true, and_false, ite_false, PVal.clean, if_true]
    repeat' split
    all_goals rfl

/-- A word for a `vsfu` of the receive queue; one whose word another entry waits for first. -/
theorem test_hyp_sfuQueue :
    let o : VOp := { opV with vs1 := 49, vs2 := 0, ty := .f32 }
    svQ.activeOf ent o = [0, 1] ∧ (svQ.core 0).recvQ ≠ [] ∧ (∀ k ∈ (svQ.core 0).recvWait, k = vectorPop svQ.cur) ∧ ((sv 2).core 0).recvQ = [] ∧
    (sv 0).activeOf ent o = [] ∧ (∀ c ∈ svQ.activeOf ent o, (svQ.gives ent o 49 c).isSome = true) ∧
    (svQ.core 0).landing = some { len := 1, data := [(0, PVal.clean 7)] } := by decide

set_option exponentiation.threshold 3000 in
set_option maxRecDepth 20000 in
/-- Operands of each row of the special cases, in FP32. -/
theorem test_hyp_specialCases :
    readF false .f32 0x7FC00000 = .nan false ∧ readF false .f32 0xFF800000 = .inf true ∧ readF false .f32 0x80000000 = .fin true 0 (-149) ∧
    readF false .f32 0xBF800000 = .fin true (2 ^ 23) (-23) ∧ (2 ^ 23) * 2 ^ ((-23 : Int) + 2000).toNat = 1 * 2 ^ 2000 ∧
    readF false .f32 0x3F000000 = .fin false (2 ^ 23) (-24) ∧ 2 * (2 ^ 23 * 2 ^ ((-24 : Int) + 2000).toNat) = (2 * 0 + 1) * 2 ^ 2000 := by decide

/-- Die 1 fails: launch 3 has a ring program on it, launch 4 one on die 0, whose caches hold a modified line of die 1's memory. -/
abbrev failing : State :=
  let prog := fun (h l : Nat) => ({ hart := h, launch := l, ctx := 0, prio := 0, ringidx := 0, seq := 0, record := [], want := 0 } : Program)
  let launch := fun (n : Nat) => ({ id := n, words := [0, 0, 0, 0], unplaced := 1, running := [0], status := 0 } : Launch)
  { s0 with
    pkgs := [(0, { Pkg.initial with
      state := 1, alertctl := 0x8000000000000005, launches := [launch 3, launch 4], vestibule := [{ rec0 none with id := 9 }] })]
    dies := [(0, { Die.initial with lines := [((0x4000000000 + 0x80) / 128, { LineTokens.home with valid := 3, dirty := 1 })] })]
    rings := [(0, { Ring.initial with prog := some (prog 0 4) }), (ringKey 1 0, { Ring.initial with prog := some (prog (64 * ringKey 1 0) 3) })] }

set_option maxRecDepth 20000 in
theorem test_hyp_dieFailure :
    dieExists 1 = true ∧ (failing.die 1).failed = false ∧ (failing.pkg 0).state = 1 ∧ dieOfRing (ringKey 1 0) = 1 ∧ dieOfRing 0 = 0 ∧
    (∃ q ∈ failing.rings, dieOfRing q.1 = 1 ∧ ∃ g, q.2.prog = some g ∧ g.launch = 3) ∧
    (failing.die 0).lines.filter (fun y => y.1 = 0x80000001) = (failing.die 0).lines ∧ 0x80000001 * 128 % 2 ^ 52 / 0x4000000000 = 1 ∧
    (∃ l ∈ (failing.pkg 0).launches, l.id = 4) ∧ (∃ q, (failing.ring 0).prog = some q ∧ dieOf q.hart ≠ 1 ∧ (failing.hart q.hart).live = true) ∧
    (failing.pkg 0).alertctl.getLsbD 63 = true ∧ ((failing.pkg 0).msixDword (2 * 5 + 1)).getLsbD 32 = true := by
  exact ⟨by decide, by decide, by decide, by decide, by decide, by decide, by decide, by decide, by decide, ⟨_, rfl, by decide, by decide⟩, by decide, by decide⟩

set_option maxRecDepth 20000 in
/-- Responses of each kind: one in whose flit no slice is right, one at a package that is `DOWN`, one of an UNPIN; and an UNPIN whose flit is
uncorrectable. -/
theorem test_hyp_responses :
    let w : FabPacket := { wirePkt 6 with txn := 65536 * 3 + 1, payload := [(5, 0)], errors := [(0, 3)] }
    let n : Unpin := { num := 65536 * 3 + 1, who := .scalar 0 0, ctx := 0, target := 1, la := 8 }
    w.badFlit 0 = true ∧ (wirePkt 5).badFlit 0 = false ∧ nextOf 5 [] [{ wirePkt 5 with errors := [(0, 3)] }] = some { wirePkt 5 with errors := [(0, 3)] } ∧
    ([n].find? (fun n => n.num = w.txn) = some n) ∧ n.who.pkg = 0 ∧ (∀ m ∈ ([] : List Unpin), m.num ≠ w.txn) ∧
    nextOf 6 [] [w] = some w ∧ ({ Pkg.initial with down := true } : Pkg).down = true ∧ State.reset.cutOff 0 = true ∧
    ({ State.reset with pkgs := [(0, { Pkg.initial with sliceLive := [0] })] } : State).cutOff 0 = false ∧
    (∃ pr, ((sProg someHart).ring (Who.scalar 0 0).ring).prog = some pr) ∧ (Who.scalar 0 0).isHart = true := by
  exact ⟨by decide, by decide, by decide, by decide, by decide, by decide, by decide, by decide, by decide, by decide, ⟨_, rfl⟩, by decide⟩

/-- What a package that is not `DOWN` sends: a request leaves it at once. -/
theorem test_hyp_injected :
    let s : State := { State.reset with pkgs := [(0, { Pkg.initial with sliceLive := [0] }), (1, { Pkg.initial with sliceLive := [0] })] }
    (∃ r ∈ (s.sendPacket 0 { wirePkt 0 with dst := 1 }).wires, r ∉ s.wires ∧ r.type ≠ 6) := by decide

/-- An agent that has asked for two lines in vain, and for one of them once more. -/
theorem test_hyp_attempts :
    let l := fun (n : Nat) => ({ LineTokens.home with unserved := [(1, n)] } : LineTokens)
    let s : State := { s0 with dies := [(0, { Die.initial with lines := [(7, l 1), (8, l 1)] })] }
    let t : State := { s0 with dies := [(0, { Die.initial with lines := [(7, l 2), (8, l 1)] })] }
    tget 0 (t.line 0 7).unserved 1 ≠ tget 0 (s.line 0 7).unserved 1 ∧ tget 0 (t.line 0 8).unserved 1 = tget 0 (s.line 0 8).unserved 1 ∧
    tget 0 ((s.afterAttempt t 1).line 0 7).unserved 1 = 2 ∧ tget 0 ((s.afterAttempt t 1).line 0 8).unserved 1 = 0 := by decide

/-! ### Hypotheses: the whole machine -/

/-- `add x5, x6, x7` at address 0, the next issue opportunity fixed. -/
abbrev placed : State := State.reset.placeWord 32 0x04A63800

/-- The hart of a word as the step has it: some time has passed, and the core has taken its opportunity. -/
theorem test_hyp_step :
    placed.agenda = .issue 0 :: [] ∧ ringExists (0 / 8) = true ∧ (placed.core 0).strict = false ∧
    (List.range 8).map (fun i => 0 * 8 + ((placed.core 0).last + 1 + i) % 8) = [] ++ 0 :: [1, 2, 3, 4, 5, 6, 7] ∧
    (placed.hart 0).wait = .none ∧ (placed.hart 0).live = true ∧
    (∃ t bs, placed.fetch 0 0 0 4 = .ok t bs ∧ word (BitVec.ofNat 32 (bytesToNat bs)) = some (.add 5 6 7)) ∧
    (∀ k, (placed.pkg k).agentWrites = [] ∨ k = 0) ∧ (∀ p, eventPkg (.chunkCreate 0) = some p → (placed.pkg p).state = 1) := by
  refine ⟨by decide, by decide, by decide, by decide, by decide, by decide, ⟨_, _, rfl, by decide⟩, fun k => ?_, ?_⟩
  · cases k with
    | zero => exact Or.inr rfl
    | succ n => exact Or.inl rfl
  · intro p h
    cases h
    decide

theorem test_hyp_mayIssue : placed.elapse.mayIssue 0 = true ∧ placed.elapse.eventReady 0 = false := ⟨rfl, rfl⟩

theorem test_hyp_vectorStep :
    (∃ e, ({ (State.reset.placeWord 64 0x00040000F9020000).elapse with byGroup := false } : State).workable 0 0 = some e) ∧
    ∃ e, ({ (State.reset.placeWord 64 0x00040000F9020000).elapse with byGroup := true } : State).workable 0 0 = some e := ⟨⟨_, rfl⟩, ⟨_, rfl⟩⟩

theorem test_hyp_roundTrip :
    Instr.wf (.add 5 6 7) = true ∧ encodeWord (.add 5 6 7) = some 0x04A63800 ∧ Instr.wf (.vadd opV) = true ∧
    (encodeMember (.vadd opV)).isSome = true := by decide

theorem test_hyp_canonical : State.reset.Canonical ∧ placed.Canonical := by unfold State.Canonical; decide

/-! ### Single steps -/

/-- The state an instruction leaves, or the state after reset where it stops. -/
abbrev after (o : Out) : State := match o with
  | .next t => t
  | _ => State.reset

/-- A hart with two registers. -/
abbrev two (a b : Word) : State := on0 { someHart with x := [(1, PVal.clean a), (2, PVal.clean b)] }

/-- The examples of R71. -/
theorem test_division :
    (after (exec (.div 3 1 2) (two (-7) 2))).getX 3 = PVal.clean (-3) ∧ (after (exec (.rem 3 1 2) (two (-7) 2))).getX 3 = PVal.clean (-1) ∧
    (after (exec (.div 3 1 2) (two (-7) 0))).getX 3 = PVal.clean (-1) ∧ (after (exec (.rem 3 1 2) (two (-7) 0))).getX 3 = PVal.clean (-7) ∧
    (after (exec (.remu 3 1 2) (two (-7) 0))).getX 3 = PVal.clean 0xFFFFFFFFFFFFFFF9 ∧
    (after (exec (.div 3 1 2) (two 0x8000000000000000 (-1)))).getX 3 = PVal.clean 0x8000000000000000 := by decide

/-- `x0` discards what is written to it (R10). -/
theorem test_x0 : (after (exec (.add 0 1 2) (two 1 2))).getX 0 = PVal.clean 0 := by decide

/-- A source that is also the destination: `jalr` forms its target from the old value (R74). -/
theorem test_jalr : (after (exec (.jalr 1 1 4) (two 0x2000 0))).me.pc = 0x2004 ∧ (after (exec (.jalr 1 1 4) (two 0x2000 0))).getX 1 = PVal.clean 0x1004 := by
  decide

set_option maxRecDepth 20000 in
/-- A `cas.w` as in the example of R78: the low words agree, and `x1` is left as it was. -/
theorem test_cas :
    let s : State := { on0 { someHart with x := [(1, PVal.clean 0xFFFFFFFF80000000), (2, PVal.clean 5), (6, PVal.clean 0xFF0000000100)] } with
      mem := { cells := [(2 ^ 60 + 0x103, 0x80)], marks := [] } }
    (after (exec (.cas 1 6 2 .relaxed .p .w) s)).getX 1 = PVal.clean 0xFFFFFFFF80000000 ∧
    (after (exec (.cas 1 6 2 .relaxed .p .w) s)).mem.cells = [(2 ^ 60 + 0x100, 5)] := by decide

set_option maxRecDepth 20000 in
/-- `ecall` enters the trap handler as R84 and R137 say. -/
theorem test_ecall :
    (after (exec .ecall s0)).me.pc = 0x2000 ∧ (after (exec .ecall s0)).me.tpc = 0x1000 ∧ (after (exec .ecall s0)).me.tcause = 12 ∧
    (after (exec .ecall s0)).me.priv = 1 ∧ (after (exec .ecall s0)).me.ppriv = 0 := by decide

set_option maxRecDepth 20000 in
/-- Step 4 of the example of R177: the second arrival of two completes the word. -/
theorem test_bararv :
    let s : State := { on0 { someHart with x := [(1, PVal.clean 0x0001000000002000), (6, PVal.clean 0xFF0000000100)] } with
      mem := (Mem.setNum { cells := [], marks := [] } (2 ^ 60 + 0x100) 8 0x0001000000006000).setNum (2 ^ 60 + 0x108) 8 0x0002000000008000 }
    (after (exec (.bararv 6 1) s)).mem.num (2 ^ 60 + 0x100) 8 = 0 ∧
    (after (exec (.bararv 6 1) s)).mem.num (2 ^ 60 + 0x108) 8 = 0x8002000000008000 := by decide

set_option maxRecDepth 20000 in
/-- The first and fourth rows of the table of R133. -/
theorem test_setvlf :
    let s := fun (n : Word) (m : BitVec 128) => on0 { vecHart 2 with queue := [{ ent with x := PVal.clean n }], m := [(7, m)] }
    let o : VOp := { vd := 1, vs1 := 7, vs2 := 0, vs3 := 0, mask := 15, ty := .s8, z := false, rm := .rne, x := 2, low := 0 }
    (after (exec (.setvlf o) (s 10 0b1001000100))).me.vl = 10 ∧ (after (exec (.setvlf o) (s 10 0b1001000100))).me.getM 7 = 0b10001001 ∧
    (after (exec (.setvlf o) (s 200 0))).getX 1 = PVal.clean 0x180 ∧ (after (exec (.setvlf o) (s 200 0))).me.vl = 128 := by decide

set_option maxRecDepth 100000 in
/-- The digest of the three bytes `abc` begins as FIPS 202 gives it (R319). -/
theorem test_sha3 : (sha3 [0x61, 0x62, 0x63]).take 2 = [0x3a, 0x98] := by decide

set_option maxRecDepth 20000 in
/-- The worked sum of R36 and R37: on the tree 1.0 with NX, in sequence 0.0 in the last element. -/
theorem test_tree :
    let s := on0 { vecHart 2 with v := [(5, [(0, PVal.clean 0x3F8000004B800000), (1, PVal.clean 0xCB8000003F800000)])] }
    let o : VOp := { vd := 4, vs1 := 5, vs2 := 0, vs3 := 0, mask := 15, ty := .f32, z := false, rm := .rne, x := 0, low := 0 }
    (after (exec (.vfred o) s)).me.getV 4 0 = PVal.clean 0x3F800000 ∧ (after (exec (.vfred o) s)).me.fstat = 1 ∧
    ((after (exec (.vfscan o) s)).me.getV 4 1).val.toNat / 2 ^ 32 = 0 := by decide

end Sys2Proof.Tests
end

section
/-! SUPPORT. Reading a system register after writing it (R13): what the fields keep of a value, then the table
of the written fields, row by row. -/

namespace Sys2Proof.Machine

/-! ### What the fields keep of a value -/

/-- The `FSTAT` that a write leaves: `RM` stays where the value's is 5, 6 or 7, and the reserved bits are zero (R16). -/
theorem fstatWrite_eq (old w : Word) :
    fstatWrite old w = if 5 ≤ w.toNat / 32 % 8 then (w &&& 0x3F1F) ||| (old &&& 0xE0) else w &&& 0x3FFF := by
  have hrm : ((w &&& 0x3FFF).extractLsb' 5 3).toNat = w.toNat / 32 % 8 := by
    rw [BitVec.extractLsb'_toNat, Nat.shiftRight_eq_div_pow, BitVec.toNat_and,
      show (0x3FFF : Word).toNat = 2 ^ 14 - 1 from rfl, Nat.and_two_pow_sub_one_eq_mod]
    omega
  have hkept : w &&& 0x3FFF &&& 0xFFFFFFFFFFFFFF1F = w &&& (0x3F1F : Word) := by rw [BitVec.and_assoc]; rfl
  simp only [fstatWrite, hrm, hkept]

/-- The low `n` bits of a word, as a number and as a mask. -/
theorem ofNat_mod_two_pow (w : Word) (n : Nat) : BitVec.ofNat 64 (w.toNat % 2 ^ n) = w &&& BitVec.ofNat 64 (2 ^ n - 1) := by
  rw [← Nat.and_two_pow_sub_one_eq_mod, BitVec.ofNat_and, BitVec.ofNat_toNat, BitVec.setWidth_eq]

/-- The `HCTL` that a write leaves: `VQDEPTH` stays where the value's is outside 4 to 16 (R18). -/
theorem hctlWrite_eq (old w : Word) :
    hctlWrite old w = if 4 ≤ w.toNat % 32 ∧ w.toNat % 32 ≤ 16 then w &&& 0x1F else old := by
  simp only [hctlWrite, show BitVec.ofNat 64 (w.toNat % 32) = w &&& 0x1F from ofNat_mod_two_pow w 5]

/-- A counter register keeps bits 31:0. -/
theorem ofNat_low32 (w : Word) : BitVec.ofNat 64 (low32 w) = w &&& 0xFFFFFFFF := ofNat_mod_two_pow w 32

/-- A flag register keeps bit 0. -/
theorem boolWord_getLsbD_zero (w : Word) : boolWord (w.getLsbD 0) = w &&& 1 := by
  rw [show w &&& 1 = w &&& 1#64 from rfl, BitVec.and_one_eq_setWidth_ofBool_getLsbD]
  cases w.getLsbD 0 <;> rfl

/-! ### The buffer of a solve slot (R197) -/

/-- Whatever context writes a solve buffer owns the slot afterwards. -/
@[simp] theorem setBuffer_owner (v : SolveSlot) (ctx : Nat) (w : Word) : (v.setBuffer ctx w).owner = ctx := by
  unfold SolveSlot.setBuffer
  split
  · assumption
  · rfl

/-- A write by another context than the owner ends the solve of the slot. -/
theorem setBuffer_of_owner_ne (v : SolveSlot) (ctx : Nat) (w : Word) (h : v.owner ≠ ctx) :
    (v.setBuffer ctx w).svalid = false ∧ (v.setBuffer ctx w).active = false := by
  rw [SolveSlot.setBuffer, if_neg h]
  exact ⟨rfl, rfl⟩

@[simp] theorem setBuffer_len (v : SolveSlot) (ctx : Nat) (w : Word) : (v.setBuffer ctx w).len = (w.extractLsb' 48 16).toNat := by
  unfold SolveSlot.setBuffer
  split <;> rfl

@[simp] theorem setBuffer_base (v : SolveSlot) (ctx : Nat) (w : Word) : (v.setBuffer ctx w).base = (w.extractLsb' 0 48).toNat := by
  unfold SolveSlot.setBuffer
  split <;> rfl

@[simp] theorem slot_modSlot_same (c : Core) (n : Nat) (f : SolveSlot → SolveSlot) : (c.modSlot n f).slot n = f (c.slot n) :=
  tget_tput_same _ _ _ _

/-- A buffer register reads back the whole word that its write stored as length and base. -/
theorem solveReg_setBuffer (c : Core) (n ctx : Nat) (w : Word) (hn : n < 4) :
    solveReg (c.modSlot n (fun v => v.setBuffer ctx w)) n = w := by
  have hdiv : n / 4 = 0 := by omega
  have hmod : n % 4 = n := by omega
  simp only [solveReg, hdiv, hmod, slot_modSlot_same, setBuffer_len, setBuffer_base]
  apply BitVec.eq_of_toNat_eq
  simp only [BitVec.extractLsb'_toNat, Nat.shiftRight_eq_div_pow, BitVec.toNat_ofNat]
  have := w.isLt
  omega

/-- `SVBUFn` is the buffer register of slot n (R197). -/
theorem sysRead_svbuf (s : State) (k n : Nat) (hn : n < 4) :
    s.sysRead k (0x60 + n) = some (solveReg (s.core (coreOf k)) n) := by
  match n, hn with
  | 0, _ | 1, _ | 2, _ | 3, _ => rfl

theorem sysWrite_svbuf (s : State) (k n : Nat) (w : Word) (hn : n < 4) :
    s.sysWrite k (0x60 + n) w = s.modCore (coreOf k) (fun c => c.modSlot n (fun v => v.setBuffer (s.hart k).ctx w)) := by
  match n, hn with
  | 0, _ | 1, _ | 2, _ | 3, _ => rfl

/-! ### `CTXCTL` (R19) -/

theorem mem_sins_self (k : Nat) (l : List Nat) : k ∈ sins k l := by
  induction l with
  | nil => simp [sins]
  | cons a r ih =>
    simp only [sins]
    split
    · simp [*]
    · split <;> simp [ih]

theorem not_mem_sdel_self (k : Nat) (l : List Nat) : k ∉ sdel k l := by simp [sdel]

/-- A write of `CTXCTL` that takes effect sets the writer's `EXPERT` to bit 0 of the value. -/
theorem expert_sysWrite_ctxctl (s : State) (k : Nat) (w : Word) (h : s.othersOfContext k = false) :
    (s.sysWrite k 0x30 w).expert k = w.getLsbD 0 := by
  have hw : s.sysWrite k 0x30 w = s.modPkg (pkgOf k) (fun p => { p with
      expert := if w.getLsbD 0 then sins (s.hart k).ctx p.expert else sdel (s.hart k).ctx p.expert }) := by
    simp only [State.sysWrite, h, Bool.false_eq_true, if_false]
  rw [hw, State.expert, pkg_modPkg_same]
  cases w.getLsbD 0
  · simpa only [Bool.false_eq_true, if_false, List.contains_eq_mem, decide_eq_false_iff_not] using not_mem_sdel_self _ _
  · simpa only [if_true, List.contains_eq_mem, decide_eq_true_eq] using mem_sins_self _ _

/-- A write of `CTXCTL` while another hart of the context is live is lost. -/
theorem sysWrite_ctxctl_of_others (s : State) (k : Nat) (w : Word) (h : s.othersOfContext k = true) : s.sysWrite k 0x30 w = s :=
  if_pos h

/-! ### Reading back -/

/-- A register reads, after a write of `w`, what its row makes of the value it read before and of `w`. -/
def State.ReadsBack (s : State) (k : Nat) (w : Word) (row : Nat × (Word → Word → Word)) : Prop :=
  ∀ old, s.sysRead k row.1 = some old → (s.sysWrite k row.1 w).sysRead k row.1 = some (row.2 old w)

section
variable {s : State} {k n : Nat} {w : Word}

/-- A register that reads a value of the state reads back what its write makes of that value. -/
theorem readsBack_of_value {keep : Word → Word → Word} (value : State → Word)
    (hread : ∀ t : State, t.sysRead k n = some (value t)) (hwrite : value (s.sysWrite k n w) = keep (value s) w) :
    s.ReadsBack k w (n, keep) := by
  intro old hold
  obtain rfl : value s = old := Option.some.inj ((hread s).symm.trans hold)
  rw [hread, hwrite]

/-- A register whose writes change nothing reads back what it read before. -/
theorem readsBack_of_readOnly (hwrite : s.sysWrite k n w = s) : s.ReadsBack k w (n, fun old _ => old) := by
  intro old hold
  rwa [hwrite]
end

/-! ### The rows of the table -/

/-- The counters of messages, errors and dropped hints, which keep bits 31:0 (R238, R273, R274, R290). -/
theorem readsBack_counter (s : State) (k : Nat) (w : Word) :
    ∀ n ∈ [0x81, 0x90, 0x91, 0x93, 0x94, 0xA0], s.ReadsBack k w (n, fun _ w => w &&& 0xFFFFFFFF) := by
  simp only [List.forall_mem_cons]
  refine ⟨?_, ?_, ?_, ?_, ?_, ?_, List.forall_mem_nil _⟩
  · exact readsBack_of_value (fun t => BitVec.ofNat 64 (t.core (coreOf k)).msgdrop) (fun _ => rfl)
      (by simp only [State.sysWrite, core_modCore_same, ofNat_low32])
  · exact readsBack_of_value (fun t => BitVec.ofNat 64 (t.die (dieOf k)).eccce) (fun _ => rfl)
      (by simp only [State.sysWrite, die_modDie_same, ofNat_low32])
  · exact readsBack_of_value (fun t => BitVec.ofNat 64 (t.die (dieOf k)).eccue) (fun _ => rfl)
      (by simp only [State.sysWrite, die_modDie_same, ofNat_low32])
  · exact readsBack_of_value (fun t => BitVec.ofNat 64 (t.die (dieOf k)).sramce) (fun _ => rfl)
      (by simp only [State.sysWrite, die_modDie_same, ofNat_low32])
  · exact readsBack_of_value (fun t => BitVec.ofNat 64 (t.die (dieOf k)).sramue) (fun _ => rfl)
      (by simp only [State.sysWrite, die_modDie_same, ofNat_low32])
  · exact readsBack_of_value (fun t => BitVec.ofNat 64 (t.core (coreOf k)).hintdrop) (fun _ => rfl)
      (by simp only [State.sysWrite, core_modCore_same, ofNat_low32])

/-- The solve buffers keep the whole value (R197). -/
theorem readsBack_svbuf (s : State) (k : Nat) (w : Word) :
    ∀ n ∈ [0x60, 0x61, 0x62, 0x63], s.ReadsBack k w (n, fun _ w => w) := by
  have hslot (i : Nat) (hi : i < 4) : s.ReadsBack k w (0x60 + i, fun _ w => w) := by
    refine readsBack_of_value (fun t => solveReg (t.core (coreOf k)) i) (fun t => sysRead_svbuf t k i hi) ?_
    rw [sysWrite_svbuf s k i w hi, core_modCore_same]
    exact solveReg_setBuffer _ i _ w hi
  simp only [List.forall_mem_cons]
  exact ⟨hslot 0 (by decide), hslot 1 (by decide), hslot 2 (by decide), hslot 3 (by decide), List.forall_mem_nil _⟩

/-- `EXPWi` is the entry of window i (R337). -/
theorem sysRead_expw (s : State) (k : Nat) :
    ∀ i ∈ List.range 16, s.sysRead k (0xC0 + i) = some (tget 0 (s.pkg (pkgOf k)).expw i) := by
  iterate 16 refine List.forall_mem_cons.2 ⟨rfl, ?_⟩
  exact List.forall_mem_nil _

theorem sysWrite_expw (s : State) (k : Nat) (w : Word) :
    ∀ i ∈ List.range 16, s.sysWrite k (0xC0 + i) w =
      s.modPkg (pkgOf k) (fun p => { p with expw := tput p.expw i (w &&& 0xFFF007FFFFFF0000) }) := by
  iterate 16 refine List.forall_mem_cons.2 ⟨rfl, ?_⟩
  exact List.forall_mem_nil _

/-- The export windows keep their fields (R337). -/
theorem readsBack_expw (s : State) (k : Nat) (w : Word) :
    ∀ i ∈ List.range 16, s.ReadsBack k w (0xC0 + i, fun _ w => w &&& 0xFFF007FFFFFF0000) := by
  intro i hi
  refine readsBack_of_value (fun t => tget 0 (t.pkg (pkgOf k)).expw i) (fun t => sysRead_expw t k i hi) ?_
  rw [sysWrite_expw s k w i hi, pkg_modPkg_same, tget_tput_same]

/-- A register whose access is RO ignores a write (R7, R13). -/
theorem sysWrite_of_readOnly (s : State) (k : Nat) (w : Word) :
    ∀ n ∈ [0x00, 0x01, 0x02, 0x03, 0x04, 0x05, 0x08, 0x12, 0x18, 0x40, 0x41, 0x42, 0x43, 0x51, 0x80, 0xB0, 0xD0] ++
      (List.range 20).map (0x64 + ·), s.sysWrite k n w = s := by
  iterate 37 refine List.forall_mem_cons.2 ⟨rfl, ?_⟩
  exact List.forall_mem_nil _

/-- The table of the written fields says what every register but `CTXCTL` reads after a write. -/
theorem readsBack_writtenTable (s : State) (k : Nat) (w : Word) : ∀ row ∈ writtenTable, s.ReadsBack k w row := by
  refine List.forall_mem_append.2 ⟨List.forall_mem_append.2 ⟨List.forall_mem_append.2 ⟨List.forall_mem_append.2 ⟨?_,
    List.forall_mem_map.2 (readsBack_svbuf s k w)⟩, List.forall_mem_map.2 (readsBack_counter s k w)⟩,
    List.forall_mem_map.2 (readsBack_expw s k w)⟩,
    List.forall_mem_map.2 fun n hn => readsBack_of_readOnly (sysWrite_of_readOnly s k w n hn)⟩
  simp only [List.forall_mem_cons]
  refine ⟨?_, ?_, ?_, ?_, ?_, ?_, ?_, ?_, ?_, ?_, ?_, ?_, ?_, ?_, ?_, List.forall_mem_nil _⟩
  · exact readsBack_of_value (fun t => (t.hart k).fstat) (fun _ => rfl) (by simp only [State.sysWrite, hart_setHart_same, fstatWrite_eq])
  · exact readsBack_of_value (fun t => (t.hart k).vstat) (fun _ => rfl) (by simp only [State.sysWrite, hart_setHart_same])
  · exact readsBack_of_value (fun t => (t.hart k).hctl) (fun _ => rfl) (by simp only [State.sysWrite, hart_setHart_same, hctlWrite_eq])
  · exact readsBack_of_value (fun t => (t.hart k).rxwdog) (fun _ => rfl) (by simp only [State.sysWrite, hart_setHart_same])
  · exact readsBack_of_value (fun t => (t.hart k).tcause) (fun _ => rfl) (by simp only [State.sysWrite, hart_setHart_same, tcauseMask])
  · exact readsBack_of_value (fun t => (t.hart k).tpc) (fun _ => rfl) (by simp only [State.sysWrite, hart_setHart_same, pcMask])
  · exact readsBack_of_value (fun t => (t.hart k).tqpos) (fun _ => rfl) (by simp only [State.sysWrite, hart_setHart_same])
  · exact readsBack_of_value (fun t => (t.hart k).telem) (fun _ => rfl) (by simp only [State.sysWrite, hart_setHart_same])
  · exact readsBack_of_value (fun t => (t.hart k).taddr) (fun _ => rfl) (by simp only [State.sysWrite, hart_setHart_same])
  · exact readsBack_of_value (fun t => (t.hart k).tval) (fun _ => rfl) (by simp only [State.sysWrite, hart_setHart_same])
  · exact readsBack_of_value (fun t => (t.hart k).tvec) (fun _ => rfl) (by simp only [State.sysWrite, hart_setHart_same, pcMask])
  · exact readsBack_of_value (fun t => boolWord (t.core (coreOf k)).strict) (fun _ => rfl)
      (by simp only [State.sysWrite, core_modCore_same, boolWord_getLsbD_zero])
  · exact readsBack_of_value (fun t => (t.die (dieOf k)).ecclog) (fun _ => rfl) (by simp only [State.sysWrite, die_modDie_same])
  · exact readsBack_of_value (fun t => (t.pkg (pkgOf k)).fablog) (fun _ => rfl) (by simp only [State.sysWrite, pkg_modPkg_same])
  · exact readsBack_of_value (fun t => (t.pkg (pkgOf k)).lagdest) (fun _ => rfl) (by simp only [State.sysWrite, pkg_modPkg_same])

/-- Settles O13: the rows of the table, `CTXCTL` by its one field, and the owner of a solve slot by the slot's own operation. -/
theorem systemRegisterWritten : Obligations.SystemRegisterWritten := by
  unfold Obligations.SystemRegisterWritten
  intro s k w old
  refine ⟨fun row hrow => readsBack_writtenTable s k w row hrow old, ?_, ?_, ?_⟩
  · intro halone
    show some (boolWord ((s.sysWrite k 0x30 w).expert k)) = some (w &&& 1)
    rw [expert_sysWrite_ctxctl s k w halone, boolWord_getLsbD_zero]
  · exact sysWrite_ctxctl_of_others s k w
  · intro n hn
    simp only [sysWrite_svbuf s k n w hn, core_modCore_same, slot_modSlot_same, setBuffer_owner, true_and]
    exact setBuffer_of_owner_ne _ _ w

end Sys2Proof.Machine
end

section
/-! SUPPORT. Mask instructions (R108, R109), and what an entry that waits for the landing does: it stays as it is (R193). -/

namespace Sys2Proof.Machine

/-! ### The executing entry -/

section
variable {s : State} {e : Entry} {o : VOp}

/-- An entry that runs gets its instruction's meaning. -/
theorem member_of_runs (hentry : s.entry? = some e) (hruns : e.runs = true) (k : State → Entry → State) :
    s.member k = .next (k s e) := by
  simp only [State.member, hentry, hruns, if_true]

@[simp] theorem me_completed (s : State) (h : Hart) : (s.completed h).me = { h with queue := removeEntry s.entry h.queue } :=
  hart_setHart_same _ _ _

/-- An entry whose hart has become `h` completes. -/
theorem complete_setHart (s : State) (h : Hart) : (s.setHart s.cur h).complete = s.completed h := by
  simp only [State.complete, State.completed, hart_setHart_same, setHart_setHart]

/-- A delivery through the read queue completes the entry with the x register written (R94). -/
theorem completeX_eq_completed (s : State) (d : VReg) (p : PVal) :
    s.completeX d p = s.completed (s.me.setX (d.extractLsb' 0 5) p) := complete_setHart s _

/-- Outside a speculative chunk a trap of an entry is taken with its start index set (R139). -/
theorem trapAt_of_not_spec (hspec : s.me.spec = false) (elem code : Nat) (addr val : Word) :
    s.trapAt elem code addr val = (s.waitAt elem).vtrap s.cur s.entryPos elem code addr val := by
  simp only [State.trapAt, hspec, Bool.false_eq_true, if_false]

/-- An entry that completes with one mask register written changes that register alone. -/
theorem completed_setM (s : State) (n : Nat) (b : BitVec 128) :
    s.completed (s.me.setM n b) = s.completed { s.me with m := (s.completed (s.me.setM n b)).me.m } ∧
    (∀ m, m ≠ n → (s.completed (s.me.setM n b)).me.getM m = s.me.getM m) ∧ (s.completed (s.me.setM n b)).me.getM n = b := by
  rw [me_completed]
  exact ⟨rfl, fun m hm => getM_setM_ne s.me n m b hm, getM_setM_same s.me n b⟩

end

/-! ### Mask instructions (R108, R109) -/

theorem getLsbD_andNot (x y : BitVec 128) (c : Nat) (hc : c < 128) :
    (x &&& ~~~y).getLsbD c = (x.getLsbD c && !y.getLsbD c) := by
  simp only [BitVec.getLsbD_and, BitVec.getLsbD_not, hc, decide_true, Bool.true_and]

/-- Bits 0 to `n` − 1 of one mask over another. -/
theorem getLsbD_mergeBelow (x d : BitVec 128) (n c : Nat) (hc : c < 128) :
    ((x &&& BitVec.ofNat 128 (2 ^ n - 1)) ||| (d &&& ~~~BitVec.ofNat 128 (2 ^ n - 1))).getLsbD c =
      if c < n then x.getLsbD c else d.getLsbD c := by
  have hlow : (BitVec.ofNat 128 (2 ^ n - 1)).getLsbD c = decide (c < n) := by
    simp only [BitVec.getLsbD_ofNat, hc, decide_true, Bool.true_and, Nat.testBit_two_pow_sub_one]
  rw [BitVec.getLsbD_or, getLsbD_andNot _ _ c hc, BitVec.getLsbD_and, hlow]
  by_cases h : c < n <;> simp [h]

/-- One half of a mask replaced by a word: the half that `half` names, 0 or 1. -/
theorem getLsbD_replaceHalf (m : BitVec 128) (w : Word) (half c : Nat) (hhalf : half < 2) (hc : c < 128) :
    (if half = 1 then w ++ m.extractLsb' 0 64 else m.extractLsb' 64 64 ++ w).getLsbD c =
      if c / 64 = half then w.getLsbD (c % 64) else m.getLsbD c := by
  obtain rfl | rfl : half = 0 ∨ half = 1 := by omega
  · rw [if_neg (by decide), BitVec.getLsbD_append]
    by_cases h : c < 64
    · rw [if_pos h, if_pos (by omega), show c % 64 = c by omega]
    · rw [if_neg h, if_neg (by omega), BitVec.getLsbD_extractLsb', show 64 + (c - 64) = c by omega]
      simp [show c - 64 < 64 by omega]
  · rw [if_pos rfl, BitVec.getLsbD_append]
    by_cases h : c < 64
    · rw [if_pos h, if_neg (by omega), BitVec.getLsbD_extractLsb', Nat.zero_add]
      simp [h]
    · rw [if_neg h, if_pos (by omega), show c % 64 = c - 64 by omega]

section
variable {s : State} {e : Entry} (o : VOp)

/-- A mask-to-mask instruction computes each bit below `vl` by itself (R108). -/
theorem vecMask_bitwise (hentry : s.entry? = some e) (hruns : e.runs = true)
    {i : Instr} {f : BitVec 128 → BitVec 128 → BitVec 128} (hexec : exec i s = s.vecMask o f) (g : Bool → Bool → Bool)
    (hbit : ∀ x y : BitVec 128, ∀ c < 128, (f x y).getLsbD c = g (x.getLsbD c) (y.getLsbD c)) :
    ∃ t, exec i s = .next t ∧ t = s.completed { s.me with m := t.me.m } ∧
      (∀ m, m ≠ o.vd.toNat → t.me.getM m = s.me.getM m) ∧
      ∀ c, c < 128 → (t.me.getM o.vd.toNat).getLsbD c =
        if c < s.me.vl then g ((s.me.getM o.vs1.toNat).getLsbD c) ((s.me.getM o.vs2.toNat).getLsbD c)
        else (s.me.getM o.vd.toNat).getLsbD c := by
  obtain ⟨hrest, hother, hsame⟩ := completed_setM s o.vd.toNat
    ((f (s.me.getM o.vs1.toNat) (s.me.getM o.vs2.toNat) &&& BitVec.ofNat 128 (2 ^ s.me.vl - 1)) |||
      (s.me.getM o.vd.toNat &&& ~~~BitVec.ofNat 128 (2 ^ s.me.vl - 1)))
  refine ⟨_, hexec.trans ((member_of_runs hentry hruns _).trans (congrArg _ (complete_setHart s _))), hrest, hother, fun c hc => ?_⟩
  rw [hsame, getLsbD_mergeBelow _ _ _ _ hc, hbit _ _ c hc]

theorem exec_mand_eq (s : State) : exec (.mand o) s = s.vecMask o (fun a b => a &&& b) := rfl
theorem exec_mor_eq (s : State) : exec (.mor o) s = s.vecMask o (fun a b => a ||| b) := rfl
theorem exec_mxor_eq (s : State) : exec (.mxor o) s = s.vecMask o (fun a b => a ^^^ b) := rfl
theorem exec_mandn_eq (s : State) : exec (.mandn o) s = s.vecMask o (fun a b => a &&& ~~~b) := rfl

theorem exec_mpop_eq (hentry : s.entry? = some e) (hruns : e.runs = true) :
    exec (.mpop o) s = .next (s.completed (s.me.setX (o.vd.extractLsb' 0 5)
      (PVal.clean (BitVec.ofNat 64 (s.me.setBits o.vs1.toNat).length)))) := by
  show execMpop o s = _
  rw [execMpop, member_of_runs hentry hruns, completeX_eq_completed]

theorem exec_mffs_eq (hentry : s.entry? = some e) (hruns : e.runs = true) :
    exec (.mffs o) s = .next (s.completed (s.me.setX (o.vd.extractLsb' 0 5)
      (PVal.clean (((s.me.setBits o.vs1.toNat).head?.map (BitVec.ofNat 64)).getD (BitVec.allOnes 64))))) := by
  show execMffs o s = _
  rw [execMffs, member_of_runs hentry hruns, completeX_eq_completed]
  cases (s.me.setBits o.vs1.toNat).head? <;> rfl

theorem exec_mmvx_eq (hentry : s.entry? = some e) (hruns : e.runs = true) :
    exec (.mmvx o) s = .next (s.completed (s.me.setX (o.vd.extractLsb' 0 5)
      (PVal.clean ((s.me.getM o.vs1.toNat).extractLsb' (64 * o.lowBits 0 0) 64)))) := by
  show execMmvx o s = _
  rw [execMmvx, member_of_runs hentry hruns, completeX_eq_completed]

theorem exec_mfromx_of_clean (hentry : s.entry? = some e) (hruns : e.runs = true) (hx : e.x.poison = false) :
    exec (.mfromx o) s = .next (s.completed (s.me.setM o.vd.toNat
      (if o.lowBits 0 0 = 1 then e.x.val ++ (s.me.getM o.vd.toNat).extractLsb' 0 64
        else (s.me.getM o.vd.toNat).extractLsb' 64 64 ++ e.x.val))) := by
  show execMfromx o s = _
  rw [execMfromx, member_of_runs hentry hruns, hx, if_neg Bool.false_ne_true]
  exact congrArg _ (complete_setHart s _)

theorem exec_mfromx_of_poison (hentry : s.entry? = some e) (hruns : e.runs = true) (hx : e.x.poison = true) :
    exec (.mfromx o) s = .next (s.trapAt 0 cPoison 0 5) := by
  show execMfromx o s = _
  rw [execMfromx, member_of_runs hentry hruns, hx, if_pos rfl]

end

/-- Bit 0 of the low field. -/
theorem lowBits_zero_zero (o : VOp) : o.lowBits 0 0 = o.low.toNat % 2 := by
  simp only [VOp.lowBits, Nat.pow_zero, Nat.div_one, Nat.zero_add, Nat.sub_zero, Nat.pow_one]

/-- Settles O39: the four logical operations by their bits, the rest by the state each leaves. -/
theorem maskInstructions : Obligations.MaskInstructions := by
  unfold Obligations.MaskInstructions
  intro o e s hentry hruns
  refine ⟨fun _ => ?_, exec_mpop_eq o hentry hruns, fun hset => ?_, fun c r hset => ?_, ?_, fun hx => ?_, fun hx hspec => ?_⟩
  · simp only [List.forall_mem_cons]
    refine ⟨?mand, ?mor, ?mxor, ?mandn, List.forall_mem_nil _⟩
    case mand => exact vecMask_bitwise o hentry hruns (exec_mand_eq o s) _ fun x y c _ => BitVec.getLsbD_and
    case mor => exact vecMask_bitwise o hentry hruns (exec_mor_eq o s) _ fun x y c _ => BitVec.getLsbD_or
    case mxor => exact vecMask_bitwise o hentry hruns (exec_mxor_eq o s) _ fun x y c _ => BitVec.getLsbD_xor
    case mandn => exact vecMask_bitwise o hentry hruns (exec_mandn_eq o s) (fun a b => a && !b) fun x y c hc => getLsbD_andNot x y c hc
  · have hnone : s.me.setBits o.vs1.toNat = [] := hset
    rw [exec_mffs_eq o hentry hruns, hnone]
    rfl
  · have hfirst : s.me.setBits o.vs1.toNat = c :: r := hset
    rw [exec_mffs_eq o hentry hruns, hfirst]
    rfl
  · rw [exec_mmvx_eq o hentry hruns, lowBits_zero_zero]
  · obtain ⟨hrest, hother, hsame⟩ := completed_setM s o.vd.toNat
      (if o.lowBits 0 0 = 1 then e.x.val ++ (s.me.getM o.vd.toNat).extractLsb' 0 64
        else (s.me.getM o.vd.toNat).extractLsb' 64 64 ++ e.x.val)
    refine ⟨_, exec_mfromx_of_clean o hentry hruns hx, hrest, hother, fun c hc => ?_⟩
    rw [hsame, lowBits_zero_zero]
    exact getLsbD_replaceHalf _ _ _ c (Nat.mod_lt _ (by decide)) hc
  · rw [exec_mfromx_of_poison o hentry hruns hx, trapAt_of_not_spec hspec]

/-! ### An entry that waits for the landing (R193) -/

section
variable {s : State} {e : Entry} {o : VOp}

/-- A compare that must wait changes nothing. -/
theorem exec_vcmp_of_holdsSpec (hentry : s.entry? = some e) (hruns : e.runs = true) (hheld : s.holdsSpec o = true) :
    exec (.vcmp o) s = .next s := by
  show execVcmp o s = _
  rw [execVcmp, State.vecCompare, member_of_runs hentry hruns, if_pos hheld]

/-- A broadcast that must wait changes nothing. -/
theorem exec_vbcast_of_holdsSpec (hentry : s.entry? = some e) (hruns : e.runs = true) (hheld : s.holdsSpec o = true) :
    exec (.vbcast o) s = .next s := by
  show execVbcast o s = _
  rw [execVbcast, member_of_runs hentry hruns, State.elementwise, if_pos hheld]

/-- A special function that must wait changes nothing. -/
theorem exec_vsfu_of_holdsSpec (hentry : s.entry? = some e) (hruns : e.runs = true) (hheld : s.holdsSpec o = true) :
    exec (.vsfu o) s = .next s := by
  show execVsfu o s = _
  rw [execVsfu, member_of_runs hentry hruns, if_pos hheld]

end

/-! ### The counterexample

The model reads "this member reads the landing" off all three source fields, used or not, so that an operand record with the landing in
a field that its instruction does not read waits while the landing is empty. No word decodes to such a record (the unused fields of R95
are 0; `strayLanding_not_legal`), but the three statements below range over every record. -/

/-- An entry that runs, with nothing done yet. -/
def idleEntry : Entry :=
  { id := 0, insn := 0, x := PVal.clean 0, crm := 0, db := false, first := true, ccount := 1, slot := 1, start := 0,
    pend := [], pins := [], frozen := false, started := true, parked := false }

/-- The machine with one hart, whose queue is that entry and whose `vl` is 1; the landing of its core is empty. -/
def emptyLanding : State := { State.reset with harts := [(0, { Hart.empty with live := true, vl := 1, queue := [idleEntry] })] }

/-- Unmasked operand fields that name the landing in `vs3`, which no instruction below reads, and `v0` elsewhere. -/
def strayLanding : VOp :=
  { vd := 0, vs1 := 0, vs2 := 0, vs3 := 48, mask := 15, ty := .s64, z := false, rm := .rne, x := 0, low := 0 }

/-- The three instructions fail the check of their operand fields (R95), which wants `vs3` unused. -/
theorem strayLanding_not_legal :
    ∀ i ∈ ([.vcmp strayLanding, .vbcast strayLanding, .vsfu strayLanding] : List Instr), i.memberLegal = false := by decide

theorem emptyLanding_entry : emptyLanding.entry? = some idleEntry := by decide

theorem emptyLanding_holds_strayLanding : emptyLanding.holdsSpec strayLanding = true := by decide

/-- By the terms of `Ready`, nothing holds an instruction that reads `v0` or no register. -/
theorem emptyLanding_ready (rs : List VReg) (hrs : rs = [] ∨ rs = [0, 0]) : emptyLanding.Ready idleEntry strayLanding rs := by
  obtain rfl | rfl := hrs <;> exact ⟨by decide, by decide, by decide, by decide, by decide, by decide, by decide⟩

/-- The entry still stands in the queue, so that no instruction has completed it. -/
theorem emptyLanding_ne_completed (rs : List VReg) (h : Hart) (hq : h.queue = [idleEntry]) :
    emptyLanding ≠ (emptyLanding.popped idleEntry strayLanding rs).completed h := by
  intro heq
  have hentry : (emptyLanding.popped idleEntry strayLanding rs).entry = emptyLanding.entry := by
    unfold State.popped; split <;> rfl
  have hqueue : emptyLanding.me.queue = removeEntry emptyLanding.entry [idleEntry] := by
    calc emptyLanding.me.queue = ((emptyLanding.popped idleEntry strayLanding rs).completed h).me.queue :=
          congrArg (fun t : State => t.me.queue) heq
      _ = removeEntry emptyLanding.entry [idleEntry] := by rw [me_completed, hentry, hq]
  exact absurd hqueue (by decide)

/-- Refutes O38: `vcmp` of `v0` with itself, the landing named in the field `vs3` that it does not read, waits for the landing; the
statement has it complete. -/
theorem not_vectorCompareResult : ¬ Obligations.VectorCompareResult := by
  unfold Obligations.VectorCompareResult
  intro h
  obtain ⟨hdone, -⟩ := h strayLanding idleEntry emptyLanding _ (List.mem_cons_self ..) (emptyLanding_ready _ (.inr rfl))
  obtain ⟨t, hexec, -, -, hrest⟩ := hdone (by decide)
  rw [exec_vcmp_of_holdsSpec emptyLanding_entry rfl emptyLanding_holds_strayLanding] at hexec
  obtain rfl := Host.Outcome.next.inj hexec
  exact emptyLanding_ne_completed _ _ rfl hrest

/-- Refutes O40: `vbcast` with the landing named in the field `vs3` that it does not read waits for the landing; the statement has it
complete. -/
theorem not_lengthsAndMoves : ¬ Obligations.LengthsAndMoves := by
  unfold Obligations.LengthsAndMoves
  intro h
  obtain ⟨-, -, -, -, -, hbcast, -⟩ := h strayLanding idleEntry emptyLanding emptyLanding_entry rfl
  obtain ⟨t, hexec, hlanes⟩ := hbcast (emptyLanding_ready _ (.inl rfl))
  rw [exec_vbcast_of_holdsSpec emptyLanding_entry rfl emptyLanding_holds_strayLanding] at hexec
  obtain rfl := Host.Outcome.next.inj hexec
  exact emptyLanding_ne_completed _ _ rfl hlanes.rest

/-- Refutes O49: `vsfu` of `v0` with the landing named in the field `vs3` that it does not read waits for the landing; the statement
has its entry parked. -/
theorem not_specialFunctions : ¬ Obligations.SpecialFunctions := by
  unfold Obligations.SpecialFunctions
  rintro ⟨hreq, -⟩
  obtain ⟨hsent, -⟩ := hreq strayLanding idleEntry emptyLanding
  obtain ⟨hregister, -⟩ := hsent emptyLanding_entry rfl (by decide)
  have hexec := hregister (by decide)
  rw [exec_vsfu_of_holdsSpec emptyLanding_entry rfl emptyLanding_holds_strayLanding] at hexec
  have hparked := congrArg (fun t : State => t.me.queue.map (·.parked)) (Host.Outcome.next.inj hexec)
  exact absurd hparked (by decide)

end Sys2Proof.Machine
end

section
/-! SUPPORT. Counterexamples to the statements on vector memory, lane tables and permutations (R115 to R128): the landing named in a
field that an instruction does not read, a load of more containers than a register has, and a store to a line that another die holds
modified. -/

namespace Sys2Proof.Machine

/-! ### The landing in a field that is not read (R193)

`emptyLanding` and `strayLanding` are those of the compares and moves: the model reads "this member reads the landing" off all three
source fields, used or not, so that the entry waits. -/

section
variable {s : State} {e : Entry} {o : VOp}

/-- A slide up that must wait changes nothing. -/
theorem exec_vslup_of_holdsSpec (hentry : s.entry? = some e) (hruns : e.runs = true) (hheld : s.holdsSpec o = true) :
    exec (.vslup o) s = .next s := by
  show execVslup o s = _
  rw [execVslup, State.permute, member_of_runs hentry hruns, if_pos hheld]

/-- A store to the lane tables that must wait changes nothing. -/
theorem exec_vstt_of_holdsSpec (hentry : s.entry? = some e) (hruns : e.runs = true) (hheld : s.holdsSpec o = true) :
    exec (.vstt o) s = .next s := by
  show execVstt o s = _
  rw [execVstt, member_of_runs hentry hruns, if_pos hheld]

end

/-- By the terms of `Ready`, nothing holds an instruction that reads `v0` back on its account. -/
theorem emptyLanding_ready_v0 : emptyLanding.Ready idleEntry strayLanding [0] :=
  ⟨by decide, by decide, by decide, by decide, by decide, by decide, by decide⟩

/-- A slide and a lane-table store with the landing in `vs3` fail the check of their operand fields (R95, R115). -/
theorem strayLanding_not_legal_vslup_vstt :
    ∀ i ∈ ([.vslup strayLanding, .vstt strayLanding] : List Instr), i.memberLegal = false := by decide

/-- Refutes O44: `vslup` of `v0` with the landing named in the field `vs3` that it does not read waits for the landing; the statement
has it complete. -/
theorem not_permutations : ¬ Obligations.Permutations := by
  unfold Obligations.Permutations
  intro h
  obtain ⟨-, hdone⟩ := h strayLanding idleEntry emptyLanding emptyLanding _ (emptyLanding_ready [] (.inl rfl))
  obtain ⟨htable, -⟩ := hdone (by decide) (.register (by decide))
  obtain ⟨t, hexec, hrest, -⟩ := htable _ (List.mem_cons_self ..)
  rw [exec_vslup_of_holdsSpec emptyLanding_entry rfl emptyLanding_holds_strayLanding] at hexec
  obtain rfl := Host.Outcome.next.inj hexec
  exact emptyLanding_ne_completed [] _ rfl hrest

/-- Refutes O43: `vstt` of `v0` with the landing named in the field `vs3` that it does not read waits for the landing; the statement
has it complete. -/
theorem not_laneTables : ¬ Obligations.LaneTables := by
  unfold Obligations.LaneTables
  intro h
  obtain ⟨-, hstore, -⟩ := h strayLanding idleEntry emptyLanding
  obtain ⟨t, hexec, hrest, -⟩ := hstore emptyLanding_ready_v0 (by decide) (by decide)
  rw [exec_vstt_of_holdsSpec emptyLanding_entry rfl emptyLanding_holds_strayLanding] at hexec
  obtain rfl := Host.Outcome.next.inj hexec
  exact emptyLanding_ne_completed [0] _ rfl hrest

/-! ### A load of more containers than a register has

The loop of a memory form has fuel for 130 moves, each of which ends at or before the next boundary between element groups: enough for
the 128 containers that `vl` counts at most (R10), not for the 2,081 of a state that the statement on loads does not exclude. -/

section
variable {s u : State} {f : MemForm} {ent : Entry}

/-- A move of an entry that has no container left to access: it does what is left of its inactive containers up to the end of the move,
and goes on there or completes. -/
theorem move_succ_of_no_conts (hentry : s.entry? = some ent) (hplan : s.memPlan f ent = { st := s, pins := ent.pins, conts := [] })
    (hpins : s.modEntry (fun x => { x with pins := ent.pins }) = s) (hspec : s.me.spec = false) (hstop : s.me.stopping = false)
    (hmoved : s.moveConts f [] = .done u) (fuel : Nat) :
    s.move f (fuel + 1) =
      let b := f.unitEnd s.me ent.start s.me.vl
      let t := (u.inactives f ent.start b).waitAt b
      if b < s.me.vl then (if t.byGroup && b % 16 = 0 then t else t.move f fuel) else (t.release (.vector s.cur)).complete := by
  have hneeded : s.needed (pkgOf s.cur) f.kind [] = [] := rfl
  have hfault (t : Option Txn) : s.firstFault (pkgOf s.cur) t f.kind [] = none := rfl
  have hnone : ((none : Option (Nat × ContFault)) <|> none) = none := rfl
  rw [State.move, hentry]
  simp only [hplan, hpins, hspec, hstop, hneeded, hfault, hnone, hmoved, List.flatMap_nil, List.filterMap_nil, List.filter_nil,
    Bool.false_and, Bool.or_false, Bool.false_eq_true, if_false, State.acquire, List.isEmpty_nil, if_true, Option.filter_none,
    Option.map_none, Option.getD_none]

/-- A load with an even stride, a `vl` above 0 and an unpoisoned base begins its first move. -/
theorem memory_of_load (hentry : s.entry? = some ent) (hruns : ent.runs = true) (hodd : oddStride f.o f.form = false)
    (hload : f.load = true) (hvl : s.me.vl ≠ 0) (hx : ent.x.poison = false) : s.memory f = .next (s.move f 130) := by
  simp only [State.memory, member_of_runs hentry hruns, hodd, hload, hvl, hx, Bool.not_true, Bool.false_and, Bool.false_eq_true, if_false]

end

/-- A unit-stride load of `v0` under `m0`. -/
def maskedLoad : VOp := { strayLanding with vs3 := 0, mask := 0 }

/-- It as a memory form. -/
def maskedForm : MemForm := { o := maskedLoad, form := .unit, load := true }

/-- The machine with one hart, whose entry has come to container `n` of 2,081 and whose `m0` selects none of them. -/
def longStrip (n : Nat) : State :=
  { State.reset with harts := [(0, { Hart.empty with live := true, vl := 2081, queue := [{ idleEntry with start := n }] })] }

theorem not_active_longStrip (n c : Nat) : (longStrip n).me.active maskedLoad c = false := by
  have hmask : ((longStrip n).me.getM 0).getLsbD c = false := BitVec.getLsbD_zero
  show (decide _ && ((longStrip n).me.getM 0).getLsbD c) = false
  rw [hmask, Bool.and_false]

/-- No container of a range is active. -/
theorem filter_active_longStrip (n : Nat) (cs : List Nat) : cs.filter ((longStrip n).me.active maskedLoad) = [] :=
  List.filter_eq_nil_iff.mpr fun c _ => by simp only [not_active_longStrip, Bool.false_eq_true, not_false_eq_true]

/-- With no active container there is nothing to translate. -/
theorem memPlan_longStrip (n : Nat) :
    (longStrip n).memPlan maskedForm { idleEntry with start := n } = { st := longStrip n, pins := [], conts := [] } := by
  show (longStrip n).plan _ _ _ _ _ _ ((containers n 2081).filter ((longStrip n).me.active maskedLoad)) = _
  rw [filter_active_longStrip]
  rfl

/-- Inactive containers stay without `z`. -/
theorem inactives_longStrip (n a b : Nat) : (longStrip n).inactives maskedForm a b = longStrip n := by
  have hkeep (t : State) (c : Nat) : (if t.me.active maskedLoad c then t else t.inactive maskedLoad c) = t := ite_self _
  show (containers a b).foldl _ _ = _
  induction containers a b with
  | nil => rfl
  | cons c cs ih => rw [List.foldl_cons, show maskedForm.o = maskedLoad from rfl, hkeep]; exact ih

/-- One move takes the entry to the next boundary between element groups, and no further. -/
theorem move_longStrip_succ (n fuel : Nat) (hn : n / 16 * 16 + 16 < 2081) :
    (longStrip n).move maskedForm (fuel + 1) = (longStrip (n / 16 * 16 + 16)).move maskedForm fuel := by
  have hend : maskedForm.unitEnd (longStrip n).me n (longStrip n).me.vl = n / 16 * 16 + 16 := Nat.min_eq_right (Nat.le_of_lt hn)
  rw [move_succ_of_no_conts (u := longStrip n) rfl (memPlan_longStrip n) rfl rfl rfl rfl]
  simp only [hend, inactives_longStrip]
  exact if_pos hn

/-- The load is not done when its fuel is spent. -/
theorem move_longStrip (fuel n : Nat) (hgroup : n % 16 = 0) (hn : n + 16 * fuel < 2081) :
    (longStrip n).move maskedForm fuel = longStrip (n + 16 * fuel) := by
  induction fuel generalizing n with
  | zero => rfl
  | succ fuel ih =>
    rw [move_longStrip_succ n fuel (by omega), show n / 16 * 16 + 16 = n + 16 by omega, ih (n + 16) (by omega) (by omega)]
    congr 1
    omega

theorem exec_vld_longStrip : exec (.vld maskedLoad) (longStrip 0) = .next (longStrip 2080) := by
  show (longStrip 0).memory maskedForm = _
  rw [memory_of_load (ent := idleEntry) rfl rfl rfl rfl (by decide) rfl, move_longStrip 130 0 rfl (by decide)]

/-- The hypotheses of the statement on loads hold of it: nothing holds it back, and it has no element to reach. -/
theorem longStrip_ready : (longStrip 0).Ready idleEntry maskedLoad [] where
  entry := rfl
  runs := rfl
  whole := rfl
  calm := fun _ => ⟨rfl, rfl⟩
  given := fun _ hr => absurd hr (List.not_mem_nil)
  one := by decide
  turn := fun h49 => absurd h49 (List.not_mem_nil)

theorem longStrip_spread : (longStrip 0).Spread idleEntry maskedForm (fun _ _ => []) := by
  have hplan : (longStrip 0).memPlan maskedForm idleEntry = { st := longStrip 0, pins := [], conts := [] } := memPlan_longStrip 0
  exact {
    index := fun _ _ => rfl
    places := ⟨fun _ => .home, fun _ => Holder.noConfusion, fun _ hx => absurd (hplan ▸ hx) (List.not_mem_nil)⟩
    calm := by rw [hplan]; exact ⟨rfl, fun _ => ⟨_, rfl⟩⟩
    idle := fun _ _ _ _ hl => absurd hl (List.not_mem_nil)
    sound := fun _ _ _ _ hl => absurd hl (List.not_mem_nil)
    alone := ⟨fun _ => rfl, rfl⟩
    fresh := ⟨rfl, rfl⟩ }

/-- Refutes O41: with 2,081 containers, of which the mask selects none, a unit-stride load comes to container 2,080 and stays in the
queue; the statement has it complete. -/
theorem not_vectorLoads : ¬ Obligations.VectorLoads := by
  unfold Obligations.VectorLoads
  intro h
  obtain ⟨-, hdone⟩ := h maskedLoad idleEntry (longStrip 0) (fun _ _ => []) _ (List.mem_cons_self ..) longStrip_ready ⟨rfl, rfl⟩ (by decide)
  obtain ⟨t, hexec, -, hsame, -⟩ := hdone (by decide) rfl longStrip_spread (fun hform => by cases hform)
  obtain rfl := Host.Outcome.next.inj (exec_vld_longStrip.symm.trans hexec)
  have hqueue := congrArg (List.map fun k => k.2.queue.length) hsame.me
  exact absurd hqueue (by decide)

/-! ### A store to a line that another die holds modified

A write takes its line from the caches of the other dies, which write back every sector of it that they hold modified (R307). What is
written back overwrites an error that nobody has found in such a sector (R272), so that the package's list of bad sectors is not as
before: `Spread` excludes errors in the sectors of the elements alone. -/

/-- A unit-stride store of `v0`, unmasked. -/
def plainStore : VOp := { strayLanding with vs3 := 0 }

/-- It is an instruction of the table of R115. -/
theorem plainStore_legal : (Instr.vst plainStore).memberLegal = true := by decide

/-- The machine with one hart, whose entry moves one container at address 0, which the aperture of its context maps to device memory;
die 1 holds sector 1 of that line modified, and the memory beneath it has an error. -/
def modifiedAbroad : State :=
  { emptyLanding with
    pkgs := [(0, { Pkg.initial with state := 1, badSectors := [1] })]
    dies := [(0, { Die.initial with resident := [some wordContext] }),
      (1, { Die.initial with lines := [(0, { LineTokens.home with valid := 2, dirty := 2 })] })] }

/-- The sectors with an error that an outcome leaves in package 0. -/
def Out.badSectors : Out → Option (List Nat)
  | .next t => some (t.pkg 0).badSectors
  | _ => none

set_option maxRecDepth 20000 in
/-- The store leaves no bad sector. -/
theorem badSectors_exec_vst_modifiedAbroad : Out.badSectors (exec (.vst plainStore) modifiedAbroad) = some [] := by decide

theorem modifiedAbroad_ready : modifiedAbroad.Ready idleEntry plainStore [0] :=
  ⟨by decide, by decide, by decide, by decide, by decide, by decide, by decide⟩

/-- The one container of the store, at the first 8 bytes of device memory. -/
def firstContainer : ContAt :=
  { cont := 0, badIndex := false, badData := false,
    elems := [{ elem := { addr := 0, bytes := 8, nib := none }, bytes := (List.range 8).map fun l => (l, .ok (Place.at l .home)) }] }

theorem conts_memPlan_modifiedAbroad :
    (modifiedAbroad.memPlan { o := plainStore, form := .unit, load := false } idleEntry).conts = [firstContainer] := rfl

set_option maxRecDepth 20000 in
theorem modifiedAbroad_spread :
    modifiedAbroad.Spread idleEntry { o := plainStore, form := .unit, load := false } (fun _ _ => List.range 8) where
  index := fun _ _ => rfl
  places := by
    refine ⟨fun _ => .home, fun _ => Holder.noConfusion, ?_⟩
    rw [conts_memPlan_modifiedAbroad]
    intro x hx i y hy
    obtain rfl := List.mem_singleton.mp hx
    obtain ⟨hi, rfl⟩ := List.getElem?_eq_some_iff.mp hy
    obtain rfl : i = 0 := Nat.lt_one_iff.mp hi
    exact ⟨rfl, rfl⟩
  calm := ⟨rfl, fun _ => ⟨_, rfl⟩⟩
  idle := fun _ _ _ => by decide
  sound := fun _ _ _ => by decide
  alone := ⟨fun _ => rfl, rfl⟩
  fresh := ⟨rfl, rfl⟩

/-- Refutes O42: the store writes bytes 0 to 7, die 1 writes sector 1 of the line back, and the error of that sector is gone from the
package; the statement has every package as before. -/
theorem not_vectorStores : ¬ Obligations.VectorStores := by
  unfold Obligations.VectorStores
  intro h
  obtain ⟨-, hdone⟩ := h plainStore idleEntry modifiedAbroad (fun _ _ => List.range 8) _ (List.mem_cons_self ..) modifiedAbroad_ready
    ⟨by decide, rfl⟩ (by decide)
  obtain ⟨t, hexec, hsame, -⟩ := hdone (by decide) rfl modifiedAbroad_spread
  have hpkgs : t.pkgs = modifiedAbroad.pkgs := hsame.pkgs
  have hgone : Out.badSectors (.next t) = some [] := hexec ▸ badSectors_exec_vst_modifiedAbroad
  have hkept : Out.badSectors (.next t) = some [1] := congrArg (fun p => some (tget Pkg.initial p 0).badSectors) hpkgs
  exact absurd (hgone.symm.trans hkept) (by decide)

end Sys2Proof.Machine
end

section
/-! SUPPORT. How a checked convoy enters the vector queue (R155, R156) and how the first convoy of a queue starts (R157). -/

namespace Sys2Proof.Machine

/-! ### The entries of a convoy (R156) -/

section
variable (h : Hart) (seq : Nat) (p : PendingConvoy)

theorem length_entriesOf : (entriesOf h seq p).length = p.words.length := by
  rw [entriesOf, List.length_map, List.length_zipIdx]

/-- The entries hold the words of the members, in order. -/
theorem insn_entriesOf : (entriesOf h seq p).map (·.insn) = p.words := by
  rw [entriesOf, List.map_map]
  exact List.zipIdx_map_fst 0 p.words

/-- The entries have the slots 1 to n, in order. -/
theorem slot_entriesOf : (entriesOf h seq p).map (·.slot) = (List.range p.words.length).map (· + 1) := by
  rw [List.range_eq_range', ← List.zipIdx_map_snd, entriesOf, List.map_map, List.map_map]
  rfl

/-- An entry enters unstarted, from container 0 on, with its convoy's `DB`. -/
theorem fresh_of_mem_entriesOf : ∀ e ∈ entriesOf h seq p, e.start = 0 ∧ e.frozen = false ∧ e.started = false ∧ e.db = p.db :=
  List.forall_mem_map.2 fun _ _ => ⟨rfl, rfl, rfl, rfl⟩
end

/-! ### Commit (R155) -/

/-- The state in which a hart's convoy has entered the vector queue of its core. -/
def State.convoyEntered (s : State) (k : Nat) (p : PendingConvoy) : State :=
  (s.modCore (coreOf k) (fun c => { c with
    commitSeq := (s.core (coreOf k)).commitSeq + p.words.length, queueWait := sdel k c.queueWait })).modHart k
  (fun h => { h with
    queue := h.queue ++ entriesOf h (s.core (coreOf k)).commitSeq p, pendConvoy := none,
    pc := h.pc + 4 + BitVec.ofNat 64 (8 * p.words.length) })

theorem hart_convoyEntered_same (s : State) (k : Nat) (p : PendingConvoy) :
    (s.convoyEntered k p).hart k = { s.hart k with
      queue := (s.hart k).queue ++ entriesOf (s.hart k) (s.core (coreOf k)).commitSeq p, pendConvoy := none,
      pc := (s.hart k).pc + 4 + BitVec.ofNat 64 (8 * p.words.length) } :=
  hart_setHart_same _ _ _

theorem hart_convoyEntered_ne (s : State) {k j : Nat} (p : PendingConvoy) (hj : j ≠ k) : (s.convoyEntered k p).hart j = s.hart j :=
  hart_setHart_ne _ _ _ _ hj

section
variable {s : State} {k : Nat} (hlive : (s.hart k).live = true) (hstopped : (s.hart k).stopped = false)
include hlive hstopped

/-- A waiting convoy commits when its hart and its core have room and no older waiter comes first. -/
theorem exec_convoyCommit_of_room {p : PendingConvoy} (hring : ringExists (ringOf k) = true)
    (hp : (s.hart k).pendConvoy = some p) (hdepth : (s.hart k).queue.length + p.words.length ≤ (s.hart k).depth)
    (hroom : s.queueUse (coreOf k) + p.words.length ≤ 32) (hfirst : s.olderWaits k = false) :
    exec (.convoyCommit k) s = .next (s.convoyEntered k p) := by
  have hfitsHart : s.fitsHart k = true := by simpa only [State.fitsHart, hp, decide_eq_true_eq] using hdepth
  have hfitsCore : s.fitsCore k = true := by simpa only [State.fitsCore, hp, decide_eq_true_eq] using hroom
  show execConvoyCommit k s = _
  simp only [execConvoyCommit, hring, hp, hlive, hstopped, hfitsHart, hfitsCore, hfirst, Bool.not_true, Bool.or_false,
    Bool.false_eq_true, if_false]
  rfl

/-! ### Start (R157) -/

/-- An unstarted convoy at the head of the queue is ready but for its units. -/
theorem readyConvoy_of_headConvoy {e : Entry} {r : List Entry} (hhead : (s.hart k).headConvoy = e :: r) (hnew : e.started = false) :
    s.readyConvoy k = some (e, (e :: r).map (·.unit)) := by
  simp only [State.readyConvoy, hhead, hnew, hlive, hstopped, Bool.not_true, Bool.or_false, Bool.false_eq_true, if_false]

end

/-- A unit that no other hart works with and no older convoy has reserved is free. -/
theorem unitTaken_eq_false_iff (s : State) (core k id u : Nat) :
    s.unitTaken core k id u = false ↔ s.unitBusy core k u = false ∧ ∀ q ∈ (s.core core).reserved, q.1 = u → id ≤ q.2 := by
  simp only [State.unitTaken, Bool.or_eq_false_iff, List.any_eq_false, Bool.and_eq_true, decide_eq_true_eq, not_and, Nat.not_lt]

/-- The state in which the first convoy of a hart's queue, whose first entry is `e`, has started. -/
def State.convoyStarted (s : State) (k : Nat) (e : Entry) : State :=
  (s.modCore (coreOf k) (fun c => { c with reserved := c.reserved.filter (fun q => q.2 != e.id) })).modHart k
  (fun h => { h with
    queue := h.queue.map (fun x => if ((s.hart k).headConvoy.map (·.id)).contains x.id then { x with started := true } else x) })

theorem hart_convoyStarted_same {s : State} {k : Nat} (e : Entry) {c : List Entry} (hhead : (s.hart k).headConvoy = c) :
    (s.convoyStarted k e).hart k = { s.hart k with
      queue := (s.hart k).queue.map (fun x => if x.id ∈ c.map (·.id) then { x with started := true } else x) } := by
  subst hhead
  simp only [State.convoyStarted, hart_setHart_same, List.contains_eq_mem, decide_eq_true_eq]

theorem hart_convoyStarted_ne (s : State) {k j : Nat} (e : Entry) (hj : j ≠ k) : (s.convoyStarted k e).hart j = s.hart j :=
  hart_setHart_ne _ _ _ _ hj

/-- A ready convoy starts when every unit that it names is free. -/
theorem exec_convoyStart_of_free {s : State} {k : Nat} {e : Entry} {units : List Nat} (hring : ringExists (ringOf k) = true)
    (hready : s.readyConvoy k = some (e, units)) (hfree : ∀ u ∈ units, s.unitTaken (coreOf k) k e.id u = false) :
    exec (.convoyStart k) s = .next (s.convoyStarted k e) := by
  have hnone : units.any (s.unitTaken (coreOf k) k e.id) = false :=
    List.any_eq_false.2 fun u hu => Bool.eq_false_iff.1 (hfree u hu)
  show execConvoyStart k s = _
  simp only [execConvoyStart, hring, hready, hnone, Bool.not_true, Bool.false_eq_true, if_false]
  rfl

/-- Settles O34: the state of a commit and the state of a start, read off hart by hart. -/
theorem convoyEntersAndStarts : Obligations.ConvoyEntersAndStarts := by
  unfold Obligations.ConvoyEntersAndStarts
  intro k s hring hlive hstopped
  refine ⟨?_, ?_⟩
  · intro p hp hdepth hroom hfirst
    exact ⟨s.convoyEntered k p, entriesOf (s.hart k) (s.core (coreOf k)).commitSeq p,
      exec_convoyCommit_of_room hlive hstopped hring hp hdepth hroom hfirst, length_entriesOf _ _ _, insn_entriesOf _ _ _,
      slot_entriesOf _ _ _, fresh_of_mem_entriesOf _ _ _, hart_convoyEntered_same _ _ _,
      fun _ hj => hart_convoyEntered_ne _ _ hj, rfl⟩
  · intro e r hhead hnew hunits
    have hready := readyConvoy_of_headConvoy hlive hstopped hhead hnew
    have hfree : ∀ u ∈ (e :: r).map (·.unit), s.unitTaken (coreOf k) k e.id u = false :=
      List.forall_mem_map.2 fun x hx => (unitTaken_eq_false_iff _ _ _ _ _).2 (hunits x hx)
    exact ⟨s.convoyStarted k e, exec_convoyStart_of_free hring hready hfree, hart_convoyStarted_same e hhead,
      fun _ hj => hart_convoyStarted_ne _ _ hj, rfl⟩

end Sys2Proof.Machine
end
